-- ==== Sys2Proof/Word.lean ====
section
/-! DEFINITION. The word types of the Zhesar ZH-8: the 32-bit instruction and register word, bytes, 64-bit
virtual addresses and program counters, and 32-bit logical stamps (R7, R12, R43, R66). -/

namespace Sys2Proof

/-- A byte of memory or of a message (R7). -/
abbrev Byte := BitVec 8

/-- A 32-bit word: one lane or uniform register, or one word of an instruction (R43, R66). -/
abbrev Word := BitVec 32

/-- A 64-bit value: a program counter, a virtual address or a register pair (R7, R66). -/
abbrev Addr := BitVec 64

/-- A logical stamp, compared by serial-number arithmetic modulo 2^32 (R12, R291). -/
abbrev Stamp := BitVec 32

end Sys2Proof
end

