-- ==== Sys2Proof/Config.lean ====
section
/-! DEFINITION. What one Zhesar ZH-8 fixes and what its spec leaves open. The constants carry their rules; the opaque
constants are the free values of the model: nothing can be proved of what they answer (notes/assumptions/2.md). -/

namespace Sys2Proof.Config

/-- Cores, dies, cores a die, mesh columns (R3, R69). -/
def cores : Nat := 480
def dies : Nat := 4
def coresPerDie : Nat := 120
def meshCols : Nat := 12
def meshRows : Nat := 10

/-- Slices a die, ways and sets a slice (R288). -/
def slicesPerDie : Nat := 160
def waysPerSlice : Nat := 20
def setsPerSlice : Nat := 1310

/-- Virtual devices and contexts of each (R3). -/
def vdevs : Nat := 16
def ctxs : Nat := 16

/-- Cycles of %cyc in a microsecond: 2.7 GHz (R69). -/
def cyclesPerUs : Nat := 2700

/-- The firmware window and its two handler entries (R58). -/
def fwBase : Nat := 0x001FFFFF00000000
def fwLast : Nat := 0x001FFFFFFFFFFFFF
def fwSupervisor : Nat := 0x001FFFFF00000000
def fwTeam : Nat := 0x001FFFFF00000800

/-- The physical map (R386): the end of HBM, the remote windows, the counter pages. -/
def hbmEnd : Nat := 0x10000000000
def remoteBase : Nat := 0x100000000000
def remoteEnd : Nat := 0x200000000000
def counterBase : Nat := 0x3F0000000000
def counterSize : Nat := 65536

/-- The undo log's capacity for one team (R256). -/
def undoLogBytes : Nat := 1048576

/-- The barrier watchdog (R160) and the life of a reservation (R300), in cycles. -/
def watchdogCycles : Nat := 1048576
def reservationCycles : Nat := 65536

/-- Free values (R158, R315, R316, R34): applied to the state's draw counter. -/
opaque freeWord : Nat → Word
opaque freeByte : Nat → Byte
opaque freeBit : Nat → Bool

/-- The free choice among turns and among the orders the spec leaves open (R153, R200, R229). -/
opaque freeChoice : Nat → Nat

/-- Which set of its slice a line occupies (R288: not visible), taken modulo 1,310. -/
opaque setOf : Nat → Nat

/-- The rounding of a special function where the model's own evaluation does not decide it, by function code and source
bits (R238). -/
opaque sfqUndecided : Nat → Word → Word

/-- The attestation signature over a report (R401), by device key and leaf index: how the key seeds the attestation key the
spec does not say. -/
opaque attestSign : BitVec 256 → Nat → List Byte → List Byte

/-- The header of a signed object (R397), whose layout the spec does not give: type, security version, length in bytes, the
signer's public key, its authentication path; the header and body that are signed, and the signature. -/
opaque objType : List Byte → Nat
opaque objVersion : List Byte → Nat
opaque objLength : List Byte → Nat
opaque objSigner : List Byte → List Byte
opaque objPath : List Byte → List Byte
opaque objSigned : List Byte → List Byte
opaque objSignature : List Byte → List Byte

/-- The root public key that a signer's key and its authentication path lead to (R397), in a form the spec does not give; and
the digest of Taritan's root key in the mask ROM. -/
opaque pathRoot : List Byte → List Byte → List Byte
opaque rootDigest : List Byte

/-- The SRAM block that the device key comes from (R400): its contents at a power-on, whether they can be corrected with HELPER,
and what they are corrected to, the same at every power-on of one part. -/
opaque sramPowerUp : Nat → BitVec 32768
opaque correctable : BitVec 32768 → BitVec 8192 → Bool
opaque partSecret : List Byte

/-- The ports that pass where the self-test of the package fails (R395 stage 5). -/
opaque portsPassed : Nat → BitVec 8

/-- The types of the three objects that an attestation report names (R401). -/
opaque typeHenip : Nat
opaque typeDevice : Nat
opaque typeRecord : Nat

/-- The objects a part was delivered with, by type (R397). -/
opaque factoryBody : Nat → List Byte

/-- The fields of a configuration record (R399), whose layout the spec does not give: PCLASS 0, PORTS 1, ALARM 2, SLEEP 3,
NSLOT 4; and HELPER. -/
opaque recordField : List Byte → Nat → Nat
opaque recordHelper : List Byte → BitVec 8192

/-- The failure code, if any, of a bring-up that a RESET starts (R395). -/
opaque bringUpFault : Nat → Option (BitVec 8)

/-- The SOURCE, CODE and DATA of a log entry (R424), by the model's kind and argument of it. -/
opaque logSource : Nat → Nat
opaque logCode : Nat → Nat
opaque logData : Nat → Nat → Nat

/-- The bytes of an attestation report (R401), whose layout the spec does not give: NONCE, the three digests, the three
versions, %ptp, the leaf index and the alarm count. -/
opaque reportBytes : List Byte → List (List Byte) → List Nat → Nat × Nat → Nat → Nat → List Byte

/-- The links between dies that a health record counts (R404). -/
opaque dieLinks : Nat

end Sys2Proof.Config
end

