-- ==== Sys2Proof/Syntax.lean ====
section
/-! DEFINITION. The instructions and events of the Zhesar ZH-8 as syntax: one constructor of `Instr` for each row of
spec/opcode_table.json. The first part of the table holds the instructions that are encoded in words (R42 to R65);
the rest are the device's own events, the outside events and the commands of the command endpoint. -/

namespace Sys2Proof

/-- The format codes of the TY field (R46); code 15 is reserved and has no constructor. -/
inductive Ty where
  | s32 | n32 | s64 | n64 | f32 | f64 | f16 | bf16 | t8 | t6 | s8 | n8 | s16 | n16 | b128
deriving DecidableEq, Repr

/-- The constant operand codes 192 to 196 (R49). -/
inductive Konst where
  | zero | one | minusOne | half | two
deriving DecidableEq, Repr

/-- A source operand named by an 8-bit operand code (R48): a lane register, a uniform register of the thread's
group, a constant code, or the immediate word. -/
inductive Src where
  | lane (r : BitVec 7)
  | uni (r : BitVec 6)
  | konst (k : Konst)
  | imm (w : Word)
deriving DecidableEq, Repr

/-- A predicate register p0 to p11 (R47). -/
abbrev Pred := Fin 12

/-- An input of PLOP, VOTE or BALLOT: a predicate, or the constants 0 and 1 (codes 192 and 193; R107, R171). -/
inductive PIn where
  | pred (p : Pred)
  | zero
  | one
deriving DecidableEq, Repr

/-- The guard of an instruction (R44, R53): unguarded (G = 15), or a predicate with its sense N. -/
inductive Guard where
  | always
  | pred (p : Pred) (neg : Bool)
deriving DecidableEq, Repr

/-- The SATC field of the modifier word (R52, R88). -/
inductive Satc where
  | none | sat | clamp01 | clamp11
deriving DecidableEq, Repr

/-- The RM field of the modifier word (R77). -/
inductive Rm where
  | dflt | rz | rup | rdn
deriving DecidableEq, Repr

/-- The modifier word (R52). SCALE is a signed 6-bit exponent (R87). -/
structure Modifier where
  satc : Satc
  scale : BitVec 6
  na : Bool
  aa : Bool
  nb : Bool
  ab : Bool
  nc : Bool
  ac : Bool
  rm : Rm
deriving DecidableEq, Repr

/-- What every encoded instruction carries besides its operands (R44): the guard, the switch marker K, whether the
field word is absent (W = 0), and the modifier word where M = 1. -/
structure Head where
  guard : Guard
  k : Bool
  bare : Bool
  mod : Option Modifier
deriving DecidableEq, Repr

/-- The reading of LEA's and ULEA's B operand (R102). -/
inductive LeaExt where
  | plain | sx | zx
deriving DecidableEq, Repr

/-- The integer compare conditions (R103). -/
inductive ICond where
  | eq | ne | lt | le | gt | ge
deriving DecidableEq, Repr

/-- The floating-point compare conditions (R118). -/
inductive FCond where
  | eq | ne | lt | le | gt | ge | un | ord
deriving DecidableEq, Repr

/-- The address spaces (R128). -/
inductive Space where
  | g | l | c | k
deriving DecidableEq, Repr

/-- The cache hints (R130). -/
inductive Hint where
  | normal | nl1 | lu
deriving DecidableEq, Repr

/-- The operations of ATOM (R136). -/
inductive AtomOp where
  | add | min | max | and | or | xor | exch | cas | fadd | fmin | fmax | inc | dec
deriving DecidableEq, Repr

/-- The special-function queue's functions (R238). -/
inductive SfqFn where
  | rcp | sqrt | rsqrt | exp2 | log2 | exp | log | sinpi | cospi | tanh | sigm | gelu
deriving DecidableEq, Repr

/-- The source-lane modes of SHFL (R178). -/
inductive ShflMode where
  | lane | step | mix | rot
deriving DecidableEq, Repr

/-- The tests of VOTE (R179). -/
inductive VoteFn where
  | atleast | fewer | same | odd
deriving DecidableEq, Repr

/-- The operations of REDUX and SCAN (R182). -/
inductive RedOp where
  | add | min | max | and | or | xor | fadd | fmin | fmax | mini | maxi | fmini | fmaxi
deriving DecidableEq, Repr

/-- The engine classes (R223). -/
inductive EClass where
  | ferry | matrix | net
deriving DecidableEq, Repr

/-- The special registers, codes 0 to 12 (R69). -/
inductive SReg where
  | lane | group | team | task | core | clus | rank | vdev | ctx | hyp | cyc | ptp | work
deriving DecidableEq, Repr

/-- The control and status registers (R251). -/
inductive Csr where
  | tsw | tpc | tca | tva | tvb | fflags | rngk | rngc | fair | lease | ckint | dbg | hypcap | sbase
deriving DecidableEq, Repr

/-- The trap causes (R247). -/
inductive Cause where
  | illOp | illForm | priv | align | xlate | perm | fetch | scratchBounds | hazard | promiseMissed
  | collectiveStall | barrierWatchdog | orphan | hypCapacity | tretOutside | badStatus | trap | regRange
  | uncorrectable | engineFault | modOrder | collectiveDivergence
deriving DecidableEq, Repr

/-- Who sends a command (R419, R422): a master at the command endpoint, or the management connection. -/
inductive Sender where
  | master (id : Nat)
  | mgmt
deriving DecidableEq, Repr

/-- The kinds of translation (R389). `read` is the read of an LD or ULD; `readOther` every other read. -/
inductive XKind where
  | read | readOther | write | readwrite | fetch | remoteRead | remoteWrite
deriving DecidableEq, Repr

/-- A cache or translation structure, for the retention and tag-parity events (R305, R306). -/
inductive CacheId where
  | l1 (core : Nat)
  | slice (die : Nat) (slice : Nat)
  | icache (core : Nat)
  | l1tlb (core : Nat)
  | dieTlb (die : Nat)
deriving DecidableEq, Repr

/-- The item an uncorrectable error strikes (R246 UNIT, R263). -/
inductive ErrSite where
  | regRow (team : Nat) (group : Nat) (row : Nat)
  | scratchRow (team : Nat) (row : Nat)
  | accRow (team : Nat) (acc : Nat) (row : Nat)
  | l1Line (core : Nat) (line : Nat)
  | memLine (line : Nat)
  | icacheLine (core : Nat) (line : Nat)
  | undoLog (team : Nat) (offset : Nat)
deriving DecidableEq, Repr

/-- The need for which the dispatcher removes a team (R264, R265). -/
inductive PreNeed where
  | sliceEnd
  | reclaim
  | other
deriving DecidableEq, Repr

/-- The sources of a security alarm (R402). -/
inductive AlarmSource where
  | seal | glitch | debugToken
deriving DecidableEq, Repr

/-- The instructions and events, one constructor per row of spec/opcode_table.json, in the table's order.
`h` is the head (R44), `d` the destination, `a`, `b`, `c` the sources; `ty` is TY. Lane destinations are `BitVec 7`,
uniform destinations `BitVec 6`, predicate destinations `Pred`. -/
inductive Instr where
  -- Integer, logic and predicate instructions (R89 to R110)
  | iadd (h : Head) (ty : Ty) (d : BitVec 7) (a b : Src)
  | isub (h : Head) (ty : Ty) (d : BitVec 7) (a b : Src)
  | imul (h : Head) (ty : Ty) (d : BitVec 7) (a b : Src)
  | imulh (h : Head) (ty : Ty) (d : BitVec 7) (a b : Src)
  | imad (h : Head) (ty : Ty) (d : BitVec 7) (a b c : Src)
  | idiv (h : Head) (ty : Ty) (d : BitVec 7) (a b : Src)
  | irem (h : Head) (ty : Ty) (d : BitVec 7) (a b : Src)
  | imin (h : Head) (ty : Ty) (d : BitVec 7) (a b : Src)
  | imax (h : Head) (ty : Ty) (d : BitVec 7) (a b : Src)
  | and (h : Head) (ty : Ty) (d : BitVec 7) (a b : Src)
  | or (h : Head) (ty : Ty) (d : BitVec 7) (a b : Src)
  | xor (h : Head) (ty : Ty) (d : BitVec 7) (a b : Src)
  | andn (h : Head) (ty : Ty) (d : BitVec 7) (a b : Src)
  | not (h : Head) (ty : Ty) (d : BitVec 7) (a : Src)
  | shl (h : Head) (ty : Ty) (d : BitVec 7) (a b : Src)
  | shr (h : Head) (ty : Ty) (d : BitVec 7) (a b : Src)
  | sar (h : Head) (ty : Ty) (d : BitVec 7) (a b : Src)
  | rotl (h : Head) (ty : Ty) (d : BitVec 7) (a b : Src)
  | popc (h : Head) (ty : Ty) (d : BitVec 7) (a : Src)
  | clz (h : Head) (ty : Ty) (d : BitVec 7) (a : Src)
  | brev (h : Head) (ty : Ty) (d : BitVec 7) (a : Src)
  | bfx (h : Head) (ty : Ty) (d : BitVec 7) (a b : Src)
  | bfi (h : Head) (ty : Ty) (d : BitVec 7) (a b c : Src)
  | perm (h : Head) (d : BitVec 7) (a b c : Src)
  | lea (h : Head) (ext : LeaExt) (ty : Ty) (d : BitVec 7) (a b : Src) (sh : BitVec 6)
  | icmp (h : Head) (cond : ICond) (ty : Ty) (d : Pred) (a b : Src)
  | idp4 (h : Head) (sa sb : Bool) (ty : Ty) (d : BitVec 7) (a b c : Src)
  -- Floating-point, conversion and random-number instructions (R111 to R127)
  | fadd (h : Head) (ty : Ty) (d : BitVec 7) (a b : Src)
  | fsub (h : Head) (ty : Ty) (d : BitVec 7) (a b : Src)
  | fmul (h : Head) (ty : Ty) (d : BitVec 7) (a b : Src)
  | ffma (h : Head) (ty : Ty) (d : BitVec 7) (a b c : Src)
  | fmin (h : Head) (nan : Bool) (ty : Ty) (d : BitVec 7) (a b : Src)
  | fmax (h : Head) (nan : Bool) (ty : Ty) (d : BitVec 7) (a b : Src)
  | fcmp (h : Head) (cond : FCond) (ty : Ty) (d : Pred) (a b : Src)
  | fclass (h : Head) (ty : Ty) (d : BitVec 7) (a : Src)
  | frnd (h : Head) (away : Bool) (ty : Ty) (d : BitVec 7) (a : Src)
  | fcvt (h : Head) (ty : Ty) (sty : Ty) (d : BitVec 7) (a : Src)
  | f2i (h : Head) (ty : Ty) (sty : Ty) (d : BitVec 7) (a : Src)
  | i2f (h : Head) (ty : Ty) (sty : Ty) (d : BitVec 7) (a : Src)
  | padd (h : Head) (ty : Ty) (d : BitVec 7) (a b : Src)
  | pmul (h : Head) (ty : Ty) (d : BitVec 7) (a b : Src)
  | pfma (h : Head) (ty : Ty) (d : BitVec 7) (a b c : Src)
  | pdot2 (h : Head) (ty : Ty) (d : BitVec 7) (a b c : Src)
  | rng (h : Head) (unif : Bool) (d : BitVec 7)
  -- The special-function queue and the waits (R235 to R241)
  | sfq (h : Head) (fn : SfqFn) (tok : BitVec 4) (d : BitVec 7) (a : Src)
  | waitt (h : Head) (a : Src)
  | sleept (h : Head) (a : Src)
  | lwait (h : Head) (a b : Src)
  -- Moves, predicate logic, special registers (R105 to R110), ELECT (R185)
  | mov (h : Head) (ty : Ty) (d : BitVec 7) (a : Src)
  | sel (h : Head) (ty : Ty) (p : Pred) (d : BitVec 7) (a b : Src)
  | plop (h : Head) (lut : BitVec 8) (d : Pred) (a b c : PIn)
  | movp (h : Head) (d : BitVec 7)
  | movpSet (h : Head) (a b : Src)
  | rdsr (h : Head) (sr : SReg) (d : BitVec 7)
  | nop (h : Head)
  | elect (h : Head) (d : Pred) (a : Src)
  -- Collectives (R171 to R184); `c` is the member mask, `rp` the result predicate
  | shfl (h : Head) (mode : ShflMode) (ty : Ty) (rp : Option Pred) (d : BitVec 7) (a b c : Src)
  | vote (h : Head) (fn : VoteFn) (d : Pred) (inp : PIn) (b c : Src)
  | ballot (h : Head) (d : BitVec 7) (inp : PIn) (c : Src)
  | matchLanes (h : Head) (ty : Ty) (rp : Option Pred) (d : BitVec 7) (a c : Src)
  | redux (h : Head) (op : RedOp) (ty : Ty) (rp : Option Pred) (d : BitVec 7) (a b c : Src)
  | scan (h : Head) (op : RedOp) (excl : Bool) (ty : Ty) (rp : Option Pred) (d : BitVec 7) (a c : Src)
  | collectiveStall (team group : Nat) (address : Addr)
  -- Memory (R128 to R141)
  | ld (h : Head) (sp : Space) (hint : Hint) (ty : Ty) (d : BitVec 7) (a b : Src)
  | st (h : Head) (sp : Space) (hint : Hint) (ty : Ty) (a b c : Src)
  | atom (h : Head) (op : AtomOp) (nr : Bool) (hint : Hint) (ty : Ty) (d : BitVec 7) (a b c : Src)
  | lr (h : Head) (hint : Hint) (ty : Ty) (d : BitVec 7) (a b : Src)
  | sc (h : Head) (hint : Hint) (ty : Ty) (d : Pred) (a b c : Src)
  | fenceE (h : Head)
  | fenceN (h : Head)
  | pref (h : Head) (l2 : Bool) (a b : Src)
  -- Engines (R205 to R228, R411)
  | cpy (h : Head) (d : BitVec 7) (a : Src)
  | mma (h : Head) (a : Src)
  | mdrain (h : Head) (a : Src)
  | mzero (h : Head) (a : Src)
  | nput (h : Head) (a : Src)
  | nget (h : Head) (a : Src)
  | nsend (h : Head) (a : Src)
  | waitc (h : Head) (cls : EClass) (n : BitVec 6)
  -- Control flow (R142 to R146)
  | bra (h : Head) (off : Word)
  | brx (h : Head) (a : Src)
  | call (h : Head) (d : BitVec 7) (off : Word)
  | callX (h : Head) (d : BitVec 7) (a : Src)
  | ret (h : Head) (a : Src)
  | exit (h : Head)
  -- Barriers, switch points (R195, R198, R281)
  | bar (h : Head) (b : BitVec 4)
  | barArv (h : Head) (b : BitVec 4)
  | barrierWatchdog (cluster : Bool) (owner : Nat) (b : Nat)
  | cbar (h : Head) (b : BitVec 2)
  | cbarArv (h : Head) (b : BitVec 2)
  | swpt (h : Head) (point : BitVec 8)
  -- Tasks, hypotheses, determinism (R339 to R341, R355, R369)
  | spawn (h : Head) (d : BitVec 7) (a : Src)
  | modreg (h : Head) (lg : BitVec 6) (d : BitVec 7) (a b : Src)
  | modrel (h : Head) (a : Src)
  | prop (h : Head) (d : Pred) (a : Src)
  | hnew (h : Head) (d : BitVec 7)
  | hent (h : Head) (a : Src)
  | hresConf (h : Head) (d : Pred) (a : Src)
  | hresRef (h : Head) (d : Pred) (a : Src)
  | dph (h : Head)
  -- Traps, CSRs and system instructions (R202, R203, R249 to R261, R391)
  | trap (h : Head) (a : Src)
  | tret (h : Head)
  | csrr (h : Head) (csr : Csr) (d : BitVec 7)
  | csrw (h : Head) (csr : Csr) (a : Src)
  | ckpt (h : Head)
  | permitAcq (h : Head) (a : Src)
  | permitRel (h : Head) (a : Src)
  | permitTry (h : Head) (d : Pred) (a : Src)
  | permitGrant (core : Nat)
  | yield (h : Head) (a : Src)
  | yieldExpiry (team thread : Nat)
  | tlbiPage (h : Head) (a : Src)
  | tlbiCtx (h : Head)
  | tlbiVdev (h : Head)
  | cflush (h : Head) (a b : Src)
  -- The uniform set (R163 to R168)
  | uadd (h : Head) (ty : Ty) (d : BitVec 6) (a b : Src)
  | usub (h : Head) (ty : Ty) (d : BitVec 6) (a b : Src)
  | umul (h : Head) (ty : Ty) (d : BitVec 6) (a b : Src)
  | umulh (h : Head) (ty : Ty) (d : BitVec 6) (a b : Src)
  | umad (h : Head) (ty : Ty) (d : BitVec 6) (a b c : Src)
  | umin (h : Head) (ty : Ty) (d : BitVec 6) (a b : Src)
  | umax (h : Head) (ty : Ty) (d : BitVec 6) (a b : Src)
  | uand (h : Head) (ty : Ty) (d : BitVec 6) (a b : Src)
  | uor (h : Head) (ty : Ty) (d : BitVec 6) (a b : Src)
  | uxor (h : Head) (ty : Ty) (d : BitVec 6) (a b : Src)
  | ushl (h : Head) (ty : Ty) (d : BitVec 6) (a b : Src)
  | ushr (h : Head) (ty : Ty) (d : BitVec 6) (a b : Src)
  | usar (h : Head) (ty : Ty) (d : BitVec 6) (a b : Src)
  | ulea (h : Head) (ext : LeaExt) (ty : Ty) (d : BitVec 6) (a b : Src) (sh : BitVec 6)
  | ucmp (h : Head) (cond : ICond) (ty : Ty) (d : Pred) (a b : Src)
  | umov (h : Head) (ty : Ty) (d : BitVec 6) (a : Src)
  | urdsr (h : Head) (sr : SReg) (d : BitVec 6)
  | uld (h : Head) (sp : Space) (hint : Hint) (ty : Ty) (d : BitVec 6) (a b : Src)
  | ust (h : Head) (sp : Space) (hint : Hint) (ty : Ty) (a b c : Src)
  | ubra (h : Head) (off : Word)
  -- Events of the device
  | icacheFill (core : Nat) (ident : Nat) (line : Nat)
  | fairnessPromotion (team thread : Nat)
  | resultWriteback (team thread seq : Nat)
  | takeTrap (team thread : Nat) (cause : Cause) (va vb : Addr)
  | bCaptureComplete (op : Nat)
  | matrixOperation (core : Nat)
  | ferryTransfer (op row : Nat)
  | engineCompletionReport (op : Nat)
  | sfqResult (team group token : Nat)
  | sleepExpiry (team thread : Nat)
  | switchRequest (team target : Nat)
  | variantSwitch (team : Nat)
  | switchWithdrawal (team : Nat)
  | teamAdmission (launch task core : Nat)
  | clusterAdmission (launch : Nat)
  | teamStart (team : Nat)
  | teamCompletion (team : Nat)
  | intervalClose (team : Nat)
  | rollback (team : Nat)
  | uncorrectableError (site : ErrSite) (thread : Option Nat)
  | preemption (team : Nat) (need : PreNeed) (estimate : Nat)
  | drainTimeout (team : Nat)
  | save (team : Nat)
  | resumption (team core : Nat)
  | homeRead (core vdev ctx pa lease : Nat)
  | homeRenewal (core vdev ctx pa lease : Nat)
  | homeOwnership (core vdev ctx pa size : Nat)
  | homeWriteThrough (core vdev ctx pa : Nat) (data : List Byte)
  | homeAtomic (core vdev ctx pa : Nat) (op : AtomOp) (ty : Ty) (operand expected : BitVec 128)
  | recall (pa : Nat) (forRead : Bool)
  | merge (pa : Nat)
  | l1Eviction (core pa : Nat)
  | ptsAdvance
  | reservationExpiry (team thread : Nat)
  | sweep (die : Nat)
  | retentionSleep (cache : CacheId)
  | retentionWake (cache : CacheId)
  | tagParityError (cache : CacheId) (entry : Nat)
  | translationWalk (core vdev ctx : Nat) (va : Addr) (kind : XKind) (supervisor : Bool)
  | quantumExpiry (team : Nat)
  | serialPhase (launch : Nat)
  | propagateWalk (manifest : Nat)
  | reexecutionCompletion (team : Nat)
  | bucketRefill
  | wayReclaim (die slice way : Nat)
  | coreRangeReclaim (vdev core : Nat)
  | reclaimTimeout (team : Nat)
  | functionLevelReset (vdev : Nat)
  | powerOn (failure : Option (BitVec 8))
  | powerDown
  | healthUpdate
  | securityAlarm (source : AlarmSource)
  | droopEvent (die : Nat)
  | throttling (die : Nat)
  | thermalTrip (die : Nat)
  | linkRetrain (link : Nat)
  | inboundNput (vdev peer window : Nat) (offset : Nat) (data : List Byte)
  | inboundNget (vdev peer window : Nat) (offset len : Nat)
  | landingMessage (rctx : Nat) (tag : Word) (moff : Nat) (data : List Byte)
  | networkAcknowledgement (op : Nat) (negative : Bool)
  | transportTimeout (op : Nat)
  | ptpMessage (correctionNs : Int)
  -- Commands (R419 to R425)
  | launch (who : Sender) (msg : List Byte)
  | propagate (who : Sender) (msg : List Byte)
  | memread (who : Sender) (msg : List Byte)
  | memwrite (who : Sender) (msg : List Byte)
  | claim (who : Sender) (msg : List Byte)
  | electionWindowEnd
  | handover (who : Sender) (msg : List Byte)
  | ownerTimeout
  | loadimg (who : Sender) (msg : List Byte)
  | configQuota (who : Sender) (msg : List Byte)
  | configBucket (who : Sender) (msg : List Byte)
  | configWays (who : Sender) (msg : List Byte)
  | configLending (who : Sender) (msg : List Byte)
  | configPeer (who : Sender) (msg : List Byte)
  | configWindow (who : Sender) (msg : List Byte)
  | configTimeout (who : Sender) (msg : List Byte)
  | configSbase (who : Sender) (msg : List Byte)
  | configRing (who : Sender) (msg : List Byte)
  | configCounter (who : Sender) (msg : List Byte)
  | configRegionRegister (who : Sender) (msg : List Byte)
  | configRegionRelease (who : Sender) (msg : List Byte)
  | configArena (who : Sender) (msg : List Byte)
  | configHbmarea (who : Sender) (msg : List Byte)
  | configPermits (who : Sender) (msg : List Byte)
  | configRoot (who : Sender) (msg : List Byte)
  | configDefaults (who : Sender) (msg : List Byte)
  | configCntpage (who : Sender) (msg : List Byte)
  | configPort (who : Sender) (msg : List Byte)
  | configClock (who : Sender) (msg : List Byte)
  | stop (who : Sender) (msg : List Byte)
  | resume (who : Sender) (msg : List Byte)
  | landbind (who : Sender) (msg : List Byte)
  | landrel (who : Sender) (msg : List Byte)
  | status (who : Sender) (msg : List Byte)
  | log (who : Sender) (msg : List Byte)
  | health (who : Sender) (msg : List Byte)
  | attest (who : Sender) (msg : List Byte)
  | fwload (who : Sender) (msg : List Byte)
  | commit (who : Sender) (msg : List Byte)
  | reset (who : Sender) (msg : List Byte)
  | cntread (who : Sender) (msg : List Byte)
  | ngetResponse (op : Nat) (data : List Byte)
  | powerLoss
  | droopRecovery (die : Nat)
  | throttlingEnd (die : Nat)
  | ptpMasterLost
  | masterGone (master : Nat)
deriving DecidableEq, Repr

end Sys2Proof
end

