-- ==== Sys2Proof/Machine/Forms.lean ====
section
/-! DEFINITION. The encoding forms of the instructions (R44 to R52, R60, R61 and the entries' field tables): which set and
opcode, what each field holds, which extension words are allowed, which modifier fields are accepted, and the entry's own
limits. One row per encoded instruction; an event has no form. The register-budget check (R51), the hazard detector
(R254) and the encoder read the same rows. -/

namespace Sys2Proof

/-- The TY code of a format (R46). -/
def Ty.code : Ty → BitVec 4
  | .s32 => 0 | .n32 => 1 | .s64 => 2 | .n64 => 3 | .f32 => 4 | .f64 => 5 | .f16 => 6 | .bf16 => 7
  | .t8 => 8 | .t6 => 9 | .s8 => 10 | .n8 => 11 | .s16 => 12 | .n16 => 13 | .b128 => 14

/-- The format a TY code names; 15 is reserved (R46). -/
def Ty.ofCode (c : BitVec 4) : Option Ty :=
  match c.toNat with
  | 0 => some .s32 | 1 => some .n32 | 2 => some .s64 | 3 => some .n64 | 4 => some .f32 | 5 => some .f64
  | 6 => some .f16 | 7 => some .bf16 | 8 => some .t8 | 9 => some .t6 | 10 => some .s8 | 11 => some .n8
  | 12 => some .s16 | 13 => some .n16 | 14 => some .b128 | _ => none

/-- The width of a format in bits (R46). -/
def Ty.width : Ty → Nat
  | .s32 | .n32 | .f32 => 32
  | .s64 | .n64 | .f64 => 64
  | .f16 | .bf16 | .s16 | .n16 => 16
  | .t8 | .s8 | .n8 => 8
  | .t6 => 6
  | .b128 => 128

/-- The registers a value of the format occupies (R46). -/
def Ty.words (t : Ty) : Nat :=
  if t.width = 64 then 2 else if t.width = 128 then 4 else 1

/-- The n type of an integer type's width, in which a shift reads its source (R97). -/
def Ty.asN (t : Ty) : Ty :=
  match t with
  | .s32 => .n32
  | .s64 => .n64
  | t => t

/-- The signed integer formats (R74). -/
def Ty.signed : Ty → Bool
  | .s32 | .s64 | .s8 | .s16 => true
  | _ => false

/-- The formats s32, n32, s64, n64 (TY 0 to 3). -/
def Ty.isInt4 : Ty → Bool
  | .s32 | .n32 | .s64 | .n64 => true
  | _ => false

/-- The integer formats of any width. -/
def Ty.isInt : Ty → Bool
  | .s32 | .n32 | .s64 | .n64 | .s8 | .n8 | .s16 | .n16 => true
  | _ => false

/-- The IEEE formats (R75). -/
def Ty.isIeee : Ty → Bool
  | .f32 | .f64 | .f16 | .bf16 => true
  | _ => false

/-- The tapered formats (R79). -/
def Ty.isTapered : Ty → Bool
  | .t8 | .t6 => true
  | _ => false

/-- The code of a constant (R48, R49). -/
def Konst.code : Konst → BitVec 8
  | .zero => 192 | .one => 193 | .minusOne => 194 | .half => 195 | .two => 196

/-- How a source field is read, which decides what it may hold. -/
inductive SKind where
  | ty (t : Ty)          -- a value of the type (R49, R50)
  | packed (t : Ty)      -- a pair of elements (R49, R50)
  | base64               -- a base in space G (R129)
  | base32               -- a base in spaces L, C and K (R129)
  | disp                 -- a displacement (R129)
  | pair                 -- an even lane or uniform pair, nothing else (R129, R341, R391)
deriving DecidableEq, Repr

/-- What a source field of an instruction holds. -/
inductive Slot where
  | unused
  | src (s : Src) (k : SKind)
  | pin (p : PIn)
  | code (c : BitVec 8)
  | imm (w : Word)
deriving DecidableEq, Repr

/-- The destination (R47): `n` registers from `r`, `r` a multiple of `align`. -/
inductive Dst where
  | none
  | lane (r : BitVec 7) (n align : Nat)
  | uni (r : BitVec 6) (n align : Nat)
  | pred (p : Pred)
deriving DecidableEq, Repr

/-- Which values of W an entry lists (R90): W = 0 only; W ≥ 1 only; either; W = 0 exactly without an immediate. -/
inductive WRule where
  | zero | ext | any | zeroOrImm
deriving DecidableEq, Repr

/-- The modifier fields an entry accepts (R91, R113): SATC values, SCALE, source modifiers on A, B, C, RM. -/
structure ModRule where
  sat : List Satc
  scale : Bool
  ma : Bool
  mb : Bool
  mc : Bool
  rm : Bool
deriving DecidableEq, Repr

/-- A row of the encoding tables filled in for one instruction. `xr`: a predicate named in X that is read; `xw`: a result
predicate named in X; `dRead`: D is read as a source too (`.cas`, R136). -/
structure Form where
  uniform : Bool
  op : BitVec 7
  d : Dst
  a : Slot
  b : Slot
  c : Slot
  ty : BitVec 4
  f : BitVec 6
  x : BitVec 6
  w : WRule
  mod : Option ModRule
  ok : Bool
  xr : Option Pred
  xw : Option Pred
  dRead : Bool
deriving DecidableEq, Repr

namespace Form

/-- A lane-set form without predicates in X. -/
def lane (op : BitVec 7) (d : Dst) (a b c : Slot) (ty : BitVec 4) (f x : BitVec 6) (w : WRule)
    (mod : Option ModRule) (ok : Bool) : Form :=
  ⟨false, op, d, a, b, c, ty, f, x, w, mod, ok, .none, .none, false⟩

/-- A uniform-set form: no opcode accepts a modifier word (R61). -/
def uni (op : BitVec 7) (d : Dst) (a b c : Slot) (ty : BitVec 4) (f x : BitVec 6) (w : WRule) (ok : Bool) : Form :=
  ⟨true, op, d, a, b, c, ty, f, x, w, .none, ok, .none, .none, false⟩

/-- A lane destination of a type (R47). -/
def dl (d : BitVec 7) (t : Ty) : Dst := .lane d t.words t.words

/-- One lane register of any number. -/
def d1 (d : BitVec 7) : Dst := .lane d 1 1

/-- A uniform destination of a type. -/
def du (d : BitVec 6) (t : Ty) : Dst := .uni d t.words t.words

/-- A source of a type. -/
def s (a : Src) (t : Ty) : Slot := .src a (.ty t)

/-- The modifier rule of the integer instructions (R91): source modifiers on sources of an s type only. -/
def intMod (t : Ty) (nsrc : Nat) : ModRule :=
  ⟨[.none, .sat], false, t.signed, t.signed, t.signed && nsrc == 3, false⟩

/-- The modifier rule of the floating-point arithmetic (R113). -/
def fltMod (nsrc : Nat) : ModRule :=
  ⟨[.none, .sat, .clamp01, .clamp11], true, true, nsrc ≥ 2, nsrc ≥ 3, true⟩

/-- Two-source integer form with TY 0 to 3. -/
def int2 (op : BitVec 7) (f : BitVec 6) (t : Ty) (d : BitVec 7) (a b : Src) (mod : Option ModRule) : Form :=
  lane op (dl d t) (s a t) (s b t) .unused t.code f 0 .ext mod t.isInt4

/-- Bitwise form: TY 0 to 3 or 14 (R96). -/
def logic2 (op : BitVec 7) (t : Ty) (d : BitVec 7) (a b : Src) : Form :=
  lane op (dl d t) (s a t) (s b t) .unused t.code 0 0 .ext .none (t.isInt4 || t == .b128)

/-- Shift form: the source is read as the n type of TY's width, the count as n32 (R97). -/
def shift2 (op : BitVec 7) (t : Ty) (d : BitVec 7) (a b : Src) : Form :=
  lane op (dl d t) (s a t.asN) (s b .n32) .unused t.code 0 0 .ext .none t.isInt4

/-- The code of LEA's F field and the type of its B operand (R102). -/
def leaF : LeaExt → BitVec 6
  | .plain => 0 | .sx => 1 | .zx => 2

def leaB (e : LeaExt) (t : Ty) : Ty :=
  match e with
  | .plain => t
  | .sx => .s32
  | .zx => .n32

/-- The limits of LEA (R102): the shift below the width, F = 1 or 2 with a 64-bit type. -/
def leaOk (e : LeaExt) (t : Ty) (sh : BitVec 6) : Bool :=
  t.isInt4 && decide (sh.toNat < t.width) && (e == .plain || t.width == 64)

/-- The code of an integer condition (R103). -/
def icond : ICond → BitVec 6
  | .eq => 0 | .ne => 1 | .lt => 2 | .le => 3 | .gt => 4 | .ge => 5

/-- The code of a floating-point condition (R118). -/
def fcond : FCond → BitVec 6
  | .eq => 0 | .ne => 1 | .lt => 2 | .le => 3 | .gt => 4 | .ge => 5 | .un => 6 | .ord => 7

/-- The code of an address space (R128). -/
def space : Space → BitVec 2
  | .g => 0 | .l => 1 | .c => 2 | .k => 3

/-- The code of a cache hint (R130). -/
def hint : Hint → BitVec 2
  | .normal => 0 | .nl1 => 1 | .lu => 2

/-- X of a memory instruction: no-return bit, hint, space (R128, R130). -/
def memX (nr : Bool) (h : Hint) (sp : Space) : BitVec 6 :=
  (0#1 ++ BitVec.ofBool nr ++ hint h ++ space sp : BitVec 6)

/-- The base slot of a memory operand (R129). -/
def base (sp : Space) (a : Src) : Slot :=
  .src a (if sp == .g then .base64 else .base32)

/-- The displacement slot (R129). -/
def disp (b : Src) : Slot := .src b .disp

/-- A nonzero hint in spaces L, C and K is ILL_FORM (R130). -/
def hintOk (sp : Space) (h : Hint) : Bool := sp == .g || h == .normal

/-- The F code of an ATOM operation (R136). -/
def atomF : AtomOp → BitVec 6
  | .add => 0 | .min => 1 | .max => 2 | .and => 3 | .or => 4 | .xor => 5 | .exch => 6 | .cas => 7
  | .fadd => 8 | .fmin => 9 | .fmax => 10 | .inc => 11 | .dec => 12

/-- The types an ATOM operation accepts (R136). -/
def atomTy (op : AtomOp) (t : Ty) : Bool :=
  match op with
  | .add | .min | .max | .and | .or | .xor => t.isInt4
  | .exch | .cas => t.isInt4 || t == .f32 || t == .f64 || t == .b128
  | .fadd | .fmin | .fmax => t == .f32 || t == .f64
  | .inc | .dec => t == .n32 || t == .n64

/-- The code of a special function (R238). -/
def sfqF : SfqFn → BitVec 6
  | .rcp => 0 | .sqrt => 1 | .rsqrt => 2 | .exp2 => 3 | .log2 => 4 | .exp => 5 | .log => 6 | .sinpi => 7
  | .cospi => 8 | .tanh => 9 | .sigm => 10 | .gelu => 11

/-- The code of a SHFL mode (R178). -/
def shflF : ShflMode → BitVec 6
  | .lane => 0 | .step => 1 | .mix => 2 | .rot => 3

/-- The code of a VOTE test (R179). -/
def voteF : VoteFn → BitVec 6
  | .atleast => 0 | .fewer => 1 | .same => 2 | .odd => 3

/-- The code of a reduction (R182). -/
def redF : RedOp → BitVec 6
  | .add => 0 | .min => 1 | .max => 2 | .and => 3 | .or => 4 | .xor => 5 | .fadd => 6 | .fmin => 7 | .fmax => 8
  | .mini => 9 | .maxi => 10 | .fmini => 11 | .fmaxi => 12

/-- The index forms of REDUX (R183). -/
def redIndexed : RedOp → Bool
  | .mini | .maxi | .fmini | .fmaxi => true
  | _ => false

/-- The types a reduction accepts (R182). -/
def redTy (op : RedOp) (t : Ty) : Bool :=
  match op with
  | .add | .min | .max | .and | .or | .xor => t.isInt4
  | .fadd | .fmin | .fmax => t.isIeee
  | .mini | .maxi => t == .s32 || t == .n32
  | .fmini | .fmaxi => t == .f32 || t == .f16 || t == .bf16

/-- X<3:0> of a collective: the result predicate, or 15 (R171). -/
def rp (p : Option Pred) : BitVec 6 :=
  match p with
  | .none => 15
  | .some p => BitVec.ofNat 6 p.val

/-- X of a predicate named there. -/
def predX (p : Pred) : BitVec 6 := BitVec.ofNat 6 p.val

/-- The code of an engine class (R223). -/
def clsF : EClass → BitVec 6
  | .ferry => 0 | .matrix => 1 | .net => 2

/-- The code of a special register (R69). -/
def sreg : SReg → BitVec 8
  | .lane => 0 | .group => 1 | .team => 2 | .task => 3 | .core => 4 | .clus => 5 | .rank => 6 | .vdev => 7
  | .ctx => 8 | .hyp => 9 | .cyc => 10 | .ptp => 11 | .work => 12

/-- The registers a special register fills, and their alignment (R69, R109). -/
def sregWords : SReg → Nat × Nat
  | .cyc | .work => (2, 2)
  | .ptp => (3, 1)
  | _ => (1, 1)

/-- The number of a CSR (R251). -/
def csr : Csr → BitVec 6
  | .tsw => 0x00 | .tpc => 0x01 | .tca => 0x02 | .tva => 0x03 | .tvb => 0x04 | .fflags => 0x08 | .rngk => 0x09
  | .rngc => 0x0A | .fair => 0x10 | .lease => 0x11 | .ckint => 0x12 | .dbg => 0x13 | .hypcap => 0x14 | .sbase => 0x20

/-- The type by whose width a CSR is read or written (R251, R253). -/
def csrTy : Csr → Ty
  | .tpc | .tva | .tvb | .rngk | .sbase => .n64
  | .rngc => .b128
  | _ => .n32

/-- The CSRs that no CSRW may name (R251). -/
def csrReadOnly : Csr → Bool
  | .tca | .tva | .tvb | .hypcap => true
  | _ => false

/-- A memory access type: every type but t6 (R132). -/
def memTy (t : Ty) : Bool := t != .t6

/-- A form with a predicate read through X. -/
def reading (p : Pred) (f : Form) : Form := { f with xr := some p }

/-- A form with a result predicate in X. -/
def writing (p : Option Pred) (f : Form) : Form := { f with xw := p }

end Form

open Form in
/-- The form of an instruction; an event has none. -/
def Instr.form : Instr → Option Form
  | .iadd _ t d a b => some (int2 0x00 0 t d a b (some (intMod t 2)))
  | .isub _ t d a b => some (int2 0x01 0 t d a b (some (intMod t 2)))
  | .imul _ t d a b => some (int2 0x02 0 t d a b (some (intMod t 2)))
  | .imulh _ t d a b => some (int2 0x03 0 t d a b none)
  | .imad _ t d a b c => some (lane 0x04 (dl d t) (s a t) (s b t) (s c t) t.code 0 0 .ext (some (intMod t 3)) t.isInt4)
  | .idiv _ t d a b => some (int2 0x05 0 t d a b none)
  | .irem _ t d a b => some (int2 0x05 1 t d a b none)
  | .imin _ t d a b => some (int2 0x06 0 t d a b (some (intMod t 2)))
  | .imax _ t d a b => some (int2 0x07 0 t d a b (some (intMod t 2)))
  | .and _ t d a b => some (logic2 0x08 t d a b)
  | .or _ t d a b => some (logic2 0x09 t d a b)
  | .xor _ t d a b => some (logic2 0x0A t d a b)
  | .andn _ t d a b => some (logic2 0x0B t d a b)
  | .not _ t d a => some (lane 0x0C (dl d t) (s a t) .unused .unused t.code 0 0 .any none (t.isInt4 || t == .b128))
  | .shl _ t d a b => some (shift2 0x0D t d a b)
  | .shr _ t d a b => some (shift2 0x0E t d a b)
  | .sar _ t d a b => some (shift2 0x0F t d a b)
  | .rotl _ t d a b => some (shift2 0x10 t d a b)
  | .popc _ t d a => some (lane 0x11 (d1 d) (s a t) .unused .unused t.code 0 0 .any none t.isInt4)
  | .clz _ t d a => some (lane 0x12 (d1 d) (s a t) .unused .unused t.code 0 0 .any none t.isInt4)
  | .brev _ t d a => some (lane 0x13 (dl d t) (s a t) .unused .unused t.code 0 0 .any none t.isInt4)
  | .bfx _ t d a b => some (lane 0x14 (dl d t) (s a t) (s b .n32) .unused t.code 0 0 .ext none t.isInt4)
  | .bfi _ t d a b c => some (lane 0x15 (dl d t) (s a t) (s b t) (s c .n32) t.code 0 0 .ext none t.isInt4)
  | .perm _ d a b c => some (lane 0x16 (d1 d) (s a .n32) (s b .n32) (s c .n32) 1 0 0 .ext none true)
  | .lea _ e t d a b sh => some (lane 0x17 (dl d t) (s a t) (s b (leaB e t)) .unused t.code (leaF e) sh .ext none (leaOk e t sh))
  | .icmp _ cd t p a b => some (lane 0x18 (.pred p) (s a t) (s b t) .unused t.code 0 (icond cd) .ext none t.isInt4)
  | .idp4 _ sa sb t d a b c => some (lane 0x19 (d1 d) (s a .n32) (s b .n32) (s c t) t.code
      (0#4 ++ BitVec.ofBool sb ++ BitVec.ofBool sa : BitVec 6) 0 .ext
      (some ⟨[.none, .sat], false, false, false, t.signed, false⟩) (t == .s32 || t == .n32))
  | .fadd _ t d a b => some (lane 0x20 (dl d t) (s a t) (s b t) .unused t.code 0 0 .ext (some (fltMod 2)) t.isIeee)
  | .fsub _ t d a b => some (lane 0x21 (dl d t) (s a t) (s b t) .unused t.code 0 0 .ext (some (fltMod 2)) t.isIeee)
  | .fmul _ t d a b => some (lane 0x22 (dl d t) (s a t) (s b t) .unused t.code 0 0 .ext (some (fltMod 2)) t.isIeee)
  | .ffma _ t d a b c => some (lane 0x23 (dl d t) (s a t) (s b t) (s c t) t.code 0 0 .ext (some (fltMod 3)) t.isIeee)
  | .fmin _ n t d a b => some (lane 0x24 (dl d t) (s a t) (s b t) .unused t.code (BitVec.ofNat 6 n.toNat) 0 .ext (some (fltMod 2)) t.isIeee)
  | .fmax _ n t d a b => some (lane 0x25 (dl d t) (s a t) (s b t) .unused t.code (BitVec.ofNat 6 n.toNat) 0 .ext (some (fltMod 2)) t.isIeee)
  | .fcmp _ cd t p a b => some (lane 0x26 (.pred p) (s a t) (s b t) .unused t.code 0 (fcond cd) .ext
      (some ⟨[.none], false, true, true, false, false⟩) t.isIeee)
  | .fclass _ t d a => some (lane 0x27 (d1 d) (s a t) .unused .unused t.code 0 0 .ext none (t.isIeee || t.isTapered))
  | .frnd _ aw t d a => some (lane 0x28 (dl d t) (s a t) .unused .unused t.code (BitVec.ofNat 6 aw.toNat) 0 .ext
      (some ⟨[.none, .sat, .clamp01, .clamp11], false, true, false, false, !aw⟩) t.isIeee)
  | .fcvt _ t sty d a => some (lane 0x29 (dl d t) (s a sty) .unused .unused t.code 0 (0#2 ++ sty.code : BitVec 6) .ext (some (fltMod 1))
      ((t.isIeee || t.isTapered) && (sty.isIeee || sty.isTapered)))
  | .f2i _ t sty d a => some (lane 0x2A (dl d t) (s a sty) .unused .unused t.code 0 (0#2 ++ sty.code : BitVec 6) .ext
      (some ⟨[.none, .sat], false, true, false, false, true⟩) (t.isInt && sty.isIeee))
  | .i2f _ t sty d a => some (lane 0x2B (dl d t) (s a sty) .unused .unused t.code 0 (0#2 ++ sty.code : BitVec 6) .ext
      (some ⟨[.none, .sat, .clamp01, .clamp11], true, sty.signed, false, false, true⟩)
      ((t.isIeee || t.isTapered) && sty.isInt))
  | .padd _ t d a b => some (lane 0x2C (d1 d) (.src a (.packed t)) (.src b (.packed t)) .unused t.code 0 0 .ext (some (fltMod 2))
      (t == .f16 || t == .bf16))
  | .pmul _ t d a b => some (lane 0x2D (d1 d) (.src a (.packed t)) (.src b (.packed t)) .unused t.code 0 0 .ext (some (fltMod 2))
      (t == .f16 || t == .bf16))
  | .pfma _ t d a b c => some (lane 0x2E (d1 d) (.src a (.packed t)) (.src b (.packed t)) (.src c (.packed t)) t.code 0 0 .ext
      (some (fltMod 3)) (t == .f16 || t == .bf16))
  | .pdot2 _ t d a b c => some (lane 0x2F (d1 d) (.src a (.packed t)) (.src b (.packed t)) (s c .f32) t.code 0 0 .ext
      (some (fltMod 3)) (t == .f16 || t == .bf16))
  | .rng _ u d => some (lane 0x30 (.lane d 4 4) .unused .unused .unused (if u then 4 else 14) (BitVec.ofNat 6 u.toNat) 0 .ext none true)
  | .sfq _ fn tok d a => some (lane 0x38 (d1 d) (s a .f32) .unused .unused 4 (sfqF fn) (0#2 ++ tok : BitVec 6) .ext none true)
  | .waitt _ a => some (lane 0x39 .none (s a .n32) .unused .unused 0 0 0 .any none true)
  | .sleept _ a => some (lane 0x3A .none (s a .n64) .unused .unused 0 0 0 .zeroOrImm none true)
  | .lwait _ a b => some (lane 0x3B .none (s a .n32) (s b .n32) .unused 0 0 0 .ext none true)
  | .mov _ t d a => some (lane 0x40 (dl d t) (s a t) .unused .unused t.code 0 0 .any none true)
  | .sel _ t p d a b => some (reading p (lane 0x41 (dl d t) (s a t) (s b t) .unused t.code 0 (predX p) .ext none true))
  | .plop _ lut p a b c => some (lane 0x42 (.pred p) (.pin a) (.pin b) (.pin c) 0 (0#4 ++ lut.extractLsb' 6 2 : BitVec 6)
      (lut.extractLsb' 0 6) .ext none true)
  | .movp _ d => some (lane 0x43 (d1 d) .unused .unused .unused 0 0 0 .zero none true)
  | .movpSet _ a b => some (lane 0x43 .none (s a .n32) (s b .n32) .unused 0 1 0 .ext none true)
  | .rdsr _ sr d => some (lane 0x44 (.lane d (sregWords sr).1 (sregWords sr).2) (.code (sreg sr)) .unused .unused 0 0 0 .zero none true)
  | .nop _ => some (lane 0x46 .none .unused .unused .unused 0 0 0 .zero none true)
  | .elect _ p a => some (lane 0x45 (.pred p) (s a .n32) .unused .unused 0 0 0 .any none true)
  | .shfl _ m t p d a b c => some (writing p (lane 0x50 (dl d t) (s a t) (s b (if m == .step then .s32 else .n32)) (s c .n32) t.code
      (shflF m) (rp p) .ext none (t == .n32 || t == .n64)))
  | .vote _ fn p i b c => some (lane 0x51 (.pred p) (.pin i)
      (if fn == .atleast || fn == .fewer then s b .n32 else .unused) (s c .n32) 0 (voteF fn) 0 .ext none
      (fn == .atleast || fn == .fewer || b == .lane 0))
  | .ballot _ d i c => some (lane 0x52 (.lane d 2 2) (.pin i) .unused (s c .n32) 0 0 0 .ext none true)
  | .matchLanes _ t p d a c => some (writing p (lane 0x53 (.lane d 2 2) (s a t) .unused (s c .n32) t.code 0 (rp p) .ext none
      (t == .n32 || t == .n64)))
  | .redux _ op t p d a b c => some (writing p (lane 0x54 (if redIndexed op then .lane d 2 2 else dl d t) (s a t)
      (if redIndexed op then s b .n32 else .unused) (s c .n32) t.code (redF op) (rp p) .ext none
      (redTy op t && (redIndexed op || b == .lane 0))))
  | .scan _ op ex t p d a c => some (writing p (lane 0x55 (dl d t) (s a t) .unused (s c .n32) t.code (redF op)
      (rp p ||| (BitVec.ofNat 6 ex.toNat <<< 4)) .ext none (redTy op t && !redIndexed op)))
  | .ld _ sp hn t d a b => some (lane 0x60 (dl d t) (base sp a) (disp b) .unused t.code 0 (memX false hn sp) .ext none
      (memTy t && hintOk sp hn))
  | .st _ sp hn t a b c => some (lane 0x61 .none (base sp a) (disp b) (s c t) t.code 0 (memX false hn sp) .ext none
      (memTy t && hintOk sp hn && sp != .k))
  | .atom _ op nr hn t d a b c => some { lane 0x62 (if nr then .none else dl d t) (base .g a) (disp b) (s c t) t.code (atomF op)
      (memX nr hn .g) .ext none (atomTy op t && !(nr && op == .cas) && (!nr || d == 0)) with dRead := op == .cas }
  | .lr _ hn t d a b => some (lane 0x63 (dl d t) (base .g a) (disp b) .unused t.code 0 (memX false hn .g) .ext none t.isInt4)
  | .sc _ hn t p a b c => some (lane 0x64 (.pred p) (base .g a) (disp b) (s c t) t.code 0 (memX false hn .g) .ext none t.isInt4)
  | .fenceE _ => some (lane 0x65 .none .unused .unused .unused 0 0 0 .zero none true)
  | .fenceN _ => some (lane 0x65 .none .unused .unused .unused 0 1 0 .ext none true)
  | .pref _ l2 a b => some (lane 0x66 .none (base .g a) (disp b) .unused 0 0 (BitVec.ofNat 6 l2.toNat <<< 2) .ext none true)
  | .cpy _ d a => some (lane 0x68 (.lane d 2 2) (s a .n32) .unused .unused 0 0 0 .any none true)
  | .mma _ a => some (lane 0x69 .none (s a .n32) .unused .unused 0 0 0 .any none true)
  | .mdrain _ a => some (lane 0x6A .none (s a .n32) .unused .unused 0 0 0 .any none true)
  | .mzero _ a => some (lane 0x6B .none (s a .n32) .unused .unused 0 0 0 .any none true)
  | .nput _ a => some (lane 0x6C .none (s a .n32) .unused .unused 0 0 0 .any none true)
  | .nget _ a => some (lane 0x6D .none (s a .n32) .unused .unused 0 0 0 .any none true)
  | .nsend _ a => some (lane 0x6E .none (s a .n32) .unused .unused 0 0 0 .any none true)
  | .waitc _ cl n => some (lane 0x6F .none .unused .unused .unused 0 (clsF cl) n .any none true)
  | .bra _ off => some (lane 0x70 .none (.imm off) .unused .unused 0 0 0 .ext none (off.extractLsb' 0 2 == 0))
  | .brx _ a => some (lane 0x71 .none (.src a .pair) .unused .unused 0 0 0 .zero none true)
  | .call _ d off => some (lane 0x72 (.lane d 2 2) (.imm off) .unused .unused 0 0 0 .ext none (off.extractLsb' 0 2 == 0))
  | .callX _ d a => some (lane 0x72 (.lane d 2 2) (.src a .pair) .unused .unused 0 1 0 .ext none true)
  | .ret _ a => some (lane 0x73 .none (.src a .pair) .unused .unused 0 0 0 .zero none true)
  | .exit _ => some (lane 0x74 .none .unused .unused .unused 0 0 0 .zero none true)
  | .bar _ b => some (lane 0x75 .none .unused .unused .unused 0 0 (0#2 ++ b : BitVec 6) .any none true)
  | .barArv _ b => some (lane 0x75 .none .unused .unused .unused 0 1 (0#2 ++ b : BitVec 6) .any none true)
  | .cbar _ b => some (lane 0x76 .none .unused .unused .unused 0 0 (0#4 ++ b : BitVec 6) .any none true)
  | .cbarArv _ b => some (lane 0x76 .none .unused .unused .unused 0 1 (0#4 ++ b : BitVec 6) .any none true)
  | .swpt h p => some (lane 0x77 .none (.code p) .unused .unused 0 0 0 .zero none (h.guard == .always))
  | .spawn _ d a => some (lane 0x78 (d1 d) (s a .n32) .unused .unused 0 0 0 .any none true)
  | .modreg _ lg d a b => some (lane 0x79 (d1 d) (.src a .pair) (s b .n32) .unused 0 0 lg .ext none (2 ≤ lg.toNat && lg.toNat ≤ 8))
  | .modrel _ a => some (lane 0x79 .none (s a .n32) .unused .unused 0 1 0 .ext none true)
  | .prop _ p a => some (lane 0x7A (.pred p) (.src a .pair) .unused .unused 0 0 0 .zero none true)
  | .hnew _ d => some (lane 0x7B (d1 d) .unused .unused .unused 0 0 0 .zero none true)
  | .hent _ a => some (lane 0x7B .none (s a .n32) .unused .unused 0 1 0 .ext none true)
  | .hresConf _ p a => some (lane 0x7B (.pred p) (s a .n32) .unused .unused 0 2 0 .ext none true)
  | .hresRef _ p a => some (lane 0x7B (.pred p) (s a .n32) .unused .unused 0 2 1 .ext none true)
  | .dph _ => some (lane 0x7C .none .unused .unused .unused 0 0 0 .zero none true)
  | .trap _ a => some (lane 0x7D .none (s a .n32) .unused .unused 0 0 0 .any none true)
  | .tret _ => some (lane 0x7E .none .unused .unused .unused 0 0 0 .zero none true)
  | .csrr _ cs d => some (lane 0x7F (dl d (csrTy cs)) .unused .unused .unused 0 0 (csr cs) .ext none true)
  | .csrw _ cs a => some (lane 0x7F .none (s a (csrTy cs)) .unused .unused 0 1 (csr cs) .ext none (!csrReadOnly cs))
  | .ckpt _ => some (lane 0x7F .none .unused .unused .unused 0 2 0 .ext none true)
  | .permitAcq _ a => some (lane 0x7F .none (s a .n32) .unused .unused 0 3 0 .ext none true)
  | .permitRel _ a => some (lane 0x7F .none (s a .n32) .unused .unused 0 3 1 .ext none true)
  | .permitTry _ p a => some (lane 0x7F (.pred p) (s a .n32) .unused .unused 0 3 2 .ext none true)
  | .yield _ a => some (lane 0x7F .none (s a .n32) .unused .unused 0 4 0 .ext none true)
  | .tlbiPage _ a => some (lane 0x7F .none (.src a .pair) .unused .unused 0 5 0 .ext none true)
  | .tlbiCtx _ => some (lane 0x7F .none .unused .unused .unused 0 5 1 .ext none true)
  | .tlbiVdev _ => some (lane 0x7F .none .unused .unused .unused 0 5 2 .ext none true)
  | .cflush _ a b => some (lane 0x7F .none (.src a .pair) (s b .n32) .unused 0 6 0 .ext none true)
  | .uadd _ t d a b => some (uni 0x00 (du d t) (s a t) (s b t) .unused t.code 0 0 .ext t.isInt4)
  | .usub _ t d a b => some (uni 0x01 (du d t) (s a t) (s b t) .unused t.code 0 0 .ext t.isInt4)
  | .umul _ t d a b => some (uni 0x02 (du d t) (s a t) (s b t) .unused t.code 0 0 .ext t.isInt4)
  | .umulh _ t d a b => some (uni 0x03 (du d t) (s a t) (s b t) .unused t.code 0 0 .ext t.isInt4)
  | .umad _ t d a b c => some (uni 0x04 (du d t) (s a t) (s b t) (s c t) t.code 0 0 .ext t.isInt4)
  | .umin _ t d a b => some (uni 0x06 (du d t) (s a t) (s b t) .unused t.code 0 0 .ext t.isInt4)
  | .umax _ t d a b => some (uni 0x07 (du d t) (s a t) (s b t) .unused t.code 0 0 .ext t.isInt4)
  | .uand _ t d a b => some (uni 0x08 (du d t) (s a t) (s b t) .unused t.code 0 0 .ext t.isInt4)
  | .uor _ t d a b => some (uni 0x09 (du d t) (s a t) (s b t) .unused t.code 0 0 .ext t.isInt4)
  | .uxor _ t d a b => some (uni 0x0A (du d t) (s a t) (s b t) .unused t.code 0 0 .ext t.isInt4)
  | .ushl _ t d a b => some (uni 0x0D (du d t) (s a t.asN) (s b .n32) .unused t.code 0 0 .ext t.isInt4)
  | .ushr _ t d a b => some (uni 0x0E (du d t) (s a t.asN) (s b .n32) .unused t.code 0 0 .ext t.isInt4)
  | .usar _ t d a b => some (uni 0x0F (du d t) (s a t.asN) (s b .n32) .unused t.code 0 0 .ext t.isInt4)
  | .ulea _ e t d a b sh => some (uni 0x17 (du d t) (s a t) (s b (leaB e t)) .unused t.code (leaF e) sh .ext (leaOk e t sh))
  | .ucmp _ cd t p a b => some (uni 0x18 (.pred p) (s a t) (s b t) .unused t.code 0 (icond cd) .ext t.isInt4)
  | .umov _ t d a => some (uni 0x40 (du d t) (s a t) .unused .unused t.code 0 0 .any true)
  | .urdsr _ sr d => some (uni 0x44 (.uni d (sregWords sr).1 (sregWords sr).2) (.code (sreg sr)) .unused .unused 0 0 0 .zero true)
  | .uld _ sp hn t d a b => some (uni 0x60 (du d t) (base sp a) (disp b) .unused t.code 0 (memX false hn sp) .ext
      (memTy t && hintOk sp hn))
  | .ust _ sp hn t a b c => some (uni 0x61 .none (base sp a) (disp b) (s c t) t.code 0 (memX false hn sp) .ext
      (memTy t && hintOk sp hn && sp != .k))
  | .ubra _ off => some (uni 0x70 .none (.imm off) .unused .unused 0 0 0 .ext (off.extractLsb' 0 2 == 0))
  | _ => none

/-- The head of an encoded instruction; an event has none. -/
def Instr.head : Instr → Option Head
  | .iadd h .. | .isub h .. | .imul h .. | .imulh h .. | .imad h .. | .idiv h .. | .irem h .. | .imin h .. | .imax h ..
  | .and h .. | .or h .. | .xor h .. | .andn h .. | .not h .. | .shl h .. | .shr h .. | .sar h .. | .rotl h ..
  | .popc h .. | .clz h .. | .brev h .. | .bfx h .. | .bfi h .. | .perm h .. | .lea h .. | .icmp h .. | .idp4 h ..
  | .fadd h .. | .fsub h .. | .fmul h .. | .ffma h .. | .fmin h .. | .fmax h .. | .fcmp h .. | .fclass h .. | .frnd h ..
  | .fcvt h .. | .f2i h .. | .i2f h .. | .padd h .. | .pmul h .. | .pfma h .. | .pdot2 h .. | .rng h ..
  | .sfq h .. | .waitt h .. | .sleept h .. | .lwait h .. | .mov h .. | .sel h .. | .plop h .. | .movp h .. | .movpSet h ..
  | .rdsr h .. | .nop h | .elect h .. | .shfl h .. | .vote h .. | .ballot h .. | .matchLanes h .. | .redux h .. | .scan h ..
  | .ld h .. | .st h .. | .atom h .. | .lr h .. | .sc h .. | .fenceE h | .fenceN h | .pref h .. | .cpy h .. | .mma h ..
  | .mdrain h .. | .mzero h .. | .nput h .. | .nget h .. | .nsend h .. | .waitc h .. | .bra h .. | .brx h .. | .call h ..
  | .callX h .. | .ret h .. | .exit h | .bar h .. | .barArv h .. | .cbar h .. | .cbarArv h .. | .swpt h .. | .spawn h ..
  | .modreg h .. | .modrel h .. | .prop h .. | .hnew h .. | .hent h .. | .hresConf h .. | .hresRef h .. | .dph h
  | .trap h .. | .tret h | .csrr h .. | .csrw h .. | .ckpt h | .permitAcq h .. | .permitRel h .. | .permitTry h ..
  | .yield h .. | .tlbiPage h .. | .tlbiCtx h | .tlbiVdev h | .cflush h .. | .uadd h .. | .usub h .. | .umul h ..
  | .umulh h .. | .umad h .. | .umin h .. | .umax h .. | .uand h .. | .uor h .. | .uxor h .. | .ushl h .. | .ushr h ..
  | .usar h .. | .ulea h .. | .ucmp h .. | .umov h .. | .urdsr h .. | .uld h .. | .ust h .. | .ubra h .. => some h
  | _ => none

/-! ## What the forms demand -/

/-- Whether a source register of a type has the number its pair or quad needs (R47, R48). -/
def regAligned (n align : Nat) : Bool := n % align == 0

/-- Whether a constant code is legal for a type (R49). -/
def konstOk (k : Konst) (t : Ty) : Bool :=
  match t with
  | .b128 => k == .zero
  | .s32 | .n32 | .s64 | .n64 | .s8 | .n8 | .s16 | .n16 => k != .half
  | _ => true

/-- Whether an immediate word is legal for a type (R50). -/
def immOk (w : Word) (t : Ty) : Bool :=
  match t with
  | .s32 | .n32 | .f32 | .s64 | .n64 | .f64 => true
  | .f16 | .bf16 | .s16 | .n16 => w.extractLsb' 16 16 == 0
  | .s8 | .n8 | .t8 => w.extractLsb' 8 24 == 0
  | .t6 => w.extractLsb' 6 26 == 0
  | .b128 => false

/-- Whether a source is legal for the way its field is read (R47 to R50, R129). -/
def srcOk (s : Src) (k : SKind) : Bool :=
  match k, s with
  | .ty t, .lane r => regAligned r.toNat t.words
  | .ty t, .uni r => regAligned r.toNat t.words
  | .ty t, .konst c => konstOk c t
  | .ty t, .imm w => immOk w t
  | .packed _, _ => true
  | .base64, .lane r => regAligned r.toNat 2
  | .base64, .uni r => regAligned r.toNat 2
  | .base64, .konst c => c == .zero
  | .base64, .imm _ => false
  | .base32, .lane _ => true
  | .base32, .uni _ => true
  | .base32, .konst c => c == .zero
  | .base32, .imm _ => false
  | .disp, .konst c => c != .half
  | .disp, .imm _ => true
  | .disp, _ => false
  | .pair, .lane r => regAligned r.toNat 2
  | .pair, .uni r => regAligned r.toNat 2
  | .pair, _ => false

/-- Whether a slot is legal; in the uniform set no source is a lane register (R48). -/
def Slot.legal (uniform : Bool) : Slot → Bool
  | .src (.lane r) k => !uniform && srcOk (.lane r) k
  | .src s k => srcOk s k
  | _ => true

/-- The immediate word of a slot, where it has one (R50). -/
def Slot.immediate : Slot → Option Word
  | .src (.imm w) _ => some w
  | .imm w => some w
  | _ => none

/-- The 8-bit code a slot holds (R48, R107). -/
def Slot.code8 : Slot → BitVec 8
  | .unused => 0
  | .src (.lane r) _ => (0#1 ++ r : BitVec 8)
  | .src (.uni r) _ => (0b10#2 ++ r : BitVec 8)
  | .src (.konst k) _ => k.code
  | .src (.imm _) _ => 255
  | .pin (.pred p) => BitVec.ofNat 8 p.val
  | .pin .zero => 192
  | .pin .one => 193
  | .code c => c
  | .imm _ => 255

/-- Whether a source modifier may stand on a slot (R52, R86): the entry accepts it there, the field is used and holds no
constant code. -/
def Slot.modifiable (accepted : Bool) : Slot → Bool
  | .src (.konst _) _ => false
  | .src _ _ => accepted
  | _ => false

/-- The immediate words of a form, in operand order (R50). -/
def Form.imms (f : Form) : List Word :=
  [f.a.immediate, f.b.immediate, f.c.immediate].filterMap id

/-- Whether the field word would be all zero (R45, R90). -/
def Form.fieldZero (f : Form) : Bool :=
  f.b.code8 == 0 && f.c.code8 == 0 && f.ty == 0 && f.f == 0 && f.x == 0

/-- Whether the destination has a legal number (R47). -/
def Dst.legal : Dst → Bool
  | .none => true
  | .lane r _ al => regAligned r.toNat al
  | .uni r _ al => regAligned r.toNat al
  | .pred _ => true

/-- Whether a modifier word is accepted (R52, R91, R113). -/
def Form.modOk (f : Form) : Option Modifier → Bool
  | none => true
  | some m =>
    match f.mod with
    | none => false
    | some r =>
      r.sat.contains m.satc && (r.scale || m.scale == 0) && (r.rm || m.rm == .dflt) &&
      (!(m.na || m.aa) || f.a.modifiable r.ma) && (!(m.nb || m.ab) || f.b.modifiable r.mb) &&
      (!(m.nc || m.ac) || f.c.modifiable r.mc)

/-- Whether the presence of the field word fits the entry's W (R50, R90). -/
def Form.wOk (f : Form) (bare : Bool) : Bool :=
  match f.w, bare with
  | .zero, b => b && f.imms.isEmpty && f.fieldZero
  | .ext, b => !b && decide (f.imms.length ≤ 1)
  | .any, true => f.imms.isEmpty && f.fieldZero
  | .any, false => decide (f.imms.length ≤ 1)
  | .zeroOrImm, true => f.imms.isEmpty && f.fieldZero
  | .zeroOrImm, false => f.imms.length == 1

/-- The decode-time checks of step 3 of R57 for one instruction. -/
def Instr.checks (i : Instr) : Bool :=
  match i.form, i.head with
  | some f, some h =>
    f.ok && f.d.legal && f.a.legal f.uniform && f.b.legal f.uniform && f.c.legal f.uniform &&
    f.wOk h.bare && f.modOk h.mod
  | _, _ => true

end Sys2Proof
end

