-- ==== Sys2Proof/Machine/Flags.lean ====
section
/-! DEFINITION. The number formats and their arithmetic: integers (R74), IEEE and tapered formats (R75 to R83), the
rounding RoundTo with its flags (R78, R82), the source modifiers (R86), Saturate (R88), exact sums and products (R114).
Values are exact: a finite one is ± m × 2^e. -/

namespace Sys2Proof

/-- fflags bits (R71). -/
abbrev Flags := BitVec 4

namespace Flags
/-- Invalid operation. -/
def nv : Flags := 8
/-- Overflow. -/
def of : Flags := 4
/-- Underflow. -/
def uf : Flags := 2
/-- Inexact. -/
def nx : Flags := 1
/-- A flag where a condition holds. -/
def whenF (c : Bool) (f : Flags) : Flags := if c then f else 0
end Flags

/-! ## Integers -/

/-- The low bits of an integer in a width (R88, SATC = 00). -/
def wrap (w : Nat) (y : Int) : Nat := (y % (2 ^ w : Int)).toNat

/-- A register value as the exact integer of its type (R74, R89). -/
def Ty.int (t : Ty) (v : Nat) : Int :=
  if t.signed && decide (2 ^ (t.width - 1) ≤ v) then (v : Int) - 2 ^ t.width else v

/-- The least value of an integer type (R74). -/
def Ty.minInt (t : Ty) : Int := if t.signed then -(2 ^ (t.width - 1)) else 0

/-- The greatest value of an integer type (R74). -/
def Ty.maxInt (t : Ty) : Int := if t.signed then 2 ^ (t.width - 1) - 1 else 2 ^ t.width - 1

/-- Clamp to the range of the type. -/
def Ty.clamp (t : Ty) (y : Int) : Int := max t.minInt (min t.maxInt y)

/-- An integer result by SATC (R91). -/
def Ty.keep (t : Ty) (satc : Satc) (y : Int) : Nat :=
  match satc with
  | .sat => wrap t.width (t.clamp y)
  | _ => wrap t.width y

/-! ## Exact values -/

/-- A floating-point value: NaN (signalling or quiet), an infinity, or ± m × 2^e with a signed zero. -/
inductive Num where
  | nan (sig : Bool)
  | inf (neg : Bool)
  | fin (neg : Bool) (m : Nat) (e : Int)
deriving DecidableEq, Repr

/-- The parameters of an IEEE format (R75): exponent bits, fraction bits. -/
def Ty.ieee : Ty → Nat × Nat
  | .f16 => (5, 10)
  | .bf16 => (8, 7)
  | .f64 => (11, 52)
  | _ => (8, 23)

/-- emax, the bias (R75). -/
def Ty.bias (t : Ty) : Int := 2 ^ (t.ieee.1 - 1) - 1

/-- The length of the run of equal bits at the top of the low `n` bits. -/
def runLength (bit : Bool) (b : Nat) : Nat → Nat
  | 0 => 0
  | i + 1 => if b.testBit i = bit then 1 + runLength bit b i else 0

/-- The width of a tapered body (R79). -/
def Ty.body (t : Ty) : Nat := t.width - 1

/-- The magnitude m × 2^e of a nonzero tapered body (R79). -/
def taperedMag (n b : Nat) : Nat × Int :=
  let lead := b.testBit (n - 1)
  let run := runLength lead b n
  let k : Int := if lead then run - 1 else -run
  let rest := n - (run + 1)
  if rest = 0 then (1, 2 * k)
  else
    let fb := rest - 1
    let ex : Int := if b.testBit fb then 1 else 0
    (2 ^ fb + b % 2 ^ fb, 2 * k + ex - fb)

/-- The value an encoding of an IEEE or tapered type has (R75, R76, R79). -/
def Ty.num (t : Ty) (v : Nat) : Num :=
  if t.isTapered then
    let n := t.body
    let b := v % 2 ^ n
    let neg := v.testBit n
    if b = 0 then (if neg then .nan false else .fin false 0 0)
    else let (m, e) := taperedMag n b; .fin neg m e
  else
    let (eb, tb) := t.ieee
    let neg := v.testBit (eb + tb)
    let ex := v / 2 ^ tb % 2 ^ eb
    let fr := v % 2 ^ tb
    if ex = 2 ^ eb - 1 then
      (if fr = 0 then .inf neg else .nan (!fr.testBit (tb - 1)))
    else if ex = 0 then .fin neg fr (1 - t.bias - tb)
    else .fin neg (2 ^ tb + fr) (ex - t.bias - tb)

/-- The canonical NaN (R75, R79). -/
def Ty.nanBits (t : Ty) : Nat :=
  if t.isTapered then 2 ^ t.body else (2 ^ (t.ieee.1 + 1) - 1) * 2 ^ (t.ieee.2 - 1)

/-- A sign bit at its place. -/
def Ty.signBit (t : Ty) (neg : Bool) : Nat := if neg then 2 ^ (t.width - 1) else 0

/-- The infinity's magnitude bits (R75). -/
def Ty.infBits (t : Ty) : Nat := (2 ^ t.ieee.1 - 1) * 2 ^ t.ieee.2

/-- The largest finite value's magnitude bits (R75, R82). -/
def Ty.maxBits (t : Ty) : Nat := if t.isTapered then 2 ^ t.body - 1 else t.infBits - 1

/-- The bits of 1.0 (R75, R49). -/
def Ty.oneBits (t : Ty) : Nat :=
  if t.isTapered then 2 ^ (t.body - 1) else t.bias.toNat * 2 ^ t.ieee.2

/-! ## Rounding -/

/-- The rounding modes (R77); `away` is FRND's ties away from zero (R120). -/
inductive RMode where
  | near | zero | up | down | away
deriving DecidableEq, Repr

/-- The resolved mode of an RM field whose default is to nearest (R77, R113). -/
def Rm.resolve : Rm → RMode
  | .dflt => .near
  | .rz => .zero
  | .rup => .up
  | .rdn => .down

/-- RoundQuantum (R78): how many quanta 2^q the magnitude m × 2^e rounds to, and whether that changes it. -/
def roundQuantum (neg : Bool) (m : Nat) (e q : Int) (rm : RMode) : Nat × Bool :=
  if q ≤ e then (m * 2 ^ (e - q).toNat, false)
  else
    let d := (q - e).toNat
    let k := m / 2 ^ d
    let r := m % 2 ^ d
    let upward : Bool :=
      match rm with
      | .near => decide (2 ^ (d - 1) < r) || (r == 2 ^ (d - 1) && k % 2 == 1)
      | .zero => false
      | .up => !neg && r != 0
      | .down => neg && r != 0
      | .away => decide (2 ^ (d - 1) ≤ r)
    (if upward then k + 1 else k, r != 0)

/-- Compares m1 × 2^e1 < m2 × 2^e2. -/
def magLt (m1 : Nat) (e1 : Int) (m2 : Nat) (e2 : Int) : Bool :=
  let lo := min e1 e2
  decide (m1 * 2 ^ (e1 - lo).toNat < m2 * 2 ^ (e2 - lo).toNat)

/-- RoundTo for an IEEE type (R78), of a nonzero finite magnitude. -/
def roundIeee (t : Ty) (neg : Bool) (m : Nat) (e : Int) (rm : RMode) : Nat × Flags :=
  let (_, tb) := t.ieee
  let emax := t.bias
  let emin := 1 - emax
  let u := (Nat.log2 m : Int) + e
  let kt := (roundQuantum neg m e (u - tb) rm).1
  let carried := kt == 2 ^ (tb + 1)
  if u > emax || (u == emax && carried) then
    (t.signBit neg + (if rm == .near || (rm == .up && !neg) || (rm == .down && neg) then t.infBits else t.maxBits),
      Flags.of ||| Flags.nx)
  else
    let base := max u emin
    let (k, inexact) := roundQuantum neg m e (base - tb) rm
    let tiny := decide (u < emin - 1) || (u == emin - 1 && !carried)
    (t.signBit neg + ((base - emin).toNat * 2 ^ tb + k),
      Flags.whenF inexact Flags.nx ||| Flags.whenF (inexact && tiny) Flags.uf)

/-- The greatest tapered body whose magnitude is at most m × 2^e, built bit by bit from the top (R81: magnitude rises
with the body). -/
def taperedFloor (n m : Nat) (e : Int) (acc : Nat) : Nat → Nat
  | 0 => acc
  | i + 1 =>
    let c := acc + 2 ^ i
    let (cm, ce) := taperedMag n c
    taperedFloor n m e (if magLt m e cm ce then acc else c) i

/-- RoundTo for a tapered type (R82), of a nonzero finite magnitude. -/
def roundTapered (t : Ty) (neg : Bool) (m : Nat) (e : Int) (rm : RMode) : Nat × Flags :=
  let n := t.body
  let (xm, xe) := taperedMag n (2 ^ n - 1)
  let (nm, ne) := taperedMag n 1
  let sgn := t.signBit neg
  if magLt xm xe m e then (sgn + (2 ^ n - 1), Flags.of ||| Flags.nx)
  else if magLt m e nm ne then (sgn + 1, Flags.uf ||| Flags.nx)
  else
    let c := taperedFloor n m e 0 n
    let (cm, ce) := taperedMag n c
    if magLt cm ce m e = false then (sgn + c, 0)
    else
      let (dm, de) := taperedMag n (c + 1)
      let lo := min e (min ce de)
      let x2 := 2 * (m * 2 ^ (e - lo).toNat)
      let mid := cm * 2 ^ (ce - lo).toNat + dm * 2 ^ (de - lo).toNat
      let upward : Bool :=
        match rm with
        | .near | .away => decide (mid < x2) || (x2 == mid && c % 2 == 1)
        | .zero => false
        | .up => !neg
        | .down => neg
      (sgn + (if upward then c + 1 else c), Flags.nx)

/-- RoundTo (R78, R82). A signalling NaN's NV is its instruction's. -/
def roundTo (t : Ty) (rm : RMode) (x : Num) : Nat × Flags :=
  match x with
  | .nan _ => (t.nanBits, 0)
  | .inf neg => if t.isTapered then (t.signBit neg + t.maxBits, Flags.nx) else (t.signBit neg + t.infBits, 0)
  | .fin neg m e =>
    if m = 0 then (if t.isTapered then 0 else t.signBit neg, 0)
    else if t.isTapered then roundTapered t neg m e rm
    else roundIeee t neg m e rm

/-! ## Modifiers and saturation -/

/-- The absolute value of a source's bits (R86). -/
def Ty.absBits (t : Ty) (v : Nat) : Nat :=
  if t.isTapered && v % 2 ^ t.body == 0 then v else v % 2 ^ (t.width - 1)

/-- The negation of a source's bits (R86). -/
def Ty.negBits (t : Ty) (v : Nat) : Nat :=
  if t.isTapered && v % 2 ^ t.body == 0 then v
  else if v.testBit (t.width - 1) then v % 2 ^ (t.width - 1) else v + 2 ^ (t.width - 1)

/-- The source step of R85 on the bits of a floating-point or tapered source. -/
def Ty.modBits (t : Ty) (ab ng : Bool) (v : Nat) : Nat :=
  let v := if ab then t.absBits v else v
  if ng then t.negBits v else v

/-- The source step of R85 on an exact integer (R86). -/
def modInt (ab ng : Bool) (v : Int) : Int :=
  let v := if ab then (v.natAbs : Int) else v
  if ng then -v else v

/-- Whether a nonnegative value is above 1.0: its magnitude bits are above those of 1.0. -/
def Ty.aboveOne (t : Ty) (v : Nat) : Bool := decide (t.oneBits < v % 2 ^ (t.width - 1))

/-- Saturate of a rounded floating-point or tapered result (R88). -/
def Ty.saturate (t : Ty) (satc : Satc) (v : Nat) : Nat :=
  let isNan := match t.num v with | .nan _ => true | _ => false
  let neg := v.testBit (t.width - 1)
  match satc with
  | .none => v
  | .sat =>
    match t.num v with
    | .inf n => t.signBit n + t.maxBits
    | _ => v
  | .clamp01 => if isNan || neg then 0 else if t.aboveOne v then t.oneBits else v
  | .clamp11 => if isNan then 0 else if t.aboveOne v then t.signBit neg + t.oneBits else v

/-! ## Exact sums and products (R114) -/

/-- Whether a value is a signalling NaN. -/
def Num.isSig : Num → Bool
  | .nan s => s
  | _ => false

/-- Whether a value is a NaN. -/
def Num.isNan : Num → Bool
  | .nan _ => true
  | _ => false

/-- The exact product as a term of a sum, and whether it is invalid (R114). -/
def Num.mul (a b : Num) : Num × Bool :=
  match a, b with
  | .nan s, .nan s' => (.nan false, s || s')
  | .nan s, _ => (.nan false, s)
  | _, .nan s => (.nan false, s)
  | .inf n, .inf n' => (.inf (n ^^ n'), false)
  | .inf n, .fin n' m _ => if m = 0 then (.nan false, true) else (.inf (n ^^ n'), false)
  | .fin n m _, .inf n' => if m = 0 then (.nan false, true) else (.inf (n ^^ n'), false)
  | .fin n m e, .fin n' m' e' => (.fin (n ^^ n') (m * m') (e + e'), false)

/-- The least exponent of the finite terms, from a start. -/
def minExp (e0 : Int) : List Num → Int
  | [] => e0
  | .fin _ m e :: r => minExp (if m = 0 then e0 else min e0 e) r
  | _ :: r => minExp e0 r

/-- The sum of the finite terms in units of 2^lo. -/
def sumAt (lo : Int) : List Num → Int
  | [] => 0
  | .fin n m e :: r => (if n then -1 else 1) * ((m * 2 ^ (e - lo).toNat : Nat) : Int) + sumAt lo r
  | _ :: r => sumAt lo r

/-- The exact sum of terms and whether it is invalid (R114), with the zero-sign rule under the resolved mode. -/
def sumNum (rm : RMode) (ts : List Num) : Num × Bool :=
  let sig := ts.any Num.isSig
  let pos := ts.any (fun t => t == .inf false)
  let neg := ts.any (fun t => t == .inf true)
  if ts.any Num.isNan then (.nan false, sig)
  else if pos && neg then (.nan false, true)
  else if pos then (.inf false, false)
  else if neg then (.inf true, false)
  else
    let lo := minExp 0 ts
    let s := sumAt lo ts
    if s = 0 then
      let minusZero : Num → Bool := fun t => match t with | .fin n m _ => n && m == 0 | _ => false
      let plusZero : Num → Bool := fun t => match t with | .fin n m _ => !n && m == 0 | _ => false
      (.fin (ts.all minusZero || (rm == .down && !ts.all plusZero)) 0 0, false)
    else (.fin (decide (s < 0)) s.natAbs lo, false)

/-- Multiplies by 2^k exactly (R85). -/
def Num.scale (x : Num) (k : Int) : Num :=
  match x with
  | .fin n m e => .fin n m (e + k)
  | y => y

/-- The sign of a value. -/
def Num.neg : Num → Bool
  | .inf n => n
  | .fin n _ _ => n
  | .nan _ => false

/-- Order of numbers that are not NaN, −0 below +0 (R117, R136). -/
def Num.lt (a b : Num) : Bool :=
  match a, b with
  | .nan _, _ => false
  | _, .nan _ => false
  | .inf n, .inf n' => n && !n'
  | .inf n, _ => n
  | _, .inf n => !n
  | .fin n m e, .fin n' m' e' =>
    if n && !n' then true
    else if !n && n' then false
    else if n then magLt m' e' m e
    else magLt m e m' e'

/-- Numeric equality, −0 equal to +0; false on a NaN (R118). -/
def Num.eqNum (a b : Num) : Bool :=
  match a, b with
  | .nan _, _ => false
  | _, .nan _ => false
  | .inf n, .inf n' => n == n'
  | .inf _, _ => false
  | _, .inf _ => false
  | .fin n m e, .fin n' m' e' =>
    if m = 0 || m' = 0 then m == m' else n == n' && !magLt m e m' e' && !magLt m' e' m e

/-- The modifier word of an instruction, all zero where M = 0 (R85). -/
def Head.mods (h : Head) : Modifier :=
  h.mod.getD ⟨.none, 0, false, false, false, false, false, false, .dflt⟩

/-- SCALE as a signed exponent (R87). -/
def Modifier.exp (m : Modifier) : Int := m.scale.toInt

/-- The last steps of R85 on an exact result: SCALE, RoundTo, Saturate, with the flags. -/
def finishNum (t : Ty) (m : Modifier) (x : Num) (invalid : Bool) : Nat × Flags :=
  let (v, f) := roundTo t m.rm.resolve (x.scale m.exp)
  (t.saturate m.satc v, f ||| Flags.whenF invalid Flags.nv)

/-- The selected operand of FMIN or FMAX and whether NV is set (R117). -/
def selectNum (greater nan : Bool) (a b : Num) : Num × Bool :=
  let inv := a.isSig || b.isSig
  if a.isNan && b.isNan then (.nan false, inv)
  else if a.isNan then (if nan then .nan false else b, inv)
  else if b.isNan then (if nan then .nan false else a, inv)
  else if greater then (if a.lt b then b else a, inv)
  else (if b.lt a then b else a, inv)

end Sys2Proof
end

