-- ==== Sys2Proof/Machine/Bytes.lean ====
section
/-! DEFINITION. Values as bytes, and fields of messages and records (R7). -/

namespace Sys2Proof.Machine

/-- A little-endian value (R7). -/
def leNat : List Byte → Nat
  | [] => 0
  | b :: bs => b.toNat + 256 * leNat bs

/-- The bytes of a value, least significant first (R7). -/
def toBytes : Nat → Nat → List Byte
  | 0, _ => []
  | n + 1, v => BitVec.ofNat 8 v :: toBytes n (v / 256)

/-- The field of `n` bytes at an offset of a message or record, little-endian; bytes past the end read as zero. -/
def leAt (bs : List Byte) (off n : Nat) : Nat := leNat ((bs.drop off).take n)

/-- The bytes of a value, most significant first (the order of RFC 8391's toByte, R397). -/
def beBytes (n v : Nat) : List Byte := (toBytes n v).reverse

/-- A big-endian value. -/
def beNat (bs : List Byte) : Nat := leNat bs.reverse

/-- The bytes from an offset. -/
def slice (bs : List Byte) (off n : Nat) : List Byte := (bs.drop off).take n

end Sys2Proof.Machine
end

