-- ==== Sys2Proof/Machine/Keccak.lean ====
section
/-! DEFINITION. SHAKE256 (R397, R400, R401), by the permutation Keccak-f[1600] of FIPS 202 that NIST SP 800-208 takes it from. A
state is 25 lanes of 64 bits, lane x + 5y at row y. -/

namespace Sys2Proof.Machine
namespace Keccak

/-- A lane. -/
abbrev Lane := BitVec 64

/-- The lane at column x, row y, each modulo 5. -/
def at_ (a : List Lane) (x y : Nat) : Lane := a.getD (x % 5 + 5 * (y % 5)) 0

/-- A state by its lanes. -/
def build (f : Nat → Nat → Lane) : List Lane := (List.range 25).map (fun i => f (i % 5) (i / 5))

/-- The rotations of rho, by lane. -/
def turns : List Nat :=
  [0, 1, 62, 28, 27, 36, 44, 6, 55, 20, 3, 10, 43, 25, 39, 41, 45, 15, 21, 8, 18, 2, 61, 56, 14]

/-- The round constants of iota. -/
def rounds : List Lane :=
  [0x0000000000000001, 0x0000000000008082, 0x800000000000808A, 0x8000000080008000, 0x000000000000808B, 0x0000000080000001,
   0x8000000080008081, 0x8000000000008009, 0x000000000000008A, 0x0000000000000088, 0x0000000080008009, 0x000000008000000A] ++
  [0x000000008000808B, 0x800000000000008B, 0x8000000000008089, 0x8000000000008003, 0x8000000000008002, 0x8000000000000080,
   0x000000000000800A, 0x800000008000000A, 0x8000000080008081, 0x8000000000008080, 0x0000000080000001, 0x8000000080008008]

/-- The parity of a column. -/
def parity (a : List Lane) (x : Nat) : Lane := at_ a x 0 ^^^ at_ a x 1 ^^^ at_ a x 2 ^^^ at_ a x 3 ^^^ at_ a x 4

/-- theta: each lane with the parities of the columns beside its own. -/
def theta (a : List Lane) : List Lane :=
  let c := (List.range 5).map (parity a)
  let d := (List.range 5).map (fun x => c.getD ((x + 4) % 5) 0 ^^^ (c.getD ((x + 1) % 5) 0).rotateLeft 1)
  build (fun x y => at_ a x y ^^^ d.getD x 0)

/-- rho and pi: lane (x, y) rotated and moved to (y, 2x + 3y). -/
def rhoPi (a : List Lane) : List Lane :=
  build (fun x y => (at_ a (x + 3 * y) x).rotateLeft (turns.getD ((x + 3 * y) % 5 + 5 * x) 0))

/-- chi: each lane with the two after it in its row. -/
def chi (a : List Lane) : List Lane := build (fun x y => at_ a x y ^^^ (~~~ at_ a (x + 1) y &&& at_ a (x + 2) y))

/-- One round. -/
def round (a : List Lane) (rc : Lane) : List Lane :=
  match chi (rhoPi (theta a)) with
  | [] => []
  | l :: r => (l ^^^ rc) :: r

/-- The permutation. -/
def permute (a : List Lane) : List Lane := rounds.foldl round a

/-- The bytes SHAKE256 takes in before each permutation. -/
def rate : Nat := 136

/-- The message padded to whole blocks: 1111 and the padding 10*1. -/
def pad (m : List Byte) : List Byte :=
  let n := rate - m.length % rate
  if n = 1 then m ++ [0x9F] else m ++ [0x1F] ++ List.replicate (n - 2) 0 ++ [0x80]

/-- A block taken into the state. -/
def absorb (a : List Lane) (block : List Byte) : List Lane :=
  permute (build (fun x y => at_ a x y ^^^ BitVec.ofNat 64 (leAt block (8 * (x + 5 * y)) 8)))

/-- The state after a padded message of `n` blocks. -/
def absorbAll (a : List Lane) (m : List Byte) : Nat → List Lane
  | 0 => a
  | n + 1 => absorbAll (absorb a (m.take rate)) (m.drop rate) n

end Keccak

/-- The first 32 bytes of SHAKE256 of a message (R397: n = 32). -/
def shake256 (m : List Byte) : List Byte :=
  let p := Keccak.pad m
  let a := Keccak.absorbAll (List.replicate 25 0) p (p.length / Keccak.rate)
  (a.take 4).flatMap (fun l => toBytes 8 l.toNat)

end Sys2Proof.Machine
end

