-- ==== Sys2Proof/Machine/Xmss.lean ====
section
/-! DEFINITION. Verification of an XMSS signature (R397), by RFC 8391 section 4.1.10 in the parameter set
XMSS-SHAKE256_20_256 of NIST SP 800-208: n = 32, w = 16, 67 chains, height 20. -/

namespace Sys2Proof.Machine.Xmss

/-- The address of one hash: its type (0 a one-time signature, 1 an L-tree, 2 the tree), its instance, and the two words and
the selector of its type. -/
structure HashAddr where
  kind : Nat
  inst : Nat
  one : Nat
  two : Nat
  sel : Nat
deriving DecidableEq, Repr

/-- The 32 bytes of an address in layer 0, tree 0. -/
def HashAddr.bytes (x : HashAddr) : List Byte :=
  List.replicate 12 0 ++ [x.kind, x.inst, x.one, x.two, x.sel].flatMap (beBytes 4)

/-- A keyed hash: 0 F, 1 H, 2 the message's, 3 the generator's. -/
def keyed (fn : Nat) (key m : List Byte) : List Byte := shake256 (beBytes 32 fn ++ key ++ m)

/-- The generator's 32 bytes for an address. -/
def prf (seed : List Byte) (x : HashAddr) : List Byte := keyed 3 seed x.bytes

/-- Bytes combined one by one. -/
def mask (a b : List Byte) : List Byte := List.zipWith (fun x y => x ^^^ y) a b

/-- A chain of `n` steps from step `i`. -/
def chain (seed : List Byte) (x : HashAddr) (i : Nat) (v : List Byte) : Nat → List Byte
  | 0 => v
  | n + 1 =>
    let y := { x with two := i }
    chain seed x (i + 1) (keyed 0 (prf seed { y with sel := 0 }) (mask v (prf seed { y with sel := 1 }))) n

/-- Two nodes joined. -/
def join (seed : List Byte) (x : HashAddr) (l r : List Byte) : List Byte :=
  keyed 1 (prf seed { x with sel := 0 }) (mask l (prf seed { x with sel := 1 }) ++ mask r (prf seed { x with sel := 2 }))

/-- The digits of a byte string, four bits each, high half first. -/
def digits (bs : List Byte) : List Nat := bs.flatMap (fun b => [b.toNat / 16, b.toNat % 16])

/-- The 67 chain lengths of a digest: its digits and those of their checksum. -/
def lengths (m : List Byte) : List Nat :=
  let d := digits m
  d ++ (digits (beBytes 2 (16 * (d.map (fun x => 15 - x)).sum))).take 3

/-- The one-time public key that a signature of a digest gives. -/
def otsKey (seed : List Byte) (idx : Nat) (sig m : List Byte) : List (List Byte) :=
  (List.range 67).map (fun i =>
    let d := (lengths m).getD i 0
    chain seed ⟨0, idx, i, 0, 0⟩ d (slice sig (32 * i) 32) (15 - d))

/-- One level of an L-tree: nodes joined in pairs, the last one of an odd number carried up. -/
def pairs (seed : List Byte) (idx h i : Nat) : List (List Byte) → List (List Byte)
  | a :: b :: r => join seed ⟨1, idx, h, i, 0⟩ a b :: pairs seed idx h (i + 1) r
  | r => r

/-- The root of an L-tree, in at most `n` levels. -/
def ltree (seed : List Byte) (idx h : Nat) (nodes : List (List Byte)) : Nat → List Byte
  | 0 => nodes.headD []
  | n + 1 => if nodes.length ≤ 1 then nodes.headD [] else ltree seed idx (h + 1) (pairs seed idx h 0 nodes) n

/-- The tree climbed from a leaf by the authentication path, level `h` up. -/
def climb (seed : List Byte) (idx h : Nat) (node : List Byte) : List (List Byte) → List Byte
  | [] => node
  | a :: r =>
    let x : HashAddr := ⟨2, 0, h, idx / 2 ^ (h + 1), 0⟩
    climb seed idx (h + 1) (if idx / 2 ^ h % 2 = 0 then join seed x node a else join seed x a node) r

/-- The lengths of a public key (its identifier, root and seed) and of a signature (its index, randomness, chains, path). -/
def keyBytes : Nat := 68
def sigBytes : Nat := 4 + 32 + 67 * 32 + 20 * 32

/-- Whether a signature of a message stands under a public key. -/
def verifies (key msg sig : List Byte) : Bool :=
  let root := slice key 4 32
  let seed := slice key 36 32
  let idx := beNat (sig.take 4)
  let digest := keyed 2 (slice sig 4 32 ++ root ++ beBytes 32 idx) msg
  let leaf := ltree seed idx 0 (otsKey seed idx (slice sig 36 (67 * 32)) digest) 7
  let path := (List.range 20).map (fun i => slice sig (36 + 67 * 32 + 32 * i) 32)
  key.length == keyBytes && sig.length == sigBytes && beNat (key.take 4) == 0x12 && decide (idx < 2 ^ 20) && climb seed idx 0 leaf path == root

end Sys2Proof.Machine.Xmss
end

