-- ==== Sys2Proof/Machine/State.lean ====
section
/-! DEFINITION. The state of the Zhesar ZH-8 as plain data: threads, groups, teams, clusters, cores, homes and slices,
contexts and virtual devices, launches, tasks and manifests, hypotheses, engines, the endpoint and Henip; and the state
right after a successful bring-up. Every field's docstring names the rule that gives it. -/

namespace Sys2Proof.Machine

/-- A finite map kept as a list of keys and values in rising key order; a key that is absent reads as the default its
accessor names. -/
abbrev SMap (α : Type) := List (Nat × α)

/-- Memory: bytes by address, addresses strictly rising, no entry equal to 0, which is what an unlisted byte reads as
(R395: bring-up leaves every HBM and SRAM byte at zero). -/
abbrev Mem := List Host.Cell

/-! ## Threads (R66, R156, R243 to R246) -/

/-- The privilege levels (R243). -/
inductive Priv where
  | task | supervisor
deriving DecidableEq, Repr

/-- The thread states (R156). -/
inductive ThState where
  | ready | waiting | parked | inHandler | orphaned | exited
deriving DecidableEq, Repr

/-- A save slot: tsw, tpc, tca, tva and tvb of one nesting level (R244). -/
structure SaveSlot where
  tsw : Word
  tca : Word
  tpc : Addr
  tva : Addr
  tvb : Addr
deriving DecidableEq, Repr

/-- What an outstanding result is (R157): a register or predicate result, RNG's advance of rngc, an MMA's capture of B,
or the thread's share of a ULD. -/
inductive PendTag where
  | result
  | rng
  | capture (op : Nat)
  | uld
deriving DecidableEq, Repr

/-- An outstanding result (R157, R158): the registers and predicates it will write, fixed when its instruction issued;
`seq` orders the results of the device by issue. -/
structure Pending where
  seq : Nat
  tag : PendTag
  regs : List (Nat × Word)
  preds : List (Nat × Bool)
deriving DecidableEq, Repr

/-- What a thread that cannot issue for want of room waits for: its group's counter and its core's queue of an engine class (R223), or a
token and its quad's queue (R237, R240). -/
inductive Room where
  | engine (cls : EClass)
  | token (tok : Nat)
deriving DecidableEq, Repr

/-- What a waiting thread waits for (R156). `room` and `dataflow` keep the PC at the instruction, which issues again. -/
inductive WaitKind where
  | marker                                   -- K marker (R157)
  | barDrain (b : Nat) (arv : Bool)          -- BAR, outstanding results first (R195)
  | barAgain (b : Nat) (arv : Bool)          -- BAR after an arrival in the same phase (R195)
  | bar (b : Nat)                            -- arrived at a team barrier
  | cbarDrain (b : Nat) (arv : Bool)         -- CBAR (R281)
  | cbarAgain (b : Nat) (arv : Bool)
  | cbar (b : Nat)
  | waitc (cls : EClass) (n : Nat)           -- R224
  | waitt (mask : Word)                      -- R241
  | lwait (off n : Nat)                      -- R235
  | sleept (stamp : Addr) (lim : Nat)        -- R236; `lim` bounds the operations issued before it
  | fenceE (ops : List Nat)                  -- R140
  | fenceN (ops : List Nat)                  -- R140
  | collective                               -- R172
  | permit (n : Nat)                         -- R202
  | yield (until_ : Nat)                     -- R203, R365
  | ckpt                                     -- R261
  | close                                    -- an irrevocable instruction, for its interval close (R260)
  | room (what : Room)                       -- a full counter or queue, a busy token (R223, R237, R240)
  | resolve (d : Pred) (node : Nat) (ref : Bool) -- HRES, for the teams it stops to close (R359, R360)
  | home                                     -- at a home or a row, for another team's close (R259)
  | dataflow (task : Nat)                    -- R331
  | swpt (p : Nat)                           -- R198
  | dph                                      -- R369
  | serial                                   -- a deferred access (R323, R365)
  | tlbi (ops : List Nat)                    -- R392
deriving DecidableEq, Repr

/-- A wait record: what is awaited, the address of the waiting instruction, whether it bears K, %cyc at its start (the cycles waited so
far while the team is saved, R177), and the interval its instruction was counted in (R70). -/
structure Wait where
  kind : WaitKind
  pc : Addr
  k : Bool
  since : Nat
  ival : Nat
deriving DecidableEq, Repr

/-- What a trap records besides its cause and two addresses (R246). -/
structure TrapInfo where
  cause : Cause
  va : Addr
  vb : Addr
  unit : Nat := 0
  ecls : Nat := 0
  space : Nat := 0
  wr : Bool := false
  fk : Nat := 0
deriving DecidableEq, Repr

/-- A trap that a thread has taken and that waits for its outstanding results (R156, R245): what it records, and the address of the
trapping instruction. -/
structure Park where
  info : TrapInfo
  pc : Addr
deriving DecidableEq, Repr

/-- A thread's own state (R66). `hyp` is the identity of its hypothesis node, 0 for the root; the number is the node's
(R350). `orphanOf` holds the refuted number from the refute until ORPHAN is taken (R156, R360). -/
structure Thread where
  pc : Addr
  regs : SMap Word
  preds : BitVec 12
  hyp : Nat
  rngk : BitVec 64
  rngc : BitVec 128
  fflags : BitVec 4
  st : ThState
  wait : Option Wait
  level : Nat
  priv : Priv
  slot1 : SaveSlot
  slot2 : SaveSlot
  fw1 : Bool
  fw2 : Bool
  fair : Nat
  promoted : Bool
  pend : List Pending
  orphanOf : Option Nat
  lwaits : Nat
  park : Option Park
deriving DecidableEq, Repr

/-! ## Groups (R67, R163 to R177, R223) -/

/-- A busy special-function token (R237): the results still to be written, as lane, register and value. -/
structure Token where
  num : Nat
  seq : Nat
  writes : List (Nat × Nat × Word)
deriving DecidableEq, Repr

/-- A ULD result of the group (R170): the uniform registers it writes, the lanes of the issuing fragment, and whether it has been
written; the lanes of that fragment that a K marker has released since, and the lanes that have passed a BAR which that fragment has
passed too. The entry leaves when every thread of the group sees the result for certain. -/
structure UPend where
  seq : Nat
  regs : List (Nat × Word)
  lanes : List Nat
  written : Bool
  released : List Nat
  passed : List Nat
deriving DecidableEq, Repr

/-- A thread's arrival at a collective (R172): what it captured, and whether it has completed. -/
structure Arrival where
  lane : Nat
  instr : Instr
  a : BitVec 64
  b : Word
  mask : Word
  done : Bool
deriving DecidableEq, Repr

/-- An open instance of a collective at one address (R173), with the arrivals and absences kept for the next one. -/
structure CInstance where
  address : Addr
  arrivals : List Arrival
  absent : List Nat
  nextArrivals : List Arrival
  nextAbsent : List Nat
deriving DecidableEq, Repr

/-- A reported engine fault not yet observed by a thread (R225); `past` where its operation ran on past a close (R257). -/
structure FaultRec where
  op : Nat
  cls : EClass
  tva : Addr
  tvb : Addr
  space : Space
  wr : Bool
  past : Bool
deriving DecidableEq, Repr

/-- A group's shared state (R67); `unclaimed` are the lane, register and token of special-function results that have arrived and that no
WAITT has named since (R237). -/
structure Group where
  uregs : SMap Word
  ctrFerry : Nat
  ctrMatrix : Nat
  ctrNet : Nat
  tokens : List Token
  unclaimed : List (Nat × Nat × Nat)
  upend : List UPend
  colls : List CInstance
  faults : List FaultRec
deriving DecidableEq, Repr

/-! ## Teams (R195 to R203, R204, R255) -/

/-- A barrier (R195, R281): phase, arrival count, who arrived in the current phase, %cyc of the last arrival (R160), and
the checksum segments captured at the arrivals (R374). -/
structure Bar where
  phase : Word
  count : Nat
  arrived : List Nat
  last : Nat
  segs : List (Nat × List Byte)
deriving DecidableEq, Repr

/-- The modes of an accumulator (R204). -/
inductive AccMode where
  | f32 | s32
deriving DecidableEq, Repr

/-- An accumulator (R204, R209, R210): elements by 128 × row + column, absent ones +0; `issueMode` is the mode of the
last MZERO issued. -/
structure Acc where
  mode : AccMode
  issueMode : AccMode
  chainOpen : Bool
  astat : Word
  elems : SMap Word
deriving DecidableEq, Repr

/-- The team-scope CSRs (R251). -/
structure TeamCsr where
  fair : Nat
  lease : Nat
  ckint : Nat
  dbg : Word
deriving DecidableEq, Repr

/-- An entry of a deterministic team's buffers (R323, R365): a shared store, an ordered atomic, an LR or SC, a deferred
cluster-window access, an engine's held countdown of another rank's barrier, or its held writes. `pa` are physical
addresses, `va` what a trap reports. -/
inductive BufOp where
  | store (va pa : Nat) (data : List Byte)
  | atom (va pa : Nat) (op : AtomOp) (ty : Ty) (c e : BitVec 128) (dest : Option Nat)
  | lr (pa : Nat) (ty : Ty) (dest : Nat)
  | sc (va pa : Nat) (data : List Byte) (dest : Nat)
  | cload (rank off : Nat) (ty : Ty) (uniform : Bool) (dest : Nat)
  | cstore (rank off : Nat) (data : List Byte)
  | ccount (rank off n : Nat) (fault : Bool)
  | engine (op va : Nat) (writes : List (Nat × Byte))
deriving DecidableEq, Repr

/-- A buffer entry with the thread it serves and the hypothesis it carries (R323, R352). -/
structure BufEntry where
  thread : Option Nat
  hyp : Nat
  op : BufOp
deriving DecidableEq, Repr

/-- The part of a team that a control snapshot holds and a rollback restores (R255, R262): threads by 32 × group + lane, groups,
team barriers, the team's arrivals at cluster barriers, CSRs, permits, accumulators, deterministic buffers; `cursor` is the
quadrant whose turn comes first in a deterministic team's sequence of selections (R365). -/
structure TeamBody where
  threads : SMap Thread
  groups : SMap Group
  bars : SMap Bar
  cbarArrivals : List (Nat × Nat)
  csr : TeamCsr
  permits : Nat
  accs : SMap Acc
  buf : List BufEntry
  selections : Nat
  quantumWork : Nat
  cursor : Nat
deriving DecidableEq, Repr

/-- A version line of a hypothesis at a home (R352, R353): its hypothesis, line and way, the bytes written and their
values by physical address; and, by context, the bytes that its threads and engines wrote (R330, R361). -/
structure VLine where
  hyp : Nat
  line : Nat
  way : Nat
  mask : BitVec 128
  data : Mem
  by_ : SMap (BitVec 128)
deriving DecidableEq, Repr

/-- An item of the undo log (R255): a row or line the team wrote in its open interval. Scratchpad rows and memory bytes
carry their prior contents; the prior contents of register and accumulator rows are those of the snapshot. -/
inductive LogItem where
  | regRow (group row : Nat)
  | uniRow (group row : Nat)
  | scratchRow (team row : Nat) (prior : Mem)
  | accRow (acc row : Nat)
  | line (line : Nat) (prior : List (Nat × Byte))
  | vline (hyp line : Nat) (prior : Option VLine)
deriving DecidableEq, Repr

/-- A pending switch request (R197 to R200): target variant, the held point, and %cyc of the first wait there; `only` is the point
that a bound ephemeris has recorded for it (R372). -/
structure SwitchReq where
  target : Nat
  point : Option Nat
  since : Option Nat
  only : Option Nat
deriving DecidableEq, Repr

/-- A requested stop (R373): who asked, its SEQ, the interval ordinal and work count. -/
structure StopReq where
  who : Sender
  seq : Word
  interval : Nat
  work : Nat
deriving DecidableEq, Repr

/-! ## Kernel images (R35 to R38) -/

/-- A variant record (R37) with its switch-point table. -/
structure Variant where
  lregs : Nat
  uregs : Nat
  accums : Nat
  permits : Nat
  scratch : Nat
  entry : Nat
  codeLen : Nat
  handler : Nat
  points : List Nat
deriving DecidableEq, Repr

/-- A switch-map item (R38): kind 0 lane registers, 1 uniform registers, 2 scratchpad bytes. -/
structure MapItem where
  kind : Nat
  src : Nat
  dst : Nat
  count : Nat
deriving DecidableEq, Repr

/-- A switch-map record (R38). -/
structure SwitchMap where
  point : Nat
  src : Nat
  dst : Nat
  items : List MapItem
deriving DecidableEq, Repr

/-- A checked kernel image as the dispatcher holds it (R35 to R41). -/
structure Image where
  addr : Nat
  idempotent : Bool
  modular : Bool
  npoint : Nat
  psize : Nat
  codeOff : Nat
  codeSize : Nat
  imgSize : Nat
  variants : List Variant
  maps : List SwitchMap
deriving DecidableEq, Repr

/-- Where a team stands in its life (R147, R193, R264, R268). -/
inductive TeamPhase where
  | admitted        -- resources held, waiting for carve write-backs (R193)
  | running
  | draining        -- chosen for removal by DRAIN (R265)
  | stopped         -- held by a STOP (R373)
  | saving          -- stopped for a SAVE, its operations to complete (R268)
  | saved           -- out of its core, in a save record (R268)
  | restarting      -- discarded, to start again (R266)
  | ended           -- completed or reset; resources freed
deriving DecidableEq, Repr

/-- The header of a save record (R269), and where the record lies in the save area, if it has one. -/
structure SaveRec where
  mode : Nat
  variant : Nat
  groups : Nat
  permits : Nat
  team : Nat
  task : Nat
  interval : Nat
  pts : Stamp
  thrOff : Nat
  regOff : Nat
  scrOff : Nat
  accOff : Nat
  engOff : Nat
  detOff : Nat
  size : Nat
  at_ : Option Nat
deriving DecidableEq, Repr

/-- A team (R2, R188 to R203): its identity and launch, image and variant, core and the first group slot of each of its quads
(R186), its body and scratchpad, the snapshot and undo log of its open interval with where that log is damaged (R263), and the
requests that stand against it; `chosenAt` is %cyc when the dispatcher chose to remove it (R264, R404), `need` what a DRAIN makes
room for (R265); `saveRolled` says that an error has rolled it back since its SAVE began (R273); `recMark` counts the reads and
writes its task record held when the open interval began (R346); `lastIssue` holds the cycle after the last bundle of each
quadrant (R149). -/
structure Team where
  launch : Nat
  vdev : Nat
  ctx : Nat
  team : Nat
  task : Nat
  cluster : Nat
  clus : Nat
  rank : Nat
  gcount : Nat
  img : Image
  params : List Byte
  key : Nat
  depth : Nat
  ordinal : Nat
  parent : Option Nat
  children : Nat
  startHyp : Nat
  startOrphan : Option Nat
  variant : Nat
  core : Nat
  quads : List Nat
  phase : TeamPhase
  body : TeamBody
  scratch : Mem
  snap : TeamBody
  log : List LogItem
  logBad : Option Nat
  interval : Nat
  work : Nat
  errRollbacks : Nat
  closing : Bool
  sw : Option SwitchReq
  switches : Nat
  drainBy : Option Nat
  need : Option (Nat × Nat)
  saveRolled : Bool
  irrevocable : Bool
  admittedAt : Nat
  chosenAt : Option Nat
  lender : Option Nat
  reclaimBy : Option Nat
  stop : Option StopReq
  reexec : Option Nat
  freshExec : Bool
  saveRec : Option SaveRec
  failed : Bool
  recMark : Nat × Nat
  lastIssue : SMap Nat
deriving DecidableEq, Repr

/-- A cluster (R276 to R286): its launch and index, its teams by rank, its four barriers, and where it stands. -/
structure Cluster where
  launch : Nat
  index : Nat
  members : List Nat
  bars : SMap Bar
deriving DecidableEq, Repr

/-! ## Engines (R205 to R234, R411 to R414) -/

/-- A checked CPY block (R226). -/
structure CpyBlk where
  sspace : Space
  dspace : Space
  mcast : Bool
  lbar : Bool
  out : Bool
  tile : Nat
  ranks : Nat
  sbase : Nat
  dbase : Nat
  sstride : Nat
  dstride : Nat
  rows : Nat
  rowBytes : Nat
  lboff : Nat
deriving DecidableEq, Repr

/-- A checked MMA block (R211). -/
structure MmaBlk where
  acc : Nat
  fmt : Ty
  breg : Nat
  tile : Nat
  abase : Nat
  astride : Nat
  arows : Nat
  aelems : Nat
deriving DecidableEq, Repr

/-- A checked MDRAIN block (R218). -/
structure DrainBlk where
  acc : Nat
  ofmt : Ty
  retire : Bool
  clear : Bool
  rowsc : Bool
  colsc : Bool
  tile : Nat
  obase : Nat
  ostride : Nat
  orows : Nat
  ocols : Nat
  rsoff : Nat
  csoff : Nat
  stoff : Nat
deriving DecidableEq, Repr

/-- A checked network block (R412). -/
structure NetBlk where
  local_ : Space
  ord : Bool
  len : Nat
  lbase : Nat
  raddr : Nat
  tag : Word
  moff : Nat
deriving DecidableEq, Repr

/-- What an engine operation does. An MMA carries its captured B: by column, the registers as words. -/
inductive OpKind where
  | cpy (blk : CpyBlk)
  | mzero (acc : Nat) (mode : AccMode)
  | mma (blk : MmaBlk) (b : SMap (List Word)) (spoiled : Bool)
  | mdrain (blk : DrainBlk)
  | nput (blk : NetBlk)
  | nget (blk : NetBlk)
  | nsend (blk : NetBlk)
deriving DecidableEq, Repr

/-- A byte an engine operation or an access reaches (R229, R315): a physical byte of HBM, or a byte of a team's
scratchpad array. -/
inductive Place where
  | hbm (pa : Nat)
  | scr (team off : Nat)
deriving DecidableEq, Repr

/-- A byte that a colliding write leaves unspecified, in the view of the hypothesis it was written under (R315, R320). -/
structure ByteTouch where
  place : Place
  hyp : Nat
deriving DecidableEq, Repr

/-- An issued engine operation, from issue to report (R223, R314): its class's engine, issuing team, group and thread,
the interval it belongs to (none once it runs past a close, R257), hypothesis, block offset, issue time, promise and
charge; the rows done; whether it is complete; its fault; the bytes in which another operation in flight also writes
(R229) and the bytes a colliding thread write has touched (R315); whether the issuing thread was at supervisor level
(R389); the writes held for a serial phase (R365). -/
structure EngineOp where
  uid : Nat
  cls : EClass
  kind : OpKind
  team : Nat
  group : Nat
  thread : Nat
  core : Nat
  interval : Option Nat
  hyp : Nat
  sup : Bool
  blockOff : Nat
  issuedAt : Nat
  promise : Nat
  charge : Nat
  rowsDone : List Nat
  started : Bool
  complete : Bool
  acked : Bool
  fault : Option FaultRec
  clash : List Place
  touched : List ByteTouch
  held : List BufEntry
  rowBuf : SMap (List Byte)
  parts : List (Nat × Nat × Nat)
  paid : Nat
  excused : Bool
deriving DecidableEq, Repr

/-- The times of a tile's record (R375). -/
inductive TileTime where
  | cins | cine | opw | mmaf | mmal | drne | coute
deriving DecidableEq, Repr

/-- A stamp of an open tile: which time, %cyc, and the interval its operation was issued in, where that was open (R275). -/
structure TileStamp where
  what : TileTime
  cyc : Nat
  interval : Option Nat
deriving DecidableEq, Repr

/-- An open tile (R220, R232, R275, R375), held by task and tile number: its stamps in the order they were taken, and the core of its
retiring MDRAIN. -/
structure Tile where
  team : Nat
  task : Nat
  tile : Nat
  stamps : List TileStamp
  core : Nat
deriving DecidableEq, Repr

/-! ## Cores, dies and homes (R55, R186, R287 to R306, R390) -/

/-- How an L1 holds a line (R291, R294, R296). -/
inductive L1Kind where
  | leased | owned | privatised
deriving DecidableEq, Repr

/-- A line in an L1: its context identifier (R290), its stamps, its bytes by physical address, the bytes the core has
written since the grant (R296), and those of them written in intervals that have closed (R263). -/
structure L1Line where
  ident : Nat
  kind : L1Kind
  wts : Stamp
  rts : Stamp
  data : Mem
  mask : BitVec 128
  older : BitVec 128
deriving DecidableEq, Repr

/-- A line of an instruction cache (R55), with the words as filled. -/
structure ILine where
  ident : Nat
  line : Nat
  data : Mem
deriving DecidableEq, Repr

/-- A cached translation (R390): identifier, virtual base and size of the page, physical base, and permissions. -/
structure TlbEntry where
  ident : Nat
  vbase : Nat
  size : Nat
  pbase : Nat
  r : Bool
  w : Bool
  x : Bool
  sup : Bool
deriving DecidableEq, Repr

/-- A thread waiting for permits in first-come order (R202), or a resumed or rolled-back team (`thread` none; R201,
R272). -/
structure PermitWait where
  team : Nat
  thread : Option Nat
  n : Nat
deriving DecidableEq, Repr

/-- What a team that has ended still holds of its core: all it had, reserved for the need for which the dispatcher removed it
(R265), which is named by a launch and the first task of what waits there; or, without a need, the scratchpad rows that accesses
and copies of other ranks still reach (R279). -/
structure Hold where
  team : Nat
  quads : List Nat
  need : Option (Nat × Nat)
deriving DecidableEq, Repr

/-- A core (R186): program stamp (R291), L1, instruction cache, L1 TLB, the permit pool as the owner set it and its queue (R201), the
slot the matrix engine's round-robin reached (R207), and what teams that have ended still hold of it (R265, R279). -/
structure Core where
  pts : Stamp
  l1 : SMap L1Line
  icache : List ILine
  tlb : List TlbEntry
  pool : Nat
  permitQ : List PermitWait
  matrixTurn : Nat
  held : List Hold
deriving DecidableEq, Repr

/-- A code line in flight at a die's fetch agent (R56): the cores that have joined, each with the identifier its copy takes. -/
structure FetchReq where
  line : Nat
  joined : List (Nat × Nat)
deriving DecidableEq, Repr

/-- A value that a word of memory held before a write while a launch ran (R59): the word's index, the value, and the next identity
at the write, which is above the identity of every launch begun before it. -/
structure CodeOld where
  word : Nat
  old : Word
  at_ : Nat
deriving DecidableEq, Repr

/-- A die: its copy of the stamp base and its sweep epoch (R302), its translation cache (R390), its junction temperature,
clock state, the cycles of %cyc it has been throttled since power-on (R406, R424), and the lines its fetch agent has in flight
(R56). -/
structure Die where
  base : Stamp
  epoch : Word
  tlb : List TlbEntry
  temp : Int
  stretched : Bool
  throttled : Bool
  throttleCyc : Nat
  fetches : List FetchReq
deriving DecidableEq, Repr

/-- A line resident in its home slice (R288 to R292): identifier tag, way, stamps, the cores that own or privatise it,
the last use for replacement, and whether its bytes have been written since it was filled (R306). -/
structure HomeLine where
  ident : Nat
  way : Nat
  wts : Stamp
  rts : Stamp
  holders : List Nat
  lastUse : Nat
  dirty : Bool
deriving DecidableEq, Repr

/-- A reservation (R298): the thread, the granule (physical address div 8), and %cyc at its placement. -/
structure Resv where
  team : Nat
  thread : Nat
  granule : Nat
  placed : Nat
deriving DecidableEq, Repr

/-- A transfer between a slice and its channel that waits for its virtual device's tokens, or has been granted them (R382): the
line, and whether it fills the slice. -/
structure MemReq where
  vdev : Nat
  line : Nat
  fill : Bool
deriving DecidableEq, Repr

/-- A deterministic launch's ownership mark (R366); `contended` is a line private to one team that another team waits to
reach, shared at the next serial phase (R323); `unplaced` is a line whose mark its slice could not place, shared. -/
inductive Mark where
  | claimed (teams : List Nat)
  | private_ (team : Nat)
  | contended (team : Nat)
  | shared
  | unplaced
deriving DecidableEq, Repr

/-! ## Hypotheses (R350) -/

/-- What became of a hypothesis (R262, R359, R360): live, merged into another node, or refuted by the HRES that named
number `k`, its threads going to node `into`. -/
inductive HypStatus where
  | live
  | confirmed (into : Nat)
  | refuted (k into : Nat)
deriving DecidableEq, Repr

/-- A hypothesis node: its virtual device, number, parent node (0 the root) and status. Node identities are never
reissued, numbers are. -/
structure HypNode where
  vdev : Nat
  number : Nat
  parent : Nat
  status : HypStatus
deriving DecidableEq, Repr

/-! ## Virtual devices (R329, R381 to R390, R376 to R378, R409, R410) -/

/-- A modifiable region (R329). -/
structure Region where
  base : Nat
  lg : Nat
  count : Nat
deriving DecidableEq, Repr

/-- A context: its translation root (R388), regions (R329) and counter page (R378). -/
structure Ctx where
  root : Option Nat
  regions : SMap Region
  cntpage : Option Nat
deriving DecidableEq, Repr

/-- A virtual device's ranges on one core (R381). -/
structure Quota where
  slot0 : Nat
  nslot : Nat
  rrow0 : List Nat
  nrrow : List Nat
  srow0 : Nat
  nsrow : Nat
  acc0 : Nat
  nacc : Nat
  pshare : Nat
deriving DecidableEq, Repr

/-- A virtual device's ways in one slice (R382, R384). -/
structure Ways where
  first : Nat
  count : Nat
  lend : Word
deriving DecidableEq, Repr

/-- A peer-table entry (R409). -/
structure Peer where
  port : Nat
  endpoint : List Byte
deriving DecidableEq, Repr

/-- An exposed window (R410). -/
structure Window where
  ctx : Nat
  peer : Nat
  base : Nat
  len : Nat
  rd : Bool
  wr : Bool
deriving DecidableEq, Repr

/-- A tile or checksum ring (R376): its size and the physical pages it is bound to, as 64 KiB page bases by index. -/
structure Ring where
  size : Nat
  pages : List Nat
  off0 : Nat
deriving DecidableEq, Repr

/-- An Observatory counter (R377). -/
structure Counter where
  event : Nat
  value : BitVec 64
deriving DecidableEq, Repr

/-- A region of HBM reserved for the undo log or the save area (R258, R269). -/
structure HbmArea where
  pa : Nat
  size : Nat
deriving DecidableEq, Repr

/-- A virtual device's configuration and shared state; `resetting` is %cyc at the start of a function-level reset's drain
(R385). -/
structure VDev where
  sbase : Addr
  ctxs : SMap Ctx
  quotas : SMap Quota
  ways : SMap Ways
  lend : Bool
  borrow : Bool
  coreLend : BitVec 8
  drainUs : Nat
  peers : SMap Peer
  windows : SMap Window
  timeoutUs : Nat
  tileRing : Option Ring
  sumRing : Option Ring
  counters : SMap Counter
  defaults : TeamCsr
  undoArea : Option HbmArea
  saveArea : Option HbmArea
  resetting : Option Nat
deriving DecidableEq, Repr

/-- A token bucket (R382): rate and held tokens in units of 2^-16, depth in tokens. -/
structure Bucket where
  rate : Nat
  depth : Nat
  tokens : Nat
deriving DecidableEq, Repr

/-! ## Launches, tasks and manifests (R327 to R348, R370, R426, R427) -/

/-- An entry of a completion record (R427). -/
structure CEntry where
  task : Nat
  cause : Nat
  engine : Bool
  tpc : Addr
  tva : Addr
  tvb : Addr
deriving DecidableEq, Repr

/-- A spawned or re-executed task that waits for admission (R339, R342). -/
structure QTask where
  task : Nat
  img : Image
  params : List Byte
  key : Nat
  groups : Nat
  depth : Nat
  ordinal : Nat
  parent : Option Nat
  hyp : Nat
  orphan : Option Nat
  reexec : Option Nat
  fresh : Bool
deriving DecidableEq, Repr

/-- A launch (R426) from its acceptance to its completion record; `prop` marks the work of a propagation (R341), which
sends none; `stamp` is a time of the global order that its teams start at or after (R309, R420). -/
structure Launch where
  id : BitVec 64
  who : Sender
  seq : Word
  vdev : Nat
  ctx : Nat
  prio : Nat
  traced : Bool
  det : Bool
  replay : Bool
  img : Image
  params : List Byte
  teams : Nat
  groups : Nat
  ch : Nat
  cw : Nat
  carve : Nat
  quantum : Nat
  rngk : BitVec 64
  mhandle : Nat
  ephem : Nat
  nextClus : Nat
  nextTask : Nat
  spawned : List QTask
  doneTasks : List Nat
  requeue : List Nat
  phases : Nat
  first : Option (Nat × Nat)
  last : Option (Nat × Nat)
  instrs : Nat
  entries : List CEntry
  modOrder : Bool
  untraced : Bool
  prop : Bool
  stamp : Stamp
  marks : SMap Mark
  complete : Bool
deriving DecidableEq, Repr

/-- A granule a task has read (R336): region, virtual address, log2 size, hypothesis node. -/
structure ReadG where
  region : Nat
  addr : Nat
  lg : Nat
  hyp : Nat
deriving DecidableEq, Repr

/-- A granule a task has written (R336): region, virtual address, log2 size, prior and final bytes, hypothesis, and
the value just before the current execution's first write (R344). -/
structure WriteG where
  region : Nat
  addr : Nat
  lg : Nat
  prior : List Byte
  value : List Byte
  before : List Byte
  hyp : Nat
deriving DecidableEq, Repr

/-- A task record (R335). `oldReads` and `oldWrites` hold what a re-execution replaces when it completes, `oldChildren` the old
children at or after its matching cursor and `dropped` the discarded ones (R343); `live` says that the task's execution belongs to
this run, `done` that it has completed. -/
structure TRec where
  task : Nat
  ord : Nat
  parent : Option Nat
  image : Nat
  key : Nat
  groups : Nat
  params : List Byte
  stale : Bool
  desc : Bool
  failed : Bool
  fresh : Bool
  reads : List ReadG
  writes : List WriteG
  oldReads : List ReadG
  oldWrites : List WriteG
  oldChildren : List Nat
  dropped : List Nat
  hyp : Nat
  live : Bool
  done : Bool
deriving DecidableEq, Repr

/-- Where a propagation stands (R342): the task whose record the walk reached, none at the end, and whether the walk
waits for a re-execution; `closing` for a recording run's closing pass (R380). -/
structure Walk where
  at_ : Option Nat
  waiting : Bool
  full : Bool
  closing : Bool
deriving DecidableEq, Repr

/-- A manifest arena (R333) with its records in trace order. -/
structure Manifest where
  vdev : Nat
  ctx : Nat
  handle : Nat
  size : Nat
  pages : List Nat
  off0 : Nat
  state : Nat
  cause : Nat
  runs : Nat
  carve : Nat
  rngk : BitVec 64
  grid : Nat
  nextId : Nat
  image : Nat
  groups : Nat
  recs : List TRec
  launch : Option Nat
  walk : Option Walk
  wantState : Option Nat
deriving DecidableEq, Repr

/-- An ephemeris entry (R370). -/
structure EphEntry where
  kind : Nat
  phase : Nat
  team : Nat
  who : Nat
  arg : Nat
  arg2 : Nat
deriving DecidableEq, Repr

/-- An ephemeris arena (R370 to R372); `met` counts the entries a replay has matched, by index, and `cut` says that the replayed
record had overflowed, so that its last entry ends the binding. -/
structure Ephem where
  vdev : Nat
  ctx : Nat
  handle : Nat
  size : Nat
  pages : List Nat
  off0 : Nat
  state : Nat
  entries : List EphEntry
  phases : Nat
  divPhase : Nat
  divTeam : Nat
  met : List Nat
  bound : Bool
  cut : Bool
deriving DecidableEq, Repr

/-! ## The fabric and the endpoint (R408 to R430) -/

/-- A landing (R415). -/
structure Landing where
  vdev : Nat
  ctx : Nat
  rctx : Nat
  tag : Word
  launchId : BitVec 64
  task : Nat
  roff : Nat
  rlen : Nat
  boff : Nat
deriving DecidableEq, Repr

/-- A connected master (R428): its identity, the priority it claimed with, and %cyc of its last frame. -/
structure Master where
  id : Nat
  prio : Option Nat
  lastFrame : Nat
deriving DecidableEq, Repr

/-- What leaves the device: a reply or completion record, an acknowledgement of an inbound operation, a network
operation's frames, or inbound-read data. -/
inductive OutMsg where
  | reply (to_ : Sender) (bytes : List Byte)
  | ack (positive : Bool)
  | data (bytes : List Byte)
  | nput (op : Nat) (peer : Nat) (offset : Nat) (bytes : List Byte)
  | nget (op : Nat) (peer : Nat) (offset len : Nat)
  | nsend (op : Nat) (peer : Nat) (rctx : Nat) (tag : Word) (moff : Nat) (bytes : List Byte)
deriving DecidableEq, Repr

/-- A port's addresses (R408). -/
structure Port where
  enable : Bool
  ipv4 : Word
  mac : List Byte
  ipv6 : List Byte
deriving DecidableEq, Repr

/-- A latched high half (R379). -/
structure Latch where
  master : Nat
  vdev : Nat
  index : Nat
  high : Word
deriving DecidableEq, Repr

/-- An entry of Henip's log (R424). -/
structure LogEntry where
  ptpNs : Nat
  ptpSec : Nat
  source : Nat
  code : Nat
  data : Nat
deriving DecidableEq, Repr

/-- The command endpoint (R419 to R429): masters by endpoint number, owner, election window, latches, outgoing messages. -/
structure Endpoint where
  masters : SMap Master
  owner : Option Nat
  electionAt : Option Nat
  latches : List Latch
  outbox : List OutMsg
  landings : SMap Landing
  ports : SMap Port
  clockMode : Nat
  clockPorts : Nat
  clockPeerDelay : Bool
deriving DecidableEq, Repr

/-- Where the device stands in bring-up (R395, R396, R404). -/
inductive Power where
  | off | safe | up
deriving DecidableEq, Repr

/-- A verified firmware or configuration object (R397): type, security version, body. -/
structure FwObj where
  type_ : Nat
  version : Nat
  body : List Byte
deriving DecidableEq, Repr

/-- The lifetime health records (R404): cycles of %cyc by 10 × die + temperature bin, droops by die, errors by unit code,
pre-emption latencies by bin, retrains by link, alarms by source. -/
structure Health where
  hours : SMap Nat
  droops : SMap Nat
  corrected : SMap Nat
  uncorrected : SMap Nat
  errRollbacks : Nat
  promiseMisses : Nat
  preemptLatency : SMap Nat
  retrains : SMap Nat
  alarms : SMap Nat
deriving DecidableEq, Repr

/-- Henip (R395 to R406): power, failure code, the configuration record's fields, minimum versions; the objects loaded, those
staged by FWLOAD and those in flash, an object it was delivered with standing where there is none of a type (R398); the SRAM block
and the device key, where it is derived (R400); the ports that passed their test (R396); the attestation index, alarms since
power-on, the lifetime records in flash and what has been counted since their last update at `healthAt`, the log. -/
structure Henip where
  power : Power
  failCode : BitVec 8
  pclass : Nat
  portMask : BitVec 8
  alarmLevel : Nat
  sleepPolicy : Nat
  nslot : Nat
  helper : Option (BitVec 8192)
  minVersion : SMap Nat
  loaded : List FwObj
  staged : List FwObj
  flash : List FwObj
  sram : BitVec 32768
  deviceKey : Option (BitVec 256)
  passed : BitVec 8
  attIndex : Nat
  alarms : Nat
  fwLocked : Bool
  erased : Bool
  health : Health
  pendingHealth : Health
  healthAt : Nat
  log : List LogEntry
  ptpClass : Nat
deriving DecidableEq, Repr

/-! ## The whole machine -/

/-- The bundle that is issuing (R149, R150): its team and its threads, 32 × group + lane, in ascending order. -/
structure Bundle where
  team : Nat
  threads : List Nat
deriving DecidableEq, Repr

/-- One turn of the machine: an event or command, an issue cycle of one quadrant for one team (R149), or the passing of
one cycle of %cyc (R69). -/
inductive Turn where
  | event (i : Instr)
  | issue (team quadrant : Nat)
  | cycle
deriving DecidableEq, Repr

/-- The state of the device.

`cyc`, `ptpNs`, `ptpSec`: the clocks (R69, R430). `mem`: HBM as its homes hold it (R287, R308). `damaged`: the lines marked damaged at their homes (R263). `lines`, `vlines`, `est`:
the slices (R288, R289, R353). `resv`: the reservation tables (R298). `codeLog`: what words of code that a launch may still fetch held before (R59). `teams`, `clusters`, `ops`, `tiles`: what is
resident. `hyps`: hypothesis nodes (R350). `buckets`, `pools`: the arbiters (R382, R383); `poolTurns`: by arbiter, the
virtual device last served from its pool; `memReqs`: the memory transfers that wait for tokens, in order, and `memGrants`: those granted and
not made yet, by virtual device and line. `sleeping`: caches in
retention sleep with the epoch they recorded (R305); `cacheUse`, where they may sleep, when each cache was last used (R399).

The model's own fields: `agenda`, the turns to take next (events of the device's own doing and inputs from outside); `later`,
the inputs that wait for a close or for an earlier command, taken up again after the next cycle;
`outStamp`, the time in the global order that the accesses from outside the cores have reached (R319, R333, R420);
`verStamp`, by line, the time that the accesses to its versions have reached (R309, R352);
`issue`, the bundle an instruction acts for; `draws`, the counter that free values are applied to; `nextUid`, the next
identity. -/
structure State where
  cyc : Nat
  ptpNs : Nat
  ptpSec : Nat
  ptpAdjust : Int
  mem : Mem
  damaged : List Nat
  lines : SMap HomeLine
  vlines : List VLine
  est : SMap Stamp
  outStamp : Stamp
  verStamp : SMap Stamp
  resv : List Resv
  codeLog : List CodeOld
  cores : SMap Core
  dies : SMap Die
  sleeping : List (CacheId × Word)
  cacheUse : List (CacheId × Nat)
  teams : SMap Team
  clusters : SMap Cluster
  ops : List EngineOp
  tiles : List Tile
  hyps : SMap HypNode
  vdevs : SMap VDev
  buckets : SMap Bucket
  pools : SMap Nat
  poolTurns : SMap Nat
  memReqs : List MemReq
  memGrants : List (Nat × Nat)
  launches : SMap Launch
  manifests : List Manifest
  ephems : List Ephem
  endpoint : Endpoint
  henip : Henip
  agenda : List Turn
  later : List Instr
  issue : Bundle
  draws : Nat
  nextUid : Nat
deriving DecidableEq, Repr

/-- Why the machine stops. -/
inductive Fault where
  /-- Raised by `step` alone, on a device without power and without a POWER_ON turn on its agenda: nothing is defined to
  happen there. Safe: the machine stops where the hardware is off. -/
  | poweredOff
deriving DecidableEq, Repr

/-- Why an instruction has no meaning. -/
inductive Refusal where
  /-- Raised by `exec` alone, for an instruction the model has not reached. Safe: the machine stops. -/
  | notModelled (mnemonic : String)
deriving DecidableEq, Repr

/-! ## The state right after bring-up (R395 stage 7) -/

/-- Health records with nothing counted (R404). -/
def Health.zero : Health :=
  ⟨[], [], [], [], 0, 0, [], [], []⟩

/-- The device key of the part (R400): its SRAM block's contents as corrected, condensed by SHAKE256. -/
def partKey : BitVec 256 := BitVec.ofNat 256 (leNat (shake256 Config.partSecret))

/-- Henip after a successful bring-up with the configuration record's defaults (R399), nothing logged. -/
def Henip.afterBringUp : Henip :=
  { power := .up, failCode := 0, pclass := 3, portMask := 0xFF, alarmLevel := 1, sleepPolicy := 0, nslot := 8,
    helper := none, minVersion := [], loaded := [], staged := [], flash := [], sram := Config.sramPowerUp 0,
    deviceKey := some partKey, passed := 0xFF, attIndex := 0, alarms := 0,
    fwLocked := false, erased := false, health := Health.zero, pendingHealth := Health.zero, healthAt := 0, log := [],
    ptpClass := 248 }

/-- The endpoint with no master connected, no owner, nothing configured (R428). -/
def Endpoint.fresh : Endpoint :=
  { masters := [], owner := none, electionAt := none, latches := [], outbox := [], landings := [], ports := [],
    clockMode := 0, clockPorts := 0, clockPeerDelay := false }

/-- The state right after a successful bring-up (R395): %cyc zero (R69), memory and every array zero, every core's stamp
zero (R291), every eviction stamp zero (R289), every virtual device as created (R382, R388), no owner. -/
def State.reset : State :=
  { cyc := 0, ptpNs := 0, ptpSec := 0, ptpAdjust := 0, mem := [], damaged := [], lines := [], vlines := [], est := [],
    outStamp := 0, verStamp := [], resv := [], codeLog := [],
    cores := [], dies := [], sleeping := [], cacheUse := [], teams := [], clusters := [], ops := [], tiles := [], hyps := [],
    vdevs := [], buckets := [], pools := [], poolTurns := [], memReqs := [], memGrants := [], launches := [], manifests := [], ephems := [],
    endpoint := Endpoint.fresh, henip := Henip.afterBringUp, agenda := [], later := [], issue := ⟨0, []⟩, draws := 0,
    nextUid := 1 }

end Sys2Proof.Machine
end

