-- ==== Sys2Proof/Machine/Maps.lean ====
section
/-! DEFINITION. Operations on the state's finite maps and on memory. A lookup takes the first entry of the key; a write
replaces it or inserts it in key order; memory drops an entry that becomes zero, so equal memories are equal lists. -/

namespace Sys2Proof.Machine

/-- The first value of a key. -/
def SMap.find {α : Type} (m : SMap α) (k : Nat) : Option α :=
  match m with
  | [] => none
  | e :: r => if e.1 = k then some e.2 else SMap.find r k

/-- The value of a key, or a default. -/
def SMap.get {α : Type} (m : SMap α) (k : Nat) (d : α) : α := (SMap.find m k).getD d

/-- Replaces the first entry of a key, or inserts one before the first greater key. -/
def SMap.set {α : Type} (m : SMap α) (k : Nat) (v : α) : SMap α :=
  match m with
  | [] => [(k, v)]
  | e :: r => if e.1 = k then (k, v) :: r else if k < e.1 then (k, v) :: e :: r else e :: SMap.set r k v

/-- Removes a key. -/
def SMap.erase {α : Type} (m : SMap α) (k : Nat) : SMap α := m.filter (fun e => e.1 != k)

/-- Sets a key, or removes it when the value is the default. -/
def SMap.put {α : Type} [DecidableEq α] (m : SMap α) (k : Nat) (v d : α) : SMap α :=
  if v = d then SMap.erase m k else SMap.set m k v

/-- The keys. -/
def SMap.keys {α : Type} (m : SMap α) : List Nat := m.map Prod.fst

/-- Changes every value. -/
def SMap.mapVal {α : Type} (m : SMap α) (f : Nat → α → α) : SMap α := m.map (fun e => (e.1, f e.1 e.2))

/-- The byte at an address; an unlisted address reads as zero (R395). -/
def Mem.get (m : Mem) (a : Nat) : Byte := SMap.get m a 0

/-- Stores a byte. -/
def Mem.set (m : Mem) (a : Nat) (b : Byte) : Mem := SMap.put m a b 0

/-- `n` bytes from an address up. -/
def Mem.read (m : Mem) (a : Nat) : Nat → List Byte
  | 0 => []
  | n + 1 => Mem.get m a :: Mem.read m (a + 1) n

/-- Stores bytes from an address up. -/
def Mem.write (m : Mem) (a : Nat) : List Byte → Mem
  | [] => m
  | b :: bs => Mem.write (Mem.set m a b) (a + 1) bs

/-- Stores bytes each at its own address. -/
def Mem.writeAll (m : Mem) : List (Nat × Byte) → Mem
  | [] => m
  | e :: r => Mem.writeAll (Mem.set m e.1 e.2) r

/-- Addresses strictly rising, from a bound, and no entry zero. -/
def Mem.wfFrom (lo : Nat) : Mem → Bool
  | [] => true
  | e :: r => decide (lo ≤ e.1) && e.2 != 0 && Mem.wfFrom (e.1 + 1) r

/-- The canonical form of memory. -/
def Mem.wf (m : Mem) : Bool := Mem.wfFrom 0 m

/-- A field of a value: bits `lo` up, `n` of them (R7). -/
def bitsOf (v lo n : Nat) : Nat := v / 2 ^ lo % 2 ^ n

/-- Inserts a number in ascending order, once. -/
def insertNat (n : Nat) : List Nat → List Nat
  | [] => [n]
  | m :: r => if m < n then m :: insertNat n r else if m = n then m :: r else n :: m :: r

/-- Inserts by a key in ascending order, after equal keys. -/
def insertBy {α : Type} (key : α → Nat) (x : α) : List α → List α
  | [] => [x]
  | y :: r => if key y ≤ key x then y :: insertBy key x r else x :: y :: r

/-- Sorts by a key, keeping the order of equal keys. -/
def sortBy {α : Type} (key : α → Nat) (l : List α) : List α := l.foldl (fun acc x => insertBy key x acc) []

/-- Replaces the elements that meet a test. -/
def mapWhere {α : Type} (p : α → Bool) (f : α → α) (l : List α) : List α := l.map (fun x => if p x then f x else x)

end Sys2Proof.Machine
end

