-- ==== Sys2Proof/Machine/Access.lean ====
section
/-! DEFINITION. Access to the parts of the state: threads, groups, teams, cores, virtual devices, launches, hypotheses;
the registers of a thread with their outstanding results (R157, R158); the undo log's entries (R255); stamps (R12). An
identity that names nothing reads as an empty part, and an update of it changes nothing. -/

namespace Sys2Proof.Machine

/-! ## Stamps (R12, R289) -/

/-- a precedes b (R12). -/
def serialLess (a b : Stamp) : Bool := b != a && decide ((b - a).toNat < 2147483648)

/-- SerialMax (R289). -/
def serialMax (a b : Stamp) : Stamp := if serialLess a b then b else a

/-! ## Empty parts -/

/-- A slot that never held a trap (R246, R251). -/
def SaveSlot.zero : SaveSlot := ⟨0, 0, 0, 0, 0⟩

/-- A thread at a task's start (R68). -/
def Thread.start (pc : Addr) (hyp : Nat) (rngk : BitVec 64) (rngc : BitVec 128) (orphan : Option Nat) : Thread :=
  { pc := pc, regs := [], preds := 0, hyp := hyp, rngk := rngk, rngc := rngc, fflags := 0,
    st := if orphan.isSome then .orphaned else .ready, wait := none, level := 0, priv := .task, slot1 := SaveSlot.zero,
    slot2 := SaveSlot.zero, fw1 := false, fw2 := false, fair := 0, promoted := false, pend := [],
    orphanOf := orphan, lwaits := 0, park := Option.none }

/-- What an identity that names no thread reads as: an exited thread. -/
def Thread.none : Thread := { Thread.start 0 0 0 0 .none with st := .exited }

/-- A group at a task's start (R68). -/
def Group.start : Group :=
  { uregs := [], ctrFerry := 0, ctrMatrix := 0, ctrNet := 0, tokens := [], unclaimed := [], upend := [], colls := [], faults := [] }

/-- The team CSRs at creation (R251). -/
def TeamCsr.reset : TeamCsr := ⟨4096, 10, 16777216, 0⟩

/-- A team body with nothing in it. -/
def TeamBody.empty : TeamBody :=
  { threads := [], groups := [], bars := [], cbarArrivals := [], csr := TeamCsr.reset, permits := 0, accs := [],
    buf := [], selections := 0, quantumWork := 0, cursor := 0 }

/-- A variant with nothing (out of range). -/
def Variant.none : Variant := ⟨32, 0, 0, 0, 0, 0, 0, 0xFFFFFFFF, []⟩

/-- An image with nothing. -/
def Image.none : Image := ⟨0, false, false, 0, 0, 0, 0, 0, [], []⟩

/-- What an identity that names no team reads as. -/
def Team.none : Team :=
  { launch := 0, vdev := 0, ctx := 0, team := 0, task := 0, cluster := 0, clus := 0, rank := 0, gcount := 0,
    img := Image.none, params := [], key := 0, depth := 0, ordinal := 0, parent := .none, children := 0, startHyp := 0,
    startOrphan := .none, variant := 0, core := 0, quads := [], phase := .ended, body := TeamBody.empty, scratch := [],
    snap := TeamBody.empty, log := [], logBad := .none, interval := 0, work := 0, errRollbacks := 0, closing := false, sw := .none,
    switches := 0, drainBy := .none, need := .none, saveRolled := false, irrevocable := false, admittedAt := 0, chosenAt := .none, lender := .none, reclaimBy := .none,
    stop := .none, reexec := .none, freshExec := false, saveRec := .none, failed := false, recMark := (0, 0), lastIssue := [] }

/-- An accumulator at team start (R204). -/
def Acc.start : Acc := ⟨.f32, .f32, false, 0, []⟩

/-- A barrier at team start (R195). -/
def Bar.start : Bar := ⟨0, 0, [], 0, []⟩

/-- The permit pool of each PCLASS (R405). -/
def poolOfClass (pclass : Nat) : Nat :=
  match pclass with
  | 0 => 2 | 1 => 4 | 2 => 6 | _ => 8

/-- A core nothing has touched (R291). -/
def Core.fresh (pool : Nat) : Core := ⟨0, [], [], [], pool, [], 0, []⟩

/-- A die nothing has touched (R291, R302). -/
def Die.fresh : Die := ⟨0, 0, [], 0, false, false, 0, []⟩

/-- A virtual device as created (R251, R329, R377, R381, R382, R388, R409). -/
def VDev.fresh : VDev :=
  { sbase := 0, ctxs := [], quotas := [], ways := [], lend := false, borrow := false, coreLend := 0, drainUs := 0,
    peers := [], windows := [], timeoutUs := 1000, tileRing := .none, sumRing := .none, counters := [],
    defaults := TeamCsr.reset, undoArea := .none, saveArea := .none, resetting := .none }

/-- A context as created (R329, R378, R388). -/
def Ctx.fresh : Ctx := ⟨.none, [], .none⟩

/-- What an identity that names no launch reads as. -/
def Launch.none : Launch :=
  { id := 0, who := .mgmt, seq := 0, vdev := 0, ctx := 0, prio := 0, traced := false, det := false, replay := false,
    img := Image.none, params := [], teams := 0, groups := 0, ch := 1, cw := 1, carve := 0, quantum := 0, rngk := 0,
    mhandle := 0, ephem := 0, stamp := 0, nextClus := 0, nextTask := 0, spawned := [], doneTasks := [], requeue := [], phases := 0,
    first := .none, last := .none, instrs := 0, entries := [], modOrder := false, untraced := false, prop := false, marks := [],
    complete := true }

/-! ## Parts of the state -/

namespace State

/-- A team. -/
def team (s : State) (u : Nat) : Team := SMap.get s.teams u Team.none

/-- Changes a team. -/
def updTeam (s : State) (u : Nat) (f : Team → Team) : State :=
  match SMap.find s.teams u with
  | some t => { s with teams := SMap.set s.teams u (f t) }
  | none => s

/-- Changes a team's body. -/
def updBody (s : State) (u : Nat) (f : TeamBody → TeamBody) : State :=
  s.updTeam u (fun t => { t with body := f t.body })

/-- A thread, by team and 32 × group + lane. -/
def thr (s : State) (u tid : Nat) : Thread := SMap.get (s.team u).body.threads tid Thread.none

/-- Changes a thread. -/
def updThr (s : State) (u tid : Nat) (f : Thread → Thread) : State :=
  s.updBody u (fun b =>
    match SMap.find b.threads tid with
    | some t => { b with threads := SMap.set b.threads tid (f t) }
    | none => b)

/-- A group of a team. -/
def grp (s : State) (u g : Nat) : Group := SMap.get (s.team u).body.groups g Group.start

/-- Changes a group. -/
def updGrp (s : State) (u g : Nat) (f : Group → Group) : State :=
  s.updBody u (fun b => { b with groups := SMap.set b.groups g (f (SMap.get b.groups g Group.start)) })

/-- A core. -/
def cor (s : State) (c : Nat) : Core := SMap.get s.cores c (Core.fresh (poolOfClass s.henip.pclass))

/-- Changes a core. -/
def updCore (s : State) (c : Nat) (f : Core → Core) : State :=
  { s with cores := SMap.set s.cores c (f (s.cor c)) }

/-- A die. -/
def die (s : State) (d : Nat) : Die := SMap.get s.dies d Die.fresh

/-- Changes a die. -/
def updDie (s : State) (d : Nat) (f : Die → Die) : State := { s with dies := SMap.set s.dies d (f (s.die d)) }

/-- A virtual device. -/
def vd (s : State) (d : Nat) : VDev := SMap.get s.vdevs d VDev.fresh

/-- Changes a virtual device. -/
def updVd (s : State) (d : Nat) (f : VDev → VDev) : State := { s with vdevs := SMap.set s.vdevs d (f (s.vd d)) }

/-- A context of a virtual device. -/
def ctx (s : State) (d c : Nat) : Ctx := SMap.get (s.vd d).ctxs c Ctx.fresh

/-- Changes a context. -/
def updCtx (s : State) (d c : Nat) (f : Ctx → Ctx) : State :=
  s.updVd d (fun v => { v with ctxs := SMap.set v.ctxs c (f (SMap.get v.ctxs c Ctx.fresh)) })

/-- A launch. -/
def lau (s : State) (l : Nat) : Launch := SMap.get s.launches l Launch.none

/-- Changes a launch. -/
def updLau (s : State) (l : Nat) (f : Launch → Launch) : State :=
  match SMap.find s.launches l with
  | some x => { s with launches := SMap.set s.launches l (f x) }
  | none => s

/-- Takes the next identity. -/
def newUid (s : State) : Nat × State := (s.nextUid, { s with nextUid := s.nextUid + 1 })

/-- Moves on to the next draw of free values. -/
def draw (s : State) : State := { s with draws := s.draws + 1 }

/-- Puts a turn on the agenda, after those already there, once. -/
def post (s : State) (i : Instr) : State :=
  if s.agenda.contains (.event i) then s else { s with agenda := s.agenda ++ [.event i] }

end State

/-- The variant in force (R190). -/
def Team.var (t : Team) : Variant := t.img.variants.getD t.variant Variant.none

/-- Whether a team occupies a core (R188, R264). -/
def TeamPhase.resident : TeamPhase → Bool
  | .admitted | .running | .draining | .stopped | .saving => true
  | _ => false

/-- Whether a team's threads may issue (R149). -/
def TeamPhase.issues : TeamPhase → Bool
  | .running | .draining => true
  | _ => false

/-- Whether a thread is a candidate for issue (R156). -/
def ThState.candidate : ThState → Bool
  | .ready | .inHandler | .orphaned => true
  | _ => false

/-- The live threads of a body, by number (R156). -/
def TeamBody.live (b : TeamBody) : List Nat :=
  (b.threads.filter (fun e => e.2.st != .exited)).map Prod.fst

/-- The resident teams. -/
def State.resident (s : State) : List Nat :=
  (s.teams.filter (fun e => e.2.phase.resident)).map Prod.fst

/-- The resident teams of a core. -/
def State.coreTeams (s : State) (core : Nat) : List Nat := s.resident.filter (fun u => (s.team u).core == core)

/-- The launches with a team resident on a core, or with one that has ended and still holds rows of its carve (R265, R279). -/
def State.launchesOn (s : State) (core : Nat) : List Nat :=
  (s.coreTeams core ++ (s.cor core).held.map Hold.team).foldl (fun ls u => insertNat (s.team u).launch ls) []

/-- The permits of a core's pool that no resident team holds (R201); none where the owner has set the pool below them. -/
def State.freePermits (s : State) (c : Nat) : Nat :=
  (s.cor c).pool - ((s.resident.filter (fun u => (s.team u).core == c)).map (fun u => (s.team u).body.permits)).sum

/-- Group and lane of a thread number. -/
def groupOf (tid : Nat) : Nat := tid / 32
def laneOf (tid : Nat) : Nat := tid % 32

/-- Whether a thread is in firmware at its level (R58). -/
def Thread.inFirmware (t : Thread) : Bool := (t.level == 1 && t.fw1) || (t.level == 2 && t.fw2)

/-- The save slot of a level (R244); level 0 has none and reads as zero (R251). -/
def Thread.slot (t : Thread) : SaveSlot :=
  match t.level with
  | 1 => t.slot1
  | 2 => t.slot2
  | _ => SaveSlot.zero

/-- Changes the save slot of the thread's level. -/
def Thread.updSlot (t : Thread) (f : SaveSlot → SaveSlot) : Thread :=
  match t.level with
  | 1 => { t with slot1 := f t.slot1 }
  | 2 => { t with slot2 := f t.slot2 }
  | _ => t

/-- The state a thread takes when a wait, a park or a handler entry ends (R156): orphaned where its hypothesis was refuted
meanwhile. -/
def Thread.resumeState (t : Thread) : ThState :=
  if t.orphanOf.isSome then .orphaned else if t.level = 0 then .ready else .inHandler

/-- A candidate's fairness counter advances; one that reaches the window is promoted, and stays so until it issues (R154, R162). -/
def Thread.tickFair (t : Thread) (window : Nat) : Thread :=
  { t with fair := t.fair + 1, promoted := t.promoted || decide (window ≤ t.fair + 1) }

/-- Ends a thread's wait. -/
def Thread.wake (t : Thread) : Thread := { t with st := t.resumeState, wait := Option.none, fair := 0, promoted := false }

/-! ## Hypotheses (R350) -/

/-- The root as a node. -/
def HypNode.root : HypNode := ⟨0, 0, 0, .live⟩

namespace State

/-- A hypothesis node; 0 is the root. -/
def hypNode (s : State) (n : Nat) : HypNode := if n = 0 then HypNode.root else SMap.get s.hyps n HypNode.root

/-- The number of a node (R350). -/
def hypNumber (s : State) (n : Nat) : Nat := (s.hypNode n).number

/-- The live nodes of a virtual device. -/
def liveHyps (s : State) (d : Nat) : List Nat :=
  (s.hyps.filter (fun e => e.2.vdev == d && e.2.status == .live)).map Prod.fst

/-- The live node of a number, 0 for the root. -/
def hypByNumber (s : State) (d k : Nat) : Option Nat :=
  if k = 0 then some 0 else (s.liveHyps d).find? (fun n => s.hypNumber n == k)

/-- The node path to the root, nearest first, without the root (R320). -/
def hypPathFuel (s : State) (n : Nat) : Nat → List Nat
  | 0 => []
  | f + 1 => if n = 0 then [] else n :: hypPathFuel s (s.hypNode n).parent f

/-- The path of a node (at most eight deep, R350). -/
def hypPath (s : State) (n : Nat) : List Nat := s.hypPathFuel n 64

/-- The depth of a node (R350). -/
def hypDepth (s : State) (n : Nat) : Nat := (s.hypPath n).length

/-- Whether `n` is `k` or a descendant of it. -/
def hypUnder (s : State) (n k : Nat) : Bool := (s.hypPath n).contains k

/-- Where a node's threads stand now: the live node or root it leads to, and the first refuted number on the way
(R262, R320). -/
def hypFollowFuel (s : State) (n : Nat) (ref : Option Nat) : Nat → Nat × Option Nat
  | 0 => (0, ref)
  | f + 1 =>
    if n = 0 then (0, ref)
    else match (s.hypNode n).status with
      | .live => (n, ref)
      | .confirmed into => hypFollowFuel s into ref f
      | .refuted k into => hypFollowFuel s into (some (ref.getD k)) f

def hypFollow (s : State) (n : Nat) : Nat × Option Nat := s.hypFollowFuel n none (s.hyps.length + 1)

end State

/-! ## Registers, predicates and outstanding results -/

/-- The undo log records an item once in an interval (R255). -/
def Team.logAdd (t : Team) (it : LogItem) : Team := if t.log.contains it then t else { t with log := it :: t.log }

/-- Drops a register from an outstanding result that a later write overtakes (R158). -/
def Pending.without (r : Nat) (p : Pending) : Pending := { p with regs := p.regs.filter (fun e => e.1 != r) }

/-- Drops a predicate likewise. -/
def Pending.withoutPred (q : Nat) (p : Pending) : Pending := { p with preds := p.preds.filter (fun e => e.1 != q) }

/-- Writes a register of a thread; an outstanding result for it is overtaken (R158). -/
def Thread.setReg (t : Thread) (r : Nat) (v : Word) : Thread :=
  { t with regs := SMap.put t.regs r v 0, pend := t.pend.map (Pending.without r) }

/-- A predicate bit set in a 12-bit row. -/
def setPredBit (p : BitVec 12) (i : Nat) (b : Bool) : BitVec 12 :=
  if b then p ||| BitVec.twoPow 12 i else p &&& ~~~(BitVec.twoPow 12 i)

/-- Writes a predicate of a thread. -/
def Thread.setPred (t : Thread) (q : Nat) (b : Bool) : Thread :=
  { t with preds := setPredBit t.preds q b, pend := t.pend.map (Pending.withoutPred q) }

/-- Adds an outstanding result; earlier ones for the same registers or predicates are overtaken (R158). -/
def Thread.addPend (t : Thread) (p : Pending) : Thread :=
  { t with pend := t.pend.map (fun q =>
      { q with regs := q.regs.filter (fun e => !(p.regs.any (fun f => f.1 == e.1))),
               preds := q.preds.filter (fun e => !(p.preds.any (fun f => f.1 == e.1))) }) ++ [p] }

/-- Whether a special-function result for a lane's register is to come, or has come with no WAITT since (R237). -/
def Group.sfqOpen (g : Group) (lane r : Nat) : Bool :=
  g.tokens.any (fun k => k.writes.any (fun w => w.1 == lane && w.2.1 == r)) ||
  g.unclaimed.any (fun e => e.1 == lane && e.2.1 == r)

/-- A group without the special-function results that a later write of some registers of a lane overtakes (R158). -/
def Group.overtake (g : Group) (lane : Nat) (rs : List Nat) : Group :=
  { g with tokens := g.tokens.map (fun k => { k with writes := k.writes.filter (fun w => !(w.1 == lane && rs.contains w.2.1)) }),
           unclaimed := g.unclaimed.filter (fun e => !(e.1 == lane && rs.contains e.2.1)) }

/-- Whether a lane register has an outstanding result of the thread (R158) or a special-function result that no WAITT has named
(R237). -/
def State.laneUncertain (s : State) (u tid r : Nat) : Bool :=
  (s.thr u tid).pend.any (fun p => p.regs.any (fun e => e.1 == r)) || (s.grp u (groupOf tid)).sfqOpen (laneOf tid) r

/-- Whether a predicate has an outstanding result (R158). -/
def State.predUncertain (s : State) (u tid q : Nat) : Bool :=
  (s.thr u tid).pend.any (fun p => p.preds.any (fun e => e.1 == q))

/-- Whether a uniform register has a ULD result the thread does not see for certain (R170): a thread outside the issuing fragment that
has passed no BAR with it, or one of the fragment whose share is outstanding. -/
def State.uniUncertain (s : State) (u tid r : Nat) : Bool :=
  (s.grp u (groupOf tid)).upend.any (fun p => p.regs.any (fun e => e.1 == r) &&
    (if p.lanes.contains (laneOf tid) then (s.thr u tid).pend.any (fun q => q.seq == p.seq && q.tag == .uld)
     else !p.passed.contains (laneOf tid)))

/-- A lane register as an operand in field `slot`: an early read gives a free value (R158, R237). -/
def State.readLane (s : State) (u tid slot r : Nat) : Word :=
  if s.laneUncertain u tid r then Config.freeWord (s.draws * 65536 + slot * 256 + r)
  else SMap.get (s.thr u tid).regs r 0

/-- A uniform register as an operand (R169, R170). -/
def State.readUni (s : State) (u tid slot r : Nat) : Word :=
  if s.uniUncertain u tid r then Config.freeWord (s.draws * 65536 + slot * 256 + 128 + r)
  else SMap.get (s.grp u (groupOf tid)).uregs r 0

/-- A predicate bit (R158). -/
def State.readPred (s : State) (u tid slot q : Nat) : Bool :=
  if s.predUncertain u tid q then Config.freeBit (s.draws * 65536 + slot * 256 + q)
  else (s.thr u tid).preds.getLsbD q

/-- A queued MMA whose B is being captured from this thread's registers (R215): a write spoils it. -/
def EngineOp.captures (o : EngineOp) (u tid r : Nat) : Bool :=
  match o.kind with
  | .mma blk _ _ =>
    o.team == u && o.group / 4 == groupOf tid / 4 &&
      decide (blk.breg ≤ r ∧ r < blk.breg + (if blk.fmt == .t6 then 24 else 16))
  | _ => false

/-- Whether an operation's capture is still outstanding in its issuing thread (R215). -/
def State.capturing (s : State) (o : EngineOp) : Bool :=
  (s.thr o.team o.thread).pend.any (fun p => p.tag == .capture o.uid)

/-- Whether a register of a thread is being captured (R215). -/
def State.captured (s : State) (u tid r : Nat) : Bool := s.ops.any (fun o => o.captures u tid r && s.capturing o)

/-- Marks the B operands that a register write spoils (R215). -/
def State.spoil (s : State) (u tid r : Nat) : State :=
  if s.captured u tid r then
    { s with ops := s.ops.map (fun o =>
        if o.captures u tid r && s.capturing o then
          match o.kind with
          | .mma blk b _ => { o with kind := .mma blk b true }
          | _ => o
        else o) }
  else s

/-- Writes a lane register: the row is logged (R255), an outstanding result or token result for it is overtaken (R158), a
capture of it is spoiled (R215). -/
def State.writeLane (s : State) (u tid r : Nat) (v : Word) : State :=
  let s := s.spoil u tid r
  let s := s.updTeam u (fun t => t.logAdd (.regRow (groupOf tid) r))
  let s := s.updThr u tid (fun t => t.setReg r v)
  if (s.grp u (groupOf tid)).sfqOpen (laneOf tid) r then s.updGrp u (groupOf tid) (fun g => g.overtake (laneOf tid) [r]) else s

/-- Writes consecutive lane registers. -/
def State.writeLanes (s : State) (u tid r : Nat) : List Word → State
  | [] => s
  | v :: vs => (s.writeLane u tid r v).writeLanes u tid (r + 1) vs

/-- Writes a uniform register: the row is logged, an unwritten ULD result for it is overtaken (R158, R169). -/
def State.writeUni (s : State) (u g r : Nat) (v : Word) : State :=
  let s := s.updTeam u (fun t => t.logAdd (.uniRow g (r / 32)))
  s.updGrp u g (fun gr => { gr with
    uregs := SMap.put gr.uregs r v 0,
    upend := gr.upend.map (fun p => { p with regs := p.regs.filter (fun e => e.1 != r) }) })

/-- Writes consecutive uniform registers. -/
def State.writeUnis (s : State) (u g r : Nat) : List Word → State
  | [] => s
  | v :: vs => (s.writeUni u g r v).writeUnis u g (r + 1) vs

/-- Writes a predicate in place for the next instruction (R73). -/
def State.writePred (s : State) (u tid q : Nat) (b : Bool) : State := s.updThr u tid (fun t => t.setPred q b)

/-- Adds an outstanding result of a thread (R157). -/
def State.addPend (s : State) (u tid : Nat) (tag : PendTag) (regs : List (Nat × Word)) (preds : List (Nat × Bool)) : State :=
  let (q, s) := s.newUid
  let s := s.updThr u tid (fun t => t.addPend ⟨q, tag, regs, preds⟩)
  if regs.any (fun e => (s.grp u (groupOf tid)).sfqOpen (laneOf tid) e.1) then
    s.updGrp u (groupOf tid) (fun g => g.overtake (laneOf tid) (regs.map Prod.fst))
  else s

/-- The words of a value, low word in the lower-numbered register (R7). -/
def wordsOf (n v : Nat) : List Word :=
  match n with
  | 0 => []
  | k + 1 => BitVec.ofNat 32 v :: wordsOf k (v / 4294967296)

/-- Register and word pairs from a register up. -/
def regPairs (r : Nat) : List Word → List (Nat × Word)
  | [] => []
  | w :: ws => (r, w) :: regPairs (r + 1) ws

/-- The counting field of rngc, bits 127:96 above bits 31:0, moved by `n` (R126). -/
def rngAdvance (c : BitVec 128) (n : Int) : BitVec 128 :=
  let v := c.toNat
  let f := wrap 64 (((bitsOf v 96 32 * 4294967296 + bitsOf v 0 32 : Nat) : Int) + n)
  BitVec.ofNat 128 (f / 4294967296 * 2 ^ 96 + bitsOf v 32 64 * 4294967296 + f % 4294967296)

/-- Writes an outstanding result into the thread, its row logged (R255) and captures spoiled (R215). -/
def State.landPending (s : State) (u tid : Nat) (p : Pending) : State :=
  let s := p.regs.foldl (fun s e =>
    let s := s.spoil u tid e.1
    let s := s.updTeam u (fun t => t.logAdd (.regRow (groupOf tid) e.1))
    s.updThr u tid (fun t => { t with regs := SMap.put t.regs e.1 e.2 0 })) s
  s.updThr u tid (fun t => { t with
    preds := p.preds.foldl (fun b e => setPredBit b e.1 e.2) t.preds,
    pend := t.pend.filter (fun q => q.seq != p.seq) })

/-- Writes a ULD result to the group's registers (R170). -/
def State.landUniform (s : State) (u g : Nat) (p : UPend) : State :=
  if p.written then s
  else
    let s := p.regs.foldl (fun s e =>
      let s := s.updTeam u (fun t => t.logAdd (.uniRow g (e.1 / 32)))
      s.updGrp u g (fun gr => { gr with uregs := SMap.put gr.uregs e.1 e.2 0 })) s
    s.updGrp u g (fun gr => { gr with upend := gr.upend.map (fun q => if q.seq = p.seq then { q with written := true } else q) })

/-- Writes one outstanding result, by its number (RESULT_WRITEBACK). A ULD's entry stays with its thread until a K marker
or a BAR covers it (R170). -/
def State.landSeq (s : State) (u tid q : Nat) : State :=
  match (s.thr u tid).pend.find? (fun p => p.seq == q) with
  | none => s
  | some p =>
    if p.tag == .uld then
      match (s.grp u (groupOf tid)).upend.find? (fun e => e.seq == q) with
      | some e => s.landUniform u (groupOf tid) e
      | none => s
    else s.landPending u tid p

/-- Whether every outstanding result of a thread has been written (R157). -/
def State.settled (s : State) (u tid : Nat) : Bool :=
  (s.thr u tid).pend.all (fun p => p.tag == .uld &&
    !((s.grp u (groupOf tid)).upend.any (fun e => e.seq == p.seq && !e.written)))

/-- Drops a thread's shares of ULD results, all of them written (R157). -/
def State.cover (s : State) (u tid : Nat) : State :=
  if (s.thr u tid).pend.isEmpty then s
  else s.updThr u tid (fun t => { t with pend := t.pend.filter (fun p => p.tag != .uld) })

/-- Whether every thread of a group sees a ULD result for certain (R170): its fragment has been released by K markers, or the live lanes
outside it have passed a BAR with it. -/
def State.seenByAll (s : State) (u g : Nat) (e : UPend) : Bool :=
  let gone (l : Nat) : Bool := (s.thr u (32 * g + l)).st == .exited
  e.written && (e.lanes.all (fun l => e.released.contains l || gone l) ||
    (List.range 32).all (fun l => e.lanes.contains l || e.passed.contains l || gone l))

/-- A change of a group's ULD entries; those that every thread sees for certain leave (R170). -/
def State.updUPend (s : State) (u g : Nat) (f : UPend → UPend) : State :=
  if (s.grp u g).upend.isEmpty then s
  else s.updGrp u g (fun gr => { gr with upend := (gr.upend.map f).filter (fun e => !s.seenByAll u g e && !e.regs.isEmpty) })

/-- A K marker releases a thread, its results written (R157): its shares of ULD results go, and it counts as released for them
(R170). -/
def State.kRelease (s : State) (u tid : Nat) : State :=
  (s.cover u tid).updUPend u (groupOf tid) (fun e =>
    if e.lanes.contains (laneOf tid) then { e with released := insertNat (laneOf tid) e.released } else e)

/-- Threads pass a BAR together (R195): a ULD result whose fragment is among them is certain for the others of its group (R170). -/
def State.passBar (s : State) (u : Nat) (tids : List Nat) : State :=
  (s.team u).body.groups.foldl (fun s e =>
    let here := (tids.filter (fun t => groupOf t == e.1)).map laneOf
    if here.isEmpty then s
    else s.updUPend u e.1 (fun p =>
      if p.lanes.all (fun l => here.contains l || (s.thr u (32 * e.1 + l)).st == .exited) then
        { p with passed := here.foldl (fun ls l => insertNat l ls) p.passed }
      else p)) s

/-- WaitOutstanding completed: every outstanding result of the thread is written, in issue order (R195, R245). -/
def State.drain (s : State) (u tid : Nat) : State :=
  let s := (s.thr u tid).pend.foldl (fun s p => s.landSeq u tid p.seq) s
  s.cover u tid

/-- Raises sticky flags (R72). -/
def State.setFlags (s : State) (u tid : Nat) (f : Flags) : State :=
  if f = 0 then s else s.updThr u tid (fun t => { t with fflags := t.fflags ||| f })

/-- Drops a thread's reservation (R300). -/
def State.dropResv (s : State) (u tid : Nat) : State :=
  { s with resv := s.resv.filter (fun r => !(r.team == u && r.thread == tid)) }

/-- The counter a key reads as before anything is set: counters 1 to 15 count the event of their own number (R377). -/
def Counter.dflt (i : Nat) : Counter := ⟨if i < 16 then i else 0, 0⟩

/-- Counts an event of the Observatory on every counter of the virtual device that selects it (R377). -/
def State.count (s : State) (d event n : Nat) : State :=
  if n = 0 then s
  else s.updVd d (fun v =>
    let m := if (SMap.find v.counters event).isSome || 16 ≤ event then v.counters
      else SMap.set v.counters event (Counter.dflt event)
    { v with counters := SMap.mapVal m (fun _ c =>
        if c.event = event then { c with value := c.value + BitVec.ofNat 64 n } else c) })

end Sys2Proof.Machine
end

