-- ==== Sys2Proof/WellFormed.lean ====
section
/-! DEFINITION. Which instructions have an encoding: the ILL_FORM checks of R57 step 3 on syntax (R45 to R52 and the
entries' limits), each of which Sys2Proof/Tests/Slice0.lean shows refusing a term. -/

namespace Sys2Proof

/-- An instruction is well formed when every decode-time check of its entry holds; an event has no encoding and is
well formed as it stands. -/
def Instr.WellFormed (i : Instr) : Bool := i.checks

/-- An instruction is encoded when it is one of the word-encoded instructions, not an event (R42). -/
def Instr.encoded (i : Instr) : Bool := i.form.isSome

end Sys2Proof
end

