-- ==== Sys2Proof/Decode.lean ====
section
/-! DEFINITION. The decoder of instruction words (R42 to R65), total on any words, refusing by the trap that R57 and R63
name; after it the encoder, written from the same field tables (R44, R45, R52). The decoder parses the fields of the
words, builds the instruction its set, opcode and F select, and accepts it only when it is well formed and its encoding is
exactly those words: a nonzero unused field, a wrong W or a reserved code therefore never passes. -/

namespace Sys2Proof

/-- Why words are no instruction: the trap of R57 steps 2 and 3. -/
inductive DecodeTrap where
  | illOp
  | illForm
deriving DecidableEq, Repr

/-- The fields of an instruction's words (R44, R45, R50, R52). -/
structure Raw where
  s : Bool
  k : Bool
  w : BitVec 2
  m : Bool
  op : BitVec 7
  g : BitVec 4
  n : Bool
  d : BitVec 7
  a : BitVec 8
  b : BitVec 8
  c : BitVec 8
  ty : BitVec 4
  f : BitVec 6
  x : BitVec 6
  imm : Option Word
  mod : Option Word
deriving DecidableEq, Repr

namespace Raw

/-- A head word's S field (R44). -/
def headS (w : Word) : Bool := w.getLsbD 31
/-- A head word's W field (R44). -/
def headW (w : Word) : BitVec 2 := w.extractLsb' 28 2
/-- A head word's M field (R44). -/
def headM (w : Word) : Bool := w.getLsbD 27
/-- A head word's OP field (R44). -/
def headOp (w : Word) : BitVec 7 := w.extractLsb' 20 7

/-- The words an instruction needs from its head word on (R42, R55): for W = 3 the head word alone. -/
def headLength (w : Word) : Nat :=
  if headW w = 3 then 1 else 1 + (headW w).toNat + (headM w).toNat

/-- The fields of words; fields of absent words read as zero (R45). -/
def ofWords (ws : List Word) : Raw :=
  let h := ws.headD 0
  let w := headW h
  let fw : Word := if w = 0 then 0 else (ws.drop 1).headD 0
  { s := headS h, k := h.getLsbD 30, w := w, m := headM h, op := headOp h,
    g := h.extractLsb' 16 4, n := h.getLsbD 15, d := h.extractLsb' 8 7, a := h.extractLsb' 0 8,
    b := fw.extractLsb' 24 8, c := fw.extractLsb' 16 8, ty := fw.extractLsb' 12 4, f := fw.extractLsb' 6 6,
    x := fw.extractLsb' 0 6,
    imm := if w = 2 then (ws.drop 2).head? else none,
    mod := if headM h then (ws.drop (1 + w.toNat)).head? else none }

/-- The source an operand code names (R48, R50). -/
def src (r : Raw) (code : BitVec 8) : Option Src :=
  if code.toNat < 128 then some (.lane (code.extractLsb' 0 7))
  else if code.toNat < 192 then some (.uni (code.extractLsb' 0 6))
  else match code.toNat with
    | 192 => some (.konst .zero)
    | 193 => some (.konst .one)
    | 194 => some (.konst .minusOne)
    | 195 => some (.konst .half)
    | 196 => some (.konst .two)
    | 255 => r.imm.map .imm
    | _ => none

/-- The input code of PLOP, VOTE and BALLOT (R107, R171). -/
def pin (code : BitVec 8) : Option PIn :=
  if h : code.toNat < 12 then some (.pred ⟨code.toNat, h⟩)
  else match code.toNat with
    | 192 => some .zero
    | 193 => some .one
    | _ => none

/-- A predicate number (R47). -/
def pred (n : Nat) : Option Pred := if h : n < 12 then some ⟨n, h⟩ else none

/-- The result predicate of a collective: 0 to 11, or none for 15 (R171). -/
def rp (n : Nat) : Option (Option Pred) :=
  if n = 15 then some none else (pred n).map some

/-- The guard (R44, R53); G = 12 to 14, and N = 1 with G = 15, name none. -/
def guard (r : Raw) : Option Guard :=
  if r.g = 15 then (if r.n then none else some .always)
  else (pred r.g.toNat).map (fun p => .pred p r.n)

/-- The modifier word's fields (R52). -/
def modifier (w : Word) : Modifier :=
  { satc := match (w.extractLsb' 30 2).toNat with
      | 0 => .none | 1 => .sat | 2 => .clamp01 | _ => .clamp11
    scale := w.extractLsb' 24 6
    na := w.getLsbD 23, aa := w.getLsbD 22, nb := w.getLsbD 21, ab := w.getLsbD 20, nc := w.getLsbD 19, ac := w.getLsbD 18
    rm := match (w.extractLsb' 16 2).toNat with
      | 0 => .dflt | 1 => .rz | 2 => .rup | _ => .rdn }

/-- The head an instruction carries. -/
def head (r : Raw) : Option Head :=
  match r.guard with
  | none => none
  | some g => some { guard := g, k := r.k, bare := r.w == 0, mod := r.mod.map modifier }

/-- A uniform destination (R47): D above 63 names none. -/
def udest (r : Raw) : Option (BitVec 6) :=
  if r.d.toNat < 64 then some (r.d.extractLsb' 0 6) else none

/-- The address space, hint and no-return bit in X of a memory instruction (R128, R130). -/
def space (r : Raw) : Space :=
  match (r.x.extractLsb' 0 2).toNat with
  | 0 => .g | 1 => .l | 2 => .c | _ => .k

def hint (r : Raw) : Option Hint :=
  match (r.x.extractLsb' 2 2).toNat with
  | 0 => some .normal | 1 => some .nl1 | 2 => some .lu | _ => none

def leaExt (r : Raw) : Option LeaExt :=
  match r.f.toNat with
  | 0 => some .plain | 1 => some .sx | 2 => some .zx | _ => none

def icond (r : Raw) : Option ICond :=
  match r.x.toNat with
  | 0 => some .eq | 1 => some .ne | 2 => some .lt | 3 => some .le | 4 => some .gt | 5 => some .ge | _ => none

def fcond (r : Raw) : Option FCond :=
  match r.x.toNat with
  | 0 => some .eq | 1 => some .ne | 2 => some .lt | 3 => some .le | 4 => some .gt | 5 => some .ge | 6 => some .un
  | 7 => some .ord | _ => none

def atomOp (r : Raw) : Option AtomOp :=
  match r.f.toNat with
  | 0 => some .add | 1 => some .min | 2 => some .max | 3 => some .and | 4 => some .or | 5 => some .xor
  | 6 => some .exch | 7 => some .cas | 8 => some .fadd | 9 => some .fmin | 10 => some .fmax | 11 => some .inc
  | 12 => some .dec | _ => none

def sfqFn (r : Raw) : Option SfqFn :=
  match r.f.toNat with
  | 0 => some .rcp | 1 => some .sqrt | 2 => some .rsqrt | 3 => some .exp2 | 4 => some .log2 | 5 => some .exp
  | 6 => some .log | 7 => some .sinpi | 8 => some .cospi | 9 => some .tanh | 10 => some .sigm | 11 => some .gelu
  | _ => none

def shflMode (r : Raw) : Option ShflMode :=
  match r.f.toNat with
  | 0 => some .lane | 1 => some .step | 2 => some .mix | 3 => some .rot | _ => none

def voteFn (r : Raw) : Option VoteFn :=
  match r.f.toNat with
  | 0 => some .atleast | 1 => some .fewer | 2 => some .same | 3 => some .odd | _ => none

def redOp (r : Raw) : Option RedOp :=
  match r.f.toNat with
  | 0 => some .add | 1 => some .min | 2 => some .max | 3 => some .and | 4 => some .or | 5 => some .xor
  | 6 => some .fadd | 7 => some .fmin | 8 => some .fmax | 9 => some .mini | 10 => some .maxi | 11 => some .fmini
  | 12 => some .fmaxi | _ => none

def eclass (r : Raw) : Option EClass :=
  match r.f.toNat with
  | 0 => some .ferry | 1 => some .matrix | 2 => some .net | _ => none

def sreg (r : Raw) : Option SReg :=
  match r.a.toNat with
  | 0 => some .lane | 1 => some .group | 2 => some .team | 3 => some .task | 4 => some .core | 5 => some .clus
  | 6 => some .rank | 7 => some .vdev | 8 => some .ctx | 9 => some .hyp | 10 => some .cyc | 11 => some .ptp
  | 12 => some .work | _ => none

def csr (r : Raw) : Option Csr :=
  match r.x.toNat with
  | 0x00 => some .tsw | 0x01 => some .tpc | 0x02 => some .tca | 0x03 => some .tva | 0x04 => some .tvb
  | 0x08 => some .fflags | 0x09 => some .rngk | 0x0A => some .rngc | 0x10 => some .fair | 0x11 => some .lease
  | 0x12 => some .ckint | 0x13 => some .dbg | 0x14 => some .hypcap | 0x20 => some .sbase | _ => none

/-! ### Building an instruction from its fields -/

/-- A type, one source. -/
def b1 (r : Raw) (h : Head) (mk : Head → Ty → BitVec 7 → Src → Instr) : Option Instr :=
  match Ty.ofCode r.ty, r.src r.a with
  | some t, some a => some (mk h t r.d a)
  | _, _ => none

/-- A type, two sources. -/
def b2 (r : Raw) (h : Head) (mk : Head → Ty → BitVec 7 → Src → Src → Instr) : Option Instr :=
  match Ty.ofCode r.ty, r.src r.a, r.src r.b with
  | some t, some a, some b => some (mk h t r.d a b)
  | _, _, _ => none

/-- A type, three sources. -/
def b3 (r : Raw) (h : Head) (mk : Head → Ty → BitVec 7 → Src → Src → Src → Instr) : Option Instr :=
  match Ty.ofCode r.ty, r.src r.a, r.src r.b, r.src r.c with
  | some t, some a, some b, some c => some (mk h t r.d a b c)
  | _, _, _, _ => none

/-- A type, two uniform sources. -/
def u2 (r : Raw) (h : Head) (mk : Head → Ty → BitVec 6 → Src → Src → Instr) : Option Instr :=
  match Ty.ofCode r.ty, r.udest, r.src r.a, r.src r.b with
  | some t, some d, some a, some b => some (mk h t d a b)
  | _, _, _, _ => none

/-- The A operand alone. -/
def a1 (r : Raw) (mk : Src → Instr) : Option Instr := (r.src r.a).map mk

/-- The A and B operands. -/
def a2 (r : Raw) (mk : Src → Src → Instr) : Option Instr :=
  match r.src r.a, r.src r.b with
  | some a, some b => some (mk a b)
  | _, _ => none

/-- A predicate destination and the A operand. -/
def pa (r : Raw) (mk : Pred → Src → Instr) : Option Instr :=
  match pred r.d.toNat, r.src r.a with
  | some p, some a => some (mk p a)
  | _, _ => none

/-- The integer and logic opcodes 0x00 to 0x19 (R90). -/
def buildInt (r : Raw) (h : Head) : Option Instr :=
  match r.op.toNat, r.f.toNat with
  | 0x00, _ => r.b2 h .iadd
  | 0x01, _ => r.b2 h .isub
  | 0x02, _ => r.b2 h .imul
  | 0x03, _ => r.b2 h .imulh
  | 0x04, _ => r.b3 h .imad
  | 0x05, 0 => r.b2 h .idiv
  | 0x05, 1 => r.b2 h .irem
  | 0x06, _ => r.b2 h .imin
  | 0x07, _ => r.b2 h .imax
  | 0x08, _ => r.b2 h .and
  | 0x09, _ => r.b2 h .or
  | 0x0A, _ => r.b2 h .xor
  | 0x0B, _ => r.b2 h .andn
  | 0x0C, _ => r.b1 h .not
  | 0x0D, _ => r.b2 h .shl
  | 0x0E, _ => r.b2 h .shr
  | 0x0F, _ => r.b2 h .sar
  | 0x10, _ => r.b2 h .rotl
  | 0x11, _ => r.b1 h .popc
  | 0x12, _ => r.b1 h .clz
  | 0x13, _ => r.b1 h .brev
  | 0x14, _ => r.b2 h .bfx
  | 0x15, _ => r.b3 h .bfi
  | 0x16, _ => r.b3 h (fun h _ d a b c => .perm h d a b c)
  | 0x17, _ => match r.leaExt with
    | some e => r.b2 h (fun h t d a b => .lea h e t d a b r.x)
    | none => none
  | 0x18, _ => match r.icond, pred r.d.toNat with
    | some cd, some p => r.b2 h (fun h t _ a b => .icmp h cd t p a b)
    | _, _ => none
  | 0x19, _ => r.b3 h (fun h t d a b c => .idp4 h (r.f.getLsbD 0) (r.f.getLsbD 1) t d a b c)
  | _, _ => none

/-- The floating-point opcodes 0x20 to 0x30 (R112) and the queue and wait opcodes 0x38 to 0x3B (R235 to R241). -/
def buildFlt (r : Raw) (h : Head) : Option Instr :=
  match r.op.toNat with
  | 0x20 => r.b2 h .fadd
  | 0x21 => r.b2 h .fsub
  | 0x22 => r.b2 h .fmul
  | 0x23 => r.b3 h .ffma
  | 0x24 => r.b2 h (fun h t d a b => .fmin h (r.f == 1) t d a b)
  | 0x25 => r.b2 h (fun h t d a b => .fmax h (r.f == 1) t d a b)
  | 0x26 => match r.fcond, pred r.d.toNat with
    | some cd, some p => r.b2 h (fun h t _ a b => .fcmp h cd t p a b)
    | _, _ => none
  | 0x27 => r.b1 h .fclass
  | 0x28 => r.b1 h (fun h t d a => .frnd h (r.f == 1) t d a)
  | 0x29 => match Ty.ofCode (r.x.extractLsb' 0 4) with
    | some st => r.b1 h (fun h t d a => .fcvt h t st d a)
    | none => none
  | 0x2A => match Ty.ofCode (r.x.extractLsb' 0 4) with
    | some st => r.b1 h (fun h t d a => .f2i h t st d a)
    | none => none
  | 0x2B => match Ty.ofCode (r.x.extractLsb' 0 4) with
    | some st => r.b1 h (fun h t d a => .i2f h t st d a)
    | none => none
  | 0x2C => r.b2 h .padd
  | 0x2D => r.b2 h .pmul
  | 0x2E => r.b3 h .pfma
  | 0x2F => r.b3 h .pdot2
  | 0x30 => some (.rng h (r.f == 1) r.d)
  | 0x38 => match r.sfqFn with
    | some fn => r.a1 (fun a => .sfq h fn (r.x.extractLsb' 0 4) r.d a)
    | none => none
  | 0x39 => r.a1 (.waitt h)
  | 0x3A => r.a1 (.sleept h)
  | 0x3B => r.a2 (.lwait h)
  | _ => none

/-- The move, predicate and cross-lane opcodes 0x40 to 0x55 (R90, R171). -/
def buildMov (r : Raw) (h : Head) : Option Instr :=
  match r.op.toNat with
  | 0x40 => r.b1 h .mov
  | 0x41 => match pred r.x.toNat with
    | some p => r.b2 h (fun h t d a b => .sel h t p d a b)
    | none => none
  | 0x42 => match pred r.d.toNat, pin r.a, pin r.b, pin r.c with
    | some p, some a, some b, some c => some (.plop h (r.f.extractLsb' 0 2 ++ r.x : BitVec 8) p a b c)
    | _, _, _, _ => none
  | 0x43 => if r.f = 0 then some (.movp h r.d) else r.a2 (.movpSet h)
  | 0x44 => r.sreg.map (fun sr => .rdsr h sr r.d)
  | 0x45 => r.pa (.elect h)
  | 0x46 => some (.nop h)
  | 0x50 => match r.shflMode, rp r.x.toNat with
    | some m, some p => r.b3 h (fun h t d a b c => .shfl h m t p d a b c)
    | _, _ => none
  | 0x51 => match r.voteFn, pred r.d.toNat, pin r.a, r.src r.b, r.src r.c with
    | some fn, some p, some i, some b, some c => some (.vote h fn p i b c)
    | _, _, _, _, _ => none
  | 0x52 => match pin r.a, r.src r.c with
    | some i, some c => some (.ballot h r.d i c)
    | _, _ => none
  | 0x53 => match rp r.x.toNat with
    | some p => r.b3 h (fun h t d a _ c => .matchLanes h t p d a c)
    | none => none
  | 0x54 => match r.redOp, rp r.x.toNat with
    | some op, some p => r.b3 h (fun h t d a b c => .redux h op t p d a b c)
    | _, _ => none
  | 0x55 => match r.redOp, rp (r.x.extractLsb' 0 4).toNat with
    | some op, some p => r.b3 h (fun h t d a _ c => .scan h op (r.x.getLsbD 4) t p d a c)
    | _, _ => none
  | _ => none

/-- The memory, engine and control opcodes 0x60 to 0x76 (R129, R205, R228, R411, R195, R281). -/
def buildMem (r : Raw) (h : Head) : Option Instr :=
  match r.op.toNat with
  | 0x60 => match r.hint with
    | some hn => r.b2 h (fun h t d a b => .ld h r.space hn t d a b)
    | none => none
  | 0x61 => match r.hint with
    | some hn => r.b3 h (fun h t _ a b c => .st h r.space hn t a b c)
    | none => none
  | 0x62 => match r.atomOp, r.hint with
    | some op, some hn => r.b3 h (fun h t d a b c => .atom h op (r.x.getLsbD 4) hn t d a b c)
    | _, _ => none
  | 0x63 => match r.hint with
    | some hn => r.b2 h (fun h t d a b => .lr h hn t d a b)
    | none => none
  | 0x64 => match r.hint, pred r.d.toNat with
    | some hn, some p => r.b3 h (fun h t _ a b c => .sc h hn t p a b c)
    | _, _ => none
  | 0x65 => if r.f = 0 then some (.fenceE h) else some (.fenceN h)
  | 0x66 => r.a2 (.pref h (r.x.getLsbD 2))
  | 0x68 => r.a1 (.cpy h r.d)
  | 0x69 => r.a1 (.mma h)
  | 0x6A => r.a1 (.mdrain h)
  | 0x6B => r.a1 (.mzero h)
  | 0x6C => r.a1 (.nput h)
  | 0x6D => r.a1 (.nget h)
  | 0x6E => r.a1 (.nsend h)
  | 0x6F => r.eclass.map (fun cl => .waitc h cl r.x)
  | 0x70 => r.imm.map (.bra h)
  | 0x71 => r.a1 (.brx h)
  | 0x72 => if r.f = 0 then r.imm.map (.call h r.d) else r.a1 (.callX h r.d)
  | 0x73 => r.a1 (.ret h)
  | 0x74 => some (.exit h)
  | 0x75 => if r.f = 0 then some (.bar h (r.x.extractLsb' 0 4)) else some (.barArv h (r.x.extractLsb' 0 4))
  | 0x76 => if r.f = 0 then some (.cbar h (r.x.extractLsb' 0 2)) else some (.cbarArv h (r.x.extractLsb' 0 2))
  | _ => none

/-- The task, hypothesis, trap and SYS opcodes 0x77 to 0x7F (R198, R339 to R341, R355, R369, R249 to R261, R391). -/
def buildSys (r : Raw) (h : Head) : Option Instr :=
  match r.op.toNat, r.f.toNat, r.x.toNat with
  | 0x77, _, _ => some (.swpt h r.a)
  | 0x78, _, _ => r.a1 (.spawn h r.d)
  | 0x79, 0, _ => r.a2 (.modreg h r.x r.d)
  | 0x79, 1, _ => r.a1 (.modrel h)
  | 0x7A, _, _ => r.pa (.prop h)
  | 0x7B, 0, _ => some (.hnew h r.d)
  | 0x7B, 1, _ => r.a1 (.hent h)
  | 0x7B, 2, 0 => r.pa (.hresConf h)
  | 0x7B, 2, 1 => r.pa (.hresRef h)
  | 0x7C, _, _ => some (.dph h)
  | 0x7D, _, _ => r.a1 (.trap h)
  | 0x7E, _, _ => some (.tret h)
  | 0x7F, 0, _ => r.csr.map (fun cs => .csrr h cs r.d)
  | 0x7F, 1, _ => match r.csr with
    | some cs => r.a1 (.csrw h cs)
    | none => none
  | 0x7F, 2, _ => some (.ckpt h)
  | 0x7F, 3, 0 => r.a1 (.permitAcq h)
  | 0x7F, 3, 1 => r.a1 (.permitRel h)
  | 0x7F, 3, 2 => r.pa (.permitTry h)
  | 0x7F, 4, _ => r.a1 (.yield h)
  | 0x7F, 5, 0 => r.a1 (.tlbiPage h)
  | 0x7F, 5, 1 => some (.tlbiCtx h)
  | 0x7F, 5, 2 => some (.tlbiVdev h)
  | 0x7F, 6, _ => r.a2 (.cflush h)
  | _, _, _ => none

/-- The uniform set (R61, R164). -/
def buildUni (r : Raw) (h : Head) : Option Instr :=
  match r.op.toNat with
  | 0x00 => r.u2 h .uadd
  | 0x01 => r.u2 h .usub
  | 0x02 => r.u2 h .umul
  | 0x03 => r.u2 h .umulh
  | 0x04 => match r.src r.c with
    | some c => r.u2 h (fun h t d a b => .umad h t d a b c)
    | none => none
  | 0x06 => r.u2 h .umin
  | 0x07 => r.u2 h .umax
  | 0x08 => r.u2 h .uand
  | 0x09 => r.u2 h .uor
  | 0x0A => r.u2 h .uxor
  | 0x0D => r.u2 h .ushl
  | 0x0E => r.u2 h .ushr
  | 0x0F => r.u2 h .usar
  | 0x17 => match r.leaExt with
    | some e => r.u2 h (fun h t d a b => .ulea h e t d a b r.x)
    | none => none
  | 0x18 => match r.icond, pred r.d.toNat with
    | some cd, some p => r.b2 h (fun h t _ a b => .ucmp h cd t p a b)
    | _, _ => none
  | 0x40 => r.u2 h (fun h t d a _ => .umov h t d a)
  | 0x44 => match r.sreg, r.udest with
    | some sr, some d => some (.urdsr h sr d)
    | _, _ => none
  | 0x60 => match r.hint with
    | some hn => r.u2 h (fun h t d a b => .uld h r.space hn t d a b)
    | none => none
  | 0x61 => match r.hint with
    | some hn => r.b3 h (fun h t _ a b c => .ust h r.space hn t a b c)
    | none => none
  | 0x70 => r.imm.map (.ubra h)
  | _ => none

/-- The instruction the fields name, before the checks of step 3 of R57. -/
def build (r : Raw) : Option Instr :=
  match r.head with
  | none => none
  | some h =>
    if r.s then r.buildUni h
    else if r.op.toNat < 0x20 then r.buildInt h
    else if r.op.toNat < 0x40 then r.buildFlt h
    else if r.op.toNat < 0x60 then r.buildMov h
    else if r.op.toNat < 0x77 then r.buildMem h
    else r.buildSys h

end Raw

/-- Whether an opcode is assigned in the set S selects (R60, R61). -/
def opAssigned (uniform : Bool) (op : BitVec 7) : Bool :=
  let n := op.toNat
  if uniform then
    decide (n ≤ 0x04) || n == 0x06 || n == 0x07 || (decide (0x08 ≤ n) && decide (n ≤ 0x0A)) ||
    (decide (0x0D ≤ n) && decide (n ≤ 0x0F)) || n == 0x17 || n == 0x18 || n == 0x40 || n == 0x44 ||
    n == 0x60 || n == 0x61 || n == 0x70
  else
    !(decide (0x1A ≤ n) && decide (n ≤ 0x1F)) && !(decide (0x31 ≤ n) && decide (n ≤ 0x37)) &&
    !(decide (0x3C ≤ n) && decide (n ≤ 0x3F)) && !(decide (0x47 ≤ n) && decide (n ≤ 0x4F)) &&
    !(decide (0x56 ≤ n) && decide (n ≤ 0x5F)) && n != 0x67

/-! ## The encoder -/

namespace Modifier

/-- The code of SATC (R52). -/
def satCode : Satc → BitVec 2
  | .none => 0 | .sat => 1 | .clamp01 => 2 | .clamp11 => 3

/-- The code of RM (R77). -/
def rmCode : Rm → BitVec 2
  | .dflt => 0 | .rz => 1 | .rup => 2 | .rdn => 3

/-- The modifier word (R52). -/
def word (m : Modifier) : Word :=
  (satCode m.satc ++ m.scale ++ BitVec.ofBool m.na ++ BitVec.ofBool m.aa ++ BitVec.ofBool m.nb ++ BitVec.ofBool m.ab ++
    BitVec.ofBool m.nc ++ BitVec.ofBool m.ac ++ rmCode m.rm ++ 0#16 : BitVec 32)

end Modifier

/-- The G and N fields of a guard (R44). -/
def Guard.code : Guard → BitVec 4 × Bool
  | .always => (15, false)
  | .pred p n => (BitVec.ofNat 4 p.val, n)

/-- The D field (R47). -/
def Dst.code : Dst → BitVec 7
  | .none => 0
  | .lane r _ _ => r
  | .uni r _ _ => (0#1 ++ r : BitVec 7)
  | .pred p => BitVec.ofNat 7 p.val

/-- The W field: the extension words (R42, R50). -/
def Form.wField (f : Form) (bare : Bool) : BitVec 2 :=
  if bare then 0 else BitVec.ofNat 2 (1 + f.imms.length)

/-- The head word (R44). -/
def Form.headWord (f : Form) (h : Head) : Word :=
  (BitVec.ofBool f.uniform ++ BitVec.ofBool h.k ++ f.wField h.bare ++ BitVec.ofBool h.mod.isSome ++ f.op ++
    h.guard.code.1 ++ BitVec.ofBool h.guard.code.2 ++ f.d.code ++ f.a.code8 : BitVec 32)

/-- The field word (R45). -/
def Form.fieldWord (f : Form) : Word :=
  (f.b.code8 ++ f.c.code8 ++ f.ty ++ f.f ++ f.x : BitVec 32)

/-- The words of an encoded instruction (R42); an event has none. -/
def encode (i : Instr) : List Word :=
  match i.form, i.head with
  | some f, some h =>
    f.headWord h :: ((if h.bare then [] else f.fieldWord :: f.imms) ++ (h.mod.map Modifier.word).toList)
  | _, _ => []

/-- An instruction's length in bytes: 4 × (1 + W + M) (R65). -/
def Instr.bytes (i : Instr) : Nat := 4 * (encode i).length

/-! ## The decoder -/

/-- The instruction that the words at the front of a list are (R57 steps 2 and 3, R63). -/
def decode (ws : List Word) : Except DecodeTrap Instr :=
  let h := ws.headD 0
  if opAssigned (Raw.headS h) (Raw.headOp h) = false then .error .illOp
  else if Raw.headW h = 3 then .error .illForm
  else match (Raw.ofWords ws).build with
    | none => .error .illForm
    | some i =>
      if i.WellFormed && encode i == ws.take (Raw.headLength h) then .ok i else .error .illForm

/-- The 32-bit word at byte `4 × n` of a table word (bit 0 is the least significant bit of the first word). -/
def tableWord (w n : Nat) : Word := BitVec.ofNat 32 (w / 2 ^ (32 * n))

/-- The instruction decoded from a word of spec/opcode_table.json; the words above `nbits` are zero. -/
def decodeTableWord (nbits w : Nat) : Option Instr :=
  match decode ((List.range 4).map (tableWord (w % 2 ^ nbits))) with
  | .ok i => some i
  | .error _ => none

end Sys2Proof
end

