-- ==== Sys2Proof/Machine/Interval.lean ====
section
/-! DEFINITION. Checkpoint intervals (R255 to R261): delivering special-function results, closing a team's open interval
when nothing holds it open, the escape rule, and the prior contents the undo log keeps. -/

namespace Sys2Proof.Machine

/-- The answer of an access: a value and the next state; a wait of the issuing thread, which issues again; a trap. -/
inductive Res (α : Type) where
  | ok (v : α) (s : State)
  | wait (k : WaitKind) (s : State)
  | trap (t : TrapInfo) (s : State)

/-- Goes on with the value of an access. -/
def Res.bind {α β : Type} (r : Res α) (f : α → State → Res β) : Res β :=
  match r with
  | .ok v s => f v s
  | .wait k s => .wait k s
  | .trap t s => .trap t s

/-- The special-function results of a token written, and the token free (R237). Results of exited lanes are discarded
(R146). -/
def State.deliver (s : State) (u g tok : Nat) : State :=
  match (s.grp u g).tokens.find? (fun k => k.num == tok) with
  | none => s
  | some k =>
    let s := k.writes.foldl (fun s w =>
      let tid := 32 * g + w.1
      if (s.thr u tid).st == .exited then s
      else
        let s := s.spoil u tid w.2.1
        let s := s.updTeam u (fun t => t.logAdd (.regRow g w.2.1))
        s.updThr u tid (fun t => { t with regs := SMap.put t.regs w.2.1 w.2.2 0 })) s
    s.updGrp u g (fun gr => { gr with
      tokens := gr.tokens.filter (fun k => k.num != tok)
      unclaimed := gr.unclaimed ++ k.writes.map (fun w => (w.1, w.2.1, tok)) })

/-- Every special-function result of a team written, oldest first. -/
def State.deliverAll (s : State) (u : Nat) : State :=
  (s.team u).body.groups.foldl (fun s e =>
    (sortBy Token.seq e.2.tokens).foldl (fun s k => s.deliver u e.1 k.num) s) s

/-- Every outstanding result of a team written, its captures done first (R215). -/
def State.drainAll (s : State) (u : Nat) : State :=
  let capture (p : Pending) : Bool := match p.tag with | .capture _ => true | _ => false
  let s := s.updBody u (fun b => { b with threads := SMap.mapVal b.threads (fun _ t => { t with pend := t.pend.filter (fun p => !capture p) }) })
  (s.team u).body.live.foldl (fun s tid => s.drain u tid) s

/-- Whether an operation must be reported before its team's interval closes (R257 step 2). -/
def EngineOp.holdsInterval (o : EngineOp) (u : Nat) : Bool :=
  o.team == u && o.interval.isSome &&
    (match o.kind with
     | .nput _ => false
     | .nsend _ => false
     | _ => true)

/-- Whether the open interval can close now. -/
def State.closable (s : State) (u : Nat) : Bool := !s.ops.any (fun o => o.holdsInterval u)

/-- The reads and writes a team's task record holds (R346). -/
def State.recCounts (s : State) (u : Nat) : Nat × Nat :=
  let t := s.team u
  match s.manifests.find? (fun m => m.launch == some t.launch) with
  | some m =>
    match m.recs.find? (fun r => r.task == t.task) with
    | some r => (r.reads.length, r.writes.length)
    | none => (0, 0)
  | none => (0, 0)

/-- The bytes of L1 lines that a team has written in the interval that closes belong to an earlier one from then on (R263). -/
def State.agedLines (s : State) (u : Nat) : State :=
  let t := s.team u
  let lines := t.log.filterMap (fun it => match it with | .line l old => some (l, old.map Prod.fst) | _ => none)
  if lines.isEmpty then s
  else s.updCore t.core (fun k => { k with l1 := SMap.mapVal k.l1 (fun line x =>
    match lines.find? (fun e => e.1 == line) with
    | some e => { x with older := x.mask &&& e.2.foldl (fun m a => m ||| BitVec.twoPow 128 (a % 128)) x.older }
    | none => x) })

/-- Closes a team's open interval (R257): results written, the log discarded, the ordinal advanced, %work zero, a new
snapshot. Threads that waited for the close go on. -/
def State.doClose (s : State) (u : Nat) : State :=
  let s := ((s.drainAll u).deliverAll u).agedLines u
  let counts := s.recCounts u
  let woken : Thread → Thread := fun t =>
    match t.wait with
    | some w => if t.st == .waiting && (w.kind == .ckpt || w.kind == .close) then t.wake else t
    | none => t
  let s := s.updTeam u (fun t =>
    let body := { t.body with threads := SMap.mapVal t.body.threads (fun _ th => woken th) }
    { t with body := body, snap := body, log := [], logBad := none, interval := t.interval + 1, work := 0, errRollbacks := 0,
             closing := false, recMark := counts })
  { s with ops := s.ops.map (fun o => if o.team = u then { o with interval := none } else o) }

/-- Closes the interval if nothing holds it open, or asks for the close (the team then issues nothing until it). -/
def State.forceClose (s : State) (u : Nat) : Bool × State :=
  if s.closable u then (true, s.doClose u) else (false, s.updTeam u (fun t => { t with closing := true }))

/-- Closes the intervals of a list of teams; false while one must wait. -/
def State.closeAll (s : State) : List Nat → Bool × State
  | [] => (true, s)
  | u :: r =>
    let (ok, s) := s.forceClose u
    let (ok', s) := State.closeAll s r
    (ok && ok', s)

/-- The resident teams, other than one, whose open interval wrote an item. -/
def State.writers (s : State) (except : Option Nat) (p : LogItem → Bool) : List Nat :=
  s.resident.filter (fun v => some v != except && (s.team v).log.any p)

/-- The escape rule (R259): an access by any agent but the writing team first closes that team's interval. -/
def State.escape (s : State) (except : Option Nat) (p : LogItem → Bool) : Bool × State :=
  s.closeAll (s.writers except p)

/-- The log items that name a memory line. -/
def LogItem.isLine (line : Nat) : LogItem → Bool
  | .line l _ => l == line
  | .vline _ l _ => l == line
  | _ => false

/-- The log items that name a scratchpad row of a team. -/
def LogItem.isScratch (team row : Nat) : LogItem → Bool
  | .scratchRow t r _ => t == team && r == row
  | _ => false

/-- The bytes of a log entry (R255, R256): 128 for a register row, uniform row or line, 2,048 for a scratchpad row, 512
for an accumulator row. -/
def LogItem.bytes : LogItem → Nat
  | .accRow _ _ => 512
  | .scratchRow _ _ _ => 2048
  | _ => 128

/-- The prior bytes of a list already recorded, with the missing ones added. -/
def addPriors (old : List (Nat × Byte)) : List (Nat × Byte) → List (Nat × Byte)
  | [] => old
  | e :: r => addPriors (if old.any (fun f => f.1 == e.1) then old else e :: old) r

/-- Records the prior bytes of a line (R255). -/
def Team.logLine (t : Team) (line : Nat) (prior : List (Nat × Byte)) : Team :=
  if t.log.any (fun it => match it with | .line l _ => l == line | _ => false) then
    { t with log := t.log.map (fun it =>
        match it with
        | .line l old => if l = line then .line l (addPriors old prior) else it
        | _ => it) }
  else { t with log := .line line (addPriors [] prior) :: t.log }

/-- Records a version line's prior content once (R255, R362). -/
def Team.logVLine (t : Team) (hyp line : Nat) (prior : Option VLine) : Team :=
  if t.log.any (fun it => match it with | .vline h l _ => h == hyp && l == line | _ => false) then t
  else { t with log := .vline hyp line prior :: t.log }

/-- The scratchpad row of an offset: rows of 2 KiB (R192). -/
def scratchRowOf (off : Nat) : Nat := off / 2048

/-- Records a scratchpad row of a team's array in the writer's log, with the row's prior bytes, once (R255). -/
def State.logScratch (s : State) (u target row : Nat) : State :=
  if (s.team u).log.any (LogItem.isScratch target row) then s
  else
    let prior : Mem := (s.team target).scratch.filter (fun e => e.1 / 2048 == row)
    s.updTeam u (fun t => { t with log := LogItem.scratchRow target row prior :: t.log })

end Sys2Proof.Machine
end

