-- ==== Sys2Proof/Machine/Buckets.lean ====
section
/-! DEFINITION. Token buckets and pools (R382, R383): the arbiters and their capacities, whose turn it is, drawing a request's cost, and the
refill of a cycle. -/

namespace Sys2Proof.Machine

/-- The arbiters (R382). -/
inductive Arbiter where
  | issue (core : Nat)
  | fill (slice : Nat)
  | memory (channel : Nat)
  | network (port : Nat)
  | ferry (core : Nat)
deriving DecidableEq, Repr

/-- An arbiter's number: its kind's range, then its place in it. -/
def Arbiter.number : Arbiter → Nat
  | .issue c => c
  | .ferry c => 480 + c
  | .fill i => 960 + i
  | .memory i => 1600 + i
  | .network p => 2112 + p

/-- Capacity per cycle in units of 2^-16 tokens, by an arbiter's number (R382). -/
def arbiterCapacity (n : Nat) : Nat :=
  if n < 480 then 4 * 65536
  else if n < 960 then 64 * 65536
  else if n < 1600 then 32768
  else if n < 2112 then 2326528
  else 74 * 65536

/-- The key of a virtual device's bucket at an arbiter. -/
def bucketKey (n d : Nat) : Nat := 16 * n + d

namespace State

/-- A virtual device's bucket at an arbiter; created with rate and depth 0 (R382). -/
def bucket (s : State) (a : Arbiter) (d : Nat) : Bucket := SMap.get s.buckets (bucketKey a.number d) ⟨0, 0, 0⟩

/-- The pool of an arbiter, in units of 2^-16 tokens (R383). -/
def pool (s : State) (a : Arbiter) : Nat := SMap.get s.pools a.number 0

/-- Whether a request's cost in tokens can be granted now: from the bucket, or from the pool with BORROW (R382, R383). -/
def affords (s : State) (a : Arbiter) (d cost : Nat) : Bool :=
  decide (cost * 65536 ≤ (s.bucket a d).tokens) || ((s.vd d).borrow && decide (cost * 65536 ≤ s.pool a))

/-- Draws tokens from a virtual device's own bucket. -/
def spendOwn (s : State) (a : Arbiter) (d cost : Nat) : State :=
  if cost = 0 then s
  else
    let b := s.bucket a d
    { s with buckets := SMap.set s.buckets (bucketKey a.number d) { b with tokens := b.tokens - cost * 65536 } }

/-- Draws tokens from an arbiter's pool (R383). -/
def spendPool (s : State) (a : Arbiter) (cost : Nat) : State :=
  if cost = 0 then s else { s with pools := SMap.set s.pools a.number (s.pool a - cost * 65536) }

/-- Whether a virtual device's own bucket holds a request's cost (R382). -/
def ownPays (s : State) (a : Arbiter) (d cost : Nat) : Bool := decide (cost * 65536 ≤ (s.bucket a d).tokens)

/-- How far a virtual device's number is behind the one that an arbiter last served from its pool (R383). -/
def poolAway (s : State) (a : Arbiter) (d : Nat) : Nat := (d + 31 - SMap.get s.poolTurns a.number 15) % 16

/-- Whether it is a virtual device's turn at an arbiter's pool (R383): no rival pays from its own tokens, and none is nearer in
the round. A rival is another virtual device whose request could be granted, with whether its own tokens pay for it. -/
def poolTurnOf (s : State) (a : Arbiter) (d : Nat) (rivals : List (Nat × Bool)) : Bool :=
  rivals.all (fun r => r.1 == d || (!r.2 && decide (s.poolAway a d ≤ s.poolAway a r.1)))

/-- Whether a request is granted against its rivals (R382, R383). -/
def granted (s : State) (a : Arbiter) (d cost : Nat) (rivals : List (Nat × Bool)) : Bool :=
  s.ownPays a d cost || (s.affords a d cost && s.poolTurnOf a d rivals)

/-- Draws a granted request's cost; a pool notes whom it served. -/
def spend (s : State) (a : Arbiter) (d cost : Nat) : State :=
  if cost * 65536 ≤ (s.bucket a d).tokens then s.spendOwn a d cost
  else { s.spendPool a cost with poolTurns := SMap.set s.poolTurns a.number d }

/-- One bucket's refill: what overflows a full bucket goes to the pool with LEND, else it is lost (R383). A virtual device
in reset is granted nothing and lends nothing (R385). -/
def refillOne (s : State) (key : Nat) (b : Bucket) : State :=
  let d := key % 16
  let n := key / 16
  if (s.vd d).resetting.isSome then s
  else
    let cap := b.depth * 65536
    let total := b.tokens + b.rate
    let s := { s with buckets := SMap.set s.buckets key { b with tokens := min total cap } }
    if cap < total && (s.vd d).lend then
      let top := arbiterCapacity n * 1024
      { s with pools := SMap.set s.pools n (min top (SMap.get s.pools n 0 + (total - cap))) }
    else s

end State

end Sys2Proof.Machine
end

