-- ==== Sys2Proof/Machine/Coherence.lean ====
section
/-! DEFINITION. Homes, slices and L1 copies (R287 to R301) and version lines (R352, R353): where a line's home is, filling
and evicting, recall and merge, and the accesses of a thread or an agent to physical bytes of HBM. An access first applies
the escape rule to the line; where a close must wait, it answers a wait. -/

namespace Sys2Proof.Machine

/-! ## Homes -/

/-- The line of a physical address. -/
def lineOf (pa : Nat) : Nat := pa / 128

/-- The die and slice of HomeOf (R287). -/
def homeOf (pa : Nat) : Nat × Nat :=
  let st := (bitsOf pa 12 4) ^^^ (bitsOf pa 20 4) ^^^ (bitsOf pa 28 4) ^^^ (bitsOf pa 36 4)
  let l := pa / 128
  let h := (l % 65536) ^^^ (l / 65536 % 65536) ^^^ (l / 4294967296)
  (st / 4, h * 160 / 65536)

/-- The slice of a line, numbered over the package. -/
def sliceOf (line : Nat) : Nat := (homeOf (line * 128)).1 * 160 + (homeOf (line * 128)).2

/-- The memory channel of a physical address, numbered over the package: 32 in each HBM stack (R387). -/
def channelOf (pa : Nat) : Nat :=
  let st := (bitsOf pa 12 4) ^^^ (bitsOf pa 20 4) ^^^ (bitsOf pa 28 4) ^^^ (bitsOf pa 36 4)
  32 * st + ((bitsOf pa 7 5) ^^^ (bitsOf pa 23 5))

/-- The context identifier (R290). -/
def identOf (d c : Nat) : Nat := 16 * d + c

/-- The set of a line (R288). -/
def setOfLine (line : Nat) : Nat := Config.setOf line % 1310

/-- The bytes of a line in a memory, as a snapshot. -/
def lineBytes (m : Mem) (line : Nat) : Mem := m.filter (fun e => e.1 / 128 == line)

/-- The mask of `n` bytes at a physical address within its line. -/
def byteMask (pa n : Nat) : BitVec 128 := BitVec.ofNat 128 ((2 ^ n - 1) * 2 ^ (pa % 128))

/-- Whether a mask holds all of some bytes. -/
def maskHas (m b : BitVec 128) : Bool := m &&& b == b

/-- Whether two masks meet. -/
def maskMeets (m b : BitVec 128) : Bool := m &&& b != 0

/-- The bytes a copy's mask names, by physical address. -/
def L1Line.masked (c : L1Line) (line : Nat) : List (Nat × Byte) :=
  ((List.range 128).filter (fun i => c.mask.getLsbD i)).map (fun i => (line * 128 + i, Mem.get c.data (line * 128 + i)))

namespace State

/-- A slice's eviction stamp (R289). -/
def estOf (s : State) (slice : Nat) : Stamp := SMap.get s.est slice 0

/-- Raises a slice's eviction stamp. -/
def raiseEst (s : State) (slice : Nat) (x : Stamp) : State :=
  { s with est := SMap.set s.est slice (serialMax (s.estOf slice) x) }

/-- Whether a line holds a live reservation and so is pinned (R299). -/
def pinned (s : State) (line : Nat) : Bool := s.resv.any (fun r => r.granule / 16 == line)

/-- Cancels the reservations on the granules that a write of bytes meets (R300). -/
def cancelResv (s : State) (pa n : Nat) : State :=
  if n = 0 then s
  else { s with resv := s.resv.filter (fun r => !(decide (pa / 8 ≤ r.granule) && decide (r.granule ≤ (pa + n - 1) / 8))) }

/-- The cores that own or privatise a line (R296). -/
def holders (s : State) (line : Nat) : List Nat :=
  match SMap.find s.lines line with
  | some h => h.holders
  | none => []

/-- A core's program stamp (R291). -/
def pts (s : State) (c : Nat) : Stamp := (s.cor c).pts

/-- Sets a core's program stamp. -/
def setPts (s : State) (c : Nat) (x : Stamp) : State := s.updCore c (fun k => { k with pts := x })

/-- A core adopts a stamp: SerialMax with its own (R292). -/
def adopt (s : State) (c : Nat) (x : Stamp) : State :=
  if serialMax (s.pts c) x = s.pts c then s else s.setPts c (serialMax (s.pts c) x)

/-- The outside's time moves on to a stamp (R319). -/
def raiseOut (s : State) (x : Stamp) : State := { s with outStamp := serialMax s.outStamp x }

/-- The later steps of a core follow the outside's earlier ones (R319, R420). -/
def afterOutside (s : State) (c : Nat) : State := s.adopt c s.outStamp

/-- The later steps of two teams on different cores follow the earlier steps of both (R282, R309). -/
def meetTeams (s : State) (u v : Nat) : State :=
  let a := (s.team u).core
  let b := (s.team v).core
  if a = b then s else (s.adopt a (s.pts b)).adopt b (s.pts a)

/-- A recall or a lookup wakes a cache in retention sleep (R305), and it is no longer idle (R399). What it would drop on waking has
gone at its die's sweep. -/
def rouse (s : State) (cache : CacheId) : State :=
  let s := if s.henip.sleepPolicy = 1 then { s with cacheUse := s.cacheUse.filter (fun e => e.1 != cache) ++ [(cache, s.cyc)] } else s
  if s.sleeping.isEmpty then s else { s with sleeping := s.sleeping.filter (fun e => e.1 != cache) }

/-- An access to a line's versions on a core follows the earlier ones, and the later ones follow it (R309). DEDUCED
(notes/assumptions/89.md). -/
def meetVersion (s : State) (core line : Nat) : State :=
  let s := match SMap.find s.verStamp line with
    | some x => s.adopt core x
    | none => s
  { s with verStamp := SMap.set s.verStamp line (s.pts core) }

/-- The lines that a core's L1 holds (R192): 16 in each of the 384 rows that no carve takes. -/
def l1Cap (s : State) (core : Nat) : Nat :=
  16 * (384 - ((s.launchesOn core).map (fun l => ((s.lau l).carve + 2047) / 2048)).sum)

/-- Drops a line from an L1. -/
def dropL1 (s : State) (c line : Nat) : State :=
  s.updCore c (fun k => { k with l1 := SMap.erase k.l1 line })

/-- Puts a line into an L1. -/
def putL1 (s : State) (c line : Nat) (x : L1Line) : State :=
  s.updCore c (fun k => { k with l1 := SMap.set k.l1 line x })

/-- The coherent root value of a byte: the written byte of the core that holds it, else the home's (R297). -/
def rootByte (s : State) (pa : Nat) : Byte :=
  match (s.holders (lineOf pa)).find? (fun c =>
      match SMap.find (s.cor c).l1 (lineOf pa) with
      | some x => x.mask.getLsbD (pa % 128)
      | none => false) with
  | some c => Mem.get (SMap.get (s.cor c).l1 (lineOf pa) ⟨0, .leased, 0, 0, [], 0, 0⟩).data pa
  | none => Mem.get s.mem pa

/-- Coherent root bytes. -/
def rootBytes (s : State) (pa : Nat) : Nat → List Byte
  | 0 => []
  | n + 1 => s.rootByte pa :: rootBytes s (pa + 1) n

/-- One holder returns its bytes and stamps to the home (R295 step 2, R297). -/
def returnCopy (s : State) (line c : Nat) : State :=
  match SMap.find (s.cor c).l1 line with
  | none => s
  | some x =>
    { s with
      mem := Mem.writeAll s.mem (x.masked line),
      lines := match SMap.find s.lines line with
        | some h => SMap.set s.lines line { h with
            wts := serialMax h.wts x.wts, rts := serialMax (serialMax h.rts x.rts) (serialMax h.wts x.wts)
            dirty := h.dirty || x.mask != 0 }
        | none => s.lines }

/-- Recall or merge of a line (R295, R297): every holder returns its bytes; for a read the single owner keeps a leased
copy; a merge leaves no copy. -/
def recallLine (s : State) (line : Nat) (forRead : Bool) : State :=
  match s.holders line with
  | [] => s
  | hs =>
    let s1 := hs.foldl (fun s c => (s.rouse (.l1 c)).returnCopy line c) s
    let s2 := hs.foldl (fun s c =>
      match SMap.find (s.cor c).l1 line, SMap.find s.lines line with
      | some x, some h =>
        if forRead && x.kind == .owned then
          s.putL1 c line { x with kind := .leased, wts := h.wts, rts := h.rts, data := lineBytes s.mem line, mask := 0, older := 0 }
        else s.dropL1 c line
      | _, _ => s.dropL1 c line) s1
    match SMap.find s2.lines line with
    | some h => { s2 with lines := SMap.set s2.lines line { h with holders := [] } }
    | none => s2

/-- A core's L1 gives up a line (R193, R294): a copy that the core may write goes back to its home with its bytes, mask and stamps. -/
def giveBack (s : State) (core line : Nat) : State :=
  match SMap.find (s.cor core).l1 line with
  | none => s
  | some x =>
    if x.kind == .leased then s.dropL1 core line
    else
      let s := (s.returnCopy line core).dropL1 core line
      match SMap.find s.lines line with
      | some h => { s with lines := SMap.set s.lines line { h with holders := h.holders.filter (fun c => c != core) } }
      | none => s

/-- An L1's eviction of a line (R294, R297): that of a privatised copy merges the line. -/
def evictL1 (s : State) (core line : Nat) : State :=
  match SMap.find (s.cor core).l1 line with
  | some x => if x.kind == .privatised then s.recallLine line false else s.giveBack core line
  | none => s

/-- Room in an L1 for a line (R192). A full cache gives up one by a free choice, a privatised copy only where its merge need not wait
for an interval's close; false where it can give up none. DESIGN CHOICE (notes/assumptions/19.md). -/
def makeRoom (s : State) (core line : Nat) : Bool × State :=
  let l1 := (s.cor core).l1
  if (SMap.find l1 line).isSome || decide (l1.length < s.l1Cap core) then (true, s)
  else
    let cands := (l1.filter (fun e => e.2.kind != .privatised || (s.writers none (LogItem.isLine e.1)).isEmpty)).map Prod.fst
    match cands[Config.freeChoice s.draws % cands.length]? with
    | some l => (true, s.draw.evictL1 core l)
    | none => (false, s)

/-- Keeps a line in an L1 where it has room. -/
def fillL1 (s : State) (core line : Nat) (x : L1Line) : State :=
  let r := s.makeRoom core line
  if r.1 then r.2.putL1 core line x else r.2

/-- The lines of an L1 beyond its size leave it, by a free choice, as rows pass to scratchpad (R193). DESIGN CHOICE
(notes/assumptions/19.md). -/
def shrinkL1 (s : State) (core : Nat) : Nat → State
  | 0 => s
  | n + 1 =>
    let l1 := (s.cor core).l1
    if l1.length ≤ s.l1Cap core then s
    else match l1[Config.freeChoice s.draws % l1.length]? with
      | some e => (s.draw.giveBack core e.1).shrinkL1 core n
      | none => s

/-- Evicts a resident line from its slice: recalled, its rts raised into est (R289). The bytes written back draw what tokens there
are of the virtual device that the line's identifier names (R382). DESIGN CHOICE (notes/assumptions/22.md). -/
def evictLine (s : State) (line : Nat) : State :=
  let s := s.recallLine line false
  match SMap.find s.lines line with
  | some h =>
    let s := if h.dirty then s.spendOwn (.memory (channelOf (128 * line))) (h.ident / 16) 128 else s
    { s.raiseEst (sliceOf line) h.rts with lines := SMap.erase s.lines line }
  | none => s

/-! ## Transfers between the slices and HBM (R382, R383, R387) -/

/-- What a transfer costs at each arbiter that it passes: a fill's token, and the bytes of its line. -/
def moveCosts (r : MemReq) : List (Arbiter × Nat) :=
  (if r.fill then [(.fill (sliceOf r.line), 1)] else []) ++ [(.memory (channelOf (128 * r.line)), 128)]

/-- Whether its virtual device's own tokens pay for a transfer. -/
def ownMoves (s : State) (r : MemReq) : Bool := (moveCosts r).all (fun e => s.ownPays e.1 r.vdev e.2)

/-- The waiting transfers of other virtual devices that could be granted at an arbiter of a transfer, with whether their own
tokens pay. -/
def moveRivals (s : State) (r : MemReq) (a : Arbiter) : List (Nat × Bool) :=
  (s.memReqs.filter (fun x => x.vdev != r.vdev && ((moveCosts x).map Prod.fst).contains a &&
    (moveCosts x).all (fun e => s.affords e.1 x.vdev e.2))).map (fun x => (x.vdev, s.ownMoves x))

/-- Whether a transfer is granted now: after the earlier ones of its virtual device at its arbiters, and against its rivals. -/
def movable (s : State) (r : MemReq) : Bool :=
  let before := s.memReqs.takeWhile (fun x => x != r)
  let meets (x : MemReq) : Bool := x.vdev == r.vdev && (moveCosts r).any (fun e => ((moveCosts x).map Prod.fst).contains e.1)
  !before.any meets && (moveCosts r).all (fun e => s.granted e.1 r.vdev e.2 (s.moveRivals r e.1))

/-- A transfer's cost drawn; it waits no longer. -/
def payMove (s : State) (r : MemReq) : State :=
  let s := (moveCosts r).foldl (fun s e => s.spend e.1 r.vdev e.2) s
  { s with memReqs := s.memReqs.filter (fun x => x != r) }

/-- An access that moves a line between its slice and HBM: with a grant it has, or with tokens at once; else it waits for them. -/
def transfer (s : State) (r : MemReq) : Res Unit :=
  if s.memGrants.contains (r.vdev, r.line) then .ok () { s with memGrants := s.memGrants.erase (r.vdev, r.line) }
  else if s.movable r then .ok () (s.payMove r)
  else .wait .home { s with memReqs := if s.memReqs.contains r then s.memReqs else s.memReqs ++ [r] }

/-- The waiting transfers that can be granted, granted one after another: those that own tokens pay for first (R383). -/
def arbitrate (s : State) : Nat → State
  | 0 => s
  | n + 1 =>
    match (s.memReqs.find? (fun r => s.movable r && s.ownMoves r)) <|> (s.memReqs.find? s.movable) with
    | none => s
    | some r => { s.payMove r with memGrants := s.memGrants ++ [(r.vdev, r.line)] }.arbitrate n

/-- The ways of its own quota in a slice (R382). -/
def ownWays (s : State) (d slice : Nat) : List Nat :=
  match SMap.find (s.vd d).ways slice with
  | some w => (List.range w.count).map (fun i => w.first + i)
  | none => []

/-- The ways that other virtual devices lend in a slice to one that borrows (R384), with their lenders. -/
def lentWays (s : State) (d slice : Nat) : List (Nat × Nat) :=
  if (s.vd d).borrow then
    s.vdevs.flatMap (fun e =>
      if e.1 = d || !e.2.lend then []
      else match SMap.find e.2.ways slice with
        | some w => (((List.range w.count).map (fun i => w.first + i)).filter (fun i => w.lend.getLsbD i)).map (fun i => (e.1, i))
        | none => [])
  else []

/-- The line resident in a way of a slice's set. -/
def lineInWay (s : State) (slice set way : Nat) : Option Nat :=
  (s.lines.find? (fun e => sliceOf e.1 == slice && e.2.way == way && setOfLine e.1 == set)).map Prod.fst

/-- The virtual device whose identifier a resident line bears. -/
def lineVdev (s : State) (line : Nat) : Option Nat := (SMap.find s.lines line).map (fun h => h.ident / 16)

/-- The lent ways that a borrower's fill may take in a set: those the lender does not use there (R384). -/
def borrowedWays (s : State) (d slice set : Nat) : List Nat :=
  ((s.lentWays d slice).filter (fun e => ((s.lineInWay slice set e.2).bind s.lineVdev) != some e.1)).map Prod.snd

/-- Whether a way of a slice's set holds a version. -/
def versionInWay (s : State) (slice set way : Nat) : Bool :=
  s.vlines.any (fun v => sliceOf v.line == slice && v.way == way && setOfLine v.line == set)

/-- The use stamp of what a way holds, 0 for an empty way: the least is taken first. -/
def wayUse (s : State) (slice set way : Nat) : Nat :=
  match s.lineInWay slice set way with
  | some l => (SMap.get s.lines l ⟨0, 0, 0, 0, [], 0, false⟩).lastUse + 1
  | none => 0

/-- The way a fill takes among some ways (R288, R353): one that holds neither a version nor a pinned line, an empty one or
the least recently used. -/
def chooseWay (s : State) (slice set : Nat) (ways : List Nat) : Option Nat :=
  let free := ways.filter (fun w => !s.versionInWay slice set w &&
    (match s.lineInWay slice set w with | some l => !s.pinned l | none => true))
  (sortBy (fun w => s.wayUse slice set w) free).head?

/-- Empties a way: its line evicted. -/
def clearWay (s : State) (slice set way : Nat) : State :=
  match s.lineInWay slice set way with
  | some l => s.evictLine l
  | none => s

/-- The escape rule for a line (R259): goes on once every other team that wrote it has closed its interval. -/
def escapeLine (s : State) (u : Option Nat) (line : Nat) : Res Unit :=
  let (ok, s) := s.escape u (LogItem.isLine line)
  if ok then .ok () s else .wait .home s

/-- The escape rule among the teams of one core: an access that a copy in its L1 serves (R259, R295). -/
def escapeCore (s : State) (u core line : Nat) : Res Unit :=
  let (ok, s) := s.closeAll ((s.writers (some u) (LogItem.isLine line)).filter (fun v => (s.team v).core == core))
  if ok then .ok () s else .wait .home s

/-- Takes a way for a fill by a device: its line evicted, after the escape rule where a core holds it (R289, R295). A lender's fill that
needs a way it lent begins the reclaim (R384). -/
def takeWay (s : State) (d slice set way : Nat) : Res Unit :=
  match s.lineInWay slice set way with
  | none => .ok () s
  | some l =>
    let s := if s.lineVdev l != some d && (s.ownWays d slice).contains way then
        s.post (.wayReclaim (slice / Config.slicesPerDie) (slice % Config.slicesPerDie) way) else s
    if (s.holders l).isEmpty then .ok () (s.evictLine l)
    else (s.escapeLine none l).bind fun _ s => .ok () (s.evictLine l)

/-- A line that comes into its slice for a device, in a way that its fill may take, or past the slice (R288). Its stamps are `kept`, or
those of a fill from HBM (R289). -/
def bringIn (s : State) (d id use line : Nat) (kept : Option HomeLine) : Res (HomeLine × Bool) :=
  let slice := sliceOf line
  let set := setOfLine line
  let at_ (s : State) (way : Nat) : HomeLine :=
    let e := s.estOf slice
    let h := kept.getD ⟨id, 0, e, e, [], use, false⟩
    { h with ident := id, way := way, lastUse := use }
  match s.chooseWay slice set (s.ownWays d slice ++ s.borrowedWays d slice set) with
  | none => .ok (at_ s 0, false) s
  | some w =>
    (s.takeWay d slice set w).bind fun _ s =>
      let h := at_ s w
      .ok (h, true) { s with lines := SMap.set s.lines line h }

/-- Whether a fill of a line by a device finds a way (R288). -/
def hasWay (s : State) (d line : Nat) : Bool :=
  (s.chooseWay (sliceOf line) (setOfLine line) (s.ownWays d (sliceOf line) ++ s.borrowedWays d (sliceOf line) (setOfLine line))).isSome

/-- The line at its home, filled where a way allows (R288, R289): its record and whether it is resident. A line under another identifier
is first recalled and comes in afresh with the stamps it has (R290). A line that moves passes its arbiters (R382). -/
def enter (s : State) (d c line : Nat) : Res (HomeLine × Bool) :=
  let id := identOf d c
  let s := s.rouse (.slice (sliceOf line / Config.slicesPerDie) (sliceOf line % Config.slicesPerDie))
  let (use, s) := s.newUid
  match SMap.find s.lines line with
  | none => (s.transfer ⟨d, line, s.hasWay d line⟩).bind fun _ s => s.bringIn d id use line none
  | some h =>
    if h.ident = id then
      let h := { h with lastUse := use }
      .ok (h, true) { s with lines := SMap.set s.lines line h }
    else
      let s := s.recallLine line false
      let h := { SMap.get s.lines line h with ident := id, lastUse := use }
      if (s.ownWays d (sliceOf line) ++ (s.lentWays d (sliceOf line)).map Prod.snd).contains h.way then
        (s.transfer ⟨d, line, true⟩).bind fun _ s => .ok (h, true) { s with lines := SMap.set s.lines line h }
      else (s.transfer ⟨d, line, s.hasWay d line⟩).bind fun _ s =>
        { s with lines := SMap.erase s.lines line }.bringIn d id use line (some h)

/-- Leaves the home: the stamps kept with a resident line, or raised into est by a bypass (R288). -/
def leave (s : State) (line : Nat) (h : HomeLine) (res : Bool) (w r : Stamp) : State :=
  if res then
    { s with lines := SMap.set s.lines line { h with wts := w, rts := r } }
  else s.raiseEst (sliceOf line) r

/-- The escape rule and the recall that an access by a team (or none) through the home makes (R259, R295, R297). -/
def reach (s : State) (u : Option Nat) (line : Nat) (forRead : Bool) : Res Unit :=
  (s.escapeLine u line).bind fun _ s => .ok () (s.recallLine line forRead)

/-- Remembers what the words that a write of `n` root bytes reaches held before, while a launch runs (R59). -/
def noteCode (s : State) (pa n : Nat) : State :=
  if s.launches.all (fun e => e.2.complete) then s
  else { s with codeLog := s.codeLog ++ (List.range ((pa + n + 3) / 4 - pa / 4)).map (fun i =>
    ⟨pa / 4 + i, BitVec.ofNat 32 (leNat (s.rootBytes (4 * (pa / 4 + i)) 4)), s.nextUid⟩) }

/-- A home's read (R292): the granted stamps; `lease` ticks. -/
def homeRead (s : State) (u : Option Nat) (core d c pa lease : Nat) : Res (Stamp × Stamp) :=
  (s.reach u (lineOf pa) true).bind fun _ s =>
  (s.enter d c (lineOf pa)).bind fun (h, res) s =>
    let n := BitVec.ofNat 32 lease
    let r := serialMax h.rts (serialMax (h.wts + n) (s.pts core + n))
    .ok (h.wts, r) ((s.leave (lineOf pa) h res h.wts r).adopt core h.wts)

/-- A write of bytes through the home (R292, R299): wts := SerialMax(pts, rts + 1), the core's pts becomes it; an outside writer
has no core, and takes the outside's time for a pts (R319). `esc` is the team whose own interval the access does not close, `log`
the team whose undo log records the prior bytes. -/
def homeWriteAs (s : State) (esc log : Option Nat) (core : Option Nat) (d c pa : Nat) (data : List Byte) : Res Unit :=
  (s.reach esc (lineOf pa) false).bind fun _ s =>
  (s.enter d c (lineOf pa)).bind fun (h, res) s =>
    let p := match core with | some k => s.pts k | none => s.outStamp
    let w := serialMax p (h.rts + 1)
    let prior := (List.range data.length).map (fun i => (pa + i, s.rootByte (pa + i)))
    let s := match log with
      | some v => s.updTeam v (fun t => t.logLine (lineOf pa) prior)
      | none => s
    let s := (s.noteCode pa data.length).leave (lineOf pa) { h with dirty := true } res w w
    let s := match core with | some k => s.setPts k w | none => s.raiseOut w
    .ok () { s.cancelResv pa data.length with mem := Mem.write s.mem pa data }

/-- A write through the home by a team, or by none. -/
def homeWrite (s : State) (u : Option Nat) (core : Option Nat) (d c pa : Nat) (data : List Byte) : Res Unit :=
  s.homeWriteAs u u core d c pa data

/-! ## A thread's root accesses -/

/-- The load rule on a copy the core holds for writing (R293). -/
def ownLoad (s : State) (core line : Nat) (x : L1Line) : State :=
  let p := serialMax (s.pts core) x.wts
  (s.putL1 core line { x with rts := serialMax x.rts p }).setPts core p

/-- A read of root bytes in one line by a team's thread (R291 to R297): from the copy its core holds, else at the home,
which leases a copy unless the hint `.nl1` says not to allocate. -/
def readRoot (s : State) (u pa n : Nat) (alloc : Bool) : Res (List Byte) :=
  let t := s.team u
  let core := t.core
  let line := lineOf pa
  let id := identOf t.vdev t.ctx
  let need := byteMask pa n
  let s := s.rouse (.l1 core)
  let viaHome (s : State) : Res (List Byte) :=
    (s.homeRead (some u) core t.vdev t.ctx pa t.body.csr.lease).bind fun (w, r) s =>
      let bytes := Mem.read s.mem pa n
      let s := if alloc then s.fillL1 core line ⟨id, .leased, w, r, lineBytes s.mem line, 0, 0⟩ else s
      .ok bytes s
  match SMap.find (s.cor core).l1 line with
  | none => viaHome s
  | some x =>
    if x.ident = id then
      match x.kind with
      | .leased =>
        if serialLess x.rts (s.pts core) then
          -- an expired copy: a renewal, or a read where the line has changed (R292)
          let renew := match SMap.find s.lines line with | some h => h.wts == x.wts && h.holders.isEmpty | none => false
          let s := if renew then s.count t.vdev 0x0E 1 else s
          viaHome s
        else (s.escapeCore u core line).bind fun _ s => .ok (Mem.read x.data pa n) (s.adopt core x.wts)
      | .owned => (s.escapeCore u core line).bind fun _ s => .ok (s.rootBytes pa n) (s.ownLoad core line x)
      | .privatised =>
        if maskHas x.mask need then
          (s.escapeCore u core line).bind fun _ s => .ok (Mem.read x.data pa n) (s.ownLoad core line x)
        else (s.escapeLine (some u) line).bind fun _ s =>
        if (s.holders line).any (fun c => c != core &&
            (match SMap.find (s.cor c).l1 line with | some y => maskMeets y.mask need | none => false)) then viaHome s
        else
          -- bytes in no other mask: the home's own, and the core's own mask's, with no merge (R296)
          match SMap.find s.lines line with
          | none => viaHome s
          | some h =>
            let p := serialMax (s.pts core) (serialMax h.wts x.wts)
            let s := { s with lines := SMap.set s.lines line { h with rts := serialMax h.rts p } }
            .ok (s.rootBytes pa n) ((s.putL1 core line { x with rts := serialMax x.rts p }).setPts core p)
    else
      match x.kind with
      | .leased => viaHome (s.dropL1 core line)
      | _ => viaHome s

/-- A store of bytes into a copy the core may write (R293): stamps, bytes, mask. -/
def ownStore (s : State) (u core line pa : Nat) (x : L1Line) (data : List Byte) : State :=
  let prior := (List.range data.length).map (fun i => (pa + i, s.rootByte (pa + i)))
  let w := serialMax (s.pts core) (x.rts + 1)
  let s := (s.noteCode pa data.length).updTeam u (fun t => t.logLine line prior)
  let s := s.putL1 core line { x with wts := w, rts := w, data := Mem.write x.data pa data, mask := x.mask ||| byteMask pa data.length }
  (s.setPts core w).cancelResv pa data.length

/-- The home grants a core ownership of an unheld line (R292, R296). -/
def grantOwner (s : State) (core line : Nat) (h : HomeLine) : State :=
  let s := s.putL1 core line ⟨h.ident, .owned, h.wts, h.rts, [], 0, 0⟩
  { s with lines := SMap.set s.lines line { SMap.get s.lines line h with holders := [core] } }

/-- The home's record of a line as an owner's copy becomes privatised: the home's stamps rise to the owner's, whose loads may have
raised them on any byte of the line (R293, R296). -/
def shareHome (s : State) (line : Nat) (h : HomeLine) : HomeLine :=
  h.holders.foldl (fun (h : HomeLine) c => match SMap.find (s.cor c).l1 line with
    | some x => if x.kind == L1Kind.owned then { h with wts := serialMax h.wts x.wts, rts := serialMax h.rts x.rts } else h
    | none => h) h

/-- A privatised copy for a core, with the line's current stamps and its mask empty until the store; an owner's copy becomes privatised
(R296). DEDUCED (notes/assumptions/89.md): the line's current stamps are the home's, raised to those of an owner; a mask that grows
takes them too where they are later than the copy's own, so that the store comes after every read of the new bytes (R312). -/
def grantPrivate (s : State) (core line : Nat) (h : HomeLine) : State :=
  let h := s.shareHome line h
  let s := h.holders.foldl (fun s c => match SMap.find (s.cor c).l1 line with
    | some x => s.putL1 c line { x with kind := .privatised }
    | none => s) s
  let fresh : L1Line := ⟨h.ident, .privatised, h.wts, h.rts, [], 0, 0⟩
  let s := match SMap.find (s.cor core).l1 line with
    | some x =>
      s.putL1 core line (if x.kind == L1Kind.privatised then { x with wts := serialMax x.wts h.wts, rts := serialMax x.rts h.rts } else fresh)
    | none => s.putL1 core line fresh
  { s with lines := SMap.set s.lines line { SMap.get s.lines line h with
      wts := h.wts, rts := h.rts, holders := insertNat core h.holders } }

/-- Whether the bytes a core would write meet another holder's mask (R296). -/
def meetsMask (s : State) (core pa n : Nat) : Bool :=
  (s.holders (lineOf pa)).any (fun k => k != core &&
    (match SMap.find (s.cor k).l1 (lineOf pa) with | some y => maskMeets y.mask (byteMask pa n) | none => false))

/-- Whether a core's request to write bytes ends in a privatised copy beside the others (R296): the home then reads masks alone. -/
def sharesLine (s : State) (core d c pa n : Nat) : Bool :=
  match SMap.find s.lines (lineOf pa) with
  | none => false
  | some h => h.ident == identOf d c && !h.holders.isEmpty && !s.meetsMask core pa n &&
      (decide (h.holders.length < 8) || h.holders.contains core)

/-- A write request of a core to the home (R296): true when the core then holds a copy it may write, false where the
write must be performed at the home (a pinned line, a bypass, no room in the L1). A mask read is no access to data, and does not invoke
R259; the teams of the core itself reach the copy they share. -/
def requestWrite (s : State) (u core d c pa n : Nat) : Res Bool :=
  let line := lineOf pa
  if s.pinned line then .ok false s
  else
    let shares := s.sharesLine core d c pa n
    (if shares then s.escapeCore u core line else s.escapeLine (some u) line).bind fun _ s =>
    let r := s.makeRoom core line
    if !r.1 then .ok false r.2
    else (r.2.enter d c line).bind fun (h, res) s =>
      if !res then .ok false (s.leave line h false h.wts h.rts)
      else if shares then .ok true (s.grantPrivate core line h)
      else
        let s := s.recallLine line false
        .ok true (s.grantOwner core line (SMap.get s.lines line h))

/-- A store of root bytes in one line by a team's thread (R293, R296, R299). -/
def writeRoot (s : State) (u pa : Nat) (data : List Byte) (alloc : Bool) : Res Unit :=
  let t := s.team u
  let core := t.core
  let line := lineOf pa
  let s := s.rouse (.l1 core)
  let atHome (s : State) : Res Unit := s.homeWrite (some u) (some core) t.vdev t.ctx pa data
  let request (s : State) : Res Unit :=
    (s.requestWrite u core t.vdev t.ctx pa data.length).bind fun ok s =>
      match ok, SMap.find (s.cor core).l1 line with
      | true, some x => .ok () (s.ownStore u core line pa x data)
      | _, _ => atHome s
  match SMap.find (s.cor core).l1 line with
  | some x =>
    if x.ident = identOf t.vdev t.ctx &&
        (x.kind == .owned || (x.kind == .privatised && maskHas x.mask (byteMask pa data.length))) && !s.pinned line then
      (s.escapeCore u core line).bind fun _ s => .ok () (s.ownStore u core line pa x data)
    else request (if x.ident != identOf t.vdev t.ctx && x.kind == .leased then s.dropL1 core line else s)
  | none => if alloc then request s else atHome s

/-! ## Version lines (R352, R353) -/

/-- The version line of a hypothesis on a line. -/
def vline (s : State) (h line : Nat) : Option VLine := s.vlines.find? (fun v => v.hyp == h && v.line == line)

/-- The value of a byte in a view: the nearest hypothesis on the path that has written it, else the root (R320). -/
def viewByte (s : State) (path : List Nat) (pa : Nat) : Byte :=
  match path with
  | [] => s.rootByte pa
  | h :: r =>
    match s.vline h (lineOf pa) with
    | some v => if v.mask.getLsbD (pa % 128) then Mem.get v.data pa else viewByte s r pa
    | none => viewByte s r pa

/-- Bytes of a view. -/
def viewBytes (s : State) (path : List Nat) (pa : Nat) : Nat → List Byte
  | 0 => []
  | n + 1 => s.viewByte path pa :: viewBytes s path (pa + 1) n

/-- A read under a hypothesis other than the root (R352): at the home, no lease. -/
def readView (s : State) (u h pa n : Nat) : Res (List Byte) :=
  let t := s.team u
  (s.homeRead (some u) t.core t.vdev t.ctx pa 0).bind fun _ s =>
    .ok (s.viewBytes (s.hypPath h) pa n) (s.meetVersion t.core (lineOf pa))

/-- A prefetch (R141, R292): a read at the home, whose copy the core's L1 keeps unless only the slice is asked for. Under a hypothesis
no copy is made (R352). -/
def prefetch (s : State) (u h pa : Nat) (l2 : Bool) : Res Unit :=
  let t := s.team u
  let line := lineOf pa
  let id := identOf t.vdev t.ctx
  let here : Bool := match SMap.find (s.cor t.core).l1 line with
    | some x => x.ident == id && !(x.kind == .leased && serialLess x.rts (s.pts t.core))
    | none => false
  if h != 0 then (s.readView u h pa 1).bind fun _ s => .ok () s
  else if here then .ok () s
  else (s.homeRead (some u) t.core t.vdev t.ctx pa t.body.csr.lease).bind fun r s =>
    .ok () (if l2 then s else (s.rouse (.l1 t.core)).fillL1 t.core line ⟨id, .leased, r.1, r.2, lineBytes s.mem line, 0, 0⟩)

/-- The version line of a hypothesis, made where there is none (R353): false when no way of the quota is free. -/
def makeVLine (s : State) (d h line : Nat) : Res Bool :=
  match s.vline h line with
  | some _ => .ok true s
  | none =>
    let slice := sliceOf line
    match s.ownWays d slice with
    | [] => .ok false s
    | ways =>
      let set := setOfLine line
      match s.chooseWay slice set ways with
      | none => .ok false s
      | some w => (s.takeWay d slice set w).bind fun _ s => .ok true { s with vlines := s.vlines ++ [⟨h, line, w, 0, [], []⟩] }

/-- Writes bytes into a version line for a context. -/
def putVersion (s : State) (h c pa : Nat) (data : List Byte) : State :=
  { s with vlines := s.vlines.map (fun v =>
      if v.hyp = h && v.line = lineOf pa then
        { v with mask := v.mask ||| byteMask pa data.length, data := Mem.write v.data pa data
                 by_ := SMap.set v.by_ c (SMap.get v.by_ c 0 ||| byteMask pa data.length) }
      else v) }

/-- A write under a hypothesis other than the root (R352) for a team, by an agent on a core: false when no way is free
(HYP_CAPACITY). The line's own stamps stay; the core's pts adopts its wts. `logs` says whether the team's undo log records
it. -/
def writeVersionAs (s : State) (u core : Nat) (logs : Bool) (h pa : Nat) (data : List Byte) : Res Bool :=
  let line := lineOf pa
  (s.escapeLine (some u) line).bind fun _ s =>
    let prior := s.vline h line
    (s.makeVLine (s.team u).vdev h line).bind fun ok s =>
      if !ok then .ok false s
      else
        let w := match SMap.find s.lines line with | some x => x.wts | none => s.estOf (sliceOf line)
        let s := if logs then s.updTeam u (fun t => t.logVLine h line prior) else s
        .ok true ((((s.putVersion h (s.team u).ctx pa data).cancelResv pa data.length).adopt core w).meetVersion core line)

/-- A write under a hypothesis other than the root by a team's thread. -/
def writeVersion (s : State) (u h pa : Nat) (data : List Byte) : Res Bool :=
  s.writeVersionAs u (s.team u).core true h pa data

end State

end Sys2Proof.Machine
end

