-- ==== Sys2Proof/Machine/Translate.lean ====
section
/-! DEFINITION. Translation (R386 to R390): the physical map, the four-level walk, the cached translations, and the one
function every access in space G goes through. -/

namespace Sys2Proof.Machine

/-- The four levels of the walk (R388). -/
inductive Level where
  | a | b | c | d
deriving DecidableEq, Repr

/-- The index bits of a level: low bit and count (R388). -/
def Level.bits : Level → Nat × Nat
  | .a => (41, 12)
  | .b => (31, 10)
  | .c => (21, 10)
  | .d => (16, 5)

/-- The size of a table of a level, which is its alignment (R388). -/
def Level.tableSize : Level → Nat
  | .a => 32768
  | .b => 8192
  | .c => 8192
  | .d => 256

/-- The size of the page a leaf of a level maps (R388). -/
def Level.pageSize : Level → Nat
  | .a => 0
  | .b => 2147483648
  | .c => 2097152
  | .d => 65536

/-- The fields of a table entry (R389). -/
structure Pte where
  raw : Nat
deriving DecidableEq, Repr

namespace Pte
def valid (e : Pte) : Bool := e.raw.testBit 0
def leaf (e : Pte) : Bool := e.raw.testBit 1
def r (e : Pte) : Bool := e.raw.testBit 2
def w (e : Pte) : Bool := e.raw.testBit 3
def x (e : Pte) : Bool := e.raw.testBit 4
def sup (e : Pte) : Bool := e.raw.testBit 5
/-- Bits 63:46 and 7:6 are zero. -/
def clean (e : Pte) : Bool := bitsOf e.raw 46 18 == 0 && bitsOf e.raw 6 2 == 0
/-- PA × 2^8. -/
def pa (e : Pte) : Nat := bitsOf e.raw 8 38 * 256
end Pte

/-- The ranges of the physical map (R386). -/
def inHbm (pa : Nat) : Bool := decide (pa < Config.hbmEnd)
def inRemote (pa : Nat) : Bool := decide (Config.remoteBase ≤ pa ∧ pa < Config.remoteEnd)
def inCounter (pa : Nat) : Bool :=
  decide (Config.counterBase ≤ pa ∧ pa < Config.counterBase + Config.vdevs * Config.counterSize)

/-- Whether a kind of access is a remote one (R389). -/
def isRemote : XKind → Bool
  | .remoteRead | .remoteWrite => true
  | _ => false

/-- Whether a page's permissions allow a kind of access (R389). -/
def kindAllowed (k : XKind) (r w x : Bool) : Bool :=
  match k with
  | .read | .readOther | .remoteRead => r
  | .write | .remoteWrite => w
  | .readwrite => r && w
  | .fetch => x

/-- The permission checks of a leaf, in order (R386, R389). -/
def permits (pa : Nat) (k : XKind) (r w x sup supervisor : Bool) : Bool :=
  !(inRemote pa && !isRemote k) && !(inCounter pa && k != .read) && !(inHbm pa && isRemote k) && kindAllowed k r w x &&
  (!sup || supervisor)

/-- The walk from a table on through the levels left, over a way to read entries (R389): the entries' addresses it reads,
and the leaf's translation or the fault. -/
def walkFrom (rd : Nat → Pte) (ident va t : Nat) : List Level → List Nat × Except Cause TlbEntry
  | [] => ([], .error .xlate)
  | lvl :: rest =>
    let at_ := t + 8 * bitsOf va lvl.bits.1 lvl.bits.2
    let e := rd at_
    if !e.valid || !e.clean then ([at_], .error .xlate)
    else if (lvl == .a && e.leaf) || (lvl == .d && !e.leaf) then ([at_], .error .xlate)
    else if e.leaf then
      if e.pa % lvl.pageSize != 0 || !(inHbm e.pa || inRemote e.pa || inCounter e.pa) then ([at_], .error .xlate)
      else ([at_], .ok ⟨ident, va / lvl.pageSize * lvl.pageSize, lvl.pageSize, e.pa, e.r, e.w, e.x, e.sup⟩)
    else
      match rest with
      | [] => ([at_], .error .xlate)
      | n :: _ =>
        if e.pa % n.tableSize != 0 || decide (Config.hbmEnd < e.pa + n.tableSize) then ([at_], .error .xlate)
        else
          let r := walkFrom rd ident va e.pa rest
          (at_ :: r.1, r.2)

namespace State

/-- A table entry as its home gives it (R389). -/
def pteAt (s : State) (addr : Nat) : Pte := ⟨leNat (s.rootBytes addr 8)⟩

/-- The walk of a virtual address in a context (R388, R389), as it stands: entries' addresses and outcome. A mapped counter
page of the context comes first (R378). -/
def peekWalk (s : State) (d c va : Nat) : List Nat × Except Cause TlbEntry :=
  let ident := identOf d c
  let base := va / 65536 * 65536
  if (s.ctx d c).cntpage == some base then
    ([], .ok ⟨ident, base, 65536, Config.counterBase + Config.counterSize * d, true, false, false, false⟩)
  else
    match (s.ctx d c).root with
    | none => ([], .error .xlate)
    | some root => walkFrom s.pteAt ident va root [.a, .b, .c, .d]

/-- Reads at the homes of a list of addresses, without a lease (R390). -/
def reachAll (s : State) (u : Option Nat) : List Nat → Res Unit
  | [] => .ok () s
  | a :: r => (s.reach u (lineOf a) true).bind fun _ s => s.reachAll u r

/-- The walk, its reads made at their homes (R389, R390). -/
def walk (s : State) (u : Option Nat) (d c va : Nat) : Res (Except Cause TlbEntry) :=
  let r := s.peekWalk d c va
  (s.reachAll u r.1).bind fun _ s => .ok r.2 s

/-- The cached translation of an address (R390). -/
def tlbHit (l : List TlbEntry) (ident va : Nat) : Option TlbEntry :=
  l.find? (fun e => e.ident == ident && decide (e.vbase ≤ va ∧ va < e.vbase + e.size))

/-- Adds a translation, the oldest leaving beyond the capacity (R390). -/
def tlbAdd (l : List TlbEntry) (e : TlbEntry) (cap : Nat) : List TlbEntry := (e :: l).take cap

/-- The physical address of a translated one, checked for a kind of access (R386, R389). -/
def finish (e : TlbEntry) (va : Nat) (k : XKind) (sup : Bool) : Except Cause Nat :=
  let pa := e.pbase + (va - e.vbase)
  if !permits e.pbase k e.r e.w e.x e.sup sup then .error .perm
  else if inHbm pa || inRemote pa || inCounter pa then .ok pa
  else .error .xlate

/-- Translate (R389) for an agent on a core: from the core's L1 TLB, the die's translation cache, or a walk, whose success
both then hold (R390). -/
def translate (s : State) (u : Option Nat) (core d c va : Nat) (k : XKind) (sup : Bool) : Res (Except Cause Nat) :=
  let ident := identOf d c
  let die := core / Config.coresPerDie
  if decide (9007199254740992 ≤ va) || decide (Config.fwBase ≤ va ∧ va ≤ Config.fwLast) then .ok (.error .xlate) s
  else
    let s := s.rouse (.l1tlb core)
    match tlbHit (s.cor core).tlb ident va with
    | some e => .ok (finish e va k sup) s
    | none =>
      let s := s.rouse (.dieTlb die)
      match tlbHit (s.die die).tlb ident va with
      | some e => .ok (finish e va k sup) (s.updCore core (fun x => { x with tlb := tlbAdd x.tlb e 128 }))
      | none =>
        (s.walk u d c va).bind fun r s =>
          match r with
          | .error f => .ok (.error f) s
          | .ok e =>
            let s := s.updCore core (fun x => { x with tlb := tlbAdd x.tlb e 128 })
            let s := s.updDie die (fun x => { x with tlb := tlbAdd x.tlb e 65536 })
            .ok (finish e va k sup) s

/-- A device's own translation of a command's or arena's address (R386, R388): walked afresh, any level accepted, no
privilege asked for; the page's permissions beside the physical address. -/
def deviceWalk (s : State) (d c va : Nat) : Option (Nat × TlbEntry) :=
  if 9007199254740992 ≤ va || decide (Config.fwBase ≤ va ∧ va ≤ Config.fwLast) then none
  else match (s.peekWalk d c va).2 with
    | .ok e => some (e.pbase + (va - e.vbase), e)
    | .error _ => none

end State

end Sys2Proof.Machine
end

