-- ==== Sys2Proof/Machine/Arena.lean ====
section
/-! DEFINITION. Arenas and rings in memory: the device's own writes to the physical pages an arena or ring is bound to
(R333, R376), the bytes of a manifest arena (R333 to R337) and of an ephemeris arena (R370), and what reads of an arena
that records give (R333). The order of a record's parts is the model's (notes/assumptions/30.md). -/

namespace Sys2Proof.Machine

/-- Bytes from an address up, cut at the lines they lie in. -/
def lineChunks (a : Nat) : List Byte → List (Nat × List Byte)
  | [] => []
  | b :: bs =>
    match lineChunks (a + 1) bs with
    | [] => [(a, [b])]
    | (q, c) :: r => if (a + 1) % 128 = 0 then (a, [b]) :: (q, c) :: r else (a, b :: c) :: r

/-- The spans of `n` bytes from an address, cut at lines: address and length. -/
def lineSpans (a n : Nat) : List (Nat × Nat) :=
  (lineChunks a (List.replicate n 0)).map (fun e => (e.1, e.2.length))

/-- The physical address of a byte of a bound range of pages. -/
def boundPa (pages : List Nat) (off0 off : Nat) : Nat :=
  pages.getD ((off0 + off) / 65536) 0 + (off0 + off) % 65536

/-- The runs of granules of a read set (R336). -/
structure ReadRun where
  addr : Nat
  count : Nat
  region : Nat
  lg : Nat
deriving DecidableEq, Repr

/-- Adds the next granule in address order to the runs, the last one first. -/
def addRun (rs : List ReadRun) (g : ReadG) : List ReadRun :=
  match rs with
  | [] => [⟨g.addr, 1, g.region, g.lg⟩]
  | r :: q =>
    if r.region = g.region && g.addr < r.addr + r.count * 2 ^ r.lg then r :: q
    else if r.region = g.region && g.addr = r.addr + r.count * 2 ^ r.lg then { r with count := r.count + 1 } :: q
    else ⟨g.addr, 1, g.region, g.lg⟩ :: r :: q

/-- The read runs of a record, sorted and merged (R336). -/
def TRec.runs (r : TRec) : List ReadRun := ((sortBy ReadG.addr r.reads).foldl addRun []).reverse

/-- A length rounded up to a multiple. -/
def roundUp (n k : Nat) : Nat := (n + k - 1) / k * k

/-- The bytes of a write entry (R336). -/
def WriteG.size (w : WriteG) : Nat := roundUp (16 + 2 * 2 ^ w.lg) 8

namespace Manifest

/-- Whether a manifest has a handle of a context. -/
def isAt (m : Manifest) (d c h : Nat) : Bool := m.vdev == d && m.ctx == c && m.handle == h

/-- The children of a task, in trace order. -/
def childrenOf (m : Manifest) (task : Nat) : List Nat := (m.recs.filter (fun r => r.parent == some task)).map TRec.task

/-- The bytes a record charges the arena (R337). -/
def charge (m : Manifest) (r : TRec) : Nat :=
  128 + roundUp r.params.length 16 + 32 * r.runs.length + (r.writes.map WriteG.size).sum + 8 * (m.childrenOf r.task).length

/-- USED of the arena (R333, R337). -/
def used (m : Manifest) : Nat := 64 + (m.recs.map m.charge).sum

/-- Where each record lies: task and arena offset. -/
def offsets (m : Manifest) : List (Nat × Nat) :=
  (m.recs.foldl (fun (acc : List (Nat × Nat) × Nat) r => ((r.task, acc.2) :: acc.1, acc.2 + m.charge r)) ([], 64)).1

/-- The arena offset of a task's record, 0 for none. -/
def offsetOf (m : Manifest) (task : Nat) : Nat :=
  match m.offsets.find? (fun e => e.1 == task) with
  | some e => e.2
  | none => 0

/-- Bytes padded with zeros. -/
def pad (n : Nat) (bs : List Byte) : List Byte := bs ++ List.replicate (n - bs.length) 0

/-- A write entry's bytes (R336). -/
def writeBytes (w : WriteG) : List Byte :=
  pad w.size (toBytes 8 w.addr ++ toBytes 2 w.region ++ toBytes 1 w.lg ++ toBytes 5 0 ++
    pad (2 ^ w.lg) w.prior ++ pad (2 ^ w.lg) w.value)

/-- A record's bytes: head, parameter copy, read runs, write entries, children (R335, R336). -/
def recBytes (m : Manifest) (r : TRec) (next : Nat) : List Byte :=
  let off := m.offsetOf r.task
  let runs := r.runs
  let kids := m.childrenOf r.task
  let poff := off + 128
  let roff := poff + roundUp r.params.length 16
  let woff := roff + 16 * runs.length
  let coff := woff + (r.writes.map WriteG.size).sum
  let flags := r.stale.toNat + 2 * r.desc.toNat + 4 * r.failed.toNat + 8 * r.fresh.toNat
  pad 128 (toBytes 8 r.ord ++ toBytes 8 next ++
    toBytes 8 (match r.parent with | some p => m.offsetOf p | none => 0) ++
    toBytes 8 r.image ++ toBytes 8 r.key ++ toBytes 4 r.task ++ toBytes 2 r.groups ++ toBytes 1 flags ++ toBytes 1 0 ++
    toBytes 4 r.params.length ++ toBytes 4 runs.length ++ toBytes 4 r.writes.length ++ toBytes 4 kids.length ++
    toBytes 8 poff ++ toBytes 8 roff ++ toBytes 8 woff ++ toBytes 8 coff) ++
  pad (roundUp r.params.length 16) r.params ++
  runs.flatMap (fun x => toBytes 8 x.addr ++ toBytes 4 x.count ++ toBytes 2 x.region ++ toBytes 2 0) ++
  r.writes.flatMap writeBytes ++ kids.flatMap (fun k => toBytes 8 (m.offsetOf k))

/-- The records' bytes in trace order, each with the offset of the next. -/
def recsBytes (m : Manifest) : List TRec → List (Nat × List Byte)
  | [] => []
  | r :: rest =>
    (m.offsetOf r.task, m.recBytes r (match rest with | n :: _ => m.offsetOf n.task | [] => 0)) :: recsBytes m rest

/-- The header's bytes (R333). -/
def headBytes (m : Manifest) : List Byte :=
  toBytes 4 0x464E4D5A ++ toBytes 1 m.state ++ toBytes 1 m.cause ++ toBytes 2 0 ++ toBytes 8 m.size ++ toBytes 8 m.used ++
  toBytes 8 (match m.recs with | r :: _ => m.offsetOf r.task | [] => 0) ++ toBytes 4 m.recs.length ++
  toBytes 4 (m.recs.filter TRec.stale).length ++ toBytes 4 m.runs ++ toBytes 4 m.carve ++ toBytes 8 m.rngk.toNat ++
  toBytes 4 m.grid ++ toBytes 4 m.nextId

/-- Whether every byte but STATE may read as anything (R333). -/
def open_ (m : Manifest) : Bool := m.state == 1 || m.state == 4

end Manifest

/-- The bytes of an ephemeris arena: header and entries (R370). -/
def Ephem.bytes (e : Ephem) : List Byte :=
  toBytes 4 0x4550485A ++ toBytes 1 e.state ++ toBytes 3 0 ++ toBytes 8 e.size ++ toBytes 8 (64 + 32 * e.entries.length) ++
  toBytes 4 e.entries.length ++ toBytes 4 e.phases ++ toBytes 4 e.divPhase ++ toBytes 4 e.divTeam ++ toBytes 24 0 ++
  e.entries.flatMap (fun x => toBytes 1 x.kind ++ toBytes 3 0 ++ toBytes 4 x.phase ++ toBytes 4 x.team ++ toBytes 4 x.who ++
    toBytes 8 x.arg ++ toBytes 8 x.arg2)

namespace State

/-- A write of bytes of one line by the device itself, through the home (R333, R376). Where the write meets a line whose
close must wait, the model does not hold the device back (notes/assumptions/31.md). -/
def devWrite (s : State) (d c pa : Nat) (data : List Byte) : State :=
  match s.homeWrite none none d c pa data with
  | .ok _ s => s
  | .wait _ s =>
    let s := (s.noteCode pa data.length).recallLine (lineOf pa) false |>.cancelResv pa data.length
    { s with mem := Mem.write s.mem pa data }
  | .trap _ s => s

/-- A write of bytes to a bound range of pages. -/
def boundWrite (s : State) (d c : Nat) (pages : List Nat) (off0 off : Nat) (data : List Byte) : State :=
  (lineChunks (off0 + off) data).foldl (fun s e => s.devWrite d c (boundPa pages 0 e.1) e.2) s

/-- Changes the manifest at a handle. -/
def updMan (s : State) (d c h : Nat) (f : Manifest → Manifest) : State :=
  { s with manifests := mapWhere (fun m => m.isAt d c h) f s.manifests }

/-- Puts a manifest in the place of the one at its handle. -/
def putMan (s : State) (m : Manifest) : State := s.updMan m.vdev m.ctx m.handle (fun _ => m)

/-- Writes a manifest's arena: all of it, or STATE alone while it records or propagates; STATE last (R333). -/
def syncMan (s : State) (d c h : Nat) : State :=
  match s.manifests.find? (fun m => m.isAt d c h) with
  | none => s
  | some m =>
    let s :=
      if m.open_ then s
      else
        let s := (m.recsBytes m.recs).foldl (fun s e => s.boundWrite d c m.pages m.off0 e.1 e.2) s
        let head := m.headBytes
        (s.boundWrite d c m.pages m.off0 0 (head.take 4)).boundWrite d c m.pages m.off0 5 (head.drop 5)
    s.boundWrite d c m.pages m.off0 4 (toBytes 1 m.state)

/-- Whether a physical byte belongs to an open arena and is not its STATE. -/
def arenaOpen (s : State) (pa : Nat) : Bool :=
  s.manifests.any (fun m => m.open_ &&
    (List.range m.pages.length).any (fun i =>
      let page := m.pages.getD i 0
      decide (page ≤ pa ∧ pa < page + 65536) &&
      (let o := i * 65536 + (pa - page)
       decide (m.off0 ≤ o ∧ o < m.off0 + m.size) && o != m.off0 + 4)))

/-- Changes an ephemeris. -/
def updEph (s : State) (d c h : Nat) (f : Ephem → Ephem) : State :=
  { s with ephems := mapWhere (fun e => e.vdev == d && e.ctx == c && e.handle == h) f s.ephems }

/-- The ephemeris at a handle. -/
def eph (s : State) (d c h : Nat) : Option Ephem := s.ephems.find? (fun e => e.vdev == d && e.ctx == c && e.handle == h)

/-- Writes an ephemeris arena (R370). -/
def syncEph (s : State) (d c h : Nat) : State :=
  match s.eph d c h with
  | none => s
  | some e => s.boundWrite d c e.pages e.off0 0 e.bytes

end State

end Sys2Proof.Machine
end

