-- ==== Sys2Proof/Machine/Track.lean ====
section
/-! DEFINITION. Modifiable regions and the manifest's rules for accesses (R329 to R332, R336, R338): which granules an
access meets, the dataflow rule for reads, the rule for writes, stale marking, and outside writes. -/

namespace Sys2Proof.Machine

/-- A granule an access meets: region, address, log2 size (R329). -/
structure Granule where
  region : Nat
  addr : Nat
  lg : Nat
deriving DecidableEq, Repr

/-- The granules of a region that the bytes [va, va + n) meet (R329). -/
def Region.granules (k : Nat) (r : Region) (va n : Nat) : List Granule :=
  let g := 2 ^ r.lg
  let lo := max va r.base
  let hi := min (va + n) (r.base + r.count * g)
  if hi ≤ lo then []
  else
    let first := lo / g
    (List.range ((hi - 1) / g + 1 - first)).map (fun i => ⟨k, (first + i) * g, r.lg⟩)

namespace Manifest

/-- The record of a task. -/
def rec? (m : Manifest) (task : Nat) : Option TRec := m.recs.find? (fun r => r.task == task)

/-- Changes the record of a task. -/
def updRec (m : Manifest) (task : Nat) (f : TRec → TRec) : Manifest :=
  { m with recs := mapWhere (fun r => r.task == task) f m.recs }

/-- The tasks above a task in the spawn tree (at most four, R327). -/
def ancestors (m : Manifest) (task : Nat) : Nat → List Nat
  | 0 => []
  | f + 1 =>
    match (m.rec? task).bind TRec.parent with
    | some p => p :: ancestors m p f
    | none => []

/-- Marks a record stale, and DESC in every ancestor (R338). -/
def mark (m : Manifest) (task : Nat) : Manifest :=
  let up := m.ancestors task 5
  (m.updRec task (fun r => { r with stale := true })).recs.map
    (fun r => if up.contains r.task then { r with desc := true } else r) |> fun rs => { m with recs := rs }

/-- Marks the readers of a granule stale, but for one task (R338, R344). -/
def markReaders (m : Manifest) (addr : Nat) (except : Option Nat) : Manifest :=
  ((m.recs.filter (fun r => some r.task != except &&
    (r.reads ++ r.oldReads).any (fun g => g.addr == addr))).map TRec.task).foldl mark m

/-- Whether stale marks are made in a manifest: STATE 1, 2, 3 or 4 (R338). -/
def marks (m : Manifest) : Bool := decide (1 ≤ m.state ∧ m.state ≤ 4)

end Manifest

namespace State

/-- The granules an access to a context's memory meets. -/
def granules (s : State) (d c va n : Nat) : List Granule :=
  (s.ctx d c).regions.flatMap (fun e => Region.granules e.1 e.2 va n)

/-- The manifest that records a team's launch, where it is traced (R331, R334). -/
def ownManifest (s : State) (u : Nat) : Option Manifest :=
  let t := s.team u
  let l := s.lau t.launch
  if l.traced && !l.untraced then
    s.manifests.find? (fun m => m.isAt l.vdev l.ctx l.mhandle && (m.state == 1 || m.state == 4))
  else none

/-- The value of a granule in a view. -/
def granuleValue (s : State) (d c h addr lg : Nat) : List Byte :=
  match s.deviceWalk d c addr with
  | some (pa, _) => s.viewBytes (s.hypPath h) pa (2 ^ lg)
  | none => []

/-- Marks the readers of granules stale in every manifest of a context but one (R338): an outside write. -/
def markOutside (s : State) (d c : Nat) (own : Option Nat) (gs : List Granule) : State :=
  if gs.isEmpty then s
  else
    s.manifests.foldl (fun s m =>
      if m.vdev = d && m.ctx = c && m.marks && some m.handle != own then
        let m' := gs.foldl (fun m g => m.markReaders g.addr none) m
        if m' = m then s else if m'.open_ then s.putMan m' else (s.putMan m').syncMan d c m.handle
      else s) s

/-- An outside write to a context's virtual bytes (R330, R338). -/
def outsideWrite (s : State) (d c va n : Nat) : State := s.markOutside d c none (s.granules d c va n)

/-- The check a read of granules makes (R331): the first that fails traps or waits. -/
def checkReads (s : State) (m : Manifest) (me : TRec) : List Granule → Res Unit
  | [] => .ok () s
  | g :: r =>
    if me.writes.any (fun w => w.addr == g.addr) then s.checkReads m me r
    else
      match m.recs.find? (fun w => w.task != me.task && w.live && w.writes.any (fun x => x.addr == g.addr)) with
      | some w =>
        if me.ord < w.ord then
          .trap { cause := .modOrder, va := BitVec.ofNat 64 g.addr, vb := BitVec.ofNat 64 w.ord } s
        else if !w.done then .wait (.dataflow w.task) s
        else s.checkReads m me r
      | none => s.checkReads m me r

/-- Records granules read (R331): those the task has not written. -/
def TRec.addReads (me : TRec) (hyp : Nat) (gs : List Granule) : TRec :=
  gs.foldl (fun t g =>
    if t.writes.any (fun w => w.addr == g.addr) || t.reads.any (fun x => x.addr == g.addr && x.hyp == hyp) then t
    else { t with reads := t.reads ++ [⟨g.region, g.addr, g.lg, hyp⟩] }) me

/-- The launch goes on untraced after its arena overflowed while recording (R348). -/
def overflowRecording (s : State) (m : Manifest) : State :=
  let s := (s.updMan m.vdev m.ctx m.handle (fun x => { x with recs := [], state := 3, cause := 1, walk := none })).syncMan
    m.vdev m.ctx m.handle
  match m.launch with
  | some l => s.updLau l (fun x => { x with untraced := true })
  | none => s

/-- Keeps a change of a manifest, or overflows it (R337, R348). A propagation's overflow ends the walk; what still runs goes on
untraced, and then the grid tasks run again (`wantState`). -/
def keepMan (s : State) (m : Manifest) : State :=
  if m.used ≤ m.size then s.putMan m
  else if m.state == 4 then
    let s := s.updMan m.vdev m.ctx m.handle (fun x => { x with recs := [], walk := none, wantState := some 3, cause := 1 })
    match m.launch with
    | some l => s.updLau l (fun x => { x with untraced := true })
    | none => s
  else s.overflowRecording m

/-- The check of a read by a team's task (R331): a wait, or a trap. -/
def checkRead (s : State) (u va n : Nat) : Res Unit :=
  match s.ownManifest u with
  | none => .ok () s
  | some m =>
    let t := s.team u
    match m.rec? t.task with
    | none => .ok () s
    | some me =>
      match s.checkReads m me (s.granules t.vdev t.ctx va n) with
      | .trap x s => .trap x (s.updLau t.launch (fun l => { l with modOrder := true }))
      | r => r

/-- A checked read recorded in its launch's manifest; it follows the completed tasks' writes and the outside's (R331, R338, R345). -/
def noteRead (s : State) (u hyp va n : Nat) : State :=
  match s.ownManifest u with
  | none => s
  | some m =>
    let t := s.team u
    match s.granules t.vdev t.ctx va n with
    | [] => s
    | gs => if (m.rec? t.task).isNone then s
        else (s.afterOutside t.core).keepMan (m.updRec t.task (fun r => TRec.addReads r hyp gs))

/-- A read by a team's task (R331): its check, and its record. -/
def trackRead (s : State) (u hyp va n : Nat) : Res Unit :=
  (s.checkRead u va n).bind fun _ s => .ok () (s.noteRead u hyp va n)

/-- The first granule that another live task of the run has written (R332). -/
def otherWriter (m : Manifest) (task : Nat) : List Granule → Option (Granule × TRec)
  | [] => none
  | g :: r =>
    match m.recs.find? (fun w => w.task != task && w.live && w.writes.any (fun x => x.addr == g.addr)) with
    | some w => some (g, w)
    | none => otherWriter m task r

/-- The write entry of a granule: PRIOR kept from the replaced execution where it had one (R332, R342). -/
def addWrite (s : State) (d c hyp : Nat) (me : TRec) (g : Granule) : TRec :=
  if me.writes.any (fun w => w.addr == g.addr && w.hyp == hyp) then me
  else
    let now := s.granuleValue d c hyp g.addr g.lg
    let prior := match me.oldWrites.find? (fun w => w.addr == g.addr) with
      | some w => w.prior
      | none => now
    { me with writes := me.writes ++ [⟨g.region, g.addr, g.lg, prior, now, now, hyp⟩] }

/-- The check of a write by a team's task (R332): it traps where another task of the run has written a granule. -/
def checkWrite (s : State) (u va n : Nat) : Res Unit :=
  match s.ownManifest u with
  | none => .ok () s
  | some m =>
    let t := s.team u
    match otherWriter m t.task (s.granules t.vdev t.ctx va n) with
    | some (g, w) =>
      .trap { cause := .modOrder, va := BitVec.ofNat 64 g.addr, vb := BitVec.ofNat 64 w.ord, wr := true }
        (s.updLau t.launch (fun l => { l with modOrder := true }))
    | none => .ok () s

/-- A checked write in its task's record, PRIOR as the state `was` before it has it, and the later tasks of the run that have read its
granules marked; a re-executed task's readers are left to its completion step (R332, R344). -/
def recordWrite (s was : State) (u hyp va n : Nat) : State :=
  match s.ownManifest u with
  | none => s
  | some m =>
    let t := s.team u
    match s.granules t.vdev t.ctx va n, m.rec? t.task with
    | [], _ => s
    | _, none => s
    | gs, some me =>
      let me := gs.foldl (fun me g => was.addWrite t.vdev t.ctx hyp me g) me
      let late := if t.reexec.isSome then [] else (m.recs.filter (fun r => r.live && decide (me.ord < r.ord) &&
        r.reads.any (fun x => gs.any (fun g => g.addr == x.addr)))).map TRec.task
      s.keepMan (late.foldl Manifest.mark (m.updRec t.task (fun _ => me)))

/-- A task's write as the other manifests of its context see it: an outside write, in the step of the write (R330, R338). -/
def markWrite (s : State) (u va n : Nat) : State :=
  let t := s.team u
  let own := (s.ownManifest u).bind (fun m => (m.rec? t.task).map (fun _ => m.handle))
  s.markOutside t.vdev t.ctx own (s.granules t.vdev t.ctx va n)

/-- A task's write, once it has happened (R330, R332, R338). -/
def noteWrite (s was : State) (u hyp va n : Nat) : State := (s.recordWrite was u hyp va n).markWrite u va n

end State

end Sys2Proof.Machine
end

