-- ==== Sys2Proof/Machine/Space.lean ====
section
/-! DEFINITION. Thread accesses in the four spaces (R128 to R141, R309 to R316, R323): the address and its checks, the
places engine operations in flight reach and what a collision does, deterministic marks and buffers, and the read, write
and read-write steps. -/

namespace Sys2Proof.Machine

/-! ## What engine operations reach (R229, R314, R315) -/

/-- A strided record of bytes in one space: `team` is the array's team for a scratchpad. -/
structure Extent where
  global : Bool
  team : Nat
  base : Nat
  stride : Nat
  rows : Nat
  rowBytes : Nat
  write : Bool
deriving DecidableEq, Repr

/-- Whether an offset or address lies in a row of the record. -/
def Extent.has (e : Extent) (a : Nat) : Bool :=
  if e.stride = 0 then decide (e.base ≤ a ∧ a < e.base + e.rowBytes)
  else if a < e.base then false
  else
    -- the rows that can hold the byte start at most rowBytes below it
    let i := (a - e.base) / e.stride
    (List.range (min (i + 1) (e.rowBytes / e.stride + 1))).any (fun k =>
      let j := i - k
      decide (j < e.rows) && decide (e.base + j * e.stride ≤ a ∧ a < e.base + j * e.stride + e.rowBytes))

/-- One past the last byte of the record (R226). -/
def Extent.top (e : Extent) : Nat := e.base + (e.rows - 1) * e.stride + e.rowBytes

/-- The bytes of a row of A or of an output (R213, R218). -/
def elemBytes (t : Ty) (n : Nat) : Nat := if t == .t6 then 3 * ((n + 3) / 4) else n * (t.width / 8)

namespace State

/-- The team that a rank of a team's cluster names, whatever became of it. A team without a cluster shape is its own
rank 0 (R128). -/
def rankMember (s : State) (u rank : Nat) : Option Nat :=
  match SMap.find s.clusters (s.team u).cluster with
  | none => if rank = 0 then some u else none
  | some c => c.members[rank]?

/-- The team of a rank of a team's cluster: none where it has completed or been reset (R279). -/
def rankTeam (s : State) (u rank : Nat) : Option Nat :=
  match s.rankMember u rank with
  | some v => if (s.team v).phase == .ended then none else some v
  | none => none

/-- The teams of a cluster (R131). -/
def clusterTeams (s : State) (u : Nat) : Nat :=
  match SMap.find s.clusters (s.team u).cluster with
  | none => 1
  | some c => c.members.length

/-- SCRATCH of a team's current variant; 0 for a rank whose team is gone (R279). -/
def scratchSize (s : State) (u : Nat) : Nat := (s.team u).var.scratch

def scratchSizeOf (s : State) (u rank : Nat) : Nat :=
  match s.rankTeam u rank with
  | some v => s.scratchSize v
  | none => 0

/-- A record of a copy block in one of its spaces, for one destination team. -/
def cpyExtent (s : State) (u : Nat) (sp : Space) (base stride rows rowBytes : Nat) (write : Bool) : Extent :=
  match sp with
  | .g => ⟨true, 0, base, stride, rows, rowBytes, write⟩
  | .c => ⟨false, (s.rankMember u (bitsOf base 24 4)).getD u, bitsOf base 0 24, stride, rows, rowBytes, write⟩
  | _ => ⟨false, u, base, stride, rows, rowBytes, write⟩

/-- The ranks a copy writes (R227). -/
def cpyRanks (b : CpyBlk) : List Nat := (List.range 12).filter (fun i => b.ranks.testBit i)

/-- The records an operation reads and writes in memory or scratchpad. -/
def opExtents (s : State) (o : EngineOp) : List Extent :=
  match o.kind with
  | .cpy b =>
    s.cpyExtent o.team b.sspace b.sbase b.sstride b.rows b.rowBytes false ::
    (if b.mcast then
      (cpyRanks b).map (fun r => s.cpyExtent o.team .c (b.dbase + r * 16777216) b.dstride b.rows b.rowBytes true)
    else [s.cpyExtent o.team b.dspace b.dbase b.dstride b.rows b.rowBytes true])
  | .mzero _ _ => []
  | .mma b _ _ => [⟨false, o.team, b.abase, b.astride, b.arows, elemBytes b.fmt b.aelems, false⟩]
  | .mdrain b =>
    [⟨false, o.team, b.obase, b.ostride, b.orows, elemBytes b.ofmt b.ocols, true⟩] ++
    (if b.rowsc then [⟨false, o.team, b.rsoff, 0, 1, 4 * b.orows, false⟩] else []) ++
    (if b.colsc then [⟨false, o.team, b.csoff, 0, 1, 4 * b.ocols, false⟩] else []) ++
    (if b.stoff = 0xFFFFFFFF then [] else [⟨false, o.team, b.stoff, 0, 1, 4, true⟩])
  | .nput b => [s.cpyExtent o.team b.local_ b.lbase 0 1 b.len false]
  | .nsend b => [s.cpyExtent o.team b.local_ b.lbase 0 1 b.len false]
  | .nget b => [s.cpyExtent o.team b.local_ b.lbase 0 1 b.len true]

/-- Whether a record reaches a place: a virtual record through its context's pages (R315). -/
def extentHas (s : State) (d c : Nat) (e : Extent) (p : Place) : Bool :=
  match p with
  | .scr t off => !e.global && e.team == t && e.has off
  | .hbm pa =>
    e.global && (List.range (e.top / 65536 + 1 - e.base / 65536)).any (fun i =>
      let page := (e.base / 65536 + i) * 65536
      match s.deviceWalk d c page with
      | some (pb, _) => decide (pb ≤ pa ∧ pa < pb + 65536) && e.has (page + (pa - pb))
      | none => false)

/-- Whether an operation in flight reads or writes a place. -/
def opReaches (s : State) (o : EngineOp) (p : Place) : Bool :=
  let t := s.team o.team
  (s.opExtents o).any (fun e => s.extentHas t.vdev t.ctx e p)

/-- Whether an operation is a team's, or reaches its scratchpad (R199, R279, R286). -/
def opTouches (s : State) (u : Nat) (o : EngineOp) : Bool :=
  o.team == u || (s.opExtents o).any (fun e => !e.global && e.team == u)

/-- Whether a place collides with an operation in flight (R315). -/
def collides (s : State) (p : Place) : Bool := s.ops.any (fun o => s.opReaches o p)

/-- Whether a colliding write of an operation in flight has left a place unspecified (R315). -/
def touchedPlace (s : State) (p : Place) : Bool := s.ops.any (fun o => o.touched.any (fun x => x.place == p))

/-- Whether a read of a place gives an unspecified byte: it collides (R315), or an open arena holds it (R333). -/
def unsettled (s : State) (p : Place) : Bool :=
  s.collides p || (match p with | .hbm pa => s.arenaOpen pa | _ => false)

/-- The bytes a read returns: unspecified where it collides (R315, R316) or an open arena holds them (R333). -/
def collideRead (s : State) (place : Nat → Place) (bs : List Byte) : List Byte × State :=
  if s.ops.isEmpty && !s.manifests.any Manifest.open_ then (bs, s)
  else
    let hit := (List.range bs.length).map (fun i => s.unsettled (place i))
    if hit.any id then
      (((List.range bs.length).map (fun i =>
        if hit.getD i false then Config.freeByte (s.draws * 65536 + i) else bs.getD i 0)), s.draw)
    else (bs, s)

/-- The places of a record. -/
def extentPlaces (s : State) (d c : Nat) (e : Extent) : List Place :=
  (List.range e.rows).flatMap (fun i => (List.range e.rowBytes).filterMap (fun j =>
    let a := e.base + i * e.stride + j
    if e.global then (s.deviceWalk d c a).map (fun r => Place.hbm r.1) else some (.scr e.team a)))

/-- What an operation writes from a byte that it reads: a copy the same byte of each destination row, a drain whatever its scales reach.
A matrix product's accumulator rows are spoiled at its report. -/
def opOutputs (s : State) (o : EngineOp) (p : Place) : List Place :=
  let t := s.team o.team
  let es := s.opExtents o
  let outs := es.filter Extent.write
  match o.kind with
  | .cpy _ =>
    (es.filter (fun e => !e.write)).flatMap (fun e =>
      let src := s.extentPlaces t.vdev t.ctx e
      let is := (List.range src.length).filter (fun i => src[i]? == some p)
      outs.flatMap (fun x => let ds := s.extentPlaces t.vdev t.ctx x; is.filterMap (fun i => ds[i]?)))
  | .mdrain _ => outs.flatMap (s.extentPlaces t.vdev t.ctx)
  | _ => []

/-- Notes the bytes a write under a hypothesis collides in: each stays unspecified until the next write after the report, and so does
what the operation makes of those it reads (R315). -/
def collideWrite (s : State) (hyp : Nat) (place : Nat → Place) (n : Nat) : State :=
  if s.ops.isEmpty then s
  else { s with ops := s.ops.map (fun o =>
    let t := s.team o.team
    let hit := ((List.range n).map place).filter (fun p => s.opReaches o p)
    if hit.isEmpty then o
    else
      let read := hit.filter (fun p => (s.opExtents o).any (fun e => !e.write && s.extentHas t.vdev t.ctx e p))
      { o with touched := o.touched ++ hit.map (fun p => ⟨p, hyp⟩) ++ (read.flatMap (s.opOutputs o)).map (fun p => ⟨p, o.hyp⟩) }) }

/-! ## Scratchpad -/

/-- A wait at a switch point (R198). -/
def isSwpt (k : WaitKind) : Bool :=
  match k with
  | .swpt _ => true
  | _ => false

/-- Whether a team's switch has begun (R199): every live thread waits at its point, and no other team's copy into its scratchpad is in
flight (R286). -/
def switchBegun (s : State) (u : Nat) : Bool :=
  let t := s.team u
  t.sw.any (fun w => w.point.isSome) && t.body.threads.any (fun e => e.2.st != .exited) &&
  t.body.threads.all (fun e => e.2.st == .exited || (e.2.st == .waiting && e.2.wait.any (fun w => isSwpt w.kind))) &&
  !s.ops.any (fun o => o.team != u && s.opTouches u o)

/-- A thread's read of a team's scratchpad array (R135, R279); another rank's waits while that rank switches (R286). -/
def readScr (s : State) (u target off n : Nat) : Res (List Byte) :=
  let (ok, s) := s.escape (some u) (LogItem.isScratch target (scratchRowOf off))
  if !ok || (target != u && s.switchBegun target) then .wait .home s
  else
    let s := s.meetTeams u target
    let (bs, s) := s.collideRead (fun i => .scr target (off + i)) (Mem.read (s.team target).scratch off n)
    .ok bs s

/-- A write of a team's scratchpad array by a team, logged (R255). -/
def putScr (s : State) (u target off : Nat) (data : List Byte) : State :=
  ((s.meetTeams u target).logScratch u target (scratchRowOf off)).updTeam target (fun t => { t with scratch := Mem.write t.scratch off data })

/-- A thread's write of a team's scratchpad array (R135, R279, R286). -/
def writeScr (s : State) (u target off : Nat) (data : List Byte) : Res Unit :=
  let (ok, s) := s.escape (some u) (LogItem.isScratch target (scratchRowOf off))
  if !ok || (target != u && s.switchBegun target) then .wait .home s
  else
    let s := s.collideWrite 0 (fun i => .scr target (off + i)) data.length
    .ok () (s.putScr u target off data)

/-! ## Deterministic marks (R323, R366) -/

/-- How a deterministic team's access to a line proceeds. -/
inductive DetClass where
  | ordinary
  | shared
  | waits
deriving DecidableEq, Repr

/-- Classifies an access, claiming an unclaimed line (R366); outside a deterministic launch every access is ordinary. -/
def detClass (s : State) (u pa : Nat) : DetClass × State :=
  let l := (s.team u).launch
  if !(s.lau l).det then (.ordinary, s)
  else
    let line := lineOf pa
    let set (m : Mark) : State := s.updLau l (fun x => { x with marks := SMap.set x.marks line m })
    match SMap.find (s.lau l).marks line with
    | none => (.shared, set (.claimed [u]))
    | some (.claimed ts) => (.shared, set (.claimed (insertNat u ts)))
    | some .shared => (.shared, s)
    | some .unplaced => (.shared, s)
    | some (.private_ v) => if v = u then (.ordinary, s) else (.waits, set (.contended v))
    | some (.contended v) => if v = u then (.ordinary, s) else (.waits, s)

/-- The buffered byte of a team under a hypothesis: the last store that holds it (R323). -/
def bufByte (s : State) (u h pa : Nat) : Option Byte :=
  (s.team u).body.buf.foldl (fun acc e =>
    match e.op with
    | .store _ a data => if s.hypFollow e.hyp == (h, none) && a ≤ pa && pa < a + data.length then data[pa - a]? else acc
    | _ => acc) none

/-- A byte of a view through a team's buffer (R320, R323). -/
def viewByteBuf (s : State) (u : Nat) (path : List Nat) (pa : Nat) : Byte :=
  match path with
  | [] => (s.bufByte u 0 pa).getD (s.rootByte pa)
  | h :: r =>
    match s.bufByte u h pa with
    | some b => b
    | none =>
      match s.vline h (lineOf pa) with
      | some v => if v.mask.getLsbD (pa % 128) then Mem.get v.data pa else viewByteBuf s u r pa
      | none => viewByteBuf s u r pa

/-- The entries of a kind in a team's buffers (R367). -/
def bufStores (s : State) (u : Nat) : Nat :=
  ((s.team u).body.buf.filter (fun e => match e.op with | .store _ _ _ => true | _ => false)).length

def bufAtoms (s : State) (u : Nat) : Nat :=
  ((s.team u).body.buf.filter (fun e => match e.op with
    | .atom .. => true
    | .lr .. => true
    | .sc .. => true
    | _ => false)).length

/-- Appends to a team's buffers. -/
def bufPush (s : State) (u : Nat) (e : BufEntry) : State := s.updBody u (fun b => { b with buf := b.buf ++ [e] })

/-! ## Accesses to global memory -/

/-- The UNCORRECTABLE of an access that meets a line marked damaged at its home (R263): UNIT 4 where a slice holds the
line, 5 for HBM. -/
def damageTrap (s : State) (line va : Nat) (wr : Bool) : TrapInfo :=
  let at_ := BitVec.ofNat 64 (va / 128 * 128)
  { cause := .uncorrectable, va := at_, vb := at_, wr := wr, unit := if (SMap.find s.lines line).isSome then 4 else 5 }

/-- A translation for a team's thread; a damaged line the core has no copy of gives UNCORRECTABLE (R263); a fault is the thread's
trap with the first and last byte (R131, R389). -/
def threadAddr (s : State) (u tid va n : Nat) (k : XKind) : Res Nat :=
  let t := s.team u
  let sup := (s.thr u tid).priv == .supervisor
  (s.translate (some u) t.core t.vdev t.ctx va k sup).bind fun r s =>
    match r with
    | .ok pa =>
      if s.damaged.contains (lineOf pa) && (SMap.find (s.cor t.core).l1 (lineOf pa)).isNone then
        .trap (s.damageTrap (lineOf pa) va (k == .write || k == .readwrite)) s
      else .ok pa s
    | .error c =>
      .trap { cause := c, va := BitVec.ofNat 64 va, vb := BitVec.ofNat 64 (va + n - 1),
              wr := k == .write || k == .readwrite } s

/-- The bytes of a counter page (R378): counter i at byte 8i, zero above. -/
def counterBytes (s : State) (pa n : Nat) : List Byte :=
  let d := (pa - Config.counterBase) / Config.counterSize
  let off := (pa - Config.counterBase) % Config.counterSize
  (List.range n).map (fun i =>
    let o := off + i
    if o < 512 then
      BitVec.ofNat 8 ((SMap.get (s.vd d).counters (o / 8) (Counter.dflt (o / 8))).value.toNat / 2 ^ (8 * (o % 8)))
    else 0)

/-- A read of `n` bytes of one line by a thread's access at a virtual address (R310, R320, R323, R331). -/
def readG (s : State) (u tid va n : Nat) (k : XKind) (alloc : Bool) : Res (List Byte) :=
  (s.threadAddr u tid va n k).bind fun pa s =>
  if inCounter pa then .ok (s.counterBytes pa n) s
  else
    let h := (s.thr u tid).hyp
    (s.trackRead u h va n).bind fun _ s =>
    let (c, s) := s.detClass u pa
    match c with
    | .waits => .wait .serial s
    | .shared =>
      let t := s.team u
      (s.homeRead (some u) t.core t.vdev t.ctx pa 0).bind fun _ s =>
        let bs := (List.range n).map (fun i => s.viewByteBuf u (s.hypPath h) (pa + i))
        let s := if h = 0 then s else s.meetVersion t.core (lineOf pa)
        let (bs, s) := s.collideRead (fun i => .hbm (pa + i)) bs
        .ok bs s
    | .ordinary =>
      (if h = 0 then s.readRoot u pa n alloc else s.readView u h pa n).bind fun bs s =>
        let (bs, s) := s.collideRead (fun i => .hbm (pa + i)) bs
        .ok bs s

/-- HYP_CAPACITY at a store's address (R353). -/
def capacityTrap (va : Nat) : TrapInfo :=
  { cause := .hypCapacity, va := BitVec.ofNat 64 va, vb := BitVec.ofNat 64 va, wr := true }

/-- The write step of a thread at a physical address: the root value, or its hypothesis's version. A write that traps has no effect
(R353). -/
def writeStep (s : State) (u h va pa : Nat) (data : List Byte) (alloc : Bool) : Res Unit :=
  let place (i : Nat) : Place := .hbm (pa + i)
  if h = 0 then (s.writeRoot u pa data alloc).bind fun _ s => .ok () (s.collideWrite 0 place data.length)
  else (s.writeVersion u h pa data).bind fun ok s =>
    if ok then .ok () (s.collideWrite h place data.length) else .trap (capacityTrap va) s

/-- The version line that a held write under a hypothesis will need, taken now, so that HYP_CAPACITY stays precise (R353). -/
def holdVersion (s : State) (u h pa : Nat) : Res Bool :=
  if h = 0 then .ok true s
  else
    let line := lineOf pa
    (s.escapeLine (some u) line).bind fun _ s =>
      let prior := s.vline h line
      (s.makeVLine (s.team u).vdev h line).bind fun ok s =>
        .ok ok (if ok then s.updTeam u (fun t => t.logVLine h line prior) else s)

/-- A store of bytes in one line by a thread's access at a virtual address (R135, R320, R323, R332). -/
def writeG (s : State) (u tid va : Nat) (data : List Byte) (alloc : Bool) : Res Unit :=
  (s.threadAddr u tid va data.length .write).bind fun pa s =>
  let h := (s.thr u tid).hyp
  let (c, s) := s.detClass u pa
  match c with
  | .waits => .wait .serial s
  | .shared =>
    if 4096 ≤ s.bufStores u then .wait .serial s
    else (s.checkWrite u va data.length).bind fun _ s => (s.holdVersion u h pa).bind fun ok s =>
      if !ok then .trap (capacityTrap va) s
      else .ok () ((s.recordWrite s u h va data.length).bufPush u ⟨some tid, h, .store va pa data⟩)
  | .ordinary =>
    (s.checkWrite u va data.length).bind fun _ was =>
    (was.writeStep u h va pa data alloc).bind fun _ s => .ok () (s.noteWrite was u h va data.length)

/-- The read-write step of an atomic at its home (R137, R301, R320): `new` are the bytes it writes, none for a failed `.cas`, which is a
read. The core's pts becomes the line's stamp in both cases. -/
def atomicStep (s : State) (u h va pa n : Nat) (new : Option (List Byte)) : Res Unit :=
  let t := s.team u
  match new with
  | none =>
    if h = 0 then (s.homeRead (some u) t.core t.vdev t.ctx pa 0).bind fun _ s => .ok () s
    else (s.readView u h pa n).bind fun _ s => .ok () s
  | some bs =>
    let place (i : Nat) : Place := .hbm (pa + i)
    if h = 0 then (s.homeWrite (some u) (some t.core) t.vdev t.ctx pa bs).bind fun _ s => .ok () (s.collideWrite 0 place n)
    else (s.readView u h pa n).bind fun _ s => s.writeStep u h va pa bs true

/-- Whether a buffered atomic may turn out to write nothing: its record as a write waits for its commit (R330). -/
def mayFail (o : BufOp) : Bool :=
  match o with
  | .atom _ _ op _ _ _ _ => op == .cas
  | .sc _ _ _ _ => true
  | _ => false

/-- The old bytes an atomic returns, unspecified where it collides (R315): `writes` gives the new bytes from them, none for a failed
`.cas`. -/
def atomicG (s : State) (u tid va n : Nat) (writes : List Byte → Option (List Byte)) (defer : Nat → BufOp) :
    Res (Option (List Byte)) :=
  (s.threadAddr u tid va n .readwrite).bind fun pa s =>
  let h := (s.thr u tid).hyp
  (s.checkRead u va n).bind fun _ s =>
  let (c, s) := s.detClass u pa
  match c with
  | .waits => .wait .serial s
  | .shared =>
    if 256 ≤ s.bufAtoms u then .wait .serial s
    else
      let push (s : State) : State := (s.noteRead u h va n).bufPush u ⟨some tid, h, defer pa⟩
      if mayFail (defer pa) then .ok none (push s)
      else (s.checkWrite u va n).bind fun _ s => .ok none (push (s.recordWrite s u h va n))
  | .ordinary =>
    (s.reach (some u) (lineOf pa) false).bind fun _ s =>
    let (seen, s) := s.collideRead (fun i => .hbm (pa + i)) (s.viewBytes (s.hypPath h) pa n)
    let new := writes seen
    (if new.isSome then s.checkWrite u va n else .ok () s).bind fun _ was =>
    (was.atomicStep u h va pa n new).bind fun _ s =>
      let s := s.noteRead u h va n
      .ok (some seen) (if new.isSome then s.noteWrite was u h va n else s)

end State

/-! ## Addresses (R131) -/

/-- The space code in tsw (R246). -/
def spaceCode (sp : Space) : Nat := (Form.space sp).toNat

/-- A trap at an access's first and last byte. -/
def accTrap (c : Cause) (sp : Space) (wr : Bool) (ea size : Nat) : TrapInfo :=
  { cause := c, va := BitVec.ofNat 64 ea, vb := BitVec.ofNat 64 (ea + size - 1), space := spaceCode sp, wr := wr }

/-- Address (R131): the effective address, or the first failing check's trap. -/
def State.address (s : State) (u : Nat) (sp : Space) (base : Nat) (disp : Int) (size : Nat) (wr : Bool) :
    Except TrapInfo Nat :=
  let w : Int := (base : Int) + disp
  match sp with
  | .g =>
    let ea := wrap 64 w
    if ea % size != 0 then .error (accTrap .align sp wr ea size)
    else if 9007199254740992 ≤ ea then .error (accTrap .xlate sp wr ea size)
    else .ok ea
  | .l =>
    let ea := wrap 32 w
    if ea % size != 0 then .error (accTrap .align sp wr ea size)
    else if s.scratchSize u < ea + size then .error (accTrap .scratchBounds sp wr ea size)
    else .ok ea
  | .c =>
    let ea := wrap 32 w
    if ea % size != 0 then .error (accTrap .align sp wr ea size)
    else if bitsOf ea 28 4 != 0 || decide (s.clusterTeams u ≤ bitsOf ea 24 4) ||
        decide (s.scratchSizeOf u (bitsOf ea 24 4) < bitsOf ea 0 24 + size) then
      .error (accTrap .scratchBounds sp wr ea size)
    else .ok ea
  | .k =>
    let ea := wrap 32 w
    if ea % size != 0 then .error (accTrap .align sp wr ea size)
    else if (s.team u).params.length < ea + size then .error (accTrap .perm sp wr ea size)
    else .ok ea

end Sys2Proof.Machine
end

