-- ==== Sys2Proof/Machine/Launches.lean ====
section
/-! DEFINITION. What stands around a running team: messages sent (R423, R427), ring records (R374 to R376), tile stamps
(R220, R232, R275), the ephemeris (R370 to R372), task records (R334 to R346), and the completion of a launch (R427). -/

namespace Sys2Proof.Machine

namespace State

/-! ## Messages -/

/-- Sends a message (R419). -/
def send (s : State) (m : OutMsg) : State :=
  { s with endpoint := { s.endpoint with outbox := s.endpoint.outbox ++ [m] } }

/-- The bytes of a reply-format message (R423). -/
def replyBytes (code status : Nat) (seq : Word) (field value : Nat) (payload : List Byte) : List Byte :=
  toBytes 4 0x5052435A ++ toBytes 1 code ++ toBytes 1 status ++ toBytes 2 0 ++ toBytes 4 seq.toNat ++
  toBytes 4 payload.length ++ toBytes 4 field ++ toBytes 4 0 ++ toBytes 8 value ++ payload

/-- Replies to a command (R419, R423). -/
def reply (s : State) (who : Sender) (code status : Nat) (seq : Word) (field value : Nat) (payload : List Byte) : State :=
  s.send (.reply who (replyBytes code status seq field value payload))

/-- Whether a sender is still connected (R427, R428). -/
def connected (s : State) (who : Sender) : Bool :=
  match who with
  | .mgmt => true
  | .master id => s.endpoint.masters.any (fun e => e.2.id == id)

/-- The owner as a sender. -/
def ownerSender (s : State) : Option Sender :=
  s.endpoint.owner.bind (fun n => (SMap.find s.endpoint.masters n).map (fun m => .master m.id))

/-- %ptp as the ten bytes of R427: nanoseconds, seconds. -/
def ptpBytes (p : Nat × Nat) : List Byte := toBytes 4 p.1 ++ toBytes 6 p.2

/-- The completion record of a launch (R427). -/
def completionBytes (l : Launch) (cstatus : Nat) : List Byte :=
  toBytes 4 0x5043485A ++ toBytes 1 cstatus ++ toBytes 3 0 ++ toBytes 8 l.id.toNat ++ ptpBytes (l.first.getD (0, 0)) ++
  ptpBytes (l.last.getD (0, 0)) ++ toBytes 4 l.entries.length ++ toBytes 8 l.instrs ++ toBytes 16 0 ++
  l.entries.flatMap (fun e => toBytes 4 e.task ++ toBytes 1 e.cause ++ toBytes 1 e.engine.toNat ++ toBytes 2 0 ++
    toBytes 8 e.tpc.toNat ++ toBytes 8 e.tva.toNat ++ toBytes 8 e.tvb.toNat)

/-- Sends a launch's completion record to the master that launched it, or to the owner (R427). -/
def sendCompletion (s : State) (l : Launch) (cstatus : Nat) : State :=
  let bytes := replyBytes 0x40 0 l.seq 0xFFFFFFFF 0 (completionBytes l cstatus)
  if s.connected l.who then s.send (.reply l.who bytes)
  else match s.ownerSender with
    | some w => s.send (.reply w bytes)
    | none => s

/-- Adds an entry to a launch's completion record (R248, R147). -/
def addEntry (s : State) (l : Nat) (e : CEntry) : State :=
  if (s.lau l).complete then s else s.updLau l (fun x => { x with entries := x.entries ++ [e] })

/-! ## Rings and tiles -/

/-- Writes a record to the tile ring or the checksum ring of a virtual device (R376). -/
def ringPut (s : State) (d : Nat) (tile : Bool) (rec : List Byte) : State :=
  match (if tile then (s.vd d).tileRing else (s.vd d).sumRing) with
  | none => s.count d 0x0F 1
  | some r =>
    let len := if tile then 64 else 32
    let cap := (r.size - 64) / len
    let widx := leNat (s.rootBytes (boundPa r.pages r.off0 0) 8)
    let ridx := min widx (leNat (s.rootBytes (boundPa r.pages r.off0 8) 8))
    if cap ≤ widx - ridx then s.count d 0x0F 1
    else
      let s := s.boundWrite d 0 r.pages r.off0 (64 + len * (widx % cap)) rec
      s.boundWrite d 0 r.pages r.off0 0 (toBytes 8 (widx + 1))

/-- The first and the last stamp of a time; a time with no event is 0 (R375). -/
def tileFirst (t : Tile) (w : TileTime) : Nat := ((t.stamps.find? (fun x => x.what == w)).map TileStamp.cyc).getD 0
def tileLast (t : Tile) (w : TileTime) : Nat := ((t.stamps.reverse.find? (fun x => x.what == w)).map TileStamp.cyc).getD 0

/-- Whether a tile has a stamp of a time. -/
def tileHas (t : Tile) (w : TileTime) : Bool := t.stamps.any (fun x => x.what == w)

/-- The bytes of a tile record (R375). -/
def tileBytes (t : Tile) : List Byte :=
  toBytes 8 (tileFirst t .cins) ++ toBytes 8 (tileLast t .cine) ++ toBytes 8 (tileFirst t .opw) ++ toBytes 8 (tileFirst t .mmaf) ++
  toBytes 8 (tileLast t .mmal) ++ toBytes 8 (tileFirst t .drne) ++ toBytes 8 (tileLast t .coute) ++ toBytes 2 t.tile ++
  toBytes 2 t.core ++ toBytes 4 t.task

/-- The open tile of a team's tile number. -/
def tile? (s : State) (u n : Nat) : Option Tile := s.tiles.find? (fun t => t.team == u && t.tile == n)

/-- Changes a team's tile, opened where it is not (R275). Tile 0xFFF names none (R211, R226). -/
def updTile (s : State) (u n : Nat) (f : Tile → Tile) : State :=
  if n = 0xFFF then s
  else match s.tile? u n with
    | some _ => { s with tiles := mapWhere (fun t => t.team == u && t.tile == n) f s.tiles }
    | none => { s with tiles := s.tiles ++ [f ⟨u, (s.team u).task, n, [], (s.team u).core⟩] }

/-- Stamps a time of an operation's tile with %cyc. -/
def stampTile (s : State) (u n : Nat) (interval : Option Nat) (w : TileTime) : State :=
  s.updTile u n (fun t => { t with stamps := t.stamps ++ [⟨w, s.cyc, interval⟩] })

/-- Withdraws the stamps of the operations of a team's open interval, which a rollback cancels (R275). -/
def withdrawStamps (s : State) (u interval : Nat) : State :=
  let keep (t : Tile) : Tile := if t.team = u then { t with stamps := t.stamps.filter (fun x => x.interval != some interval) } else t
  { s with tiles := (s.tiles.map keep).filter (fun t => !t.stamps.isEmpty) }

/-- Closes a tile whose retiring MDRAIN has completed: its record goes to the ring (R375). -/
def closeTile (s : State) (u n : Nat) : State :=
  match s.tile? u n with
  | none => s
  | some t =>
    if !tileHas t .drne then s
    else
      let s := { s with tiles := s.tiles.filter (fun x => !(x.team == u && x.tile == n)) }
      s.ringPut (s.team u).vdev true (tileBytes t)

/-- Closes every tile of a team, at its completion (R375); those whose MDRAIN never retired are dropped. -/
def closeTiles (s : State) (u : Nat) : State :=
  let s := ((s.tiles.filter (fun t => t.team == u)).map Tile.tile).foldl (fun s n => s.closeTile u n) s
  { s with tiles := s.tiles.filter (fun t => t.team != u) }

/-! ## The ephemeris (R370 to R372) -/

/-- The ephemeris of a deterministic launch. -/
def ephOf (s : State) (l : Nat) : Option Ephem :=
  if (s.lau l).det then s.eph (s.lau l).vdev (s.lau l).ctx (s.lau l).ephem else none

/-- Changes a launch's ephemeris and writes its arena. -/
def setEph (s : State) (l : Nat) (e : Ephem) : State :=
  let x := s.lau l
  (s.updEph x.vdev x.ctx x.ephem (fun _ => e)).syncEph x.vdev x.ctx x.ephem

/-- The binding ends at a team's event (R372). -/
def diverge (s : State) (l : Nat) (e : Ephem) (task : Nat) : State :=
  s.setEph l { e with state := 4, divPhase := (s.lau l).phases, divTeam := task, bound := false }

/-- An entry is met (R372); the last of a record that had overflowed ends the binding. -/
def meetEntry (s : State) (l : Nat) (e : Ephem) (i task : Nat) : State :=
  let now := { e with met := i :: e.met }
  if e.cut && (List.range e.entries.length).all now.met.contains then s.diverge l now task
  else { s with ephems := mapWhere (fun x => x == e) (fun _ => now) s.ephems }

/-- Whether an entry of a bound ephemeris is still unmet and answers an event of the current phase. -/
def EphEntry.answers (x : EphEntry) (kind phase team who arg : Nat) : Bool :=
  x.kind == kind && x.phase == phase && x.team == team && x.who == who && x.arg == arg

/-- The index of the unmet entry that answers an event; an LWAIT that a rollback repeats meets its entry again. -/
def ephFind (e : Ephem) (kind phase team who arg : Nat) : Option Nat :=
  (List.range e.entries.length).find? (fun i => (kind == 2 || !e.met.contains i) &&
    (match e.entries[i]? with | some x => EphEntry.answers x kind phase team who arg | none => false))

/-- An admission, a passing LWAIT or a switch enters the ephemeris (R371) or meets its entry (R372). -/
def ephEvent (s : State) (l kind task who arg arg2 : Nat) : State :=
  match s.ephOf l with
  | none => s
  | some e =>
    let phase := (s.lau l).phases
    if e.state = 1 then
      let kept := e.entries.filter (fun x => !(kind == 2 && x.kind == 2 && x.team == task && x.who == who && x.arg == arg))
      if e.size < 64 + 32 * (kept.length + 1) then s.setEph l { e with state := 5 }
      else s.setEph l { e with entries := kept ++ [⟨kind, phase, task, who, arg, arg2⟩] }
    else if e.bound then
      match ephFind e kind phase task who arg with
      | some i => s.meetEntry l e i task
      | none => s.diverge l e task
    else s

/-- What a bound ephemeris lets an LWAIT pass at (R372): ARG2 of its entry, whatever phase that names. -/
def ephLimit (s : State) (l task who arg : Nat) : Option Nat :=
  match s.ephOf l with
  | some e =>
    if e.bound then
      (e.entries.find? (fun x => x.kind == 2 && x.team == task && x.who == who && x.arg == arg)).map EphEntry.arg2
    else none
  | none => none

/-- The switch that a bound ephemeris gives a team now (R372): its point and target, where its entry is of this phase and
occurrence. The outer none says that nothing binds the team. -/
def ephSwitch (s : State) (u : Nat) : Option (Option (Nat × Nat)) :=
  let t := s.team u
  match s.ephOf t.launch with
  | some e =>
    if e.bound then
      some ((e.entries.find? (fun x => x.kind == 3 && x.phase == (s.lau t.launch).phases && x.team == t.task && x.arg == t.switches)).map
        (fun x => (x.who % 256, x.who / 256)))
    else none
  | none => none

/-- A serial phase passes: entries of an earlier phase unmet end the binding (R372). -/
def ephPhase (s : State) (l : Nat) : State :=
  match s.ephOf l with
  | some e =>
    if e.bound then
      match (List.range e.entries.length).find? (fun i => !e.met.contains i &&
          (match e.entries[i]? with | some x => decide (x.phase < (s.lau l).phases) | none => false)) with
      | some i => s.diverge l e ((e.entries[i]?.map EphEntry.team).getD 0)
      | none => s
    else s
  | none => s

/-- The launch ends: RECORD sets STATE 2, or leaves an overflowed record at STATE 5, with its phases either way (R370, R371); a
replay that met every entry leaves STATE at 2, another has diverged (R372). DIVTEAM of a cut record without entries is free. DESIGN
CHOICE (notes/assumptions/93.md). -/
def ephEnd (s : State) (l : Nat) : State :=
  match s.ephOf l with
  | none => s
  | some e =>
    let phases := (s.lau l).phases
    if e.state = 1 then s.setEph l { e with state := 2, phases := phases, bound := false }
    else if e.state = 5 && !(s.lau l).replay then s.setEph l { e with phases := phases }
    else if e.bound then
      match (List.range e.entries.length).find? (fun i => !e.met.contains i) with
      | none => if e.cut then s.draw.diverge l e (Config.freeWord s.draws).toNat else s.setEph l { e with state := 2, bound := false }
      | some i => s.diverge l e ((e.entries[i]?.map EphEntry.team).getD 0)
    else s

/-! ## Trace ordinals and task records -/

/-- The ordinal of a grid task (R327). -/
def gridOrd (g : Nat) : Nat := g * 1099511627776

/-- The ordinal of a child: its index + 1 in the field of its depth (R327). -/
def childOrd (parent depth index : Nat) : Nat := parent + (index + 1) * 2 ^ (10 * (4 - depth))

/-- The manifest that a launch records into or propagates. -/
def launchMan (s : State) (l : Nat) : Option Manifest :=
  let x := s.lau l
  if x.traced && !x.untraced then s.manifests.find? (fun m => m.isAt x.vdev x.ctx x.mhandle && m.launch == some l) else none

/-- A fresh task record (R335). -/
def freshRec (task ord : Nat) (parent : Option Nat) (image key groups : Nat) (params : List Byte) (hyp : Nat) (fresh : Bool) :
    TRec :=
  { task := task, ord := ord, parent := parent, image := image, key := key, groups := groups, params := params,
    stale := false, desc := false, failed := false, fresh := fresh, reads := [], writes := [], oldReads := [], oldWrites := [],
    oldChildren := [], dropped := [], hyp := hyp, live := true, done := false }

/-- Enters a record in trace order (R335); a record of the task that stands already is kept. -/
def addRec (s : State) (l : Nat) (r : TRec) : State :=
  match s.launchMan l with
  | none => s
  | some m =>
    if (m.rec? r.task).isSome then s
    else s.keepMan { m with recs := insertBy TRec.ord r m.recs, nextId := (s.lau l).nextTask }

/-- VALUE of a record's write entries, filled at the task's completion (R332). -/
def fillValues (s : State) (m : Manifest) (r : TRec) : TRec :=
  { r with writes := r.writes.map (fun w => { w with value := s.granuleValue m.vdev m.ctx w.hyp w.addr w.lg }) }

/-- Early cutoff (R344 step 5): the readers of the granules whose value changed are marked, in every manifest of the
context. -/
def cutoff (s : State) (m : Manifest) (r : TRec) : State :=
  let changed := r.writes.filter (fun w => w.before != w.value)
  changed.foldl (fun s w =>
    let s := match s.manifests.find? (fun x => x.isAt m.vdev m.ctx m.handle) with
      | some x => s.putMan (x.markReaders w.addr (some r.task))
      | none => s
    s.markOutside m.vdev m.ctx (some m.handle) [⟨w.region, w.addr, w.lg⟩]) s

/-- The index of a manifest. -/
def manIndex (s : State) (m : Manifest) : Nat :=
  s.manifests.findIdx (fun x => x.isAt m.vdev m.ctx m.handle)

/-- A task's record closes at its completion (R147, R332). A re-executed task's completion step is its own event (R344); a
fresh task's cutoff is made here. -/
def closeRec (s : State) (u : Nat) : State :=
  let t := s.team u
  match s.launchMan t.launch with
  | none => s
  | some m =>
    match m.rec? t.task with
    | none => s
    | some r =>
      let r := { s.fillValues m r with done := true, oldReads := [] }
      let s := s.putMan (m.updRec t.task (fun _ => r))
      if t.reexec.isSome then s.post (.reexecutionCompletion u)
      else if t.freshExec then (s.cutoff m r).post (.propagateWalk (s.manIndex m))
      else s

/-- A team reset's mark in its record (R248, R346): FAILED and STALE. In a walk, which re-executes or runs afresh every task it starts,
it ends the propagation with STATE 5 and CAUSE 2, and no further grid task starts. -/
def failRec (s : State) (u : Nat) : State :=
  let t := s.team u
  match s.launchMan t.launch with
  | none => s
  | some m =>
    let m := (m.updRec t.task (fun r => { r with failed := true, done := true })).mark t.task
    if m.walk.isSome then
      (s.putMan { m with walk := none, wantState := some 5, cause := 2 }).updLau t.launch (fun l => { l with
        nextClus := max l.nextClus ((l.teams + l.ch * l.cw - 1) / (l.ch * l.cw)) })
    else s.putMan m

/-! ## The end of a launch -/

/-- Every grid cluster of a launch admitted (R278). -/
def gridDone (s : State) (l : Nat) : Bool :=
  let x := s.lau l
  decide (x.teams ≤ x.nextClus * (x.ch * x.cw))

/-- Nothing of the launch is left to run. -/
def launchIdle (s : State) (l : Nat) : Bool :=
  let x := s.lau l
  s.gridDone l && x.spawned.isEmpty && x.requeue.isEmpty &&
  s.teams.all (fun e => e.2.launch != l || e.2.phase == .ended)

/-- Whether any part of a manifest carries a hypothesis other than 0 (R361). -/
def Manifest.tagged (m : Manifest) : Bool :=
  m.recs.any (fun r => r.hyp != 0 || r.reads.any (fun g => g.hyp != 0) || r.writes.any (fun w => w.hyp != 0))

/-- Sets a manifest's final state and writes the arena; STATE 2 waits for the last tag to go (R361). -/
def settleMan (s : State) (m : Manifest) (state cause : Nat) : State :=
  if state = 2 && Manifest.tagged m then s.putMan { m with walk := none, wantState := some 2 }
  else
    (s.putMan { m with state := state, cause := cause, walk := none, wantState := none,
                       recs := m.recs.map (fun r => { r with fresh := false, live := false, done := true }) }).syncMan
      m.vdev m.ctx m.handle

/-- Ends a launch: the ephemeris, the completion record (R427), which the work of a propagation has not. -/
def finishLaunch (s : State) (l cstatus : Nat) : State :=
  let s := s.ephEnd l
  let x := s.lau l
  let s := if x.prop then s else s.sendCompletion x cstatus
  let s := s.updLau l (fun x => { x with complete := true, det := false, marks := [] })
  if s.launches.all (fun e => e.2.complete) then { s with codeLog := [] } else s

/-- A walk over the stale records of a run that has ended, as part of it: the closing pass (R332, R341, R380). Records keep their
sets. -/
def closingPass (s : State) (m : Manifest) : State :=
  let old := m.recs.map (fun r => { r with done := true })
  (s.putMan { m with walk := some ⟨(m.recs.head?).map TRec.task, false, false, true⟩, recs := old }).post
    (.propagateWalk (s.manIndex m))

/-- The final state of a run's manifest: after a MOD_ORDER trap STATE 5 with CAUSE 3, unless the arena has overflowed (R347, R348). -/
def settleRun (s : State) (m : Manifest) (l state cause : Nat) : State :=
  if (s.lau l).modOrder && state != 3 then s.settleMan m 5 3 else s.settleMan m state cause

/-- What the manifest of a launch whose work is done asks for: the grid run again untraced after an overflow in a propagation
(R348), its closing pass while records are stale (R332, R380), or its final state. False while the launch goes on. -/
def endRecording (s : State) (l : Nat) : Bool × State :=
  match s.manifests.find? (fun m => m.launch == some l && (m.state == 1 || m.state == 4)) with
  | none => (true, s)
  | some m =>
    match m.wantState, m.walk with
    | some 3, none =>
      let x := s.lau l
      (false, ((s.putMan { m with walk := some ⟨none, false, true, false⟩ }).updLau l (fun x => { x with
        untraced := true, nextClus := 0, nextTask := x.teams, doneTasks := [] })).count x.vdev 0x0C x.teams)
    | some w, _ => (true, s.settleRun m l w m.cause)
    | none, some w =>
      if !w.full then (false, s)
      else if m.recs.any TRec.stale then (false, s.closingPass m)
      else (true, s.settleRun { m with runs := m.runs + 1 } l 2 0)
    | none, none =>
      if m.recs.any TRec.stale && m.runs = 0 then (false, s.closingPass { m with runs := 1 })
      else (true, s.settleRun { m with runs := 1 } l 2 0)

/-- Ends a launch whose work is done. -/
def checkLaunch (s : State) (l : Nat) : State :=
  if (s.lau l).complete || !s.launchIdle l then s
  else
    let (ok, s) := s.endRecording l
    if ok then s.finishLaunch l (if (s.lau l).entries.isEmpty then 0 else 1) else s

end State

end Sys2Proof.Machine
end

