-- ==== Sys2Proof/Machine/Lanes.lean ====
section
/-! DEFINITION. Waiting and waking (R156), and the state of the collectives (R172 to R184): results, instances, completion and
withdrawal. -/

namespace Sys2Proof.Machine

namespace State

/-! ## Waiting and waking -/

/-- A thread waits: its pc is where it goes on; `at_` is the waiting instruction's address (R156). -/
def waitAt (s : State) (u tid : Nat) (kind : WaitKind) (at_ pc : Addr) (k : Bool) : State :=
  s.updThr u tid (fun t => { t with st := .waiting, wait := some ⟨kind, at_, k, s.cyc, (s.team u).interval⟩, pc := pc, fair := 0, promoted := false })

/-- A thread's wait ends; an instruction with K then parks it until its results are written (R157). -/
def wake (s : State) (u tid : Nat) : State :=
  match (s.thr u tid).wait with
  | some w =>
    if w.k && w.kind != .marker then
      s.updThr u tid (fun t => { t with wait := some { w with kind := .marker } })
    else s.updThr u tid Thread.wake
  | none => s

/-- The threads of a team that wait for a kind. -/
def waiting (s : State) (u : Nat) (p : WaitKind → Bool) : List Nat :=
  ((s.team u).body.threads.filter (fun e => e.2.st == .waiting &&
    (match e.2.wait with | some w => p w.kind | none => false))).map Prod.fst

end State

/-! ## Results (R178 to R184) -/

/-- The lanes a mask names. -/
def maskLanes (m : Word) : List Nat := (List.range 32).filter (fun j => m.getLsbD j)

/-- The source lane of SHFL (R178); none where there is none in 0 to 31. -/
def shflSource (mode : ShflMode) (lane : Nat) (b : Word) (mask : Word) : Option Nat :=
  match mode with
  | .lane => some (b.toNat % 32)
  | .step =>
    let x : Int := lane + b.toInt
    if 0 ≤ x && x < 32 then some x.toNat else none
  | .mix => some (lane ^^^ (b.toNat % 32))
  | .rot =>
    let ns := maskLanes mask
    if ns.isEmpty then none
    else
      let j := ns.findIdx (fun n => decide (lane ≤ n))
      let j := if j < ns.length then j else 0
      ns[(j + b.toNat) % ns.length]?

/-- The winner of an index form among candidates of value and index (R183): better values first, then lower indexes. -/
def bestIndexed (better : Nat → Nat → Bool) : List (Nat × Nat) → Option (Nat × Nat)
  | [] => none
  | x :: rest =>
    match bestIndexed better rest with
    | none => some x
    | some y =>
      if better x.1 y.1 then some x
      else if better y.1 x.1 then some y
      else some (if x.2 ≤ y.2 then x else y)

/-- Whether value x beats y in an index form (R183). -/
def betterVal (op : RedOp) (t : Ty) (x y : Nat) : Bool :=
  match op with
  | .mini => decide (t.int x < t.int y)
  | .maxi => decide (t.int y < t.int x)
  | .fmini => !(t.num x).isNan && ((t.num y).isNan || (t.num x).lt (t.num y))
  | .fmaxi => !(t.num x).isNan && ((t.num y).isNan || (t.num y).lt (t.num x))
  | _ => false

/-- The identity of an operation (R182). -/
def redIdentity (op : RedOp) (t : Ty) : Nat :=
  match op with
  | .add => 0
  | .min => wrap t.width t.maxInt
  | .max => wrap t.width t.minInt
  | .and => 2 ^ t.width - 1
  | .or => 0
  | .xor => 0
  | .fadd => t.signBit true
  | .fmin => t.infBits
  | .fmax => t.signBit true + t.infBits
  | .mini => wrap t.width t.maxInt
  | .maxi => wrap t.width t.minInt
  | .fmini => t.infBits
  | .fmaxi => t.signBit true + t.infBits

/-- The reduction of the values and indexes of a nonempty set (R182, R183): value, index, flags. -/
def reduceVals (op : RedOp) (t : Ty) (vs : List (Nat × Nat)) : Nat × Nat × Flags :=
  let xs := vs.map Prod.fst
  let sig := Flags.whenF (xs.any (fun v => (t.num v).isSig)) Flags.nv
  match op with
  | .add => (xs.foldl (· + ·) 0 % 2 ^ t.width, 0, 0)
  | .min => (wrap t.width ((xs.map t.int).foldl min t.maxInt), 0, 0)
  | .max => (wrap t.width ((xs.map t.int).foldl max t.minInt), 0, 0)
  | .and => (xs.foldl (· &&& ·) (2 ^ t.width - 1), 0, 0)
  | .or => (xs.foldl (· ||| ·) 0, 0, 0)
  | .xor => (xs.foldl (· ^^^ ·) 0, 0, 0)
  | .fadd =>
    let r := sumNum .near (xs.map t.num)
    let q := roundTo t .near r.1
    (q.1, 0, q.2 ||| Flags.whenF r.2 Flags.nv)
  | .fmin => ((roundTo t .near ((xs.map t.num).foldl (fun a b => (selectNum false false a b).1) (.nan false))).1, 0, sig)
  | .fmax => ((roundTo t .near ((xs.map t.num).foldl (fun a b => (selectNum true false a b).1) (.nan false))).1, 0, sig)
  | .mini | .maxi =>
    let w := (bestIndexed (betterVal op t) vs).getD (0, 0)
    (w.1, w.2, 0)
  | .fmini | .fmaxi =>
    let w := (bestIndexed (betterVal op t) vs).getD (0, 0)
    (if (t.num w.1).isNan then t.nanBits else w.1, w.2, sig)

/-- What a completing thread receives: registers, predicates, flags. -/
structure CResult where
  regs : List (Nat × Word)
  preds : List (Nat × Bool)
  flags : Flags
deriving DecidableEq, Repr

/-- A result predicate, where there is one (R171). -/
def predResult (p : Option Pred) (b : Bool) : List (Nat × Bool) :=
  match p with
  | some q => [(q.val, b)]
  | none => []

/-- The result of a collective for one arrival from its contributors, in lane order (R178 to R184). -/
def collResult (x : Arrival) (k : List Arrival) : CResult :=
  match x.instr with
  | .shfl _ mode ty p d _ _ _ =>
    let src := (shflSource mode x.lane x.b x.mask).bind (fun j => k.find? (fun y => y.lane == j))
    let v := match src with | some y => y.a | none => x.a
    ⟨regPairs d.toNat (wordsOf ty.words v.toNat), predResult p src.isSome, 0⟩
  | .vote _ fn d _ _ _ =>
    let c := (k.filter (fun y => y.a != 0)).length
    let n := k.length
    let kk := x.b.toNat
    let r := match fn with
      | .atleast => decide (kk ≤ c)
      | .fewer => decide (c < kk)
      | .same => c == 0 || c == n
      | .odd => c % 2 == 1
    ⟨[], [(d.val, r)], 0⟩
  | .ballot _ d _ _ =>
    let ones := k.filter (fun y => y.a != 0)
    let mask := (ones.map (fun y => 2 ^ y.lane)).foldl (· + ·) 0
    let below := (ones.filter (fun y => decide (y.lane < x.lane))).length
    ⟨[(d.toNat, BitVec.ofNat 32 mask), (d.toNat + 1, BitVec.ofNat 32 below)], [], 0⟩
  | .matchLanes _ _ p d _ _ =>
    let cls := k.filter (fun y => y.a == x.a)
    let leader := match cls with | y :: _ => y.lane | [] => 0xFFFFFFFF
    ⟨[(d.toNat, BitVec.ofNat 32 leader), (d.toNat + 1, BitVec.ofNat 32 cls.length)], predResult p (leader == x.lane), 0⟩
  | .redux _ op ty p d _ _ _ =>
    let idx := Form.redIndexed op
    let r := if k.isEmpty then (redIdentity op ty, 0xFFFFFFFF, 0)
      else reduceVals op ty (k.map (fun y => (y.a.toNat, y.b.toNat)))
    let regs := if idx then [(d.toNat, BitVec.ofNat 32 r.1), (d.toNat + 1, BitVec.ofNat 32 r.2.1)]
      else regPairs d.toNat (wordsOf ty.words r.1)
    ⟨regs, predResult p (!k.isEmpty), r.2.2⟩
  | .scan _ op ex ty p d _ _ =>
    let k := k.filter (fun y => if ex then decide (y.lane < x.lane) else decide (y.lane ≤ x.lane))
    let r := if k.isEmpty then (redIdentity op ty, 0, 0) else reduceVals op ty (k.map (fun y => (y.a.toNat, 0)))
    ⟨regPairs d.toNat (wordsOf ty.words r.1), predResult p (!k.isEmpty), r.2.2⟩
  | _ => ⟨[], [], 0⟩

/-! ## Instances (R172 to R177) -/

namespace CInstance

/-- Whether a lane has arrived in or is absent from the instance (R173). -/
def recorded (c : CInstance) (lane : Nat) : Bool := c.arrivals.any (fun a => a.lane == lane) || c.absent.contains lane

/-- The next instance as it opens, where anything waits for it (R173). DESIGN CHOICE (notes/assumptions/88.md): a thread with a kept
absence and a later kept arrival counts as both absent and arrived in that one next instance; the rule does not say whether the arrival
joins it or the one after. -/
def reopened (c : CInstance) : List CInstance :=
  if c.nextArrivals.isEmpty && c.nextAbsent.isEmpty then []
  else [⟨c.address, c.nextArrivals, c.nextAbsent, [], []⟩]

/-- The instance after an arrival (R173). -/
def join (c : CInstance) (a : Arrival) : CInstance :=
  if !c.recorded a.lane then { c with arrivals := c.arrivals ++ [a] }
  else if c.arrivals.isEmpty then ⟨c.address, c.nextArrivals ++ [a], c.nextAbsent, [], []⟩
  else { c with nextArrivals := c.nextArrivals ++ [a] }

/-- The instance after a guard-false issue (R173). -/
def miss (c : CInstance) (lane : Nat) : CInstance :=
  if !c.recorded lane then { c with absent := insertNat lane c.absent }
  else if c.arrivals.isEmpty then ⟨c.address, c.nextArrivals, insertNat lane c.nextAbsent, [], []⟩
  else { c with nextAbsent := insertNat lane c.nextAbsent }

/-- The instance with the waiting arrivals of some lanes done. -/
def finish (lanes : List Nat) (c : CInstance) : CInstance :=
  { c with arrivals := mapWhere (fun a => lanes.contains a.lane) (fun a => { a with done := true }) c.arrivals }

/-- The arrivals that wait still. -/
def waits (c : CInstance) : List Arrival := c.arrivals.filter (fun a => !a.done)

/-- The instance without a lane's waiting arrival, in it or kept for the next one. -/
def drop (lane : Nat) (c : CInstance) : CInstance :=
  { c with arrivals := c.arrivals.filter (fun a => a.lane != lane || a.done)
           nextArrivals := c.nextArrivals.filter (fun a => a.lane != lane) }

/-- An instance whose arrivals have all completed or trapped closes, and the next opens (R173). -/
def closed (c : CInstance) : List CInstance := if (waits c).isEmpty then reopened c else [c]

end CInstance

namespace State

/-- Changes or opens the instance at an address of a group. -/
def updColl (s : State) (u g : Nat) (x : Addr) (f : CInstance → CInstance) : State :=
  s.updGrp u g (fun gr =>
    if gr.colls.any (fun c => c.address == x) then
      { gr with colls := mapWhere (fun c => c.address == x) f gr.colls }
    else { gr with colls := gr.colls ++ [f ⟨x, [], [], [], []⟩] })

/-- Whether an arrival's condition holds: each lane it names has arrived, is exited or absent (R174). -/
def collReady (s : State) (u g : Nat) (c : CInstance) (a : Arrival) : Bool :=
  (maskLanes a.mask).all (fun j => c.arrivals.any (fun y => y.lane == j) || c.absent.contains j ||
    (s.thr u (32 * g + j)).st == .exited)

/-- A waiting thread's completion: its result outstanding, its wait over (R174). -/
def completeOne (s : State) (u g : Nat) (c : CInstance) (a : Arrival) : State :=
  let k := (sortBy Arrival.lane c.arrivals).filter (fun y => a.mask.getLsbD y.lane)
  let r := collResult a k
  let tid := 32 * g + a.lane
  let s := s.addPend u tid .result r.regs r.preds
  (s.setFlags u tid r.flags).wake u tid

/-- Closes the instance at an address where each arrival is done; the next opens (R173). -/
def closeColl (s : State) (u g : Nat) (x : Addr) : State :=
  s.updGrp u g (fun gr => { gr with colls := gr.colls.flatMap (fun c =>
    if c.address == x && (CInstance.waits c).isEmpty && !c.arrivals.isEmpty then CInstance.reopened c else [c]) })

/-- Completes every waiting thread of a group whose condition holds (R174), instance by instance. -/
def checkColls (s : State) (u g : Nat) : Nat → State
  | 0 => s
  | fuel + 1 =>
    match (s.grp u g).colls.find? (fun c => (CInstance.waits c).any (fun a => s.collReady u g c a)) with
    | none => s
    | some c =>
      let ready := (CInstance.waits c).filter (fun a => s.collReady u g c a)
      let s := ready.foldl (fun s a => s.completeOne u g c a) s
      let s := s.updColl u g c.address (CInstance.finish (ready.map Arrival.lane))
      checkColls (s.closeColl u g c.address) u g fuel

/-- Withdraws the arrival of a thread that waits at a collective (R173, R175, R176); an instance whose last waiting arrival leaves
closes. -/
def withdraw (s : State) (u tid : Nat) : State :=
  match (s.thr u tid).st, (s.thr u tid).wait with
  | .waiting, some w =>
    if w.kind == .collective then
      s.updGrp u (groupOf tid) (fun gr => { gr with colls := gr.colls.flatMap (fun c =>
        if c.address == w.pc then CInstance.closed (CInstance.drop (laneOf tid) c) else [c]) })
    else s
  | _, _ => s

/-- Completes what the end of a bundle lets complete, in every group of a team (R174). -/
def checkAllColls (s : State) (u : Nat) : State :=
  (s.team u).body.groups.foldl (fun s e => if e.2.colls.isEmpty then s else s.checkColls u e.1 4096) s

end State

end Sys2Proof.Machine
end

