-- ==== Sys2Proof/Machine/Ops.lean ====
section
/-! DEFINITION. Shared operations on teams: barriers and their completion (R195, R281, R374), permits (R201, R202), rollback
(R262), the end of a team (R147) and its reset (R248), taking a trap (R245) and returning from one (R250). -/

namespace Sys2Proof.Machine

/-! ## CRC-32C (R374, R383) -/

/-- One bit of the reflected CRC with polynomial 0x1EDC6F41. -/
def crcBit (c : BitVec 32) : BitVec 32 := if c.getLsbD 0 then (c >>> 1) ^^^ 0x82F63B78 else c >>> 1

/-- One byte of the CRC. -/
def crcByte (c : BitVec 32) (b : Byte) : BitVec 32 :=
  crcBit (crcBit (crcBit (crcBit (crcBit (crcBit (crcBit (crcBit (c ^^^ b.setWidth 32))))))))

/-- CRC-32C: initial value and final exclusive or of all ones. -/
def crc32c (bs : List Byte) : BitVec 32 := bs.foldl crcByte 0xFFFFFFFF ^^^ 0xFFFFFFFF

/-- The codes of the causes (R247). -/
def causeCode : Cause → Nat
  | .illOp => 0x01 | .illForm => 0x02 | .priv => 0x03 | .align => 0x04 | .xlate => 0x05 | .perm => 0x06 | .fetch => 0x07
  | .scratchBounds => 0x08 | .hazard => 0x09 | .promiseMissed => 0x0A | .collectiveStall => 0x0B
  | .barrierWatchdog => 0x0C | .orphan => 0x0D | .hypCapacity => 0x0E | .tretOutside => 0x0F | .badStatus => 0x10
  | .trap => 0x11 | .regRange => 0x12 | .uncorrectable => 0x13 | .engineFault => 0x14 | .modOrder => 0x15
  | .collectiveDivergence => 0x16

/-- The causes routed to the team handler at level 0 (R247). -/
def routedToTeam : Cause → Bool
  | .scratchBounds | .promiseMissed | .collectiveStall | .barrierWatchdog | .orphan | .hypCapacity | .trap
  | .collectiveDivergence => true
  | _ => false

/-! ## Checksums and barriers -/

namespace State

/-- The registers of a thread as a checksum segment (R374). -/
def segment (s : State) (u tid : Nat) : List Byte :=
  (List.range (s.team u).var.lregs).flatMap (fun r => toBytes 4 (s.readLane u tid 0 r).toNat) ++
  toBytes 2 ((List.range 12).foldl (fun n q => if s.readPred u tid 0 q then n + 2 ^ q else n) 0)

/-- The checksum record of a group at a barrier's completion (R374). -/
def sumRecord (s : State) (u g b : Nat) (cluster : Bool) (phase : Word) (segs : List (Nat × List Byte)) : List Byte :=
  let t := s.team u
  let rows := roundUp t.var.uregs 32
  let lanes := (sortBy Prod.fst (segs.filter (fun e => e.1 % 1024 / 32 == g))).flatMap Prod.snd
  let unis := (List.range rows).flatMap (fun r => toBytes 4 (SMap.get (s.grp u g).uregs r 0).toNat)
  toBytes 4 t.task ++ toBytes 1 g ++ toBytes 1 (b + if cluster then 128 else 0) ++ toBytes 2 0 ++ toBytes 4 phase.toNat ++
  toBytes 4 (crc32c (lanes ++ unis)).toNat ++ toBytes 8 t.interval ++ toBytes 8 s.cyc

/-- Writes a team's checksum records at a completion, one a group (R374). -/
def sumRecords (s : State) (u b : Nat) (cluster : Bool) (phase : Word) (segs : List (Nat × List Byte)) : State :=
  if (s.team u).body.csr.dbg.getLsbD 1 then
    (List.range (s.team u).gcount).foldl (fun s g =>
      s.ringPut (s.team u).vdev false (s.sumRecord u g b cluster phase segs)) s
  else s

/-- A team's barrier. -/
def bar (s : State) (u b : Nat) : Bar := SMap.get (s.team u).body.bars b Bar.start

/-- Changes a team's barrier. -/
def updBar (s : State) (u b : Nat) (f : Bar → Bar) : State :=
  s.updBody u (fun x => { x with bars := SMap.set x.bars b (f (SMap.get x.bars b Bar.start)) })

/-- Whether a barrier has been arrived at by every live thread it expects (R146, R195). -/
def Bar.full (b : Bar) (live : List Nat) : Bool := decide (0 < b.count) && live.all (fun t => b.arrived.contains t)

/-- Records a thread's arrival at a barrier (R195, R374). -/
def Bar.arrive (b : Bar) (key now : Nat) (seg : Option (List Byte)) : Bar :=
  { b with count := b.count + 1, arrived := insertNat key b.arrived, last := now,
           segs := match seg with | some x => b.segs ++ [(key, x)] | none => b.segs }

/-- The barrier after a completion (R195). -/
def Bar.next (b : Bar) : Bar := { b with phase := b.phase + 1, count := 0, arrived := [], segs := [] }

/-- The segment captured at an arrival, where checksums are on (R374). -/
def captureSeg (s : State) (u tid : Nat) : Option (List Byte) :=
  if (s.team u).body.csr.dbg.getLsbD 1 then some (s.segment u tid) else none

/-- A team barrier's completion: its threads go on, and those that had arrived before arrive in the next phase (R195). -/
def completeBar (s : State) (u b : Nat) : Nat → State
  | 0 => s
  | fuel + 1 =>
    let x := s.bar u b
    if Bar.full x (s.team u).body.live then
      let s := s.sumRecords u b false (x.phase + 1) x.segs
      let s := s.updBar u b Bar.next
      let there := s.waiting u (fun k => k == .bar b)
      let s := there.foldl (fun s tid => s.wake u tid) (s.passBar u there)
      let again := s.waiting u (fun k => k == .barAgain b true || k == .barAgain b false)
      let s := again.foldl (fun s tid =>
        let arv := (s.thr u tid).wait.any (fun w => w.kind == .barAgain b true)
        let s := s.updBar u b (fun x => Bar.arrive x tid s.cyc (s.captureSeg u tid))
        if arv then s.wake u tid
        else s.updThr u tid (fun t => { t with wait := t.wait.map (fun w => { w with kind := .bar b }) })) s
      if again.isEmpty then s else completeBar s u b fuel
    else s

/-- A thread's arrival at a team barrier, its results written (R195). -/
def arriveBar (s : State) (u tid b : Nat) : State :=
  s.updBar u b (fun x => Bar.arrive x tid s.cyc (s.captureSeg u tid))

/-- Completes every team barrier that can complete (R146, R195). -/
def checkBars (s : State) (u : Nat) : State :=
  (s.team u).body.bars.foldl (fun s e => s.completeBar u e.1 1024) s

/-! ## Cluster barriers -/

/-- A cluster. -/
def clu (s : State) (c : Nat) : Cluster := SMap.get s.clusters c ⟨0, 0, [], []⟩

/-- A cluster barrier. -/
def cbarOf (s : State) (c b : Nat) : Bar := SMap.get (s.clu c).bars b Bar.start

/-- Changes a cluster barrier. -/
def updCbar (s : State) (c b : Nat) (f : Bar → Bar) : State :=
  let x := s.clu c
  { s with clusters := SMap.set s.clusters c { x with bars := SMap.set x.bars b (f (SMap.get x.bars b Bar.start)) } }

/-- The live threads of a cluster's teams, by arrival key; a completed or reset team counts none (R281). -/
def cluLive (s : State) (c : Nat) : List Nat :=
  (s.clu c).members.flatMap (fun v =>
    if (s.team v).phase == .ended then [] else (s.team v).body.live.map (fun tid => 1024 * v + tid))

/-- A thread's arrival at a cluster barrier (R281). -/
def arriveCbar (s : State) (u tid b : Nat) : State :=
  let s := s.updCbar (s.team u).cluster b (fun x => Bar.arrive x (1024 * u + tid) s.cyc (s.captureSeg u tid))
  s.updBody u (fun x => { x with cbarArrivals := x.cbarArrivals ++ [(b, tid)] })

/-- A cluster barrier's completion: every team's interval closes first (R283), then the waiters go on (R281); while a close
must wait, the completion waits. -/
def completeCbar (s : State) (c b : Nat) : Nat → State
  | 0 => s
  | fuel + 1 =>
    let x := s.cbarOf c b
    if Bar.full x (s.cluLive c) then
      let members := (s.clu c).members.filter (fun v => (s.team v).phase != .ended)
      let (ok, s) := s.closeAll members
      if !ok then s
      else
        let s := members.foldl (fun s v => s.sumRecords v b true (x.phase + 1) (x.segs.filter (fun e => e.1 / 1024 == v))) s
        -- R282: what any rank did before stands before what any rank does next
        let s := members.foldl (fun s v => members.foldl (fun s w => s.meetTeams v w) s) s
        let s := s.updCbar c b Bar.next
        let s := members.foldl (fun s v =>
          let s := s.updBody v (fun y => { y with cbarArrivals := y.cbarArrivals.filter (fun e => e.1 != b) })
          (s.waiting v (fun k => k == .cbar b)).foldl (fun s tid => s.wake v tid) s) s
        let again := members.flatMap (fun v =>
          (s.waiting v (fun k => k == .cbarAgain b true || k == .cbarAgain b false)).map (fun tid => (v, tid)))
        let s := again.foldl (fun s e =>
          let arv := (s.thr e.1 e.2).wait.any (fun w => w.kind == .cbarAgain b true)
          let s := s.arriveCbar e.1 e.2 b
          if arv then s.wake e.1 e.2
          else s.updThr e.1 e.2 (fun t => { t with wait := t.wait.map (fun w => { w with kind := .cbar b }) })) s
        -- the close of R283 precedes the release; the snapshot after it holds the released threads
        let s := members.foldl (fun s v => s.updTeam v (fun t => { t with snap := t.body })) s
        if again.isEmpty then s else completeCbar s c b fuel
    else s

/-- Completes the cluster barriers that can complete; a deterministic launch's only at a serial phase (R365). -/
def checkCbars (s : State) (u : Nat) (serial : Bool) : State :=
  let c := (s.team u).cluster
  if (s.lau (s.team u).launch).det && !serial then s
  else (s.clu c).bars.foldl (fun s e => s.completeCbar c e.1 1024) s

/-! ## Permits (R201, R202) -/

/-- Whether a core's queue can grant its head entry: the pool holds the permits, and an acquire does not take its team beyond its
variant's PERMITS (R201). DESIGN CHOICE (notes/assumptions/91.md): an acquire that would keeps its place and waits. -/
def grantable (s : State) (c : Nat) (w : PermitWait) : Bool :=
  decide (w.n ≤ s.freePermits c) &&
  (w.thread.isNone || decide ((s.team w.team).body.permits + w.n ≤ (s.team w.team).var.permits))

/-- Grants the queue's head entries while the pool holds what they ask (R202): first come, first served. -/
def grantPermits (s : State) (c : Nat) : Nat → State
  | 0 => s
  | fuel + 1 =>
    match (s.cor c).permitQ with
    | [] => s
    | w :: rest =>
      if !s.grantable c w then s
      else
        let s := s.updCore c (fun k => { k with permitQ := rest })
        let s := s.updBody w.team (fun b => { b with permits := b.permits + w.n })
        let s := match w.thread with
          | some tid => s.wake w.team tid
          | none => s
        grantPermits s c fuel

/-- Permits go back to a core's pool; a waiting acquire is then granted by PERMIT_GRANT. -/
def returnPermits (s : State) (c n : Nat) : State :=
  if n = 0 || (s.cor c).permitQ.isEmpty then s else s.post (.permitGrant c)

/-- Drops a team's entries of a core's queue. -/
def unqueue (s : State) (c u : Nat) : State :=
  if (s.cor c).permitQ.any (fun w => w.team == u) then
    s.updCore c (fun k => { k with permitQ := k.permitQ.filter (fun w => w.team != u) })
  else s

/-- Whether a team still waits for the permits it held (R201, R272). -/
def owedPermits (s : State) (u : Nat) : Bool :=
  (s.cor (s.team u).core).permitQ.any (fun w => w.team == u && w.thread.isNone)

/-- Brings a team's permits to a count, waiting in first-come order for those the pool lacks (R201, R272). -/
def setPermits (s : State) (u h : Nat) : State :=
  let c := (s.team u).core
  let held := (s.team u).body.permits
  if h ≤ held then (s.updBody u (fun b => { b with permits := h })).returnPermits c (held - h)
  else
    let n := h - held
    if (s.cor c).permitQ.isEmpty && decide (n ≤ s.freePermits c) then
      s.updBody u (fun b => { b with permits := h })
    else s.updCore c (fun k => { k with permitQ := k.permitQ ++ [⟨u, none, n⟩] })

/-! ## Rollback (R262) -/

/-- A snapshot's thread as it stands now: its hypothesis followed through later confirms and refutes, a thread that waited
in PERMIT at its PERMIT again (R262, R202). A deterministic team's counters count its selections, and are part of what it repeats (R364,
R365). -/
def restoreThread (s : State) (det : Bool) (t : Thread) : Thread :=
  let (n, ref) := s.hypFollow t.hyp
  let t := { t with hyp := n, orphanOf := match ref with | some k => some (t.orphanOf.getD k) | none => t.orphanOf }
  let t := match t.wait with
    | some w => (match w.kind with
        | .permit _ => { t with pc := w.pc, st := t.resumeState, wait := none }
        | _ => t)
    | none => t
  { t with fair := if det then t.fair else 0, promoted := det && t.promoted,
           st := if t.orphanOf.isSome && (t.st == .ready || t.st == .inHandler) then .orphaned else t.st }

/-- Undoes one item of the log of a team on a core (R262 step 2). A leased copy of a line there may hold what is withdrawn, and is
dropped (R313). -/
def undoItem (s : State) (core : Nat) (it : LogItem) : State :=
  match it with
  | .scratchRow target row prior =>
    s.updTeam target (fun t => { t with scratch := Mem.writeAll (t.scratch.filter (fun e => e.1 / 2048 != row)) prior })
  | .line line prior =>
    let s := (s.recallLine line false).dropL1 core line
    let s := prior.foldl (fun s e => (s.noteCode e.1 1).cancelResv e.1 1) s
    let s := { s with mem := Mem.writeAll s.mem prior }
    match SMap.find s.lines line with
    | some h => { s with lines := SMap.set s.lines line { h with wts := h.rts + 1, rts := h.rts + 1, dirty := true } }
    | none => s
  | .vline h line prior =>
    if (s.hypNode h).status == .live then
      let rest := s.vlines.filter (fun v => !(v.hyp == h && v.line == line))
      { s with vlines := match prior with | some v => rest ++ [v] | none => rest }
    else s
  | _ => s

/-- The operations of a group and class still to be reported. -/
def opCount (s : State) (u g : Nat) (cls : EClass) : Nat :=
  (s.ops.filter (fun o => o.team == u && o.group == g && o.cls == cls)).length

/-- Withdraws the arrivals a team made at cluster barriers in its open interval (R283). -/
def withdrawArrivals (s : State) (u : Nat) (kept : List (Nat × Nat)) : State :=
  let gone := (s.team u).body.cbarArrivals.filter (fun e => !kept.contains e)
  gone.foldl (fun s e => s.updCbar (s.team u).cluster e.1 (fun x =>
    let key := 1024 * u + e.2
    if x.arrived.contains key then
      { x with count := x.count - 1, arrived := x.arrived.filter (fun a => a != key),
               segs := x.segs.filter (fun a => a.1 != key) }
    else x)) s

/-- The manifest parts of the open interval withdrawn (R346). -/
def withdrawParts (s : State) (u : Nat) : State :=
  let t := s.team u
  match s.launchMan t.launch with
  | none => s
  | some m => s.putMan (m.updRec t.task (fun r =>
      { r with reads := r.reads.take t.recMark.1, writes := r.writes.take t.recMark.2 }))

/-- A team's switch request after a rollback (R198, R262): its point is that of the threads that wait there again; one whose request is
gone, or names no map there, goes on. -/
def resetSwitch (s : State) (u : Nat) : State :=
  let t := s.team u
  let pointOf (x : Thread) : Option Nat := if x.st == .waiting then
      x.wait.bind (fun w => match w.kind with | .swpt p => some p | _ => none)
    else none
  let held (p : Nat) : Bool := t.sw.any (fun w => t.img.maps.any (fun m => m.point == p && m.src == t.variant && m.dst == w.target))
  let point := (t.body.threads.filterMap (fun e => pointOf e.2)).find? held
  let keep (x : Thread) : Thread := if (pointOf x).any (fun p => point != some p) then x.wake else x
  s.updTeam u (fun t => { t with
    sw := t.sw.map (fun w => { w with point := point, since := point.map (fun _ => w.since.getD s.cyc) })
    body := { t.body with threads := SMap.mapVal t.body.threads (fun _ x => keep x) } })

/-- Restores a team to the start of its open interval (R262). `log` is what can be undone. -/
def rollbackWith (s : State) (u : Nat) (log : List LogItem) : State :=
  let t := s.team u
  let s := { s with ops := s.ops.filter (fun o => !(o.team == u && o.interval.isSome)),
                    resv := s.resv.filter (fun r => r.team != u) }
  let s := s.unqueue t.core u
  let s := log.foldl (fun s it => s.undoItem t.core it) s
  let s := (s.withdrawArrivals u t.snap.cbarArrivals).withdrawStamps u t.interval
  let s := s.withdrawParts u
  let held := t.body.permits
  let groups := SMap.mapVal t.snap.groups (fun g x => { x with
    ctrFerry := s.opCount u g .ferry, ctrMatrix := s.opCount u g .matrix, ctrNet := s.opCount u g .net,
    faults := x.faults ++ ((SMap.get t.body.groups g Group.start).faults.filter (fun f => f.past && !x.faults.contains f)) })
  let body := { t.snap with threads := SMap.mapVal t.snap.threads (fun _ x => s.restoreThread (s.lau t.launch).det x), groups := groups,
                            permits := held }
  let s := (s.updTeam u (fun t => { t with
    body := body, log := [], work := 0, closing := false, saveRolled := t.saveRolled || t.phase == .saving })).resetSwitch u
  let s := s.updLau t.launch (fun l => { l with instrs := l.instrs - t.work })
  (s.setPermits u t.snap.permits).count t.vdev 0x09 1

/-- A rollback (R262). -/
def rollBack (s : State) (u : Nat) : State := s.rollbackWith u (s.team u).log

/-! ## The end of a team (R147, R248) -/

/-- A team stops for its requested stop (R373): it stays resident, and the reply carries the %work reached. -/
def halt (s : State) (u : Nat) (q : StopReq) (status value : Nat) : State :=
  (s.reply q.who 0x11 status q.seq 0xFFFFFFFF value []).updTeam u (fun t =>
    { t with stop := none, phase := if status = 0 then .stopped else t.phase })

/-- A precise stop that is due (R373): the team stops, or has passed the point. -/
def stopDue (s : State) (u : Nat) : Option State :=
  let t := s.team u
  match t.stop with
  | none => none
  | some q =>
    if q.interval < t.interval then some (s.halt u q 6 t.work)
    else if t.interval = q.interval && q.work ≤ t.work then some (s.halt u q 0 t.work)
    else none

/-- The bin of a pre-emption latency (R404): the first of 1, 2, 4 … 512 microseconds that holds it, else the last. -/
def latencyBin (cycles : Nat) : Nat := ((List.range 10).find? (fun i => decide (cycles ≤ Config.cyclesPerUs * 2 ^ i))).getD 10

/-- Counts the latency of a removal that the dispatcher chose (R264, R404). -/
def noteRemoved (s : State) (u : Nat) : State :=
  match (s.team u).chosenAt with
  | none => s
  | some since =>
    let h := s.henip.pendingHealth
    let b := latencyBin (s.cyc - since)
    let h := { h with preemptLatency := SMap.set h.preemptLatency b (SMap.get h.preemptLatency b 0 + 1) }
    ({ s with henip := { s.henip with pendingHealth := h } }).updTeam u (fun t => { t with chosenAt := none })

/-- Whether another team of the cluster holds a deferred access to a team's scratchpad (R279, R365). -/
def rankAwaited (s : State) (u : Nat) : Bool :=
  let t := s.team u
  (s.clu t.cluster).members.any (fun v => v != u && (s.team v).body.buf.any (fun e =>
    match e.op with
    | .cload r _ _ _ _ => r == t.rank
    | .cstore r _ _ => r == t.rank
    | .ccount r _ _ _ => r == t.rank
    | _ => false))

/-- Whether accesses or copies of other ranks are in flight to a team's scratchpad (R279). -/
def reachedByOthers (s : State) (u : Nat) : Bool := s.rankAwaited u || s.ops.any (fun o => o.team != u && s.opTouches u o)

/-- Frees what a team held (R147, R248): its threads exited, permits returned, landings ended (R415), engine faults that no
thread observed entered in the completion record, a stop not reached reported (R373). Scratchpad rows that other ranks still reach stay
until they are done (R279). -/
def freeTeam (s : State) (u : Nat) : State :=
  let s := s.noteRemoved u
  let t := s.team u
  let s := s.raiseOut (s.pts t.core)
  let faults := t.body.groups.flatMap (fun e => e.2.faults)
  let s := faults.foldl (fun s f =>
    s.addEntry t.launch ⟨t.task, causeCode .engineFault, true, 0, f.tva, f.tvb⟩) s
  let s := s.closeTiles u
  let s := s.unqueue t.core u
  let s := s.returnPermits t.core t.body.permits
  let id := (s.lau t.launch).id
  let s := match t.stop with
    | some q => s.reply q.who 0x11 7 q.seq 0xFFFFFFFF t.work []
    | none => s
  let landings := s.endpoint.landings.filter (fun e => !(e.2.launchId == id && e.2.task == t.task))
  let s := { s with resv := s.resv.filter (fun r => r.team != u), endpoint := { s.endpoint with landings := landings } }
  let gone := SMap.mapVal t.body.threads (fun _ x => { x with st := .exited, wait := none, pend := [] })
  let kept := t.phase.resident && s.reachedByOthers u
  let s := if kept then s.updCore t.core (fun k => { k with held := k.held ++ [⟨u, [], none⟩] }) else s
  let s := s.updTeam u (fun t => { t with
    phase := .ended, log := [], quads := [], scratch := if kept then t.scratch else [], sw := none, closing := false, stop := none
    body := { t.body with threads := gone, accs := [], permits := 0, buf := [] } })
  s.updLau t.launch (fun l => { l with doneTasks := insertNat t.task l.doneTasks })

/-- What a team's end lets go on: cluster barriers of the others (R281), the launch, queued admissions. -/
def afterEnd (s : State) (u : Nat) : State :=
  let s := s.checkCbars u false
  s.checkLaunch (s.team u).launch

/-- A team reset (R248). A damaged log leaves out its first step (R263); `undo` is false where a function-level reset ends
the team (R385). -/
def teamReset (s : State) (u : Nat) (undo : Bool) (cause : Nat) (tpc va vb : Addr) : State :=
  let t := s.team u
  let s := if undo && t.logBad.isNone then s.rollBack u else s
  let s := { s with ops := s.ops.filter (fun o => o.team != u) }
  let s := (s.failRec u).freeTeam u
  let s := s.updTeam u (fun t => { t with failed := true })
  let s := s.addEntry t.launch ⟨t.task, cause, false, tpc, va, vb⟩
  (s.count t.vdev 0x0A 1).afterEnd u

/-- Whether a team can complete (R147); copies and accesses in flight to its scratchpad complete first (R279, R286). -/
def completable (s : State) (u : Nat) : Bool :=
  let t := s.team u
  t.phase.issues && t.body.live.isEmpty && !s.ops.any (s.opTouches u) && t.body.buf.isEmpty && !t.closing && !s.rankAwaited u

/-- An operation that runs on past a SAVE (R268): NPUT, NSEND, and a Ferry operation from G to G. -/
def EngineOp.runsOn (o : EngineOp) : Bool :=
  match o.kind with
  | .nput _ => true
  | .nsend _ => true
  | .cpy k => k.sspace == .g && k.dspace == .g && !k.mcast
  | _ => false

/-- A wait of HRES or TLBI, whose instruction a SAVE lets finish (R270). A CFLUSH never waits in its course. -/
def isTlbi (k : WaitKind) : Bool :=
  match k with
  | .tlbi _ => true
  | .resolve _ _ _ => true
  | _ => false

/-- Whether a stopped team's record can be written (R268 steps 1 to 4). -/
def saveReady (s : State) (u : Nat) : Bool :=
  !s.ops.any (fun o => o.team == u && !EngineOp.runsOn o) && (s.waiting u isTlbi).isEmpty

/-- What a change in a team may have made possible: barriers, the close it waits for, its switch, its completion. -/
def settle (s : State) (u : Nat) : State :=
  let s := (s.checkAllColls u).checkBars u
  let s := s.checkCbars u false
  let s := if (s.team u).closing && s.closable u then s.post (.intervalClose u) else s
  let s := if (s.team u).phase == .saving && s.saveReady u then s.post (.save u) else s
  let s := if s.switchBegun u && !s.ops.any (s.opTouches u) then s.post (.variantSwitch u) else s
  if s.completable u then s.post (.teamCompletion u) else s

/-! ## Traps (R245 to R250) -/

/-- The status word of a trap (R246). -/
def statusWord (t : Thread) (x : TrapInfo) : Word :=
  BitVec.ofNat 32 (x.unit * 65536 + x.ecls * 16384 + x.space * 4096 + x.wr.toNat * 2048 + t.level * 256 + x.fk * 64 +
    (if t.priv == .supervisor then 1 else 0))

/-- The handler a trap enters from a level: its address, whether it is firmware, its privilege (R244, R245). -/
def handlerOf (s : State) (u level : Nat) (cause : Cause) : Addr × Bool × Priv :=
  let t := s.team u
  if level = 0 && routedToTeam cause then
    if t.var.handler = 0xFFFFFFFF then (BitVec.ofNat 64 Config.fwTeam, true, .task)
    else (BitVec.ofNat 64 (t.img.addr + t.img.codeOff + t.var.handler), false, .task)
  else
    let sb := (s.vd t.vdev).sbase
    if sb = 0 then (BitVec.ofNat 64 Config.fwSupervisor, true, .supervisor) else (sb, false, .supervisor)

/-- Handler entry (R245): the trap's record goes to the next level's slot and the thread to the handler; a trap at level 2 resets the
team. -/
def enterHandler (s : State) (u tid : Nat) (pc : Addr) (x : TrapInfo) : State :=
  let s := s.dropResv u tid
  let t := s.thr u tid
  if t.level = 2 then s.teamReset u true (causeCode x.cause) pc x.va x.vb
  else
    let (entry, fw, priv) := s.handlerOf u t.level x.cause
    let slot : SaveSlot := ⟨statusWord t x, BitVec.ofNat 32 (causeCode x.cause), pc, x.va, x.vb⟩
    s.updThr u tid (fun t =>
      let t := { t with pc := entry, priv := priv, wait := none, park := none, fair := 0, promoted := false, level := t.level + 1 }
      let t := if t.level = 1 then { t with slot1 := slot, fw1 := fw } else { t with slot2 := slot, fw2 := fw }
      let t := if x.cause == .orphan then { t with orphanOf := none } else t
      { t with st := t.resumeState })

/-- A thread parked by a trap enters its handler once its outstanding results are written (R156, R245). -/
def unpark (s : State) (u tid : Nat) : State :=
  match (s.thr u tid).st, (s.thr u tid).park with
  | .parked, some p => if s.settled u tid then (s.cover u tid).enterHandler u tid p.pc p.info else s
  | _, _ => s

/-- An instruction whose wait ends in a trap has not retired (R70, R159): the counts taken at its issue are taken back. A wait that
issues its instruction again was never counted. -/
def uncount (s : State) (u tid : Nat) : State :=
  let t := s.thr u tid
  match t.st, t.wait with
  | .waiting, some w =>
    if w.kind == .marker || t.pc == w.pc then s
    else
      let here := w.ival == (s.team u).interval
      let s := s.updTeam u (fun x => { x with
        work := if here then x.work - 1 else x.work
        body := { x.body with quantumWork := x.body.quantumWork - 1 } })
      (s.updLau (s.team u).launch (fun l => { l with instrs := l.instrs - 1 })).updVd (s.team u).vdev (fun v => { v with
        counters := SMap.mapVal v.counters (fun _ c => if c.event = 2 && c.value != 0 then { c with value := c.value - 1 } else c) })
  | _, _ => s

/-- TakeTrap (R245): a thread takes a trap at an instruction's address. While it has outstanding results it is parked by the trap, and
enters the handler when they are written (R156, R159). -/
def takeTrap (s : State) (u tid : Nat) (pc : Addr) (x : TrapInfo) : State :=
  if (s.thr u tid).st == .exited then s
  else
  let s := if x.cause == .hypCapacity then s.count (s.team u).vdev 0x0D 1 else s
  let s := if (s.thr u tid).st == .parked then (s.drain u tid).unpark u tid else s
  let s := (s.uncount u tid).withdraw u tid
  if s.settled u tid then (s.cover u tid).enterHandler u tid pc x
  else s.updThr u tid (fun t => { t with st := .parked, wait := none, park := some ⟨x, pc⟩, fair := 0, promoted := false })

/-- TRET's own checks and effect (R250); the status word that fails gives BAD_STATUS. -/
def returnTrap (s : State) (u tid : Nat) : Except Word State :=
  let t := s.thr u tid
  let w := t.slot.tsw
  let n := w.toNat
  let bad := bitsOf n 20 12 != 0 || bitsOf n 9 2 != 0 || bitsOf n 1 5 != 0 || bitsOf n 8 1 != t.level - 1 ||
    (n % 2 == 1 && t.priv == .task)
  if bad then .error w
  else .ok (s.updThr u tid (fun t =>
    let t := { t with pc := t.slot.tpc, priv := if n % 2 = 1 then .supervisor else .task, level := t.level - 1, fair := 0,
                      promoted := false }
    { t with st := t.resumeState }))

end State

end Sys2Proof.Machine
end

