-- ==== Sys2Proof/Machine/Operands.lean ====
section
/-! DEFINITION. Operands and the course of an instruction: reading sources (R48 to R50), writing destinations (R47), the
checks of R51, R64 and R158, and the way a bundle's threads and fragments pass through an instruction (R53, R54, R57,
R150, R157, R159). -/

namespace Sys2Proof.Machine

/-! ## Values of operands -/

/-- A constant's value in a type (R49). -/
def konstVal (k : Konst) (t : Ty) : Nat :=
  if t.isInt || t == .b128 then
    match k with
    | .zero => 0
    | .one => 1
    | .minusOne => 2 ^ t.width - 1
    | .half => 0
    | .two => 2
  else
    match k with
    | .zero => 0
    | .one => (roundTo t .near (.fin false 1 0)).1
    | .minusOne => (roundTo t .near (.fin true 1 0)).1
    | .half => (roundTo t .near (.fin false 1 (-1))).1
    | .two => (roundTo t .near (.fin false 1 1)).1

/-- An immediate word's value in a type (R50). -/
def immVal (w : Word) (t : Ty) : Nat :=
  match t with
  | .s64 => (w.signExtend 64).toNat
  | .f64 => w.toNat * 4294967296
  | _ => if t.width < 32 then w.toNat % 2 ^ t.width else w.toNat

/-- A value of words, the low word first (R7, R46). -/
def wordsVal : List Word → Nat
  | [] => 0
  | w :: ws => w.toNat + 4294967296 * wordsVal ws

namespace State

/-- `n` lane registers from `r` up, as operand words of field `slot`. -/
def laneWords (s : State) (u tid slot r : Nat) : Nat → List Word
  | 0 => []
  | n + 1 => s.readLane u tid slot r :: laneWords s u tid slot (r + 1) n

/-- `n` uniform registers from `r` up. -/
def uniWords (s : State) (u tid slot r : Nat) : Nat → List Word
  | 0 => []
  | n + 1 => s.readUni u tid slot r :: uniWords s u tid slot (r + 1) n

/-- ReadOperand (R48 to R50): a source field's value in a type, as bits. -/
def readSrc (s : State) (u tid slot : Nat) (a : Src) (t : Ty) : Nat :=
  match a with
  | .lane r => wordsVal (s.laneWords u tid slot r.toNat t.words) % 2 ^ t.width
  | .uni r => wordsVal (s.uniWords u tid slot r.toNat t.words) % 2 ^ t.width
  | .konst k => konstVal k t
  | .imm w => immVal w t

/-- ReadOperand as an exact integer (R89). -/
def readInt (s : State) (u tid slot : Nat) (a : Src) (t : Ty) : Int := t.int (s.readSrc u tid slot a t)

/-- The two elements of a packed operand (R49, R50). -/
def readPacked (s : State) (u tid slot : Nat) (a : Src) (t : Ty) : Nat × Nat :=
  match a with
  | .lane r => let v := (s.readLane u tid slot r.toNat).toNat; (v % 65536, v / 65536)
  | .uni r => let v := (s.readUni u tid slot r.toNat).toNat; (v % 65536, v / 65536)
  | .konst k => (konstVal k t, konstVal k t)
  | .imm w => (w.toNat % 65536, w.toNat / 65536)

/-- A register pair or a base in space G (R129). -/
def readPair (s : State) (u tid slot : Nat) (a : Src) : Nat := s.readSrc u tid slot a .n64

/-- A displacement as a signed integer (R129). -/
def readDisp (a : Src) : Int :=
  match a with
  | .konst .zero => 0
  | .konst .one => 1
  | .konst .minusOne => -1
  | .konst .two => 2
  | .imm w => w.toInt
  | _ => 0

/-- A predicate input: a predicate or a constant (R107, R171). -/
def readPIn (s : State) (u tid slot : Nat) (p : PIn) : Bool :=
  match p with
  | .pred q => s.readPred u tid slot q.val
  | .zero => false
  | .one => true

/-- The guard of an instruction in a thread (R53). -/
def guard (s : State) (u tid : Nat) (h : Head) : Bool :=
  match h.guard with
  | .always => true
  | .pred p neg => s.readPred u tid 4 p.val != neg

/-- WriteDest of a lane register, pair or quad (R47, R105). -/
def writeDest (s : State) (u tid : Nat) (d : BitVec 7) (t : Ty) (v : Nat) : State :=
  s.writeLanes u tid d.toNat (wordsOf t.words v)

end State

/-! ## Register use -/

/-- The registers an instruction names: lane and uniform registers and predicates read, each with its field, and the
registers written. -/
structure RegUse where
  lanes : List (Nat × Nat)
  unis : List (Nat × Nat)
  preds : List (Nat × Nat)
  lanesW : List Nat
  unisW : List Nat
deriving DecidableEq, Repr

/-- The registers a source field's kind spans. -/
def kindWords : SKind → Nat
  | .ty t => t.words
  | .packed _ => 1
  | .base64 => 2
  | .base32 => 1
  | .disp => 1
  | .pair => 2

/-- What a slot reads in field `i`. -/
def slotUse (i : Nat) : Slot → RegUse
  | .src (.lane r) k => ⟨(List.range (kindWords k)).map (fun j => (i, r.toNat + j)), [], [], [], []⟩
  | .src (.uni r) k => ⟨[], (List.range (kindWords k)).map (fun j => (i, r.toNat + j)), [], [], []⟩
  | .pin (.pred p) => ⟨[], [], [(i, p.val)], [], []⟩
  | _ => ⟨[], [], [], [], []⟩

/-- What a form reads and writes (R47, R51, R158). -/
def formUse (f : Form) : RegUse :=
  let a := slotUse 0 f.a
  let b := slotUse 1 f.b
  let c := slotUse 2 f.c
  let x := match f.xr with | some p => [(5, p.val)] | none => []
  let dl := match f.d with | .lane r n _ => (List.range n).map (fun j => r.toNat + j) | _ => []
  let du := match f.d with | .uni r n _ => (List.range n).map (fun j => r.toNat + j) | _ => []
  ⟨a.lanes ++ b.lanes ++ c.lanes ++ (if f.dRead then dl.map (fun r => (3, r)) else []), a.unis ++ b.unis ++ c.unis,
    a.preds ++ b.preds ++ c.preds ++ x, dl, du⟩

/-- What an instruction reads and writes; MOVP reads every predicate (R108). -/
def regUse (i : Instr) : RegUse :=
  match i.form with
  | some f =>
    let r := formUse f
    match i with
    | .movp _ _ => { r with preds := (List.range 12).map (fun q => (0, q)) }
    | _ => r
  | none => ⟨[], [], [], [], []⟩

/-- Whether a named register lies beyond a variant's budget (R51). -/
def RegUse.beyond (r : RegUse) (v : Variant) : Bool :=
  r.lanes.any (fun e => decide (v.lregs ≤ e.2)) || r.lanesW.any (fun x => decide (v.lregs ≤ x)) ||
  r.unis.any (fun e => decide (v.uregs ≤ e.2)) || r.unisW.any (fun x => decide (v.uregs ≤ x))

/-- Whether the guard reads an outstanding predicate (R158). -/
def State.earlyGuard (s : State) (u tid : Nat) (h : Head) : Bool :=
  match h.guard with
  | .always => false
  | .pred p _ => s.predUncertain u tid p.val

/-- Whether an operand is an outstanding register or predicate (R158, R170, R237). -/
def State.earlyRead (s : State) (u tid : Nat) (r : RegUse) : Bool :=
  r.lanes.any (fun e => s.laneUncertain u tid e.2) || r.unis.any (fun e => s.uniUncertain u tid e.2) ||
  r.preds.any (fun e => s.predUncertain u tid e.2)

/-- Instructions whose result is written after they issue (R157, R237). -/
def writesLate (i : Instr) : Bool :=
  match i with
  | .ld .. => true
  | .atom .. => true
  | .lr .. => true
  | .idiv .. => true
  | .irem .. => true
  | .movp .. => true
  | .shfl .. => true
  | .ballot .. => true
  | .matchLanes .. => true
  | .redux .. => true
  | .scan .. => true
  | .sfq .. => true
  | _ => false

/-- Whether the instruction writes, as it issues, a register of the quad that an MMA is capturing (R215). -/
def State.captureConflict (s : State) (u tid : Nat) (i : Instr) (r : RegUse) : Bool :=
  !writesLate i && r.lanesW.any (s.captured u tid)

/-! ## The course of an instruction -/

/-- What an operation leads a thread to: on to the next instruction; a jump; a trap; a wait after which it goes on; a wait
after which it issues the instruction again; or a course the operation has taken itself. -/
inductive Act where
  | go
  | jump (pc : Addr)
  | trap (x : TrapInfo)
  | wait (k : WaitKind)
  | retry (k : WaitKind)
  | taken
deriving DecidableEq, Repr

/-- The bytes of an encoded instruction (R42). -/
def instrBytes (i : Instr) : Nat := 4 * (encode i).length

/-- The address after an instruction. -/
def nextPc (i : Instr) (pc : Addr) : Addr := pc + BitVec.ofNat 64 (instrBytes i)

/-- The head of an instruction; an event's is unguarded. -/
def headOf (i : Instr) : Head := i.head.getD ⟨.always, false, true, none⟩

/-- Fields limited by the running team that make an instruction ILL_FORM: SWPT at another address than its point's (R198),
a save slot's CSR written at level 0 (R251). -/
def State.formBad (s : State) (u tid : Nat) (i : Instr) : Bool :=
  match i with
  | .swpt _ p =>
    let t := s.team u
    decide (t.img.npoint ≤ p.toNat) ||
      (s.thr u tid).pc != BitVec.ofNat 64 (t.img.addr + t.img.codeOff + t.var.points.getD p.toNat 0)
  | .csrw _ .tsw _ => (s.thr u tid).level == 0
  | .csrw _ .tpc _ => (s.thr u tid).level == 0
  | _ => false

/-- Instructions and CSRs that task level may not use (R64, R251). -/
def needsSupervisor (i : Instr) : Bool :=
  match i with
  | .tlbiPage .. => true
  | .tlbiCtx .. => true
  | .tlbiVdev .. => true
  | .csrr _ .sbase _ => true
  | .csrw _ .sbase _ => true
  | _ => false

/-- A trap whose two addresses are the instruction's (R57). -/
def ownTrap (c : Cause) (pc : Addr) : TrapInfo := { cause := c, va := pc, vb := pc }

/-- The first trap of steps 3 to 5 of R57 that depends on the thread and its team. -/
def State.entryTrap (s : State) (u tid : Nat) (i : Instr) : Option TrapInfo :=
  let pc := (s.thr u tid).pc
  if s.formBad u tid i then some (ownTrap .illForm pc)
  else if (regUse i).beyond (s.team u).var then some (ownTrap .regRange pc)
  else if needsSupervisor i && (s.thr u tid).priv == .task then some (ownTrap .priv pc)
  else none

/-- HZD of dbg (R254). -/
def State.hazardOn (s : State) (u : Nat) : Bool := (s.team u).body.csr.dbg.getLsbD 0

/-- The ORPHAN trap of an orphaned thread at its next selection (R156, R360). -/
def State.takeOrphan (s : State) (u tid : Nat) : State :=
  let t := s.thr u tid
  s.takeTrap u tid t.pc { cause := .orphan, va := t.pc, vb := BitVec.ofNat 64 (t.orphanOf.getD 0) }

/-- A thread that issued goes to an address; a K marker parks it until its results are written (R157). -/
def State.goOn (s : State) (u tid : Nat) (pc : Addr) (k : Bool) : State :=
  let s := s.updThr u tid (fun t => { t with pc := pc, fair := 0, promoted := false })
  if !k then s
  else if s.settled u tid then s.kRelease u tid
  else
    let at_ := (s.thr u tid).pc
    s.waitAt u tid .marker at_ pc false

/-- What an operation's answer does to a thread whose instruction stood at `pc`; 1 where the instruction retires. DESIGN CHOICE
(notes/assumptions/88.md): an instruction that waits is counted in %work when it issues, before its wait is over; the spec does not say
when it retires. -/
def State.follow (s : State) (u tid : Nat) (i : Instr) (pc : Addr) (a : Act) : Nat × State :=
  match a with
  | .go => (1, s.goOn u tid (nextPc i pc) (headOf i).k)
  | .jump p => (1, s.goOn u tid p (headOf i).k)
  | .trap x => (0, s.takeTrap u tid pc x)
  | .wait k => (1, s.waitAt u tid k pc (nextPc i pc) (headOf i).k)
  | .retry k => (0, s.waitAt u tid k pc pc false)
  | .taken => (1, s)

/-- One thread of the bundle (R57 steps 3 to 6): its answer and whether it retired. `use` are the registers it reads, `off` is what a
false guard does besides passing on. -/
def State.issueOneUse (s : State) (u tid : Nat) (i : Instr) (use : RegUse) (off : State → Nat → Nat → State)
    (op : State → Nat → Nat → Act × State) : Nat × State :=
  let t := s.thr u tid
  if !t.st.candidate || !(s.team u).phase.issues then (0, s)
  else if t.st == .orphaned then (0, s.takeOrphan u tid)
  else
    match s.entryTrap u tid i with
    | some x => (0, s.takeTrap u tid t.pc x)
    | none =>
      let early := s.earlyGuard u tid (headOf i)
      if early && s.hazardOn u then (0, s.takeTrap u tid t.pc (ownTrap .hazard t.pc))
      else if !s.guard u tid (headOf i) then
        let r := (off s u tid).follow u tid i t.pc .go
        (r.1, if early then r.2.draw else r.2)
      else
        let drawn := early || s.earlyRead u tid use
        if (drawn || s.captureConflict u tid i use) && s.hazardOn u then
          (0, s.takeTrap u tid t.pc (ownTrap .hazard t.pc))
        else
          let r := op s u tid
          let r := r.2.follow u tid i t.pc r.1
          (r.1, if drawn then r.2.draw else r.2)

/-- One thread of the bundle, by the registers its instruction names. -/
def State.issueOne (s : State) (u tid : Nat) (i : Instr) (off : State → Nat → Nat → State)
    (op : State → Nat → Nat → Act × State) : Nat × State :=
  s.issueOneUse u tid i (regUse i) off op

/-- Issues the threads of a bundle in (group, lane) order (R133, R150). -/
def State.issueAll (s : State) (u : Nat) (i : Instr) (off : State → Nat → Nat → State)
    (op : State → Nat → Nat → Act × State) : List Nat → Nat × State
  | [] => (0, s)
  | tid :: rest =>
    let r := s.issueOne u tid i off op
    let q := State.issueAll r.2 u i off op rest
    (r.1 + q.1, q.2)

/-- A false guard that does nothing else. -/
def passOn (s : State) (_ _ : Nat) : State := s

/-- The thread-instructions that retire (R70, R255, R367, R427): %work, the launch's counts and stamps, the counters. -/
def State.retire (s : State) (u n : Nat) (inInterval : Bool) : State :=
  if n = 0 then s
  else
    let t := s.team u
    let now := (s.ptpNs, s.ptpSec)
    let s := s.updTeam u (fun t => { t with
      work := if inInterval then t.work + n else t.work
      body := { t.body with quantumWork := t.body.quantumWork + n } })
    let s := s.updLau t.launch (fun l => { l with instrs := l.instrs + n, last := some now })
    s.count t.vdev 0x02 n

/-- The undo log's bytes of a team (R256). -/
def logBytes (t : Team) : Nat := (t.log.map LogItem.bytes).sum

/-- A stop that a bundle has reached holds the team there (R373); else its interval closes where its count or its log says so (R256). -/
def State.closeIfDue (s : State) (u : Nat) : State :=
  let t := s.team u
  if t.stop.isSome && (s.stopDue u).isSome then (s.stopDue u).getD s
  else if t.phase.issues && (decide (t.body.csr.ckint ≤ t.work) || decide (Config.undoLogBytes < logBytes t)) then
    (s.forceClose u).2
  else s

/-- The end of a bundle: retirement, closes that are due, what the team waits for. -/
def State.endBundle (s : State) (u n : Nat) (inInterval : Bool) : State :=
  if (s.team u).phase == .ended then s
  else ((s.retire u n inInterval).closeIfDue u).settle u

/-- No bundle in hand. -/
def State.dropBundle (s : State) : State := { s with issue := { s.issue with threads := [] } }

/-- What an access that must wait asks for, and nothing else yet: another team's close (R259), tokens for a transfer (R382). -/
def State.askCloses (s tried : State) : State :=
  let s := if tried.memReqs.length ≤ s.memReqs.length then s
    else { s with memReqs := s.memReqs ++ tried.memReqs.filter (fun r => !s.memReqs.contains r) }
  s.resident.foldl (fun s v => if (tried.team v).closing then s.updTeam v (fun t => { t with closing := true }) else s) s

/-- Whether a thread waits at an access that met a close which must wait (R259). -/
def Thread.atHome (t : Thread) : Bool := t.st == .waiting && t.wait.any (fun w => w.kind == .home)

/-- Whether an access of the bundle met a close that must wait (R259). -/
def State.heldBundle (s t : State) : Bool := s.issue.threads.any (fun tid => (t.thr s.issue.team tid).atHome)

/-- Whether a bundle has filled its team's undo log beyond its region in an interval that holds more than the bundle (R256): the close
comes first. -/
def State.logFull (s t : State) : Bool :=
  !(s.team s.issue.team).log.isEmpty && (t.team s.issue.team).interval == (s.team s.issue.team).interval &&
  decide (Config.undoLogBytes < logBytes (t.team s.issue.team))

/-- A bundle's end, or the whole bundle put off where one of its accesses must wait for another team's close (R259), or its own team's
log has no room for it (R256): its threads keep their places, so that accesses take effect in the order of R133 and every source is
read when the instruction issues. An empty bundle in hand says that it has not issued. -/
def State.bundleDone (s : State) (r : Nat × State) (inInterval : Bool) : State :=
  if s.heldBundle r.2 then (s.askCloses r.2).dropBundle
  else if s.logFull r.2 then (s.updTeam s.issue.team (fun t => { t with closing := true })).dropBundle
  else r.2.endBundle s.issue.team r.1 inInterval

/-- The meaning of a lane-set instruction for the bundle in hand (R150), with what a false guard does besides passing on. -/
def perThreadOff (i : Instr) (off : State → Nat → Nat → State) (op : State → Nat → Nat → Act × State) (s : State) : State :=
  if s.issue.threads.isEmpty then s else s.bundleDone (s.issueAll s.issue.team i off op s.issue.threads) true

/-- The meaning of a lane-set instruction for the bundle in hand (R150). -/
def perThread (i : Instr) (op : State → Nat → Nat → Act × State) (s : State) : State := perThreadOff i passOn op s

/-- An operation that never waits, traps or jumps. -/
def plain (op : State → Nat → Nat → State) (s : State) (u tid : Nat) : Act × State := (.go, op s u tid)

/-! ## Irrevocable instructions (R260) -/

/-- One thread's irrevocable operation between two closes of its team's interval: while the close before it must wait the
thread waits for it, and issues again. -/
def irrevocable (op : State → Nat → Nat → Act × State) (s : State) (u tid : Nat) : Act × State :=
  let (ok, s) := s.forceClose u
  if !ok then (.retry .close, s)
  else
    let r := op s u tid
    match r.1 with
    | .trap x => (.trap x, r.2)
    | .retry k => (.retry k, r.2)
    | a =>
      let s := r.2.updTeam u (fun t => { t with irrevocable := true })
      (a, s)

/-- The threads of an irrevocable instruction in order, with the close after each that executes it; what a false guard passes over
counts in its interval as any instruction does. The threads from one whose access must wait for another team's close on (R259), and
those after one that waits in its HRES (R358), keep their places. -/
def State.issueAllIrrevocable (s : State) (u : Nat) (i : Instr) (op : State → Nat → Nat → Act × State) :
    List Nat → Nat × State
  | [] => (0, s)
  | tid :: rest =>
    let acts := s.guard u tid (headOf i)
    let r := s.issueOne u tid i passOn (irrevocable op)
    if (r.2.thr u tid).atHome then (0, s.askCloses r.2)
    else if (r.2.thr u tid).st == .waiting && (r.2.thr u tid).wait.any (fun w => isTlbi w.kind) then r
    else
      let s1 := if acts then (if r.1 = 0 then r.2 else (r.2.forceClose u).2) else r.2.retire u r.1 true
      let q := State.issueAllIrrevocable s1 u i op rest
      ((if acts then r.1 else 0) + q.1, q.2)

/-- The meaning of an irrevocable lane-set instruction (R260). -/
def perThreadIrrevocable (i : Instr) (op : State → Nat → Nat → Act × State) (s : State) : State :=
  if s.issue.threads.isEmpty then s
  else
    let r := s.issueAllIrrevocable s.issue.team i op s.issue.threads
    r.2.endBundle s.issue.team r.1 false

/-! ## The uniform set (R150, R163) -/

/-- The threads of one group in the bundle that are to execute: orphaned ones take their trap first (R156). -/
def State.fragment (s : State) (u g : Nat) : List Nat :=
  (s.issue.threads.filter (fun tid => groupOf tid == g)).filter (fun tid => (s.thr u tid).st.candidate)

/-- Does the same to every thread of a fragment. -/
def State.forAll (s : State) (f : State → Nat → Nat × State) : List Nat → Nat × State
  | [] => (0, s)
  | tid :: rest =>
    let r := f s tid
    let q := State.forAll r.2 f rest
    (r.1 + q.1, q.2)

/-- One fragment of a uniform-set instruction: checks and guard in its lowest lane, one operation, every thread follows
(R57, R150). -/
def State.issueFragment (s : State) (u g : Nat) (i : Instr)
    (op : State → Nat → Nat → List Nat → Act × State) : Nat × State :=
  if !(s.team u).phase.issues then (0, s)
  else
    let all := s.fragment u g
    let orphans := all.filter (fun tid => (s.thr u tid).st == .orphaned)
    let s := orphans.foldl (fun s tid => s.takeOrphan u tid) s
    let lanes := all.filter (fun tid => !orphans.contains tid)
    match lanes with
    | [] => (0, s)
    | lead :: _ =>
      let pc := (s.thr u lead).pc
      let trapAll (s : State) (x : TrapInfo) : Nat × State := s.forAll (fun s tid => (0, s.takeTrap u tid pc x)) lanes
      match s.entryTrap u lead i with
      | some x => trapAll s x
      | none =>
        let early := s.earlyGuard u lead (headOf i)
        if early && s.hazardOn u then trapAll s (ownTrap .hazard pc)
        else if !s.guard u lead (headOf i) then
          let r := s.forAll (fun s tid => s.follow u tid i pc .go) lanes
          (r.1, if early then r.2.draw else r.2)
        else
          let drawn := early || s.earlyRead u lead (regUse i)
          if drawn && s.hazardOn u then trapAll s (ownTrap .hazard pc)
          else
            let r := op s u lead lanes
            let q := r.2.forAll (fun s tid => s.follow u tid i pc r.1) lanes
            (q.1, if drawn then q.2.draw else q.2)

/-- Issues the fragments of a bundle in ascending group order (R150). -/
def State.issueFragments (s : State) (u : Nat) (i : Instr) (op : State → Nat → Nat → List Nat → Act × State) :
    List Nat → Nat × State
  | [] => (0, s)
  | g :: rest =>
    let r := s.issueFragment u g i op
    let q := State.issueFragments r.2 u i op rest
    (r.1 + q.1, q.2)

/-- The groups of a bundle, ascending. -/
def groupsOf (threads : List Nat) : List Nat := threads.foldl (fun gs tid => insertNat (groupOf tid) gs) []

/-- The meaning of a uniform-set instruction for the bundle in hand (R150). -/
def perFragment (i : Instr) (op : State → Nat → Nat → List Nat → Act × State) (s : State) : State :=
  if s.issue.threads.isEmpty then s
  else
    s.bundleDone (s.issueFragments s.issue.team i op (groupsOf s.issue.threads)) true

end Sys2Proof.Machine
end

