-- ==== Sys2Proof/Machine/Integer.lean ====
section
/-! DEFINITION. The integer, logic, move and predicate instructions of the lane set (R89 to R110). Each meaning says what one
thread does; perThread carries the bundle through it. -/

namespace Sys2Proof.Machine

/-- What a step of the machine answers. -/
abbrev Ran := Host.Outcome State Fault Refusal

/-- A modified integer source: ReadOperand, then AA and NA (R85, R92). -/
def modSrc (s : State) (u tid slot : Nat) (a : Src) (t : Ty) (ab ng : Bool) : Int := modInt ab ng (s.readInt u tid slot a t)

/-- An integer instruction of two modified sources (R91, R92). -/
def intOp2 (h : Head) (ty : Ty) (d : BitVec 7) (a b : Src) (f : Int → Int → Int) (s : State) (u tid : Nat) : State :=
  let m := h.mods
  s.writeDest u tid d ty (ty.keep m.satc (f (modSrc s u tid 0 a ty m.aa m.na) (modSrc s u tid 1 b ty m.ab m.nb)))

/-- A function of the bits of two sources, the second of its own type. -/
def bitsOp2 (ty tb : Ty) (d : BitVec 7) (a b : Src) (f : Nat → Nat → Nat) (s : State) (u tid : Nat) : State :=
  s.writeDest u tid d ty (f (s.readSrc u tid 0 a ty) (s.readSrc u tid 1 b tb) % 2 ^ ty.width)

/-- A late result (R157): D arrives as an outstanding result. -/
def lateDest (s : State) (u tid : Nat) (d : BitVec 7) (ty : Ty) (v : Nat) : State :=
  s.addPend u tid .result (regPairs d.toNat (wordsOf ty.words v)) []

/-- IADD (R92). -/
def execIadd (h : Head) (ty : Ty) (d : BitVec 7) (a b : Src) (s : State) : Ran :=
  .next (perThread (.iadd h ty d a b) (plain (intOp2 h ty d a b (fun x y => x + y))) s)

/-- ISUB (R92). -/
def execIsub (h : Head) (ty : Ty) (d : BitVec 7) (a b : Src) (s : State) : Ran :=
  .next (perThread (.isub h ty d a b) (plain (intOp2 h ty d a b (fun x y => x - y))) s)

/-- IMUL (R92). -/
def execImul (h : Head) (ty : Ty) (d : BitVec 7) (a b : Src) (s : State) : Ran :=
  .next (perThread (.imul h ty d a b) (plain (intOp2 h ty d a b (fun x y => x * y))) s)

/-- IMULH: the upper half of the product (R93). -/
def execImulh (h : Head) (ty : Ty) (d : BitVec 7) (a b : Src) (s : State) : Ran :=
  .next (perThread (.imulh h ty d a b) (plain (fun s u tid =>
    s.writeDest u tid d ty (wrap ty.width (s.readInt u tid 0 a ty * s.readInt u tid 1 b ty / 2 ^ ty.width)))) s)

/-- IMAD (R92). -/
def execImad (h : Head) (ty : Ty) (d : BitVec 7) (a b c : Src) (s : State) : Ran :=
  .next (perThread (.imad h ty d a b c) (plain (fun s u tid =>
    let m := h.mods
    let x := modSrc s u tid 0 a ty m.aa m.na * modSrc s u tid 1 b ty m.ab m.nb + modSrc s u tid 2 c ty m.ac m.nc
    s.writeDest u tid d ty (ty.keep m.satc x))) s)

/-- The truncating quotient and remainder (R94). -/
def divide (ty : Ty) (a b : Int) : Int × Int :=
  if b = 0 then (2 ^ ty.width - 1, a)
  else if ty.signed && a == -(2 ^ (ty.width - 1)) && b == -1 then (a, 0)
  else (Int.tdiv a b, a - Int.tdiv a b * b)

/-- IDIV: a late result (R94, R95). -/
def execIdiv (h : Head) (ty : Ty) (d : BitVec 7) (a b : Src) (s : State) : Ran :=
  .next (perThread (.idiv h ty d a b) (plain (fun s u tid =>
    lateDest s u tid d ty (wrap ty.width (divide ty (s.readInt u tid 0 a ty) (s.readInt u tid 1 b ty)).1))) s)

/-- IREM: a late result (R94, R95). -/
def execIrem (h : Head) (ty : Ty) (d : BitVec 7) (a b : Src) (s : State) : Ran :=
  .next (perThread (.irem h ty d a b) (plain (fun s u tid =>
    lateDest s u tid d ty (wrap ty.width (divide ty (s.readInt u tid 0 a ty) (s.readInt u tid 1 b ty)).2))) s)

/-- IMIN (R92). -/
def execImin (h : Head) (ty : Ty) (d : BitVec 7) (a b : Src) (s : State) : Ran :=
  .next (perThread (.imin h ty d a b) (plain (intOp2 h ty d a b (fun x y => min x y))) s)

/-- IMAX (R92). -/
def execImax (h : Head) (ty : Ty) (d : BitVec 7) (a b : Src) (s : State) : Ran :=
  .next (perThread (.imax h ty d a b) (plain (intOp2 h ty d a b (fun x y => max x y))) s)

/-- AND (R96). -/
def execAnd (h : Head) (ty : Ty) (d : BitVec 7) (a b : Src) (s : State) : Ran :=
  .next (perThread (.and h ty d a b) (plain (bitsOp2 ty ty d a b (fun x y => x &&& y))) s)

/-- OR (R96). -/
def execOr (h : Head) (ty : Ty) (d : BitVec 7) (a b : Src) (s : State) : Ran :=
  .next (perThread (.or h ty d a b) (plain (bitsOp2 ty ty d a b (fun x y => x ||| y))) s)

/-- XOR (R96). -/
def execXor (h : Head) (ty : Ty) (d : BitVec 7) (a b : Src) (s : State) : Ran :=
  .next (perThread (.xor h ty d a b) (plain (bitsOp2 ty ty d a b (fun x y => x ^^^ y))) s)

/-- ANDN (R96). -/
def execAndn (h : Head) (ty : Ty) (d : BitVec 7) (a b : Src) (s : State) : Ran :=
  .next (perThread (.andn h ty d a b) (plain (bitsOp2 ty ty d a b (fun x y => x &&& (2 ^ ty.width - 1 - y)))) s)

/-- NOT (R96). -/
def execNot (h : Head) (ty : Ty) (d : BitVec 7) (a : Src) (s : State) : Ran :=
  .next (perThread (.not h ty d a) (plain (fun s u tid =>
    s.writeDest u tid d ty (2 ^ ty.width - 1 - s.readSrc u tid 0 a ty))) s)

/-- A shift of the bits of A, read as the n type of TY's width, by the n32 count B (R97). -/
def shiftOp (ty : Ty) (d : BitVec 7) (a b : Src) (f : Nat → Nat → Nat → Nat) (s : State) (u tid : Nat) : State :=
  s.writeDest u tid d ty (f ty.width (s.readSrc u tid 0 a (Ty.asN ty)) (s.readSrc u tid 1 b .n32) % 2 ^ ty.width)

/-- SHL (R97): x × 2^n, 0 from the width on. -/
def shiftLeft (w x n : Nat) : Nat := if n < w then x * 2 ^ n % 2 ^ w else 0

/-- SHR (R97). -/
def shiftRight (w x n : Nat) : Nat := if n < w then x / 2 ^ n else 0

/-- SAR (R97): all copies of the sign from the width on. -/
def shiftArith (w x n : Nat) : Nat :=
  let sx : Int := if 2 ^ (w - 1) ≤ x then (x : Int) - 2 ^ w else x
  wrap w (sx / 2 ^ (min n w))

/-- ROTL (R97). -/
def rotateLeft (w x n : Nat) : Nat := (x * 2 ^ (n % w) + x / 2 ^ (w - n % w)) % 2 ^ w

/-- SHL (R97). -/
def execShl (h : Head) (ty : Ty) (d : BitVec 7) (a b : Src) (s : State) : Ran :=
  .next (perThread (.shl h ty d a b) (plain (shiftOp ty d a b shiftLeft)) s)

/-- SHR (R97). -/
def execShr (h : Head) (ty : Ty) (d : BitVec 7) (a b : Src) (s : State) : Ran :=
  .next (perThread (.shr h ty d a b) (plain (shiftOp ty d a b shiftRight)) s)

/-- SAR (R97). -/
def execSar (h : Head) (ty : Ty) (d : BitVec 7) (a b : Src) (s : State) : Ran :=
  .next (perThread (.sar h ty d a b) (plain (shiftOp ty d a b shiftArith)) s)

/-- ROTL (R97). -/
def execRotl (h : Head) (ty : Ty) (d : BitVec 7) (a b : Src) (s : State) : Ran :=
  .next (perThread (.rotl h ty d a b) (plain (shiftOp ty d a b rotateLeft)) s)

/-- The number of ones among the low `n` bits. -/
def countOnes (x : Nat) : Nat → Nat
  | 0 => 0
  | n + 1 => (if x.testBit n then 1 else 0) + countOnes x n

/-- The low `n` bits reversed. -/
def reverseBits (x : Nat) : Nat → Nat
  | 0 => 0
  | n + 1 => (if x.testBit n then 1 else 0) + 2 * reverseBits x n

/-- POPC: D is one register (R98). -/
def execPopc (h : Head) (ty : Ty) (d : BitVec 7) (a : Src) (s : State) : Ran :=
  .next (perThread (.popc h ty d a) (plain (fun s u tid =>
    s.writeDest u tid d .n32 (countOnes (s.readSrc u tid 0 a ty) ty.width))) s)

/-- CLZ: D is one register (R98). -/
def execClz (h : Head) (ty : Ty) (d : BitVec 7) (a : Src) (s : State) : Ran :=
  .next (perThread (.clz h ty d a) (plain (fun s u tid =>
    s.writeDest u tid d .n32 (runLength false (s.readSrc u tid 0 a ty) ty.width))) s)

/-- BREV (R98). -/
def execBrev (h : Head) (ty : Ty) (d : BitVec 7) (a : Src) (s : State) : Ran :=
  .next (perThread (.brev h ty d a) (plain (fun s u tid =>
    s.writeDest u tid d ty (reverseBits (s.readSrc u tid 0 a ty) ty.width))) s)

/-- The field that BFX extracts (R99). -/
def extractField (ty : Ty) (e : Int) (pos len : Nat) : Nat :=
  let l := min len ty.width
  let f : Int := e / 2 ^ pos % 2 ^ l
  wrap ty.width (if ty.signed && decide (0 < l) && decide (2 ^ (l - 1) ≤ f) then f - 2 ^ l else f)

/-- BFX (R99). -/
def execBfx (h : Head) (ty : Ty) (d : BitVec 7) (a b : Src) (s : State) : Ran :=
  .next (perThread (.bfx h ty d a b) (plain (fun s u tid =>
    let c := s.readSrc u tid 1 b .n32
    s.writeDest u tid d ty (extractField ty (s.readInt u tid 0 a ty) (bitsOf c 0 8) (bitsOf c 8 8)))) s)

/-- The value BFI builds (R100). -/
def insertField (w a b pos len : Nat) : Nat :=
  let mask := (2 ^ len - 1) * 2 ^ pos % 2 ^ w
  (b &&& (2 ^ w - 1 - mask)) ||| (a * 2 ^ pos % 2 ^ w &&& mask)

/-- BFI (R100). -/
def execBfi (h : Head) (ty : Ty) (d : BitVec 7) (a b c : Src) (s : State) : Ran :=
  .next (perThread (.bfi h ty d a b c) (plain (fun s u tid =>
    let k := s.readSrc u tid 2 c .n32
    s.writeDest u tid d ty (insertField ty.width (s.readSrc u tid 0 a ty) (s.readSrc u tid 1 b ty) (bitsOf k 0 8)
      (bitsOf k 8 8)))) s)

/-- One byte of PERM's result (R101). -/
def permByte (t c i : Nat) : Nat :=
  let v := t / 2 ^ (8 * bitsOf c (4 * i) 3) % 256
  if c.testBit (4 * i + 3) then (if 128 ≤ v then 255 else 0) else v

/-- PERM (R101). -/
def execPerm (h : Head) (d : BitVec 7) (a b c : Src) (s : State) : Ran :=
  .next (perThread (.perm h d a b c) (plain (fun s u tid =>
    let t := s.readSrc u tid 1 b .n32 * 4294967296 + s.readSrc u tid 0 a .n32
    let k := s.readSrc u tid 2 c .n32
    s.writeDest u tid d .n32 (permByte t k 0 + 256 * permByte t k 1 + 65536 * permByte t k 2 + 16777216 * permByte t k 3))) s)

/-- The sum LEA forms (R102). -/
def leaSum (e : LeaExt) (ty : Ty) (a : Nat) (b : Nat) (sh : Nat) : Nat :=
  wrap ty.width ((a : Int) + (Form.leaB e ty).int b * 2 ^ sh)

/-- LEA (R102). -/
def execLea (h : Head) (e : LeaExt) (ty : Ty) (d : BitVec 7) (a b : Src) (sh : BitVec 6) (s : State) : Ran :=
  .next (perThread (.lea h e ty d a b sh) (plain (fun s u tid =>
    s.writeDest u tid d ty (leaSum e ty (s.readSrc u tid 0 a ty) (s.readSrc u tid 1 b (Form.leaB e ty)) sh.toNat))) s)

/-- An integer condition (R103). -/
def intCond (c : ICond) (a b : Int) : Bool :=
  match c with
  | .eq => a == b
  | .ne => a != b
  | .lt => decide (a < b)
  | .le => decide (a ≤ b)
  | .gt => decide (b < a)
  | .ge => decide (b ≤ a)

/-- ICMP (R103). -/
def execIcmp (h : Head) (c : ICond) (ty : Ty) (d : Pred) (a b : Src) (s : State) : Ran :=
  .next (perThread (.icmp h c ty d a b) (plain (fun s u tid =>
    s.writePred u tid d.val (intCond c (s.readInt u tid 0 a ty) (s.readInt u tid 1 b ty)))) s)

/-- A byte of a word as s8 or n8 (R104). -/
def byteOf (x i : Nat) (signed : Bool) : Int := (if signed then Ty.s8 else Ty.n8).int (bitsOf x (8 * i) 8)

/-- IDP4 (R104). -/
def execIdp4 (h : Head) (sa sb : Bool) (ty : Ty) (d : BitVec 7) (a b c : Src) (s : State) : Ran :=
  .next (perThread (.idp4 h sa sb ty d a b c) (plain (fun s u tid =>
    let m := h.mods
    let x := s.readSrc u tid 0 a .n32
    let y := s.readSrc u tid 1 b .n32
    let sum := ((List.range 4).map (fun i => byteOf x i sa * byteOf y i sb)).foldl (· + ·) (modSrc s u tid 2 c ty m.ac m.nc)
    s.writeDest u tid d ty (ty.keep m.satc sum))) s)

/-- MOV (R105). -/
def execMov (h : Head) (ty : Ty) (d : BitVec 7) (a : Src) (s : State) : Ran :=
  .next (perThread (.mov h ty d a) (plain (fun s u tid => s.writeDest u tid d ty (s.readSrc u tid 0 a ty))) s)

/-- SEL (R106). -/
def execSel (h : Head) (ty : Ty) (p : Pred) (d : BitVec 7) (a b : Src) (s : State) : Ran :=
  .next (perThread (.sel h ty p d a b) (plain (fun s u tid =>
    s.writeDest u tid d ty (if s.readPred u tid 5 p.val then s.readSrc u tid 0 a ty else s.readSrc u tid 1 b ty))) s)

/-- PLOP (R107). -/
def execPlop (h : Head) (lut : BitVec 8) (d : Pred) (a b c : PIn) (s : State) : Ran :=
  .next (perThread (.plop h lut d a b c) (plain (fun s u tid =>
    let i := 4 * (s.readPIn u tid 0 a).toNat + 2 * (s.readPIn u tid 1 b).toNat + (s.readPIn u tid 2 c).toNat
    s.writePred u tid d.val (lut.getLsbD i))) s)

/-- The twelve predicates of a thread as a number (R108). -/
def State.predRow (s : State) (u tid slot : Nat) : Nat :=
  (List.range 12).foldl (fun n q => if s.readPred u tid slot q then n + 2 ^ q else n) 0

/-- MOVP: a late result (R108). -/
def execMovp (h : Head) (d : BitVec 7) (s : State) : Ran :=
  .next (perThread (.movp h d) (plain (fun s u tid => lateDest s u tid d .n32 (s.predRow u tid 0))) s)

/-- MOVP.set (R108). -/
def execMovpSet (h : Head) (a b : Src) (s : State) : Ran :=
  .next (perThread (.movpSet h a b) (plain (fun s u tid =>
    let x := s.readSrc u tid 0 a .n32
    let y := s.readSrc u tid 1 b .n32
    (List.range 12).foldl (fun s q => if y.testBit q then s.writePred u tid q (x.testBit q) else s) s)) s)

/-- The value of a special register in a thread (R69, R70). -/
def State.special (s : State) (u tid : Nat) (r : SReg) : Nat :=
  let t := s.team u
  match r with
  | .lane => laneOf tid
  | .group => groupOf tid
  | .team => t.team
  | .task => t.task
  | .core => t.core
  | .clus => t.clus
  | .rank => t.rank
  | .vdev => t.vdev
  | .ctx => t.ctx
  | .hyp => s.hypNumber (s.thr u tid).hyp
  | .cyc => s.cyc
  | .ptp => s.ptpNs + 4294967296 * s.ptpSec
  | .work => t.work

/-- RDSR (R109). -/
def execRdsr (h : Head) (r : SReg) (d : BitVec 7) (s : State) : Ran :=
  .next (perThread (.rdsr h r d) (plain (fun s u tid =>
    s.writeLanes u tid d.toNat (wordsOf (Form.sregWords r).1 (s.special u tid r)))) s)

/-- NOP: only its K marker and its count in %work (R110). -/
def execNop (h : Head) (s : State) : Ran :=
  .next (perThread (.nop h) (plain (fun s _ _ => s)) s)

end Sys2Proof.Machine
end

