-- ==== Sys2Proof/Machine/Float.lean ====
section
/-! DEFINITION. The floating-point, conversion, packed and random-number instructions (R111 to R127). -/

namespace Sys2Proof.Machine

/-- A modified floating-point or tapered source as bits (R85, R86). -/
def modSrcBits (s : State) (u tid slot : Nat) (a : Src) (t : Ty) (ab ng : Bool) : Nat :=
  t.modBits ab ng (s.readSrc u tid slot a t)

/-- A modified source as an exact value. -/
def modNum (s : State) (u tid slot : Nat) (a : Src) (t : Ty) (ab ng : Bool) : Num := t.num (modSrcBits s u tid slot a t ab ng)

/-- Writes a rounded result and raises its flags. -/
def writeNum (s : State) (u tid : Nat) (d : BitVec 7) (t : Ty) (r : Nat × Flags) : State :=
  (s.writeDest u tid d t r.1).setFlags u tid r.2

/-- The exact sum with its invalid case, under the modifier's mode (R114, R116). -/
def addNum (m : Modifier) (a b : Num) : Num × Bool := sumNum m.rm.resolve [a, b]

/-- The exact fused product and sum (R114, R116): a product counts as one term. -/
def fmaNum (m : Modifier) (a b c : Num) : Num × Bool :=
  let (p, inv) := a.mul b
  let (x, inv') := sumNum m.rm.resolve [p, c]
  (x, inv || inv')

/-- The negated value. -/
def Num.flip (x : Num) : Num :=
  match x with
  | .nan s => .nan s
  | .inf n => .inf (!n)
  | .fin n m e => .fin (!n) m e

/-- FADD (R116). -/
def execFadd (h : Head) (ty : Ty) (d : BitVec 7) (a b : Src) (s : State) : Ran :=
  .next (perThread (.fadd h ty d a b) (plain (fun s u tid =>
    let m := h.mods
    let r := addNum m (modNum s u tid 0 a ty m.aa m.na) (modNum s u tid 1 b ty m.ab m.nb)
    writeNum s u tid d ty (finishNum ty m r.1 r.2))) s)

/-- FSUB: FADD with B negated (R116). -/
def execFsub (h : Head) (ty : Ty) (d : BitVec 7) (a b : Src) (s : State) : Ran :=
  .next (perThread (.fsub h ty d a b) (plain (fun s u tid =>
    let m := h.mods
    let r := addNum m (modNum s u tid 0 a ty m.aa m.na) (Num.flip (modNum s u tid 1 b ty m.ab m.nb))
    writeNum s u tid d ty (finishNum ty m r.1 r.2))) s)

/-- FMUL (R116). -/
def execFmul (h : Head) (ty : Ty) (d : BitVec 7) (a b : Src) (s : State) : Ran :=
  .next (perThread (.fmul h ty d a b) (plain (fun s u tid =>
    let m := h.mods
    let r := (modNum s u tid 0 a ty m.aa m.na).mul (modNum s u tid 1 b ty m.ab m.nb)
    writeNum s u tid d ty (finishNum ty m r.1 r.2))) s)

/-- FFMA: one rounding (R116). -/
def execFfma (h : Head) (ty : Ty) (d : BitVec 7) (a b c : Src) (s : State) : Ran :=
  .next (perThread (.ffma h ty d a b c) (plain (fun s u tid =>
    let m := h.mods
    let r := fmaNum m (modNum s u tid 0 a ty m.aa m.na) (modNum s u tid 1 b ty m.ab m.nb) (modNum s u tid 2 c ty m.ac m.nc)
    writeNum s u tid d ty (finishNum ty m r.1 r.2))) s)

/-- FMIN (R117). -/
def execFmin (h : Head) (nan : Bool) (ty : Ty) (d : BitVec 7) (a b : Src) (s : State) : Ran :=
  .next (perThread (.fmin h nan ty d a b) (plain (fun s u tid =>
    let m := h.mods
    let r := selectNum false nan (modNum s u tid 0 a ty m.aa m.na) (modNum s u tid 1 b ty m.ab m.nb)
    writeNum s u tid d ty (finishNum ty m r.1 r.2))) s)

/-- FMAX (R117). -/
def execFmax (h : Head) (nan : Bool) (ty : Ty) (d : BitVec 7) (a b : Src) (s : State) : Ran :=
  .next (perThread (.fmax h nan ty d a b) (plain (fun s u tid =>
    let m := h.mods
    let r := selectNum true nan (modNum s u tid 0 a ty m.aa m.na) (modNum s u tid 1 b ty m.ab m.nb)
    writeNum s u tid d ty (finishNum ty m r.1 r.2))) s)

/-- A floating-point condition and whether it sets NV (R118). -/
def floatCond (c : FCond) (a b : Num) : Bool × Bool :=
  let un := a.isNan || b.isNan
  let sig := a.isSig || b.isSig
  let eq := a.eqNum b
  let lt := !un && !eq && a.lt b
  let gt := !un && !eq && b.lt a
  match c with
  | .eq => (!un && eq, sig)
  | .ne => (un || !eq, sig)
  | .lt => (lt, un)
  | .le => (!un && (eq || lt), un)
  | .gt => (gt, un)
  | .ge => (!un && (eq || gt), un)
  | .un => (un, sig)
  | .ord => (!un, sig)

/-- FCMP (R118). -/
def execFcmp (h : Head) (c : FCond) (ty : Ty) (d : Pred) (a b : Src) (s : State) : Ran :=
  .next (perThread (.fcmp h c ty d a b) (plain (fun s u tid =>
    let m := h.mods
    let r := floatCond c (modNum s u tid 0 a ty m.aa m.na) (modNum s u tid 1 b ty m.ab m.nb)
    (s.writePred u tid d.val r.1).setFlags u tid (Flags.whenF r.2 Flags.nv))) s)

/-- The class bit of an encoding (R119). -/
def classBit (t : Ty) (v : Nat) : Nat :=
  match t.num v with
  | .nan sig => if sig then 1 else 0
  | .inf neg => if neg then 9 else 8
  | .fin neg m _ =>
    if m = 0 then (if neg then 3 else 2)
    else if !t.isTapered && bitsOf v t.ieee.2 t.ieee.1 == 0 then (if neg then 5 else 4)
    else if neg then 7 else 6

/-- FCLASS (R119). -/
def execFclass (h : Head) (ty : Ty) (d : BitVec 7) (a : Src) (s : State) : Ran :=
  .next (perThread (.fclass h ty d a) (plain (fun s u tid =>
    s.writeDest u tid d .n32 (2 ^ classBit ty (s.readSrc u tid 0 a ty)))) s)

/-- FRND's integral value and whether NV is set (R120). -/
def integral (x : Num) (rm : RMode) : Num × Bool :=
  match x with
  | .nan sig => (.nan false, sig)
  | .inf n => (.inf n, false)
  | .fin n m e => if m = 0 then (.fin n 0 0, false) else (.fin n (roundQuantum n m e 0 rm).1 0, false)

/-- FRND (R120). -/
def execFrnd (h : Head) (away : Bool) (ty : Ty) (d : BitVec 7) (a : Src) (s : State) : Ran :=
  .next (perThread (.frnd h away ty d a) (plain (fun s u tid =>
    let m := h.mods
    let r := integral (modNum s u tid 0 a ty m.aa m.na) (if away then .away else m.rm.resolve)
    writeNum s u tid d ty (ty.saturate m.satc (roundTo ty .near r.1).1, Flags.whenF r.2 Flags.nv))) s)

/-- FCVT (R121). -/
def execFcvt (h : Head) (ty sty : Ty) (d : BitVec 7) (a : Src) (s : State) : Ran :=
  .next (perThread (.fcvt h ty sty d a) (plain (fun s u tid =>
    let m := h.mods
    let x := modNum s u tid 0 a sty m.aa m.na
    writeNum s u tid d ty (finishNum ty m x x.isSig))) s)

/-- F2I's integer and flags (R122): the range test follows the rounding. -/
def toInteger (t : Ty) (rm : RMode) (x : Num) : Int × Flags :=
  match x with
  | .nan _ => (0, Flags.nv)
  | .inf n => (if n then t.minInt else t.maxInt, Flags.nv)
  | .fin n m e =>
    let (k, inexact) := roundQuantum n m e 0 rm
    let r : Int := if n then -(k : Int) else k
    if r < t.minInt then (t.minInt, Flags.nv)
    else if t.maxInt < r then (t.maxInt, Flags.nv)
    else (r, Flags.whenF inexact Flags.nx)

/-- F2I (R122). -/
def execF2i (h : Head) (ty sty : Ty) (d : BitVec 7) (a : Src) (s : State) : Ran :=
  .next (perThread (.f2i h ty sty d a) (plain (fun s u tid =>
    let m := h.mods
    let r := toInteger ty m.rm.resolve (modNum s u tid 0 a sty m.aa m.na)
    writeNum s u tid d ty (wrap ty.width r.1, r.2))) s)

/-- I2F: an exact zero is +0 (R123). -/
def execI2f (h : Head) (ty sty : Ty) (d : BitVec 7) (a : Src) (s : State) : Ran :=
  .next (perThread (.i2f h ty sty d a) (plain (fun s u tid =>
    let m := h.mods
    let x := modSrc s u tid 0 a sty m.aa m.na
    writeNum s u tid d ty (finishNum ty m (.fin (decide (x < 0)) x.natAbs 0) false))) s)

/-- A modified packed source: both elements as values (R124). -/
def modPair (s : State) (u tid slot : Nat) (a : Src) (t : Ty) (ab ng : Bool) : Num × Num :=
  let p := s.readPacked u tid slot a t
  (t.num (t.modBits ab ng p.1), t.num (t.modBits ab ng p.2))

/-- Writes two rounded elements and raises the union of their flags (R72, R124). -/
def writePair (s : State) (u tid : Nat) (d : BitVec 7) (x y : Nat × Flags) : State :=
  (s.writeDest u tid d .n32 (x.1 + 65536 * y.1)).setFlags u tid (x.2 ||| y.2)

/-- PADD (R124). -/
def execPadd (h : Head) (ty : Ty) (d : BitVec 7) (a b : Src) (s : State) : Ran :=
  .next (perThread (.padd h ty d a b) (plain (fun s u tid =>
    let m := h.mods
    let x := modPair s u tid 0 a ty m.aa m.na
    let y := modPair s u tid 1 b ty m.ab m.nb
    let r := addNum m x.1 y.1
    let q := addNum m x.2 y.2
    writePair s u tid d (finishNum ty m r.1 r.2) (finishNum ty m q.1 q.2))) s)

/-- PMUL (R124). -/
def execPmul (h : Head) (ty : Ty) (d : BitVec 7) (a b : Src) (s : State) : Ran :=
  .next (perThread (.pmul h ty d a b) (plain (fun s u tid =>
    let m := h.mods
    let x := modPair s u tid 0 a ty m.aa m.na
    let y := modPair s u tid 1 b ty m.ab m.nb
    let r := x.1.mul y.1
    let q := x.2.mul y.2
    writePair s u tid d (finishNum ty m r.1 r.2) (finishNum ty m q.1 q.2))) s)

/-- PFMA (R124). -/
def execPfma (h : Head) (ty : Ty) (d : BitVec 7) (a b c : Src) (s : State) : Ran :=
  .next (perThread (.pfma h ty d a b c) (plain (fun s u tid =>
    let m := h.mods
    let x := modPair s u tid 0 a ty m.aa m.na
    let y := modPair s u tid 1 b ty m.ab m.nb
    let z := modPair s u tid 2 c ty m.ac m.nc
    let r := fmaNum m x.1 y.1 z.1
    let q := fmaNum m x.2 y.2 z.2
    writePair s u tid d (finishNum ty m r.1 r.2) (finishNum ty m q.1 q.2))) s)

/-- PDOT2: two products and a binary32 addend, rounded once (R125). -/
def execPdot2 (h : Head) (ty : Ty) (d : BitVec 7) (a b c : Src) (s : State) : Ran :=
  .next (perThread (.pdot2 h ty d a b c) (plain (fun s u tid =>
    let m := h.mods
    let x := modPair s u tid 0 a ty m.aa m.na
    let y := modPair s u tid 1 b ty m.ab m.nb
    let p := x.1.mul y.1
    let q := x.2.mul y.2
    let r := sumNum m.rm.resolve [p.1, q.1, modNum s u tid 2 c .f32 m.ac m.nc]
    writeNum s u tid d .f32 (finishNum .f32 m r.1 (p.2 || q.2 || r.2)))) s)

/-- One Philox round (R126). -/
def philoxRound (k0 k1 : Nat) (c : Nat × Nat × Nat × Nat) : Nat × Nat × Nat × Nat :=
  let p := 0xD2511F53 * c.1
  let q := 0xCD9E8D57 * c.2.2.1
  ((q / 4294967296 ^^^ c.2.1 ^^^ k0), q % 4294967296, (p / 4294967296 ^^^ c.2.2.2 ^^^ k1), p % 4294967296)

/-- The rounds left, the key stepped between them. -/
def philoxRounds (k0 k1 : Nat) (c : Nat × Nat × Nat × Nat) : Nat → Nat × Nat × Nat × Nat
  | 0 => c
  | n + 1 => philoxRounds ((k0 + 0x9E3779B9) % 4294967296) ((k1 + 0xBB67AE85) % 4294967296) (philoxRound k0 k1 c) n

/-- Philox4x32-10 over a counter and a key (R126). -/
def philox (c : BitVec 128) (k : BitVec 64) : List Nat :=
  let v := c.toNat
  let r := philoxRounds (bitsOf k.toNat 0 32) (bitsOf k.toNat 32 32)
    (bitsOf v 0 32, bitsOf v 32 32, bitsOf v 64 32, bitsOf v 96 32) 10
  [r.1, r.2.1, r.2.2.1, r.2.2.2]

/-- A word as RNG.unif's binary32 value: Floor(x / 2^8) × 2^-24, exact (R126). -/
def unifBits (x : Nat) : Nat := (roundTo .f32 .near (.fin false (x / 256) (-24))).1

/-- RNG (R126): the words are in place; the counter's advance is outstanding for CSR accesses (R127). -/
def execRng (h : Head) (unif : Bool) (d : BitVec 7) (s : State) : Ran :=
  .next (perThread (.rng h unif d) (plain (fun s u tid =>
    let t := s.thr u tid
    let xs := philox t.rngc t.rngk
    let s := s.writeLanes u tid d.toNat (xs.map (fun x => BitVec.ofNat 32 (if unif then unifBits x else x)))
    let s := s.updThr u tid (fun t => { t with rngc := rngAdvance t.rngc 1 })
    s.addPend u tid .rng [] [])) s)

end Sys2Proof.Machine
end

