-- ==== Sys2Proof/Machine/Memory.lean ====
section
/-! DEFINITION. The memory instructions of a thread (R128 to R141): loads, stores, atomics, reservations, prefetch; and the
accesses in every space that they share with the uniform set. -/

namespace Sys2Proof.Machine

/-- The access size of a type in bytes (R132). -/
def accessSize (t : Ty) : Nat := t.width / 8

/-- A loaded value as D holds it (R132): s8 and s16 extend their sign. -/
def loaded (t : Ty) (bs : List Byte) : Nat :=
  match t with
  | .s8 => wrap 32 (Ty.s8.int (leNat bs))
  | .s16 => wrap 32 (Ty.s16.int (leNat bs))
  | _ => leNat bs

/-- The base of a memory operand (R129, R131). -/
def baseVal (s : State) (u tid : Nat) (sp : Space) (a : Src) : Nat :=
  match a with
  | .konst _ => 0
  | a => s.readSrc u tid 0 a (if sp == .g then .n64 else .n32)

/-- The answer of an access that needs nothing more. -/
def actOf (r : Res Unit) : Act × State :=
  match r with
  | .ok _ s => (.go, s)
  | .wait k s => (.retry k, s)
  | .trap x s => (.trap x, s)

/-- Whether a deterministic team's access to a rank waits for a serial phase (R365): another rank's scratchpad. -/
def State.defersRank (s : State) (u rank : Nat) : Bool := (s.lau (s.team u).launch).det && rank != (s.team u).rank

/-- A checked read of `size` bytes in a space; none where it is deferred to a serial phase (R134, R365). -/
def State.readSpace (s : State) (u tid : Nat) (sp : Space) (ea size : Nat) (alloc : Bool) (dest : Nat) (uniform : Bool)
    (ty : Ty) : Res (Option (List Byte)) :=
  match sp with
  | .g => (s.readG u tid ea size .read alloc).bind fun bs s => .ok (some bs) s
  | .l => (s.readScr u u ea size).bind fun bs s => .ok (some bs) s
  | .c =>
    let rank := bitsOf ea 24 4
    if s.defersRank u rank then
      .ok none (s.bufPush u ⟨some tid, (s.thr u tid).hyp, .cload rank (bitsOf ea 0 24) ty uniform dest⟩)
    else (s.readScr u ((s.rankTeam u rank).getD u) (bitsOf ea 0 24) size).bind fun bs s => .ok (some bs) s
  | .k => .ok (some (((s.team u).params.drop ea).take size)) s

/-- A checked write in a space; false where it is deferred (R135, R365). -/
def State.writeSpace (s : State) (u tid : Nat) (sp : Space) (ea : Nat) (data : List Byte) (alloc : Bool) : Res Bool :=
  match sp with
  | .g => (s.writeG u tid ea data alloc).bind fun _ s => .ok true s
  | .l => (s.writeScr u u ea data).bind fun _ s => .ok true s
  | .c =>
    let rank := bitsOf ea 24 4
    if s.defersRank u rank then
      .ok false (s.bufPush u ⟨some tid, (s.thr u tid).hyp, .cstore rank (bitsOf ea 0 24) data⟩)
    else (s.writeScr u ((s.rankTeam u rank).getD u) (bitsOf ea 0 24) data).bind fun _ s => .ok true s
  | .k => .ok true s

/-- A thread load: the value for D, or none where it is deferred (R134). -/
def State.loadVal (s : State) (u tid : Nat) (sp : Space) (hint : Hint) (ty : Ty) (a b : Src) (dest : Nat) (uniform : Bool) :
    Res (Option Nat) :=
  let size := accessSize ty
  match s.address u sp (baseVal s u tid sp a) (State.readDisp b) size false with
  | .error x => .trap x s
  | .ok ea => (s.readSpace u tid sp ea size (hint != .nl1) dest uniform ty).bind fun r s => .ok (r.map (loaded ty)) s

/-- A thread store of a value; false where it is deferred (R135). -/
def State.storeVal (s : State) (u tid : Nat) (sp : Space) (hint : Hint) (ty : Ty) (a b : Src) (v : Nat) : Res Bool :=
  let size := accessSize ty
  match s.address u sp (baseVal s u tid sp a) (State.readDisp b) size true with
  | .error x => .trap x s
  | .ok ea => s.writeSpace u tid sp ea (toBytes size v) (hint != .nl1)

/-- The type whose words a loaded value fills. -/
def destTy (t : Ty) : Ty := if t.width < 32 then .n32 else t

/-- LD (R134): D arrives as an outstanding result. -/
def execLd (h : Head) (sp : Space) (hint : Hint) (ty : Ty) (d : BitVec 7) (a b : Src) (s : State) : Ran :=
  .next (perThread (.ld h sp hint ty d a b) (fun s u tid =>
    match s.loadVal u tid sp hint ty a b d.toNat false with
    | .ok (some v) s => (.go, lateDest s u tid d (destTy ty) v)
    | .ok none s => (.wait .serial, s)
    | .wait k s => (.retry k, s)
    | .trap x s => (.trap x, s)) s)

/-- ST (R135). -/
def execSt (h : Head) (sp : Space) (hint : Hint) (ty : Ty) (a b c : Src) (s : State) : Ran :=
  .next (perThread (.st h sp hint ty a b c) (fun s u tid =>
    match s.storeVal u tid sp hint ty a b (s.readSrc u tid 2 c ty) with
    | .ok true s => (.go, s)
    | .ok false s => (.wait .serial, s)
    | .wait k s => (.retry k, s)
    | .trap x s => (.trap x, s)) s)

/-! ## Atomics (R136, R137) -/

/-- The new value of an atomic from the old value and c (R136); `.cas` is decided by its caller. -/
def atomNew (op : AtomOp) (t : Ty) (m c : Nat) : Nat :=
  match op with
  | .add => (m + c) % 2 ^ t.width
  | .min => if t.int c < t.int m then c else m
  | .max => if t.int m < t.int c then c else m
  | .and => m &&& c
  | .or => m ||| c
  | .xor => m ^^^ c
  | .exch => c
  | .cas => c
  | .fadd => (roundTo t .near (sumNum .near [t.num m, t.num c]).1).1
  | .fmin => (roundTo t .near (selectNum false false (t.num m) (t.num c)).1).1
  | .fmax => (roundTo t .near (selectNum true false (t.num m) (t.num c)).1).1
  | .inc => if c ≤ m then 0 else m + 1
  | .dec => if m = 0 || c < m then c else m - 1

/-- What an atomic writes over old bytes: none for a failed `.cas` (R137). -/
def atomBytes (op : AtomOp) (t : Ty) (c e : Nat) (old : List Byte) : Option (List Byte) :=
  let m := leNat old
  if op == .cas && m != e then none else some (toBytes (accessSize t) (atomNew op t m c))

/-- ATOM (R137). -/
def execAtom (h : Head) (op : AtomOp) (nr : Bool) (hint : Hint) (ty : Ty) (d : BitVec 7) (a b c : Src) (s : State) : Ran :=
  .next (perThread (.atom h op nr hint ty d a b c) (fun s u tid =>
    let size := accessSize ty
    let cv := s.readSrc u tid 2 c ty
    let ev := if op == .cas then wordsVal (s.laneWords u tid 3 d.toNat ty.words) else 0
    match s.address u .g (baseVal s u tid .g a) (State.readDisp b) size true with
    | .error x => (.trap x, s)
    | .ok ea =>
      let dest := if nr then none else some d.toNat
      match s.atomicG u tid ea size (atomBytes op ty cv ev)
          (fun pa => .atom ea pa op ty (BitVec.ofNat 128 cv) (BitVec.ofNat 128 ev) dest) with
      | .ok (some old) s => (.go, if nr then s else lateDest s u tid d ty (leNat old))
      | .ok none s => (.wait .serial, s)
      | .wait k s => (.retry k, s)
      | .trap x s => (.trap x, s)) s)

/-! ## Reservations (R138, R139, R298 to R300) -/

/-- The oldest reservation among those of a slice. -/
def oldest (l : List Resv) : Option Resv := (sortBy Resv.placed l).head?

/-- Places a thread's reservation on a granule, in place of its earlier one; a full table loses its oldest entry (R298). -/
def State.placeResv (s : State) (u tid pa : Nat) : State :=
  let s := s.dropResv u tid
  let slice := sliceOf (lineOf pa)
  let here := s.resv.filter (fun r => sliceOf (r.granule / 16) == slice)
  let s := if 64 ≤ here.length then
      (match oldest here with
       | some x => { s with resv := s.resv.filter (fun r => r != x) }
       | none => s)
    else s
  { s with resv := s.resv ++ [⟨u, tid, pa / 8, s.cyc⟩] }

/-- Whether a thread's reservation holds on the granule of an address (R139). -/
def State.holdsResv (s : State) (u tid pa : Nat) : Bool :=
  s.resv.any (fun r => r.team == u && r.thread == tid && r.granule == pa / 8)

/-- A reserving read at the home: the line recalled or merged, the view read, the reservation placed (R138, R298). -/
def State.readReserve (s : State) (u tid h pa size : Nat) : Res (List Byte) :=
  let t := s.team u
  (s.reach (some u) (lineOf pa) false).bind fun _ s =>
  (s.homeRead (some u) t.core t.vdev t.ctx pa 0).bind fun _ s =>
    let (bs, s) := s.collideRead (fun i => .hbm (pa + i)) (s.viewBytes (s.hypPath h) pa size)
    .ok bs (s.placeResv u tid pa)

/-- LR (R138); one that traps leaves no reservation, by TakeTrap. -/
def execLr (h : Head) (hint : Hint) (ty : Ty) (d : BitVec 7) (a b : Src) (s : State) : Ran :=
  .next (perThread (.lr h hint ty d a b) (fun s u tid =>
    let size := accessSize ty
    match s.address u .g (baseVal s u tid .g a) (State.readDisp b) size false with
    | .error x => (.trap x, s)
    | .ok ea =>
      match ((s.threadAddr u tid ea size .readOther).bind fun pa s =>
        let hyp := (s.thr u tid).hyp
        (s.trackRead u hyp ea size).bind fun _ s =>
        let (c, s) := s.detClass u pa
        match c with
        | .waits => .wait .serial s
        | .shared =>
          if 256 ≤ s.bufAtoms u then .wait .serial s
          else .ok none (s.bufPush u ⟨some tid, hyp, .lr pa ty d.toNat⟩)
        | .ordinary => (s.readReserve u tid hyp pa size).bind fun bs s => .ok (some bs) s) with
      | .ok (some bs) s => (.go, lateDest s u tid d ty (leNat bs))
      | .ok none s => (.wait .serial, s)
      | .wait k s => (.retry k, s)
      | .trap x s => (.trap x, s)) s)

/-- SC (R139): the test and the store are one step; the reservation is dropped either way. -/
def execSc (h : Head) (hint : Hint) (ty : Ty) (d : Pred) (a b c : Src) (s : State) : Ran :=
  .next (perThread (.sc h hint ty d a b c) (fun s u tid =>
    let size := accessSize ty
    let data := toBytes size (s.readSrc u tid 2 c ty)
    match s.address u .g (baseVal s u tid .g a) (State.readDisp b) size true with
    | .error x => (.trap x, s)
    | .ok ea =>
      match ((s.threadAddr u tid ea size .write).bind fun pa s =>
        let hyp := (s.thr u tid).hyp
        (s.checkRead u ea size).bind fun _ s =>
        let (k, s) := s.detClass u pa
        match k with
        | .waits => .wait .serial s
        | .shared =>
          if 256 ≤ s.bufAtoms u then .wait .serial s
          else .ok none ((s.noteRead u hyp ea size).bufPush u ⟨some tid, hyp, .sc ea pa data d.val⟩)
        | .ordinary =>
          if s.holdsResv u tid pa then
            (s.checkWrite u ea size).bind fun _ was =>
            (was.writeStep u hyp ea pa data (hint != .nl1)).bind fun _ s =>
              .ok (some true) ((s.noteRead u hyp ea size).noteWrite was u hyp ea size)
          else .ok (some false) (s.noteRead u hyp ea size)) with
      | .ok (some ok) s =>
        let s := s.dropResv u tid
        (.go, s.addPend u tid .result [] [(d.val, ok)])
      | .ok none s => (.wait .serial, s)
      | .wait k s => (.retry k, s)
      | .trap x s => (.trap x, s)) s)

/-- A thread's prefetch of the line that an address of HBM lies in (R141). DESIGN CHOICE (notes/assumptions/78.md): one that would
have to wait at the home is dropped like one whose address would trap. -/
def State.prefStep (s : State) (u tid : Nat) (l2 : Bool) (ea : Nat) : State :=
  match (s.threadAddr u tid ea 1 .read).bind fun pa s => if inHbm pa then s.prefetch u (s.thr u tid).hyp pa l2 else .ok () s with
  | .ok _ t => t
  | _ => s

/-- PREF (R141): no architectural effect and no trap. -/
def execPref (h : Head) (l2 : Bool) (a b : Src) (s : State) : Ran :=
  .next (perThread (.pref h l2 a b) (plain (fun s u tid =>
    match s.address u .g (baseVal s u tid .g a) (State.readDisp b) 1 false with
    | .ok ea => s.prefStep u tid l2 ea
    | .error _ => s)) s)

end Sys2Proof.Machine
end

