-- ==== Sys2Proof/Machine/Uniform.lean ====
section
/-! DEFINITION. The uniform set (R163 to R170): each instruction executes once for a fragment. -/

namespace Sys2Proof.Machine

/-- A uniform operation that never waits, traps or jumps; it acts for the fragment's lowest lane. -/
def plainU (op : State → Nat → Nat → List Nat → State) (s : State) (u lead : Nat) (lanes : List Nat) : Act × State :=
  (.go, op s u lead lanes)

/-- Writes a uniform destination of the fragment's group (R163). -/
def State.writeUDest (s : State) (u lead : Nat) (d : BitVec 6) (t : Ty) (v : Nat) : State :=
  s.writeUnis u (groupOf lead) d.toNat (wordsOf t.words v)

/-- A uniform instruction of two exact sources (R165). -/
def uniOp2 (ty : Ty) (d : BitVec 6) (a b : Src) (f : Int → Int → Int) (s : State) (u lead : Nat) (_ : List Nat) : State :=
  s.writeUDest u lead d ty (wrap ty.width (f (s.readInt u lead 0 a ty) (s.readInt u lead 1 b ty)))

/-- A uniform function of the bits of two sources, the second of its own type. -/
def uniBits2 (ty tb : Ty) (d : BitVec 6) (a b : Src) (f : Nat → Nat → Nat) (s : State) (u lead : Nat) (_ : List Nat) : State :=
  s.writeUDest u lead d ty (f (s.readSrc u lead 0 a ty) (s.readSrc u lead 1 b tb) % 2 ^ ty.width)

/-- UADD (R165). -/
def execUadd (h : Head) (ty : Ty) (d : BitVec 6) (a b : Src) (s : State) : Ran :=
  .next (perFragment (.uadd h ty d a b) (plainU (uniOp2 ty d a b (fun x y => x + y))) s)

/-- USUB (R165). -/
def execUsub (h : Head) (ty : Ty) (d : BitVec 6) (a b : Src) (s : State) : Ran :=
  .next (perFragment (.usub h ty d a b) (plainU (uniOp2 ty d a b (fun x y => x - y))) s)

/-- UMUL (R165). -/
def execUmul (h : Head) (ty : Ty) (d : BitVec 6) (a b : Src) (s : State) : Ran :=
  .next (perFragment (.umul h ty d a b) (plainU (uniOp2 ty d a b (fun x y => x * y))) s)

/-- UMULH (R165). -/
def execUmulh (h : Head) (ty : Ty) (d : BitVec 6) (a b : Src) (s : State) : Ran :=
  .next (perFragment (.umulh h ty d a b) (plainU (uniOp2 ty d a b (fun x y => x * y / 2 ^ ty.width))) s)

/-- UMAD (R165). -/
def execUmad (h : Head) (ty : Ty) (d : BitVec 6) (a b c : Src) (s : State) : Ran :=
  .next (perFragment (.umad h ty d a b c) (plainU (fun s u lead _ =>
    s.writeUDest u lead d ty (wrap ty.width
      (s.readInt u lead 0 a ty * s.readInt u lead 1 b ty + s.readInt u lead 2 c ty)))) s)

/-- UMIN (R165). -/
def execUmin (h : Head) (ty : Ty) (d : BitVec 6) (a b : Src) (s : State) : Ran :=
  .next (perFragment (.umin h ty d a b) (plainU (uniOp2 ty d a b (fun x y => min x y))) s)

/-- UMAX (R165). -/
def execUmax (h : Head) (ty : Ty) (d : BitVec 6) (a b : Src) (s : State) : Ran :=
  .next (perFragment (.umax h ty d a b) (plainU (uniOp2 ty d a b (fun x y => max x y))) s)

/-- UAND (R165). -/
def execUand (h : Head) (ty : Ty) (d : BitVec 6) (a b : Src) (s : State) : Ran :=
  .next (perFragment (.uand h ty d a b) (plainU (uniBits2 ty ty d a b (fun x y => x &&& y))) s)

/-- UOR (R165). -/
def execUor (h : Head) (ty : Ty) (d : BitVec 6) (a b : Src) (s : State) : Ran :=
  .next (perFragment (.uor h ty d a b) (plainU (uniBits2 ty ty d a b (fun x y => x ||| y))) s)

/-- UXOR (R165). -/
def execUxor (h : Head) (ty : Ty) (d : BitVec 6) (a b : Src) (s : State) : Ran :=
  .next (perFragment (.uxor h ty d a b) (plainU (uniBits2 ty ty d a b (fun x y => x ^^^ y))) s)

/-- A uniform shift (R97, R165). -/
def uniShift (ty : Ty) (d : BitVec 6) (a b : Src) (f : Nat → Nat → Nat → Nat) (s : State) (u lead : Nat) (_ : List Nat) : State :=
  s.writeUDest u lead d ty (f ty.width (s.readSrc u lead 0 a (Ty.asN ty)) (s.readSrc u lead 1 b .n32) % 2 ^ ty.width)

/-- USHL (R165). -/
def execUshl (h : Head) (ty : Ty) (d : BitVec 6) (a b : Src) (s : State) : Ran :=
  .next (perFragment (.ushl h ty d a b) (plainU (uniShift ty d a b shiftLeft)) s)

/-- USHR (R165). -/
def execUshr (h : Head) (ty : Ty) (d : BitVec 6) (a b : Src) (s : State) : Ran :=
  .next (perFragment (.ushr h ty d a b) (plainU (uniShift ty d a b shiftRight)) s)

/-- USAR (R165). -/
def execUsar (h : Head) (ty : Ty) (d : BitVec 6) (a b : Src) (s : State) : Ran :=
  .next (perFragment (.usar h ty d a b) (plainU (uniShift ty d a b shiftArith)) s)

/-- ULEA (R165). -/
def execUlea (h : Head) (e : LeaExt) (ty : Ty) (d : BitVec 6) (a b : Src) (sh : BitVec 6) (s : State) : Ran :=
  .next (perFragment (.ulea h e ty d a b sh) (plainU (fun s u lead _ =>
    s.writeUDest u lead d ty
      (leaSum e ty (s.readSrc u lead 0 a ty) (s.readSrc u lead 1 b (Form.leaB e ty)) sh.toNat))) s)

/-- UCMP: the predicate of every thread of the fragment (R165). -/
def execUcmp (h : Head) (c : ICond) (ty : Ty) (d : Pred) (a b : Src) (s : State) : Ran :=
  .next (perFragment (.ucmp h c ty d a b) (plainU (fun s u lead lanes =>
    let r := intCond c (s.readInt u lead 0 a ty) (s.readInt u lead 1 b ty)
    lanes.foldl (fun s tid => s.writePred u tid d.val r) s)) s)

/-- UMOV (R166). -/
def execUmov (h : Head) (ty : Ty) (d : BitVec 6) (a : Src) (s : State) : Ran :=
  .next (perFragment (.umov h ty d a) (plainU (fun s u lead _ => s.writeUDest u lead d ty (s.readSrc u lead 0 a ty))) s)

/-- URDSR (R166). -/
def execUrdsr (h : Head) (r : SReg) (d : BitVec 6) (s : State) : Ran :=
  .next (perFragment (.urdsr h r d) (plainU (fun s u lead _ =>
    s.writeUnis u (groupOf lead) d.toNat (wordsOf (Form.sregWords r).1 (s.special u lead r)))) s)

/-- An earlier ULD result without the registers a later one overtakes (R158). -/
def UPend.overlay (regs : List (Nat × Word)) (p : UPend) : UPend :=
  { p with regs := p.regs.filter (fun e => !regs.any (fun f => f.1 == e.1)) }

/-- A ULD result outstanding for the fragment (R157, R167, R170). -/
def State.addUPend (s : State) (u g : Nat) (lanes : List Nat) (regs : List (Nat × Word)) : State :=
  let (q, s) := s.newUid
  let s := lanes.foldl (fun s tid => s.updThr u tid (fun t => t.addPend ⟨q, .uld, [], []⟩)) s
  s.updGrp u g (fun gr =>
    let rest := gr.upend.map (UPend.overlay regs)
    { gr with upend := rest ++ [⟨q, regs, lanes.map laneOf, false, [], []⟩] })

/-- ULD (R167). -/
def execUld (h : Head) (sp : Space) (hint : Hint) (ty : Ty) (d : BitVec 6) (a b : Src) (s : State) : Ran :=
  .next (perFragment (.uld h sp hint ty d a b) (fun s u lead lanes =>
    match s.loadVal u lead sp hint ty a b d.toNat true with
    | .ok (some v) s =>
      let t := destTy ty
      (.go, s.addUPend u (groupOf lead) lanes (regPairs d.toNat (wordsOf t.words v)))
    | .ok none s => (.wait .serial, s)
    | .wait k s => (.retry k, s)
    | .trap x s => (.trap x, s)) s)

/-- UST (R167). -/
def execUst (h : Head) (sp : Space) (hint : Hint) (ty : Ty) (a b c : Src) (s : State) : Ran :=
  .next (perFragment (.ust h sp hint ty a b c) (fun s u lead _ =>
    match s.storeVal u lead sp hint ty a b (s.readSrc u lead 2 c ty) with
    | .ok true s => (.go, s)
    | .ok false s => (.wait .serial, s)
    | .wait k s => (.retry k, s)
    | .trap x s => (.trap x, s)) s)

/-- UBRA (R168). -/
def execUbra (h : Head) (off : Word) (s : State) : Ran :=
  .next (perFragment (.ubra h off) (fun s u lead _ =>
    (.jump ((s.thr u lead).pc + off.signExtend 64), s)) s)

end Sys2Proof.Machine
end

