-- ==== Sys2Proof/Machine/Collective.lean ====
section
/-! DEFINITION. The cross-lane instructions (R171 to R185): instances of a collective, arrivals and absences, completion and
results, divergence and stall; ELECT; and EXIT's place in them (R146). -/

namespace Sys2Proof.Machine

namespace State

/-- The threads waiting at collectives elsewhere that name a lane whose part in their instance they miss, the next instance for the
arrivals kept for it (R176): address and lane. -/
def diverging (s : State) (u g : Nat) (x : Addr) (lane : Nat) : List (Addr × Nat) :=
  let names (as : List Arrival) : List Nat := (as.filter (fun a => a.mask.getLsbD lane)).map Arrival.lane
  (s.grp u g).colls.flatMap (fun c =>
    if c.address == x then []
    else
      let here := if CInstance.recorded c lane then [] else names (CInstance.waits c)
      let next := if c.nextArrivals.any (fun a => a.lane == lane) || c.nextAbsent.contains lane then [] else names c.nextArrivals
      (here ++ next).map (fun l => (c.address, l)))

/-- COLLECTIVE_DIVERGENCE in waiting threads (R176): each traps at its own collective, its arrival withdrawn. -/
def divergeAll (s : State) (u g : Nat) : List (Addr × Nat) → State
  | [] => s
  | e :: r => divergeAll (s.takeTrap u (32 * g + e.2) e.1 (ownTrap .collectiveDivergence e.1)) u g r

/-- A thread's arrival at a collective (R172, R173, R176). -/
def arriveColl (s : State) (u tid : Nat) (i : Instr) (a : BitVec 64) (b mask : Word) : Act × State :=
  let g := groupOf tid
  let x := (s.thr u tid).pc
  match s.diverging u g x (laneOf tid) with
  | [] => (.wait .collective, s.updColl u g x (fun c => c.join ⟨laneOf tid, i, a, b, mask, false⟩))
  | ds => (.trap (ownTrap .collectiveDivergence x), s.divergeAll u g ds)

/-- A guard-false issue at a collective (R172, R173). -/
def missColl (s : State) (u tid : Nat) : State :=
  s.updColl u (groupOf tid) (s.thr u tid).pc (fun c => c.miss (laneOf tid))

/-- EXIT of a thread (R146): results and tokens discarded, reservation dropped, barriers and collectives go on. -/
def exitThread (s : State) (u tid : Nat) : State :=
  let s := s.dropResv u tid
  let s := s.updThr u tid (fun t => { t with st := .exited, wait := none, pend := [], fair := 0, promoted := false })
  let s := s.updGrp u (groupOf tid) (fun g => { g with tokens := (g.tokens.map (fun k =>
    { k with writes := k.writes.filter (fun w => w.1 != laneOf tid) })).filter (fun k => !k.writes.isEmpty) })
  s.checkColls u (groupOf tid) 4096

end State

/-- The meaning of a collective for the bundle in hand: arrivals and absences (R172, R173); the bundle's end completes what it lets
complete (R174). -/
def perCollective (i : Instr) (op : State → Nat → Nat → Act × State) (s : State) : State := perThreadOff i State.missColl op s

/-- The captured input of VOTE and BALLOT. -/
def bit64 (b : Bool) : BitVec 64 := if b then 1 else 0

/-- An n32 operand as a word. -/
def srcWord (s : State) (u tid slot : Nat) (a : Src) : Word := BitVec.ofNat 32 (s.readSrc u tid slot a .n32)

/-- SHFL (R178). -/
def execShfl (h : Head) (mode : ShflMode) (ty : Ty) (p : Option Pred) (d : BitVec 7) (a b c : Src) (s : State) : Ran :=
  .next (perCollective (.shfl h mode ty p d a b c) (fun s u tid =>
    s.arriveColl u tid (.shfl h mode ty p d a b c) (BitVec.ofNat 64 (s.readSrc u tid 0 a ty)) (srcWord s u tid 1 b)
      (srcWord s u tid 2 c)) s)

/-- VOTE (R179). -/
def execVote (h : Head) (fn : VoteFn) (d : Pred) (inp : PIn) (b c : Src) (s : State) : Ran :=
  .next (perCollective (.vote h fn d inp b c) (fun s u tid =>
    s.arriveColl u tid (.vote h fn d inp b c) (bit64 (s.readPIn u tid 0 inp))
      (if fn == .atleast || fn == .fewer then srcWord s u tid 1 b else 0) (srcWord s u tid 2 c)) s)

/-- BALLOT (R179). -/
def execBallot (h : Head) (d : BitVec 7) (inp : PIn) (c : Src) (s : State) : Ran :=
  .next (perCollective (.ballot h d inp c) (fun s u tid =>
    s.arriveColl u tid (.ballot h d inp c) (bit64 (s.readPIn u tid 0 inp)) 0 (srcWord s u tid 2 c)) s)

/-- MATCH (R180). -/
def execMatchLanes (h : Head) (ty : Ty) (p : Option Pred) (d : BitVec 7) (a c : Src) (s : State) : Ran :=
  .next (perCollective (.matchLanes h ty p d a c) (fun s u tid =>
    s.arriveColl u tid (.matchLanes h ty p d a c) (BitVec.ofNat 64 (s.readSrc u tid 0 a ty)) 0 (srcWord s u tid 2 c)) s)

/-- REDUX (R181). -/
def execRedux (h : Head) (op : RedOp) (ty : Ty) (p : Option Pred) (d : BitVec 7) (a b c : Src) (s : State) : Ran :=
  .next (perCollective (.redux h op ty p d a b c) (fun s u tid =>
    s.arriveColl u tid (.redux h op ty p d a b c) (BitVec.ofNat 64 (s.readSrc u tid 0 a ty))
      (if Form.redIndexed op then srcWord s u tid 1 b else 0) (srcWord s u tid 2 c)) s)

/-- SCAN (R184). -/
def execScan (h : Head) (op : RedOp) (ex : Bool) (ty : Ty) (p : Option Pred) (d : BitVec 7) (a c : Src) (s : State) : Ran :=
  .next (perCollective (.scan h op ex ty p d a c) (fun s u tid =>
    s.arriveColl u tid (.scan h op ex ty p d a c) (BitVec.ofNat 64 (s.readSrc u tid 0 a ty)) 0 (srcWord s u tid 2 c)) s)

/-! ## ELECT (R185) -/

/-- What ELECT has met in a bundle so far: by group the lowest guard-true thread, which alone reads A, and the guard-true threads that
executed it. -/
structure Election where
  leads : List (Nat × Nat)
  ran : List Nat
deriving DecidableEq, Repr

/-- The lane of a group that an election elects, from the value of A in its lowest guard-true lane (R185). -/
def Election.winner (e : Election) (g k : Nat) : Option Nat :=
  let ts := ((e.ran ++ (e.leads.filter (fun x => x.1 == g)).map Prod.snd).filter (fun t => groupOf t == g)).foldl
    (fun l t => insertNat t l) []
  if ts.isEmpty then none else ts[k % ts.length]?

namespace State

/-- ELECT in the threads of a bundle: each guard-true thread gets an outstanding predicate, 0 so far. The lowest of a fragment checks A
for HAZARD; one that traps so has still been its fragment's lowest. -/
def electThreads (s : State) (u : Nat) (i : Instr) (d : Nat) (e : Election) : List Nat → Nat × Election × State
  | [] => (0, e, s)
  | tid :: rest =>
    let g := groupOf tid
    let first := !e.leads.any (fun x => x.1 == g)
    let use := if first then regUse i else ⟨[], [], [], [], []⟩
    let sure := !s.earlyGuard u tid (headOf i) && s.guard u tid (headOf i) && (s.entryTrap u tid i).isNone &&
      (s.thr u tid).st.candidate && (s.thr u tid).st != .orphaned
    let r := s.issueOneUse u tid i use passOn (plain (fun s u tid => s.addPend u tid .result [] [(d, false)]))
    let ran := r.1 == 1 && r.2.nextUid != s.nextUid
    let e := { leads := if first && (ran || sure) then e.leads ++ [(g, tid)] else e.leads
               ran := if ran then e.ran ++ [tid] else e.ran }
    let q := r.2.electThreads u i d e rest
    (r.1 + q.1, q.2)

/-- The elected thread's outstanding predicate becomes 1 (R185). -/
def electLane (s : State) (u d tid : Nat) : State :=
  s.updThr u tid (fun t => { t with pend := match t.pend.reverse with
    | p :: rest => (rest.reverse ++ [{ p with preds := [(d, true)] }])
    | [] => [] })

end State

/-- ELECT (R185): its predicate is an outstanding result. -/
def execElect (h : Head) (d : Pred) (a : Src) (s : State) : Ran :=
  if s.issue.threads.isEmpty then .next s
  else
    let u := s.issue.team
    let r := s.electThreads u (.elect h d a) d.val ⟨[], []⟩ s.issue.threads
    let e := r.2.1
    let t := e.leads.foldl (fun (t : State) x =>
      match e.winner x.1 (s.readSrc u x.2 0 a .n32) with
      | some w => if e.ran.contains w then t.electLane u d.val w else t
      | none => t) r.2.2
    .next (t.endBundle u r.1 true)

/-! ## Stalls (R175) -/

/-- The lanes that wait at an instance without their condition holding, and those that wait for the next one. -/
def State.stalled (s : State) (u g : Nat) (c : CInstance) : List Nat × List Nat :=
  (((CInstance.waits c).filter (fun a => !s.collReady u g c a)).map Arrival.lane, c.nextArrivals.map Arrival.lane)

/-- Whether a thread has waited 4 × fair cycles. -/
def State.waitedLong (s : State) (u tid : Nat) : Bool :=
  match (s.thr u tid).wait with
  | some w => (s.thr u tid).st == .waiting && decide (w.since + 4 * (s.team u).body.csr.fair ≤ s.cyc)
  | none => false

/-- COLLECTIVE_STALL (R175): once a thread has waited 4 × fair cycles at a collective, every thread of its instance that waits without
its condition traps. Arrivals kept for the next instance are of that one. -/
def execCollectiveStall (u g : Nat) (x : Addr) (s : State) : Ran :=
  match (s.grp u g).colls.find? (fun c => c.address == x) with
  | none => .next s
  | some c =>
    let r := s.stalled u g c
    let late (ls : List Nat) : List Nat := if ls.any (fun l => s.waitedLong u (32 * g + l)) then ls else []
    match late r.1 ++ late r.2 with
    | [] => .next s
    | ls => .next ((ls.foldl (fun s l => s.takeTrap u (32 * g + l) x (ownTrap .collectiveStall x)) s).settle u)

end Sys2Proof.Machine
end

