-- ==== Sys2Proof/Machine/Control.lean ====
section
/-! DEFINITION. Control flow (R142 to R146). Targets are checked at their fetch (R57), not here. -/

namespace Sys2Proof.Machine

/-- The target of an offset branch from an instruction's address (R143, R145). -/
def branchTarget (pc : Addr) (off : Word) : Addr := pc + off.signExtend 64

/-- The target that a register pair names (R144, R145). -/
def pairTarget (s : State) (u tid : Nat) (a : Src) : Addr := BitVec.ofNat 64 (s.readPair u tid 0 a)

/-- BRA (R143). -/
def execBra (h : Head) (off : Word) (s : State) : Ran :=
  .next (perThread (.bra h off) (fun s u tid => (.jump (branchTarget (s.thr u tid).pc off), s)) s)

/-- BRX (R144). -/
def execBrx (h : Head) (a : Src) (s : State) : Ran :=
  .next (perThread (.brx h a) (fun s u tid => (.jump (pairTarget s u tid a), s)) s)

/-- CALL (R145): the link is the address of the next instruction. -/
def execCall (h : Head) (d : BitVec 7) (off : Word) (s : State) : Ran :=
  .next (perThread (.call h d off) (fun s u tid =>
    let pc := (s.thr u tid).pc
    (.jump (branchTarget pc off), s.writeDest u tid d .n64 (nextPc (.call h d off) pc).toNat)) s)

/-- CALL.x (R145): A is read before D is written. -/
def execCallX (h : Head) (d : BitVec 7) (a : Src) (s : State) : Ran :=
  .next (perThread (.callX h d a) (fun s u tid =>
    (.jump (pairTarget s u tid a), s.writeDest u tid d .n64 (nextPc (.callX h d a) (s.thr u tid).pc).toNat)) s)

/-- RET (R144): as BRX. -/
def execRet (h : Head) (a : Src) (s : State) : Ran :=
  .next (perThread (.ret h a) (fun s u tid => (.jump (pairTarget s u tid a), s)) s)

/-- EXIT (R146). -/
def execExit (h : Head) (s : State) : Ran :=
  .next (perThread (.exit h) (fun s u tid => (.taken, s.exitThread u tid)) s)

end Sys2Proof.Machine
end

