-- ==== Sys2Proof/Machine/Resolve.lean ====
section
/-! DEFINITION. The resolution of a hypothesis (R359 to R362): the teams it stops, the confirm and the refute at every home, in the
threads, the queues and the manifests, and the threads that wait in HRES until it has been applied (R358). -/

namespace Sys2Proof.Machine

namespace Manifest

/-- The children of a task that have not been discarded, in trace order (R343). -/
def kids (m : Manifest) (task : Nat) : List Nat :=
  let gone := match m.rec? task with | some r => r.dropped | none => []
  (m.childrenOf task).filter (fun k => !gone.contains k)

/-- Whether a record lies in the sub-trace of a task. -/
def inSub (m : Manifest) (top : Nat) (r : TRec) : Bool := r.task == top || (m.ancestors r.task 5).contains top

/-- The depth of a task (R327). -/
def depth (m : Manifest) (task : Nat) : Nat := (m.ancestors task 5).length

/-- Gives the children of a task the indices of a list's order (R328), their sub-traces with them; records stay in trace
order. -/
def renumber (m : Manifest) (task : Nat) (order : List Nat) : Manifest :=
  match m.rec? task with
  | none => m
  | some p =>
    let d := m.depth task + 1
    let new (k : Nat) : Nat := State.childOrd p.ord d (order.idxOf k)
    let recs := m.recs.map (fun r =>
      match order.find? (fun k => m.inSub k r) with
      | some k => (match m.rec? k with
          | some c => { r with ord := new k + (r.ord - c.ord) }
          | none => r)
      | none => r)
    { m with recs := sortBy TRec.ord recs }

end Manifest

namespace State

/-! ## What a resolution reaches -/

/-- The nodes that a refute of one takes with it: it and its live descendants (R360). -/
def subTree (s : State) (d k : Nat) : List Nat := (s.liveHyps d).filter (fun n => s.hypUnder n k)

/-- The teams that a resolution stops (R359 step 1): with a thread under the hypothesis or a descendant, or with a version of
it in their open interval's log. -/
def affected (s : State) (d k : Nat) : List Nat :=
  s.resident.filter (fun u =>
    (s.team u).vdev == d &&
    ((s.team u).body.threads.any (fun e => e.2.st != .exited && s.hypUnder e.2.hyp k) ||
      (s.team u).log.any (fun it => match it with | .vline h _ _ => h == k | _ => false)))

/-- Moves the threads of a team that stand under some nodes; `orphan` is the refuted number (R359, R360). Their reservations
go (R300). -/
def moveThreads (s : State) (u : Nat) (from_ : List Nat) (to_ : Nat) (orphan : Option Nat) : State :=
  let moves (t : Thread) : Bool := t.st != .exited && from_.contains t.hyp
  let gone := ((s.team u).body.threads.filter (fun e => moves e.2)).map Prod.fst
  let s := { s with resv := s.resv.filter (fun r => !(r.team == u && gone.contains r.thread)) }
  s.updBody u (fun b => { b with
    threads := SMap.mapVal b.threads (fun _ t =>
      if moves t then
        let t := { t with hyp := to_, orphanOf := match orphan with | some k => some (t.orphanOf.getD k) | none => t.orphanOf }
        if t.orphanOf.isSome && (t.st == .ready || t.st == .inHandler) then { t with st := .orphaned } else t
      else t)
    buf := match orphan with
      | none => b.buf.map (fun e => if from_.contains e.hyp then { e with hyp := to_ } else e)
      | some _ => b.buf })

/-- Every team that has not ended: resident, saved or to start again. -/
def allTeams (s : State) : List Nat := (s.teams.filter (fun e => e.2.phase != .ended)).map Prod.fst

/-! ## The confirm (R359) -/

/-- The bytes of a version line, by physical address. -/
def versionBytes (v : VLine) : List (Nat × Byte) :=
  ((List.range 128).filter (fun i => v.mask.getLsbD i)).map (fun i => (v.line * 128 + i, Mem.get v.data (v.line * 128 + i)))

/-- The common stamp of a merge into the root (R359 step 4). -/
def mergeStamp (s : State) (core : Nat) (lines : List Nat) : Stamp :=
  lines.foldl (fun c l =>
    let rts := match SMap.find s.lines l with | some h => h.rts | none => s.estOf (sliceOf l)
    let c := serialMax c (rts + 1)
    match SMap.find s.verStamp l with | some x => serialMax c x | none => c) (s.pts core)

/-- One version merged into the root (R359 step 3): its bytes written, its reservations lost, its stamps set. -/
def mergeRoot (s : State) (c : Stamp) (v : VLine) : State :=
  let bs := versionBytes v
  let s := bs.foldl (fun s e => (s.noteCode e.1 1).cancelResv e.1 1) s
  let s := { s with mem := Mem.writeAll s.mem bs }
  match SMap.find s.lines v.line with
  | some h => { s with lines := SMap.set s.lines v.line { h with wts := c, rts := c, dirty := true } }
  | none => s.raiseEst (sliceOf v.line) c

/-- One version merged into the parent's (R359 step 3). -/
def mergeVersion (s : State) (p : Nat) (v : VLine) : State :=
  match s.vline p v.line with
  | some _ => { s with vlines := s.vlines.map (fun x =>
      if x.hyp = p && x.line = v.line then
        { x with mask := x.mask ||| v.mask, data := Mem.writeAll x.data (versionBytes v)
                 by_ := v.by_.foldl (fun m e => SMap.set m e.1 (SMap.get m e.1 0 ||| e.2)) x.by_ }
      else x) }
  | none => { s with vlines := s.vlines ++ [{ v with hyp := p }] }

/-- A write entry's tag moves to the parent; an entry the parent holds already keeps its PRIOR (R361). -/
def retagWrites (k p : Nat) (ws : List WriteG) : List WriteG :=
  ws.foldl (fun acc w =>
    if w.hyp != k then acc ++ [w]
    else if ws.any (fun x => x.hyp == p && x.addr == w.addr) then
      acc.map (fun x => if x.hyp = p && x.addr = w.addr then { x with value := w.value } else x)
    else acc ++ [{ w with hyp := p }]) []

/-- The tags of a manifest after a confirm (R361). -/
def retag (k p : Nat) (m : Manifest) : Manifest :=
  let reads (gs : List ReadG) : List ReadG := gs.map (fun g => if g.hyp = k then { g with hyp := p } else g)
  { m with recs := m.recs.map (fun r => { r with
      hyp := if r.hyp = k then p else r.hyp
      reads := reads r.reads
      writes := retagWrites k p r.writes
      oldReads := reads r.oldReads
      oldWrites := retagWrites k p r.oldWrites }) }

/-- Changes the manifests of a virtual device, and the arenas of those that neither record nor propagate (R361). -/
def changeMans (s : State) (d : Nat) (f : Manifest → Manifest) : State :=
  s.manifests.foldl (fun s m =>
    if m.vdev != d || f m = m then s
    else if (f m).open_ then s.putMan (f m) else (s.putMan (f m)).syncMan d m.ctx m.handle) s

/-- Whether a granule of a context meets some physical bytes. -/
def granuleMeets (s : State) (d c addr lg : Nat) (bytes : List Nat) : Bool :=
  (lineSpans addr (2 ^ lg)).any (fun e => match s.deviceWalk d c e.1 with
    | some (pa, _) => bytes.any (fun b => decide (pa ≤ b ∧ b < pa + e.2))
    | none => false)

/-- The physical bytes of some versions that a context's threads and engines wrote. -/
def bytesBy (vs : List VLine) (c : Nat) : List Nat :=
  vs.flatMap (fun v => ((List.range 128).filter (fun i => (SMap.get v.by_ c 0).getLsbD i)).map (fun i => v.line * 128 + i))

/-- A merge into the root is an outside write for the manifests of its context that did not make it (R330, R338, R361). -/
def markMerged (s : State) (d k : Nat) (vs : List VLine) : State :=
  s.manifests.foldl (fun s m =>
    let bytes := bytesBy vs m.ctx
    if m.vdev = d && m.marks && !bytes.isEmpty then
      let own (a : Nat) : Bool := m.recs.any (fun r => r.writes.any (fun w => w.addr == a && w.hyp == k))
      let gs : List (Nat × Nat) := (m.recs.flatMap (fun r => r.reads.map (fun g => (g.addr, g.lg)))).eraseDups
      let gs := gs.filter (fun g => !own g.1 && s.granuleMeets d m.ctx g.1 g.2 bytes)
      let m' : Manifest := gs.foldl (fun (m : Manifest) (g : Nat × Nat) => m.markReaders g.1 none) m
      if m' = m then s else if m'.open_ then s.putMan m' else (s.putMan m').syncMan d m.ctx m.handle
    else s) s

/-- Manifests whose final state waited for the last tag reach it (R361). What was marked in a recording meanwhile is re-executed first,
by the run's closing pass (R338, R380). -/
def settleTagged (s : State) : State :=
  s.manifests.foldl (fun s m =>
    let done := match m.launch with | some l => (s.lau l).complete | none => true
    if m.wantState != some 2 || !done || Manifest.tagged m then s
    else match m.launch with
      | some l =>
        if m.state == 1 && m.recs.any TRec.stale then
          (s.updLau l (fun x => { x with prop := true, complete := false })).closingPass { m with wantState := none }
        else s.settleMan m 2 0
      | none => s.settleMan m 2 0) s

/-- The cores with threads under a node or its descendants, which go on under its parent (R321). -/
def underNode (s : State) (k : Nat) : List Nat :=
  (s.teams.filter (fun e => e.2.body.threads.any (fun t => (s.hypPath (s.hypFollow t.2.hyp).1).contains k))).map (fun e => e.2.core)

/-- The cores whose threads stand under a node follow a resolution made on a core (R309, R321), and so do later accesses to the versions
it merges or drops. -/
def follows (s : State) (core k : Nat) (vs : List VLine) : State :=
  (s.underNode k).foldl (fun s c => s.adopt c (s.pts core)) (vs.foldl (fun s v => s.meetVersion core v.line) s)

/-- A confirm of a live node (R359), its affected teams stopped and every line it touches free of other intervals. -/
def confirm (s : State) (core d k : Nat) : State :=
  let p := (s.hypNode k).parent
  let vs := s.vlines.filter (fun v => v.hyp == k)
  let s := vs.foldl (fun s v => s.recallLine v.line false) s
  let s : State := { s with vlines := s.vlines.filter (fun (v : VLine) => v.hyp != k) }
  let s :=
    if p = 0 then
      let c := s.mergeStamp core (vs.map VLine.line)
      let s := vs.foldl (fun s v => s.mergeRoot c v) (s.markMerged d k vs)
      if vs.isEmpty then s else (s.setPts core c).raiseOut c
    else vs.foldl (fun s v => s.mergeVersion p v) s
  let s := s.follows core k vs
  let move (e : Nat × HypNode) : Nat × HypNode :=
    if e.1 = k then (e.1, { e.2 with status := .confirmed p })
    else if e.2.parent = k then (e.1, { e.2 with parent := p }) else e
  let s : State := { s with hyps := s.hyps.map move }
  let s := s.changeMans d (retag k p)
  (s.allTeams.foldl (fun (s : State) u => s.moveThreads u [k] p none) s).settleTagged

/-! ## The refute (R360) -/

/-- A manifest without the parts tagged with some nodes (R361): the task records so tagged go with their sub-traces, and
their siblings renumber. -/
def untag (ks : List Nat) (m : Manifest) : Manifest :=
  let tops := (m.recs.filter (fun r => ks.contains r.hyp)).map TRec.task
  let gone := (m.recs.filter (fun r => tops.any (fun t => m.inSub t r))).map TRec.task
  let parents := (m.recs.filter (fun r => tops.contains r.task)).filterMap TRec.parent |>.eraseDups
  let m := { m with recs := (m.recs.filter (fun r => !gone.contains r.task)).map (fun r => { r with
    reads := r.reads.filter (fun g => !ks.contains g.hyp), writes := r.writes.filter (fun w => !ks.contains w.hyp)
    oldReads := r.oldReads.filter (fun g => !ks.contains g.hyp), oldWrites := r.oldWrites.filter (fun w => !ks.contains w.hyp)
    oldChildren := r.oldChildren.filter (fun k => !gone.contains k), dropped := r.dropped.filter (fun k => !gone.contains k) }) }
  parents.foldl (fun m p => m.renumber p (m.kids p)) m

/-- A refute of a live node (R360), its affected teams stopped. -/
def refute (s : State) (core d k : Nat) : State :=
  let p := (s.hypNode k).parent
  let num := s.hypNumber k
  let ks := s.subTree d k
  let s := s.follows core k (s.vlines.filter (fun v => ks.contains v.hyp))
  let drop (e : Nat × HypNode) : Nat × HypNode :=
    if ks.contains e.1 then (e.1, { e.2 with status := .refuted num p }) else e
  let s : State := { s with vlines := s.vlines.filter (fun (v : VLine) => !ks.contains v.hyp), hyps := s.hyps.map drop }
  let s := s.changeMans d (untag ks)
  (s.allTeams.foldl (fun (s : State) u => s.moveThreads u ks p (some num)) s).settleTagged

/-! ## The step of HRES -/

/-- The lines that a confirm merges. -/
def mergedLines (s : State) (k : Nat) : List Nat := (s.vlines.filter (fun v => v.hyp == k)).map VLine.line

/-- The resident teams outside a list whose open interval wrote one of some lines (R295, R259). -/
def lineWriters (s : State) (ts lines : List Nat) : List Nat :=
  (s.writers none (fun it => lines.any (fun l => LogItem.isLine l it))).filter (fun v => !ts.contains v)

/-- HRES's step on a live node (R358 to R360): none while an affected team, or an interval that wrote a line to be merged, must still
close. The affected teams take steps 1 to 3 of R257 before it and one new snapshot after it. -/
def resolve (s : State) (u k : Nat) (ref : Bool) : Option State × State :=
  let t := s.team u
  let ts := s.affected t.vdev k
  if !ts.all s.closable then (none, s)
  else
    let (ok, s) := s.closeAll (s.lineWriters ts (if ref then [] else s.mergedLines k))
    if !ok then (none, s)
    else
      let s := ts.foldl (fun s v => (s.drainAll v).deliverAll v) s
      let s := if ref then s.refute t.core t.vdev k else s.confirm t.core t.vdev k
      (some (ts.foldl (fun s v => s.doClose v) s), s)

/-- The resolutions that threads of resident teams wait for in HRES: team and node. -/
def pendingResolves (s : State) : List (Nat × Nat) :=
  s.resident.flatMap (fun u => (s.team u).body.threads.filterMap (fun e =>
    match e.2.st, e.2.wait with
    | .waiting, some w => (match w.kind with
        | .resolve _ n _ => some (u, n)
        | _ => none)
    | _, _ => none))

/-- Whether a team issues nothing while an HRES waits: its own, which runs alone between two closes (R260), or one that stops it (R359
step 1). -/
def stoppedByResolve (s : State) (v : Nat) : Bool :=
  !s.hyps.isEmpty && s.pendingResolves.any (fun e => e.1 == v || (s.affected (s.team e.1).vdev e.2).contains v)

end State

end Sys2Proof.Machine
end

