-- ==== Sys2Proof/Machine/Waits.lean ====
section
/-! DEFINITION. Waiting (R156): BAR and CBAR (R195, R281), WAITC (R224), WAITT (R241), LWAIT (R235), SLEEPT (R236), FENCE
(R140); what a waiting thread's condition is, and how it goes on when the condition holds; the barrier watchdog (R160). -/

namespace Sys2Proof.Machine

/-- What a wait's condition says now: still to wait, to go on, or to trap. -/
inductive Verdict where
  | hold
  | pass
  | trap (x : TrapInfo)
deriving DecidableEq, Repr

/-- The codes of the engine classes (R223). -/
def eclassCode (c : EClass) : Nat :=
  match c with
  | .ferry => 0
  | .matrix => 1
  | .net => 2

/-- The core's queue of a class (R206, R228, R413). -/
def queueSize (cls : EClass) : Nat :=
  match cls with
  | .ferry => 64
  | .matrix => 16
  | .net => 32

namespace State

/-! ## Barriers -/

/-- A thread, its results written, at a team barrier (R195): it arrives, or waits for the phase it has arrived in. -/
def atBar (s : State) (u tid b : Nat) (arv : Bool) : Act × State :=
  if (s.bar u b).arrived.contains tid then (.wait (.barAgain b arv), s)
  else (if arv then .go else .wait (.bar b), s.arriveBar u tid b)

/-- BAR's course from its first step (R195). -/
def barStep (s : State) (u tid b : Nat) (arv : Bool) : Act × State :=
  if s.settled u tid then (s.cover u tid).atBar u tid b arv else (.wait (.barDrain b arv), s)

/-- A thread, its results written, at a cluster barrier (R281). -/
def atCbar (s : State) (u tid b : Nat) (arv : Bool) : Act × State :=
  if (s.cbarOf (s.team u).cluster b).arrived.contains (1024 * u + tid) then (.wait (.cbarAgain b arv), s)
  else (if arv then .go else .wait (.cbar b), s.arriveCbar u tid b)

/-- CBAR's course from its first step (R281). -/
def cbarStep (s : State) (u tid b : Nat) (arv : Bool) : Act × State :=
  if s.settled u tid then (s.cover u tid).atCbar u tid b arv else (.wait (.cbarDrain b arv), s)

/-! ## Engine waits -/

/-- The trap of an engine fault's record (R225). -/
def faultTrap (f : FaultRec) : TrapInfo :=
  { cause := .engineFault, va := f.tva, vb := f.tvb, ecls := eclassCode f.cls, space := spaceCode f.space, wr := f.wr }

/-- The first unobserved fault of a group that a wait covers, taken out of the group (R225). -/
def takeFault (s : State) (u g : Nat) (p : FaultRec → Bool) : Verdict × State :=
  match (s.grp u g).faults.find? p with
  | some f => (.trap (faultTrap f), s.updGrp u g (fun gr => { gr with faults := gr.faults.erase f }))
  | none => (.pass, s)

/-- A group's counter of a class (R223). -/
def counterOf (g : Group) (cls : EClass) : Nat :=
  match cls with
  | .ferry => g.ctrFerry
  | .matrix => g.ctrMatrix
  | .net => g.ctrNet

/-- Room to issue: the group's counter below 63 and a free entry in the core's queue (R206, R223, R228, R413). -/
def hasRoom (s : State) (u tid : Nat) (cls : EClass) : Bool :=
  decide (counterOf (s.grp u (groupOf tid)) cls < 63) &&
  decide ((s.ops.filter (fun o => o.core == (s.team u).core && o.cls == cls && !o.complete)).length < queueSize cls)

/-- The fragments a quad's queue holds: one for each busy token of its four groups (R240). -/
def queued (s : State) (u g : Nat) : Nat :=
  ((List.range 4).map (fun i => (s.grp u (g / 4 * 4 + i)).tokens.length)).sum

/-- Whether there is the room a thread waits for. -/
def roomFor (s : State) (u tid : Nat) (what : Room) : Bool :=
  match what with
  | .engine cls => s.hasRoom u tid cls
  | .token tok => !(s.grp u (groupOf tid)).tokens.any (fun k => k.num == tok) && decide (s.queued u (groupOf tid) < 8)

/-- WAITC's condition (R224). -/
def waitcTest (s : State) (u tid : Nat) (cls : EClass) (n : Nat) : Verdict × State :=
  if counterOf (s.grp u (groupOf tid)) cls ≤ n then s.takeFault u (groupOf tid) (fun f => f.cls == cls) else (.hold, s)

/-- FENCE.e's condition: none of the operations is left (R140, R225). -/
def fenceTest (s : State) (u tid : Nat) (ops : List Nat) : Verdict × State :=
  if s.ops.any (fun o => ops.contains o.uid) then (.hold, s) else s.takeFault u (groupOf tid) (fun f => ops.contains f.op)

/-- FENCE.n's condition: each operation acknowledged (R140). DESIGN CHOICE (notes/assumptions/95.md): one that has ended without an
acknowledgement, by the transport timeout (R414), holds it no longer; R140 speaks of acknowledgement alone. -/
def ackTest (s : State) (ops : List Nat) : Verdict :=
  if s.ops.any (fun o => ops.contains o.uid && !o.acked) then .hold else .pass

/-- WAITT's condition: every token of the mask free (R241). -/
def tokensTest (s : State) (u tid : Nat) (mask : Word) : Verdict :=
  if (s.grp u (groupOf tid)).tokens.any (fun k => decide (k.num < 16) && mask.getLsbD k.num) then .hold else .pass

/-- A WAITT that proceeds (R241): the results that have come under its tokens are certain for every thread of the group. -/
def claim (s : State) (u tid : Nat) (mask : Word) : State :=
  if (s.grp u (groupOf tid)).unclaimed.isEmpty then s
  else s.updGrp u (groupOf tid) (fun g => { g with
    unclaimed := g.unclaimed.filter (fun e => !(decide (e.2.2 < 16) && mask.getLsbD e.2.2)) })

/-- The Ferry operations of a group issued before a SLEEPT with a promise at or before its stamp (R236). -/
def promised (s : State) (u tid : Nat) (stamp : Addr) (lim : Nat) : List EngineOp :=
  s.ops.filter (fun o => o.team == u && o.group == groupOf tid && o.cls == .ferry && decide (o.uid < lim) &&
    decide (o.promise ≤ stamp.toNat))

/-- SLEEPT's condition (R236); a deterministic team waits for the operations and never misses (R365). -/
def sleepTest (s : State) (u tid : Nat) (stamp : Addr) (lim : Nat) : Verdict :=
  let m := s.promised u tid stamp lim
  if (s.lau (s.team u).launch).det then (if m.isEmpty then .pass else .hold)
  else if s.cyc < stamp.toNat then .hold
  else match sortBy EngineOp.promise m with
    | [] => .pass
    | o :: _ => .trap { cause := .promiseMissed, va := stamp, vb := BitVec.ofNat 64 o.promise }

/-! ## Landing barriers (R233 to R235) -/

/-- A barrier's 16 bytes as a thread reads them: those that an operation in flight reads or writes by other than a countdown are
unspecified (R229, R315). -/
def barBytes (s : State) (u off : Nat) : List Byte := (s.collideRead (fun i => .scr u (off + i)) (Mem.read (s.team u).scratch off 16)).1

/-- REMAIN of a barrier. -/
def remain (s : State) (u off : Nat) : Nat := leAt (s.barBytes u off) 0 8

/-- BFLAGS of a barrier. -/
def bflags (s : State) (u off : Nat) : Nat := leAt (s.barBytes u off) 12 4

/-- A test of a barrier takes a draw where its bytes are unspecified. -/
def barDraw (s : State) (u off : Nat) : State := (s.collideRead (fun i => .scr u (off + i)) (Mem.read (s.team u).scratch off 16)).2

/-- The ENGINE_FAULT of a faulted barrier (R235). -/
def barrierFault (s : State) (u off : Nat) : TrapInfo :=
  { cause := .engineFault, va := BitVec.ofNat 64 off, vb := BitVec.ofNat 64 off,
    ecls := eclassCode (if (s.bflags u off).testBit 2 then .net else .ferry), space := spaceCode .l }

/-- LWAIT's condition (R235); a bound ephemeris lets it pass at its recorded REMAIN (R372). -/
def lwaitTest (s : State) (u tid off n : Nat) : Verdict × State :=
  let (ok, s) := s.escape (some u) (LogItem.isScratch u (scratchRowOf off))
  if !ok then (.hold, s)
  else if (s.bflags u off).testBit 1 then (.trap (s.barrierFault u off), s)
  else
    let t := s.team u
    let lim := (s.ephLimit t.launch t.task tid (s.thr u tid).lwaits).getD n
    if s.remain u off ≤ n ∧ s.remain u off ≤ lim then (.pass, s) else (.hold, s.barDraw u off)

/-- LWAIT passes: its event is recorded (R371), the thread's count advances. -/
def lwaitPass (s : State) (u tid off : Nat) : State :=
  let t := s.team u
  let s := (s.ephEvent t.launch 2 t.task tid (s.thr u tid).lwaits (s.remain u off)).barDraw u off
  s.updThr u tid (fun t => { t with lwaits := t.lwaits + 1 })

/-- LWAIT's condition where its barrier's NET bit makes it irrevocable: a close comes first (R260). -/
def lwaitTry (s : State) (u tid off n : Nat) : Verdict × State :=
  match s.lwaitTest u tid off n with
  | (.pass, s) =>
    if (s.bflags u off).testBit 2 then
      let (ok, s) := s.forceClose u
      if ok then (.pass, s.updTeam u (fun t => { t with irrevocable := true })) else (.hold, s)
    else (.pass, s)
  | r => r

/-! ## Going on -/

/-- A waiting thread's verdict acted on. -/
def conclude (s : State) (u tid : Nat) (w : Wait) (v : Verdict) : State :=
  match v with
  | .hold => s
  | .pass => s.wake u tid
  | .trap x => s.takeTrap u tid w.pc x

/-- A barrier's answer acted on by a thread that has waited for its results. -/
def concludeBar (s : State) (u tid : Nat) (a : Act) : State :=
  match a with
  | .wait k => s.updThr u tid (fun t => { t with wait := t.wait.map (fun w => { w with kind := k }) })
  | _ => s.wake u tid

/-- A thread that waits in HRES goes on once its step can be taken (R358 to R360), with the close after it (R260). Where another
HRES has resolved the hypothesis first, it writes 0. -/
def resolveOne (s : State) (u tid : Nat) (d : Pred) (k : Nat) (ref : Bool) : State :=
  let done (s : State) (ok : Bool) : State := (((s.writePred u tid d.val ok).wake u tid).forceClose u).2
  if (s.hypNode k).status != .live then done s false
  else match s.resolve u k ref with
    | (none, s) => s
    | (some s, _) => done s true

/-- A waiting thread goes on where its condition holds (R156). The waits not named here end by their own events. -/
def recheckOne (s : State) (u tid : Nat) : State :=
  match (s.thr u tid).st, (s.thr u tid).wait with
  | .waiting, some w =>
    match w.kind with
    | .marker => if s.settled u tid then (s.wake u tid).kRelease u tid else s
    | .barDrain b arv =>
      if s.settled u tid then let r := s.barStep u tid b arv; r.2.concludeBar u tid r.1 else s
    | .cbarDrain b arv =>
      if s.settled u tid then let r := s.cbarStep u tid b arv; r.2.concludeBar u tid r.1 else s
    | .waitc cls n => let r := s.waitcTest u tid cls n; r.2.conclude u tid w r.1
    | .fenceE ops => let r := s.fenceTest u tid ops; r.2.conclude u tid w r.1
    | .fenceN ops => s.conclude u tid w (s.ackTest ops)
    | .waitt mask => match s.tokensTest u tid mask with
      | .pass => (s.claim u tid mask).conclude u tid w .pass
      | v => s.conclude u tid w v
    | .sleept stamp lim => s.conclude u tid w (s.sleepTest u tid stamp lim)
    | .lwait off n =>
      let r := s.lwaitTry u tid off n
      match r.1 with
      | .pass =>
        let net := (r.2.bflags u off).testBit 2
        let s := (r.2.lwaitPass u tid off).wake u tid
        if net then (s.forceClose u).2 else s
      | v => r.2.conclude u tid w v
    | .tlbi ops => s.conclude u tid w (if s.ops.any (fun o => ops.contains o.uid) then .hold else .pass)
    | .resolve d k ref => s.resolveOne u tid d k ref
    | .room what => if s.roomFor u tid what then s.wake u tid else s
    | .home => s.wake u tid
    | .dataflow task =>
      let there := match s.ownManifest u with
        | some m => m.recs.any (fun r => r.task == task && !r.done)
        | none => false
      if there then s else s.wake u tid
    | _ => s
  | .parked, _ => s.unpark u tid
  | _, _ => s

/-- Every waiting thread of a team looked at in table order of its number. -/
def recheck (s : State) (u : Nat) : State :=
  (((s.team u).body.live).foldl (fun s tid => s.recheckOne u tid) s).settle u

end State

/-! ## The instructions -/

/-- A verdict at an instruction's issue: it goes on, traps, or waits. -/
def verdictAct (v : Verdict) (k : WaitKind) : Act :=
  match v with
  | .hold => .wait k
  | .pass => .go
  | .trap x => .trap x

/-- BAR (R195). -/
def execBar (h : Head) (b : BitVec 4) (s : State) : Ran :=
  .next (perThread (.bar h b) (fun s u tid => s.barStep u tid b.toNat false) s)

/-- BAR.arv (R195, R196). -/
def execBarArv (h : Head) (b : BitVec 4) (s : State) : Ran :=
  .next (perThread (.barArv h b) (fun s u tid => s.barStep u tid b.toNat true) s)

/-- CBAR (R281). -/
def execCbar (h : Head) (b : BitVec 2) (s : State) : Ran :=
  .next (perThread (.cbar h b) (fun s u tid => s.cbarStep u tid b.toNat false) s)

/-- CBAR.arv (R281). -/
def execCbarArv (h : Head) (b : BitVec 2) (s : State) : Ran :=
  .next (perThread (.cbarArv h b) (fun s u tid => s.cbarStep u tid b.toNat true) s)

/-- WAITC (R224). -/
def execWaitc (h : Head) (cls : EClass) (n : BitVec 6) (s : State) : Ran :=
  .next (perThread (.waitc h cls n) (fun s u tid =>
    let r := s.waitcTest u tid cls n.toNat
    (verdictAct r.1 (.waitc cls n.toNat), r.2)) s)

/-- FENCE.e (R140): the operations its group issued before it, fixed now. -/
def execFenceE (h : Head) (s : State) : Ran :=
  .next (perThread (.fenceE h) (fun s u tid =>
    let faults := (s.grp u (groupOf tid)).faults.map FaultRec.op
    let ops := (s.ops.filter (fun o => o.team == u && o.group == groupOf tid)).map EngineOp.uid ++ faults
    let r := s.fenceTest u tid ops
    (verdictAct r.1 (.fenceE ops), r.2)) s)

/-- FENCE.n (R140). -/
def execFenceN (h : Head) (s : State) : Ran :=
  .next (perThread (.fenceN h) (fun s u tid =>
    let ops := (s.ops.filter (fun o => o.team == u && o.thread == tid && o.cls == .net)).map EngineOp.uid
    (verdictAct (s.ackTest ops) (.fenceN ops), s)) s)

/-- WAITT (R241): bits 31:16 of the mask are ignored. -/
def execWaitt (h : Head) (a : Src) (s : State) : Ran :=
  .next (perThread (.waitt h a) (fun s u tid =>
    let mask := BitVec.ofNat 32 (s.readSrc u tid 0 a .n32)
    match s.tokensTest u tid mask with
    | .pass => (.go, s.claim u tid mask)
    | v => (verdictAct v (.waitt mask), s)) s)

/-- SLEEPT (R236). -/
def execSleept (h : Head) (a : Src) (s : State) : Ran :=
  .next (perThread (.sleept h a) (fun s u tid =>
    let stamp := BitVec.ofNat 64 (s.readSrc u tid 0 a .n64)
    (verdictAct (s.sleepTest u tid stamp s.nextUid) (.sleept stamp s.nextUid), s)) s)

/-- LWAIT (R235). One that its barrier's NET bit makes irrevocable waits at least for the close (R260). -/
def execLwait (h : Head) (a b : Src) (s : State) : Ran :=
  .next (perThread (.lwait h a b) (fun s u tid =>
    let off := s.readSrc u tid 0 a .n32
    let n := s.readSrc u tid 1 b .n32
    if off % 16 != 0 then (.trap (accTrap .align .l false off 16), s)
    else if s.scratchSize u < off + 16 then (.trap (accTrap .scratchBounds .l false off 16), s)
    else if (s.bflags u off).testBit 2 then (.wait (.lwait off n), s)
    else
      let r := s.lwaitTest u tid off n
      match r.1 with
      | .pass => (.go, r.2.lwaitPass u tid off)
      | v => (verdictAct v (.lwait off n), r.2)) s)

/-- SLEEP_EXPIRY (R236): the stamp of a sleeping thread is reached and its promise test runs. -/
def execSleepExpiry (u tid : Nat) (s : State) : Ran :=
  match (s.thr u tid).st, (s.thr u tid).wait with
  | .waiting, some w =>
    match w.kind with
    | .sleept stamp lim =>
      .next (if s.cyc < stamp.toNat then s else (s.conclude u tid w (s.sleepTest u tid stamp lim)).settle u)
    | _ => .next s
  | _, _ => .next s

/-- A thread's arrival at a team barrier withdrawn, and its trap (R160). -/
def State.watchTeam (s : State) (u b tid : Nat) : State :=
  let pc := match (s.thr u tid).wait with | some w => w.pc | none => 0
  let s := s.updBar u b (fun x =>
    { x with count := x.count - 1, arrived := x.arrived.filter (fun a => a != tid), segs := x.segs.filter (fun a => a.1 != tid) })
  s.takeTrap u tid pc (ownTrap .barrierWatchdog pc)

/-- The same at a cluster barrier. -/
def State.watchCluster (s : State) (u b tid : Nat) : State :=
  let pc := match (s.thr u tid).wait with | some w => w.pc | none => 0
  let key := 1024 * u + tid
  let s := s.updCbar (s.team u).cluster b (fun x =>
    { x with count := x.count - 1, arrived := x.arrived.filter (fun a => a != key), segs := x.segs.filter (fun a => a.1 != key) })
  let s := s.updBody u (fun y => { y with cbarArrivals := y.cbarArrivals.filter (fun e => e != (b, tid)) })
  s.takeTrap u tid pc (ownTrap .barrierWatchdog pc)

/-- The kinds of wait at a team barrier after an arrival in its phase (R195). -/
def atTeamBar (b : Nat) (k : WaitKind) : Bool := k == .bar b || k == .barAgain b true || k == .barAgain b false

/-- The kinds of wait at a cluster barrier after an arrival in its phase (R281). -/
def atClusterBar (b : Nat) (k : WaitKind) : Bool := k == .cbar b || k == .cbarAgain b true || k == .cbarAgain b false

/-- BARRIER_WATCHDOG (R160): threads wait at a barrier at which none has arrived for 2^20 cycles. `owner` is a team, or a
cluster. -/
def execBarrierWatchdog (cluster : Bool) (owner b : Nat) (s : State) : Ran :=
  if cluster then
    let members := (s.clu owner).members
    let ws := members.flatMap (fun v => (s.waiting v (atClusterBar b)).map (fun tid => (v, tid)))
    if ws.isEmpty || decide (s.cyc < (s.cbarOf owner b).last + Config.watchdogCycles) then .next s
    else
      let s := ws.foldl (fun s e => s.watchCluster e.1 b e.2) s
      .next (members.foldl (fun s v => s.settle v) s)
  else
    let ws := s.waiting owner (atTeamBar b)
    if ws.isEmpty || decide (s.cyc < (s.bar owner b).last + Config.watchdogCycles) then .next s
    else .next ((ws.foldl (fun s tid => s.watchTeam owner b tid) s).settle owner)

end Sys2Proof.Machine
end

