-- ==== Sys2Proof/Machine/Fetch.lean ====
section
/-! DEFINITION. Fetch (R55 to R59): the code range of a thread, the instruction caches, the words of an instruction, and the
default handlers' actions in the firmware window (R58, R247). -/

namespace Sys2Proof.Machine

/-- What fetching for a thread gives. -/
inductive Fetched where
  | words (ws : List Word)
  | trap (x : TrapInfo)
  | wait
deriving DecidableEq, Repr

/-- A FETCH trap: the instruction, the word that faults, the fetch kind (R57). -/
def fetchTrap (pc a fk : Nat) : TrapInfo :=
  { cause := .fetch, va := BitVec.ofNat 64 pc, vb := BitVec.ofNat 64 a, fk := fk }

/-- An address in the firmware window (R58). -/
def inWindow (a : Nat) : Bool := decide (Config.fwBase ≤ a ∧ a ≤ Config.fwLast)

namespace State

/-- Whether a word's address lies in a thread's code range (R58); a thread in firmware has the window. -/
def inCode (s : State) (u tid a : Nat) : Bool :=
  let th := s.thr u tid
  let t := s.team u
  if th.inFirmware then inWindow a
  else if th.priv == .supervisor then decide (a < 9007199254740992) && !inWindow a
  else
    let lo := t.img.addr + t.img.codeOff + t.var.entry
    decide (lo ≤ a ∧ a + 4 ≤ lo + t.var.codeLen) && !inWindow a

/-- The line of a core's instruction cache for an identifier and a physical line (R55). -/
def iline (s : State) (core ident line : Nat) : Option ILine :=
  (s.cor core).icache.find? (fun l => l.ident == ident && l.line == line)

/-- The set of an instruction cache that a line belongs to: 64 KiB in lines of 128 bytes, 4-way, are 128 sets (R55). -/
def isetOf (line : Nat) : Nat := line % 128

/-- An instruction cache after a fill, newest first (R55): a set keeps four lines, each under one identifier (R290). DESIGN CHOICE
(notes/assumptions/87.md): a line's set is its number modulo 128, and the line that leaves a full set is the one filled least
recently. -/
def ikeep (l : ILine) (cache : List ILine) : List ILine :=
  let rest := cache.filter (fun x => x.line != l.line)
  let kept := ((rest.filter (fun x => isetOf x.line == isetOf l.line)).take 3)
  l :: rest.filter (fun x => isetOf x.line != isetOf l.line || kept.contains x)

/-- A line delivered to a core under an identifier (R56). -/
def deliverLine (s : State) (core ident line : Nat) : State :=
  s.updCore core (fun k => { k with icache := ikeep ⟨ident, line, lineBytes s.mem line⟩ k.icache })

/-- The return of a code line from its home (R56): every core that has joined the line's fetch receives it at once, each under its own
identifier, and the core asked for receives it where none had joined (a prefetch). A line marked damaged at its home is not
delivered, and a fetch that needs it meets the error (R57, R263). -/
def fillLine (s : State) (u : Option Nat) (core ident line : Nat) : Res Unit :=
  (s.reach u line true).bind fun _ s =>
    let d := core / Config.coresPerDie
    let all := (s.die d).fetches
    let asked := ((all.filter (fun f => f.line == line)).flatMap FetchReq.joined) ++ [(core, ident)]
    let s := s.updDie d (fun x => { x with fetches := all.filter (fun f => f.line != line) })
    .ok () (if s.damaged.contains line then s else asked.foldl (fun s e => s.deliverLine e.1 e.2 line) s)

/-- A miss goes to the die's fetch agent (R56): it joins the line's fetch, or starts one while fewer than 256 lines are in flight. -/
def askLine (s : State) (core ident line : Nat) : State :=
  let d := core / Config.coresPerDie
  let all := (s.die d).fetches
  let join (f : FetchReq) : FetchReq := if f.joined.contains (core, ident) then f else { f with joined := f.joined ++ [(core, ident)] }
  if all.any (fun f => f.line == line) then
    let now := mapWhere (fun f => f.line == line) join all
    s.updDie d (fun x => { x with fetches := now })
  else if all.length < 256 then s.updDie d (fun x => { x with fetches := all ++ [⟨line, [(core, ident)]⟩] })
  else s

/-- The fetches in flight without the cores whose line and identifier meet a test; one that serves no core any more goes. -/
def dropJoined (p : Nat → Nat → Bool) (fs : List FetchReq) : List FetchReq :=
  (fs.map (fun f => { f with joined := f.joined.filter (fun e => !p f.line e.2) })).filter (fun f => !f.joined.isEmpty)

/-- What a word of a cached line may be fetched as (R59): a value it has had since the launch began, or, where it has not been written
since, the copy's or the present one. -/
def fetchable (s : State) (l : ILine) (launch pa : Nat) : List Word :=
  let now : Word := BitVec.ofNat 32 (leNat (s.rootBytes pa 4))
  match s.codeLog.filter (fun e => e.word == pa / 4 && decide (launch < e.at_)) with
  | [] => [BitVec.ofNat 32 (leNat (Mem.read l.data pa 4)), now]
  | es => es.map CodeOld.old ++ [now]

/-- The word fetched: the only value there is, or a free choice among them, made word by word (R59). -/
def pickWord (s : State) (ws : List Word) : Word × State :=
  let w := ws.headD 0
  if ws.all (fun x => x == w) then (w, s)
  else (ws.getD (Config.freeChoice s.draws % ws.length) w, s.draw)

/-- One word of the instruction at `pc` for a thread (R57 step 1). A word whose line is not in the core's instruction cache is asked of
the die's fetch agent (R56). -/
def fetchWord (s : State) (u tid pc a : Nat) : Fetched × State :=
  let t := s.team u
  if !s.inCode u tid a then (.trap (fetchTrap pc a 2), s)
  else
    match s.translate (some u) t.core t.vdev t.ctx a .fetch ((s.thr u tid).priv == .supervisor) with
    | .wait _ s => (.wait, s)
    | .trap x s => (.trap x, s)
    | .ok (.error c) s => (.trap (fetchTrap pc a (if c == .perm then 1 else 0)), s)
    | .ok (.ok pa) s =>
      let ident := identOf t.vdev t.ctx
      let s := s.rouse (.icache t.core)
      match s.iline t.core ident (lineOf pa) with
      | some l =>
        let r := s.pickWord (s.fetchable l t.launch pa)
        (.words [r.1], r.2)
      | none =>
        if s.damaged.contains (lineOf pa) then
          (.trap { s.damageTrap (lineOf pa) a false with va := BitVec.ofNat 64 pc, vb := BitVec.ofNat 64 a }, s)
        else (.wait, s.askLine t.core ident (lineOf pa))

/-- `n` words from an address on. -/
def fetchWords (s : State) (u tid pc a : Nat) : Nat → Fetched × State
  | 0 => (.words [], s)
  | n + 1 =>
    match s.fetchWord u tid pc a with
    | (.words w, s) =>
      match fetchWords s u tid pc (a + 4) n with
      | (.words ws, s) => (.words (w ++ ws), s)
      | r => r
    | r => r

/-- The words of a thread's next instruction (R55, R57 step 1); the head word alone where W = 3. -/
def fetchInstr (s : State) (u tid : Nat) : Fetched × State :=
  let pc := (s.thr u tid).pc.toNat
  if pc % 4 != 0 then (.trap (fetchTrap pc pc 3), s)
  else
    match s.fetchWord u tid pc pc with
    | (.words ws, s) =>
      let head := ws.headD 0
      if Raw.headW head = 3 then (.words ws, s)
      else
        match s.fetchWords u tid pc (pc + 4) (Raw.headLength head - 1) with
        | (.words rest, s) => (.words (ws ++ rest), s)
        | r => r
    | r => r

/-- Fetches for the threads of a bundle in turn (R57): those that trap take their traps; the rest, and the words. -/
def fetchAll (s : State) (u : Nat) : List Nat → List Nat × List Word × State
  | [] => ([], [], s)
  | tid :: rest =>
    match s.fetchInstr u tid with
    | (.words ws, s) =>
      let r := fetchAll s u rest
      (tid :: r.1, ws, r.2.2)
    | (.trap x, s) => fetchAll (s.takeTrap u tid (s.thr u tid).pc x) u rest
    | (.wait, s) => fetchAll s u rest

/-- Whether the words of the instruction that some threads stand at are present, or their fetch traps (R55); words that are not are
asked for. The first thread of each privilege looks. -/
def awaitFetch (s : State) (u : Nat) (threads : List Nat) : Bool × State :=
  let own := threads.filter (fun tid => (s.thr u tid).st != .orphaned && !(s.thr u tid).inFirmware)
  let looks := [Priv.task, .supervisor].filterMap (fun p => own.find? (fun tid => (s.thr u tid).priv == p))
  looks.foldl (fun r tid =>
    match r.2.fetchInstr u tid with
    | (.wait, s) => (false, s)
    | _ => r) (true, s)

/-! ## Firmware (R58, R247) -/

/-- The default handlers' TRET. -/
def firmwareReturn (s : State) (u tid : Nat) : State :=
  match s.returnTrap u tid with
  | .ok s => s
  | .error w =>
    let pc := (s.thr u tid).pc
    s.takeTrap u tid pc { cause := .badStatus, va := pc, vb := w.setWidth 64 }

/-- One step of a thread in firmware: the default action of the cause in its save slot (R247). -/
def firmware (s : State) (u tid : Nat) : State :=
  let th := s.thr u tid
  let pc := th.pc
  if pc.toNat % 4 != 0 then s.takeTrap u tid pc (fetchTrap pc.toNat pc.toNat 3)
  else if !inWindow pc.toNat then s.takeTrap u tid pc (fetchTrap pc.toNat pc.toNat 2)
  else
    let slot := th.slot
    let code := slot.tca.toNat
    if code = causeCode .orphan then s.exitThread u tid
    else if code = causeCode .promiseMissed then
      match s.waitcTest u tid .ferry 0 with
      | (.hold, s) => s.waitAt u tid (.waitc .ferry 0) pc pc false
      | (.trap x, s) => s.takeTrap u tid pc x
      | (.pass, s) => s.firmwareReturn u tid
    else s.teamReset u true code slot.tpc slot.tva slot.tvb

end State

/-- ICACHE_FILL (R56): a code line comes back from its home; the multicast fill reaches every joined core of the die. -/
def execIcacheFill (core ident line : Nat) (s : State) : Ran :=
  match s.fillLine none core ident line with
  | .ok _ s => .next s
  | .wait _ s => .next s
  | .trap _ s => .next s

end Sys2Proof.Machine
end

