-- ==== Sys2Proof/Machine/Resources.lean ====
section
/-! DEFINITION. What a core's resources hold (R186 to R192, R381, R384): the slots, rows, scratchpad and accumulators that
resident teams take of each virtual device's ranges, and where a team fits. Rows are counted, slots are placed. -/

namespace Sys2Proof.Machine

/-- The register rows a group takes in a variant (R187). -/
def Variant.rows (v : Variant) : Nat := v.lregs + (v.uregs + 31) / 32

/-- The variants whose resources a team holds: its own, and its pending switch's target (R197). -/
def Team.holds (t : Team) : List Variant :=
  t.var :: (match t.sw with | some w => [t.img.variants.getD w.target Variant.none] | .none => [])

/-- The most that the held variants need. -/
def Team.most (t : Team) (f : Variant → Nat) : Nat := (t.holds.map f).foldl max 0

/-- What waits in a launch queue (R190, R278): the next grid cluster, a spawned or re-executed task, or a cluster that was
removed and comes back. -/
inductive Item where
  | grid
  | spawned (q : QTask)
  | back (cluster : Nat)
deriving DecidableEq, Repr

/-- What one rank asks of its core: groups, image, and the only variant allowed, where there is one. -/
structure Want where
  groups : Nat
  img : Image
  only : Option Nat
deriving DecidableEq, Repr

/-- A rank that waits for a core: of what item, and what it asks. -/
structure Waiter where
  launch : Nat
  task : Nat
  want : Want
deriving DecidableEq, Repr

/-- A quota with every range empty (R381). -/
def Quota.empty : Quota := ⟨0, 0, [0, 0, 0, 0], [0, 0, 0, 0], 0, 0, 0, 0, 0⟩

/-- The kinds of lendable core ranges (R425 LENDING): the bits of CORELEND. -/
inductive CoreKind where
  | slots | rows | scratch | accs
deriving DecidableEq, Repr

def CoreKind.bit : CoreKind → Nat
  | .slots => 0
  | .rows => 1
  | .scratch => 2
  | .accs => 3

namespace State

/-- A virtual device's ranges on a core. -/
def quota (s : State) (d core : Nat) : Quota := SMap.get (s.vd d).quotas core Quota.empty

/-- The virtual device whose range holds a resource of a team that borrows, or not (R384). -/
def rangeOwner (s : State) (d : Nat) (lender : Option Nat) (k : CoreKind) : Nat :=
  match lender with
  | some l => if (s.vd l).coreLend.getLsbD k.bit then l else d
  | none => d

/-- Whether a team's resource of a kind lies in a virtual device's range. -/
def drawsOn (s : State) (u : Nat) (k : CoreKind) (x : Nat) : Bool :=
  s.rangeOwner (s.team u).vdev (s.team u).lender k == x

/-- What is held of a core against a need: the resident teams with their quads, and the teams whose room is kept, but for the need that
it is kept for (R265). -/
def takers (s : State) (core : Nat) (need : Option (Nat × Nat)) : List (Nat × List Nat) :=
  (s.coreTeams core).map (fun u => (u, (s.team u).quads)) ++
  ((s.cor core).held.filter (fun h => h.need.isSome && h.need != need)).map (fun h => (h.team, h.quads))

/-- The first slots of the quads that are taken on a core. -/
def takenSlots (s : State) (core : Nat) (need : Option (Nat × Nat)) : List Nat := (s.takers core need).flatMap Prod.snd

end State

/-- The groups of a team's quad. -/
def quadGroups (g i : Nat) : Nat := min 4 (g - 4 * i)

namespace State

/-- The rows that a team's quads take in a quadrant (R187). -/
def rowsIn (s : State) (q : Nat) (e : Nat × List Nat) : Nat :=
  let t := s.team e.1
  ((List.range e.2.length).map (fun i => if e.2.getD i 0 / 16 = q then quadGroups t.gcount i * t.most Variant.rows else 0)).sum

/-- The register rows taken in a quadrant: all of them, and those of a virtual device's range. -/
def rowsHeld (s : State) (core q : Nat) (need : Option (Nat × Nat)) : Nat := ((s.takers core need).map (s.rowsIn q)).sum

def rowsTaken (s : State) (core q x : Nat) (need : Option (Nat × Nat)) : Nat :=
  (((s.takers core need).filter (fun e => s.drawsOn e.1 .rows x)).map (s.rowsIn q)).sum

/-- The accumulators taken on a core: all of them, and those of a virtual device's range. -/
def accsHeld (s : State) (core : Nat) (need : Option (Nat × Nat)) : Nat :=
  ((s.takers core need).map (fun e => (s.team e.1).most Variant.accums)).sum

def accsTaken (s : State) (core x : Nat) (need : Option (Nat × Nat)) : Nat :=
  (((s.takers core need).filter (fun e => s.drawsOn e.1 .accs x)).map (fun e => (s.team e.1).most Variant.accums)).sum

/-- The teams that hold scratchpad rows of a core against a need (R192, R265, R279). -/
def scratchTakers (s : State) (core : Nat) (need : Option (Nat × Nat)) : List Nat :=
  s.coreTeams core ++ ((s.cor core).held.filter (fun h => h.need.isNone || h.need != need)).map Hold.team

/-- The teams of a launch that hold rows of its carve on a core. -/
def launchTeamsOn (s : State) (core l : Nat) (need : Option (Nat × Nat)) : List Nat :=
  (s.scratchTakers core need).filter (fun u => (s.team u).launch == l)

/-- The launches whose carves are held on a core (R192). -/
def carvers (s : State) (core : Nat) (need : Option (Nat × Nat)) : List Nat :=
  (s.scratchTakers core need).foldl (fun ls u => insertNat (s.team u).launch ls) []

/-- The carves held on a core: all of them, and those in a virtual device's range. -/
def carvesHeld (s : State) (core : Nat) (need : Option (Nat × Nat)) : Nat := ((s.carvers core need).map (fun l => (s.lau l).carve)).sum

def carvesOf (s : State) (core x : Nat) (need : Option (Nat × Nat)) : Nat :=
  (((s.carvers core need).filter (fun l => (s.launchTeamsOn core l need).head?.any (fun u => s.drawsOn u .scratch x))).map
    (fun l => (s.lau l).carve)).sum

/-- Whether a team's scratchpad fits: in its launch's carve on the core, or with the carve a first team brings (R189,
R192). `but` is a team whose own holding does not count. -/
def scratchFits (s : State) (core l d : Nat) (lender : Option Nat) (scratch : Nat) (but : Option Nat) (need : Option (Nat × Nat)) : Bool :=
  let here := (s.launchTeamsOn core l need).filter (fun u => some u != but)
  if here.isEmpty && but.isNone then
    let x := s.rangeOwner d lender .scratch
    decide (scratch ≤ (s.lau l).carve) && decide (s.carvesHeld core need + (s.lau l).carve ≤ 655360) &&
    decide (s.carvesOf core x need + (s.lau l).carve ≤ 2048 * (s.quota x core).nsrow)
  else decide ((here.map (fun u => (s.team u).most Variant.scratch)).sum + scratch ≤ (s.lau l).carve)

/-- The free quads of a quadrant in a virtual device's range, by first slot. -/
def freeQuads (s : State) (core x q : Nat) (need : Option (Nat × Nat)) (taken : List Nat) : List Nat :=
  let k := s.quota x core
  ((List.range 4).map (fun i => 16 * q + 4 * i)).filter (fun b =>
    decide (k.slot0 ≤ b ∧ b + 4 ≤ k.slot0 + k.nslot) && !(s.takenSlots core need).contains b && !taken.contains b)

/-- The quadrant a quad goes to (R188): the most free slots among those that hold its rows, ties to the lower. Rows are free on the core
as a whole and within the quota of the range (R186, R189). -/
def pickQuadrant (s : State) (core xs xr rows n : Nat) (need : Option (Nat × Nat)) (taken : List Nat) (placed : List Nat) : Option Nat :=
  let fits (q : Nat) : Bool :=
    let more := placed.getD q 0 + n * rows
    !(s.freeQuads core xs q need taken).isEmpty && decide (s.rowsHeld core q need + more ≤ 1024) &&
    decide (s.rowsTaken core q xr need + more ≤ (s.quota xr core).nrrow.getD q 0)
  let qs := (List.range 4).filter fits
  (sortBy (fun q => 4 - (s.freeQuads core xs q need taken).length) qs).head?

/-- Places a team's quads in order: their first slots (R188). -/
def placeQuads (s : State) (core xs xr rows g : Nat) (need : Option (Nat × Nat)) (i : Nat) (taken placed : List Nat) :
    Nat → Option (List Nat)
  | 0 => some taken
  | f + 1 =>
    if g ≤ 4 * i then some taken
    else
      let n := quadGroups g i
      match s.pickQuadrant core xs xr rows n need taken placed with
      | none => none
      | some q =>
        match (s.freeQuads core xs q need taken).head? with
        | none => none
        | some b => s.placeQuads core xs xr rows g need (i + 1) (taken ++ [b])
            ((List.range 4).map (fun j => placed.getD j 0 + if j = q then n * rows else 0)) f

/-- A team of `g` groups of a launch fits on a core in a variant, drawing on one virtual device's ranges or borrowing
(R189): its slots. -/
def fitsIn (s : State) (core l d g : Nat) (lender : Option Nat) (v : Variant) (need : Option (Nat × Nat)) : Option (List Nat) :=
  let xa := s.rangeOwner d lender .accs
  if s.scratchFits core l d lender v.scratch none need && decide (s.accsHeld core need + v.accums ≤ 8) &&
      decide (s.accsTaken core xa need + v.accums ≤ (s.quota xa core).nacc) then
    s.placeQuads core (s.rangeOwner d lender .slots) (s.rangeOwner d lender .rows) v.rows g need 0 [] [0, 0, 0, 0] 9
  else none

/-- The virtual devices a borrower may draw on (R384). -/
def lenders (s : State) (d : Nat) : List Nat :=
  if (s.vd d).borrow then (s.vdevs.filter (fun e => e.1 != d && e.2.lend && e.2.coreLend != 0)).map Prod.fst else []

/-- Where and how a rank fits on a core against a need: variant, lender and slots; own ranges first (R189, R190, R384). -/
def fitTeam (s : State) (core l : Nat) (w : Want) (need : Option (Nat × Nat)) : Option (Nat × Option Nat × List Nat) :=
  let d := (s.lau l).vdev
  let vs := (List.range w.img.variants.length).filter (fun i => w.only.all (fun v => v == i))
  vs.findSome? (fun i =>
    let v := w.img.variants.getD i Variant.none
    ((none :: (s.lenders d).map some).findSome? (fun ln => (s.fitsIn core l d w.groups ln v need).map (fun b => (i, ln, b)))))

/-- Whether what a target variant needs beyond a team's own is free and within quota (R197). -/
def switchFits (s : State) (u : Nat) (v : Variant) : Bool :=
  let t := s.team u
  let xr := s.rangeOwner t.vdev t.lender .rows
  let xa := s.rangeOwner t.vdev t.lender .accs
  s.scratchFits t.core t.launch t.vdev t.lender v.scratch (some u) none &&
  decide (s.accsHeld t.core none - t.var.accums + v.accums ≤ 8) &&
  decide (s.accsTaken t.core xa none - t.var.accums + v.accums ≤ (s.quota xa t.core).nacc) &&
  (List.range 4).all (fun q =>
    let mine := ((List.range t.quads.length).map (fun i =>
      if t.quads.getD i 0 / 16 = q then quadGroups t.gcount i else 0)).sum
    decide (s.rowsHeld t.core q none - mine * t.var.rows + mine * v.rows ≤ 1024) &&
    decide (s.rowsTaken t.core q xr none - mine * t.var.rows + mine * v.rows ≤ (s.quota xr t.core).nrrow.getD q 0))

/-- What waits in a launch's queue, oldest kind first. -/
def itemsOf (s : State) (l : Nat) : List Item :=
  let x := s.lau l
  if x.complete then []
  else
    (x.requeue.foldl (fun cs u => insertNat (s.team u).cluster cs) []).map Item.back ++
    (if s.gridDone l then [] else [.grid]) ++ x.spawned.map Item.spawned

/-- The task that stands for an item in the ephemeris: that of its first team. -/
def itemTask (s : State) (l : Nat) (it : Item) : Nat :=
  match it with
  | .grid => (s.lau l).nextClus * ((s.lau l).ch * (s.lau l).cw)
  | .spawned q => q.task
  | .back c => (s.team ((s.clu c).members.headD 0)).task

/-- Whether a removed team of a cluster comes back. -/
def comesBack (s : State) (v : Nat) : Bool := (s.team v).phase == .saved || (s.team v).phase == .restarting

/-- The ranks of an item; `only` gives the one variant that a rank may take, where something binds it. -/
def itemWants (s : State) (l : Nat) (it : Item) (only : Nat → Option Nat) : List (Option Want) :=
  let x := s.lau l
  match it with
  | .grid => (List.range (x.ch * x.cw)).map (fun r => some ⟨x.groups, x.img, only r⟩)
  | .spawned q => [some ⟨q.groups, q.img, only 0⟩]
  | .back c => (s.clu c).members.map (fun v =>
      let t := s.team v
      if s.comesBack v then some ⟨t.gcount, t.img, if t.phase == .saved then some t.variant else none⟩ else none)

/-- The ranks of a virtual device that wait in its launch queue for a core. -/
def waitingTeams (s : State) (d : Nat) : List Waiter :=
  (s.launches.filter (fun e => e.2.vdev == d && !e.2.complete)).flatMap (fun e => (s.itemsOf e.1).flatMap (fun it =>
    ((s.itemWants e.1 it (fun _ => none)).filterMap id).map (fun w => ⟨e.1, s.itemTask e.1 it, w⟩)))

/-- Whether a waiting rank could be admitted on a core (R189, R192). -/
def couldAdmit (s : State) (core : Nat) (w : Waiter) : Bool := (s.fitTeam core w.launch w.want (some (w.launch, w.task))).isSome

/-- Whether the switch would make room for a waiting team that fits in no other way (R200, first case). -/
def switchHelps (s : State) (u target : Nat) : Bool :=
  let t := s.team u
  let after := s.updTeam u (fun t => { t with variant := target })
  (s.waitingTeams t.vdev).any (fun w => !s.couldAdmit t.core w && after.couldAdmit t.core w)

/-! ## Posting a switch request (R197, R200, R372) -/

/-- Whether a request to switch to a variant may stand: a map, the room, the permits, and no landing into the team (R197). -/
def switchable (s : State) (u target : Nat) : Bool :=
  let t := s.team u
  let v := t.img.variants.getD target Variant.none
  t.phase.issues && t.sw.isNone && target != t.variant && decide (target < t.img.variants.length) &&
  t.img.maps.any (fun m => m.src == t.variant && m.dst == target) && s.switchFits u v && decide (t.body.permits ≤ v.permits) &&
  !s.endpoint.landings.any (fun e => e.2.launchId == (s.lau t.launch).id && e.2.task == t.task)

/-- Whether the dispatcher has a use for a switch (R200). -/
def switchUseful (s : State) (u target : Nat) : Bool :=
  let t := s.team u
  if t.variant < target then s.switchHelps u target
  else !(List.range t.img.variants.length).any (fun v => decide (t.variant < v) && s.switchHelps u v)

/-- Posts the switch that a bound ephemeris has recorded, as soon as its phase and occurrence have come and the request may stand
(R372). DESIGN CHOICE (notes/assumptions/93.md): the entry does not tell which visit of the point within the phase. -/
def postBound (s : State) (u : Nat) : State :=
  match s.ephSwitch u with
  | some (some (p, target)) =>
    if s.switchable u target then s.updTeam u (fun t => { t with sw := some ⟨target, none, none, some p⟩ }) else s
  | _ => s

/-- Whether a pending request may be withdrawn: not one that a bound ephemeris has recorded (R372), nor one whose switch has begun
(R200). -/
def withdrawable (s : State) (u : Nat) : Bool :=
  !s.switchBegun u && !((s.ephSwitch u).isSome && (s.team u).sw.any (fun w => w.only.isSome))

/-! ## What ended teams hold (R265, R279) -/

/-- Whether a hold stands: its need still waits, or other ranks still reach its rows. -/
def holdStands (s : State) (h : Hold) : Bool :=
  match h.need with
  | some n => (s.itemsOf n.1).any (fun it => s.itemTask n.1 it == n.2)
  | none => s.reachedByOthers h.team

/-- Drops the holds of a core that no longer stand; the scratchpad rows of their teams are free then. -/
def pruneHolds (s : State) (core : Nat) : State :=
  let gone := (s.cor core).held.filter (fun h => !s.holdStands h)
  if gone.isEmpty then s
  else gone.foldl (fun s h => s.updTeam h.team (fun t => { t with scratch := [] }))
    (s.updCore core (fun k => { k with held := k.held.filter s.holdStands }))

/-- Drops the holds that no longer stand anywhere. -/
def pruneAll (s : State) : State :=
  (s.cores.filter (fun e => !e.2.held.isEmpty)).foldl (fun s e => s.pruneHolds e.1) s

end State

end Sys2Proof.Machine
end

