-- ==== Sys2Proof/Machine/Issue.lean ====
section
/-! DEFINITION. An issue unit's turn for a team (R149 to R154, R365, R367, R373): whether it may issue, the bundle it selects,
and what it finds at the head PC. -/

namespace Sys2Proof.Machine

namespace State

/-- Whether a quadrant holds the quad of a thread (R188). -/
def inQuadrant (t : Team) (q tid : Nat) : Bool := (t.quads[tid / 128]?).map (fun x => x / 16) == some q

/-- The candidates of a quadrant, in order of group and lane (R149). -/
def candidates (s : State) (u q : Nat) : List Nat :=
  (((s.team u).body.threads.filter (fun e => e.2.st.candidate)).map Prod.fst).filter (inQuadrant (s.team u) q)

/-- Whether a thread's counter has reached the window (R154). -/
def windowReached (s : State) (u tid : Nat) : Bool :=
  let t := s.thr u tid
  t.promoted || decide ((s.team u).body.csr.fair ≤ t.fair)

/-- The thread of a list whose counter is highest, ties to the lower PC (R154). -/
def highest (s : State) (u : Nat) : List Nat → Option Nat
  | [] => none
  | tid :: rest =>
    match highest s u rest with
    | none => some tid
    | some o =>
      let a := s.thr u tid
      let b := s.thr u o
      if b.fair < a.fair || (a.fair == b.fair && decide (a.pc ≤ b.pc)) then some tid else some o

/-- The thread of a list at the lowest PC. -/
def lowest (s : State) (u : Nat) : List Nat → Option Nat
  | [] => none
  | tid :: rest =>
    match lowest s u rest with
    | none => some tid
    | some o => if (s.thr u tid).pc ≤ (s.thr u o).pc then some tid else some o

/-- The threads a selection takes (R149), by group and lane. -/
def selectBundle (s : State) (u q limit : Nat) : List Nat :=
  let cs := s.candidates u q
  let promoted := cs.filter (s.windowReached u)
  match (if promoted.isEmpty then s.lowest u cs else s.highest u promoted) with
  | none => []
  | some lead =>
    let run := cs.filter (fun tid => (s.thr u tid).pc == (s.thr u lead).pc)
    let taken := (run.filter (s.windowReached u) ++ run.filter (fun tid => !s.windowReached u tid)).take limit
    taken.foldl (fun l tid => insertNat tid l) []

/-- The quadrant whose turn it is in a deterministic team: the next, from its cursor, that has a candidate (R365). -/
def detQuadrant (s : State) (u : Nat) : Option Nat :=
  let c := (s.team u).body.cursor
  ((List.range 4).map (fun i => (c + i) % 4)).find? (fun q => !(s.candidates u q).isEmpty)

/-- Whether a quadrant's issue unit may select for a team now. -/
def mayIssue (s : State) (u q : Nat) : Bool :=
  let t := s.team u
  let l := s.lau t.launch
  t.phase.issues && !t.closing && !s.owedPermits u && decide (SMap.get t.lastIssue q 0 ≤ s.cyc) &&
  (s.vd t.vdev).resetting.isNone && !s.stoppedByResolve u &&
  (if l.det then
    !s.ops.any (fun o => o.team == u) && decide (t.body.quantumWork < l.quantum) && s.detQuadrant u == some q
  else true)

/-- The other virtual devices whose teams on a team's core could be granted an issue now, with whether their own tokens pay (R383). -/
def issueRivals (s : State) (u : Nat) : List (Nat × Bool) :=
  let c := (s.team u).core
  ((s.coreTeams c).filter (fun v => (s.team v).vdev != (s.team u).vdev && s.affords (.issue c) (s.team v).vdev 1 &&
    (List.range 4).any (fun q => s.mayIssue v q && !(s.candidates v q).isEmpty))).map
    (fun v => ((s.team v).vdev, s.ownPays (.issue c) (s.team v).vdev 1))

/-- How many threads a selection may take: one toward a stop (R373), else 32. -/
def bundleLimit (s : State) (u : Nat) : Nat :=
  match (s.team u).stop with
  | some q => if (s.team u).interval = q.interval then 1 else 32
  | none => 32

/-- Marks the candidates whose window is reached promoted (R154). -/
def promoteAll (s : State) (u : Nat) (cs : List Nat) : State :=
  cs.foldl (fun s tid => if s.windowReached u tid then s.updThr u tid (fun t => { t with promoted := true }) else s) s

/-- What a selection records: the issue cycle, the turn of a deterministic team and its selections, the launch's first
issue (R427), the tokens (R382). The bundles of the firmware's own code, which R58 leaves unspecified, are not counted. -/
def noteIssue (s : State) (u q : Nat) (threads : List Nat) : State :=
  let t := s.team u
  let det := (s.lau t.launch).det
  let s := s.spend (.issue t.core) t.vdev ((threads.length + 15) / 16)
  let s := if threads.all (fun tid => (s.thr u tid).inFirmware) then s else s.count t.vdev 0x01 1
  let s := s.updTeam u (fun t => { t with
    lastIssue := SMap.set t.lastIssue q (s.cyc + 1)
    body := { t.body with selections := t.body.selections + 1, cursor := (q + 1) % 4 } })
  let now := (s.ptpNs, s.ptpSec)
  let s := s.updLau t.launch (fun l => { l with first := match l.first with | some f => some f | none => some now })
  if det then
    ((s.team u).body.live.filter (fun tid => (s.thr u tid).st.candidate && !threads.contains tid)).foldl
      (fun s tid => s.updThr u tid (fun x => x.tickFair t.body.csr.fair)) s
  else s

/-- A trap of the same kind in every thread of a list (R57 steps 2 and 3). -/
def trapThreads (s : State) (u : Nat) (c : Cause) (threads : List Nat) : State :=
  threads.foldl (fun s tid => let pc := (s.thr u tid).pc; s.takeTrap u tid pc (ownTrap c pc)) s

/-- What the selected threads meet at the head PC: orphans take ORPHAN, firmware runs, the rest fetch and decode (R57). The
instruction to execute, with the threads that execute it in hand, or none. -/
def present (s : State) (u : Nat) (threads : List Nat) : Option Instr × State :=
  let orphans := threads.filter (fun tid => (s.thr u tid).st == .orphaned)
  let s := orphans.foldl (fun s tid => s.takeOrphan u tid) s
  let rest := threads.filter (fun tid => !orphans.contains tid)
  let fw := rest.filter (fun tid => (s.thr u tid).inFirmware)
  let s := fw.foldl (fun s tid => if (s.team u).phase.issues then s.firmware u tid else s) s
  let rest := rest.filter (fun tid => !fw.contains tid)
  let r := s.fetchAll u rest
  match r.1 with
  | [] => (none, r.2.2.endBundle u 0 true)
  | ts =>
    match decode r.2.1 with
    | .ok i => (some i, { r.2.2 with issue := ⟨u, ts⟩ })
    | .error .illOp => (none, (r.2.2.trapThreads u .illOp ts).endBundle u 0 true)
    | .error .illForm => (none, (r.2.2.trapThreads u .illForm ts).endBundle u 0 true)

/-- One issue cycle of a quadrant for a team (R149). -/
def issueTurn (s : State) (u q : Nat) : Option Instr × State :=
  let s := if (s.lau (s.team u).launch).det then ((s.drainAll u).deliverAll u).postBound u else s
  let s := s.recheck u
  match s.stopDue u with
  | some s => (none, s)
  | none =>
    if !s.mayIssue u q then (none, s)
    else
      let s := s.promoteAll u (s.candidates u q)
      match s.selectBundle u q (s.bundleLimit u) with
      | [] => (none, s)
      | ts =>
        if !s.granted (.issue (s.team u).core) (s.team u).vdev ((ts.length + 15) / 16) (s.issueRivals u) then (none, s)
        else
          let r := s.awaitFetch u ts
          if r.1 then (s.noteIssue u q ts).present u ts else (none, r.2)

end State

/-- FAIRNESS_PROMOTION (R154): a candidate's counter has reached the window. -/
def execFairnessPromotion (u tid : Nat) (s : State) : Ran :=
  .next (if (s.thr u tid).st.candidate && s.windowReached u tid then s.updThr u tid (fun t => { t with promoted := true }) else s)

end Sys2Proof.Machine
end

