-- ==== Sys2Proof/Machine/Engine.lean ====
section
/-! DEFINITION. What the engine classes share (R206, R223, R225, R228, R229, R314, R315, R365): the issue checks of a block,
queueing an operation, its reads and writes of memory and scratchpad, landing-barrier countdowns (R233, R234), and the
report of a completion. A row of a copy is read in one turn and written by pieces (notes/assumptions/24.md). -/

namespace Sys2Proof.Machine

/-! ## Issue -/

/-- The block offset of the first field that fails. -/
def firstBad (fields : List (Nat × Bool)) : Option Nat := (fields.find? (fun e => !e.2)).map Prod.fst

/-- ILL_FORM of a block field (R206, R228, R413): the instruction's address and the field's offset. -/
def fieldTrap (pc : Addr) (off field : Nat) : TrapInfo :=
  { cause := .illForm, va := pc, vb := BitVec.ofNat 64 (off + field) }

/-- Changes a group's counter of a class (R223). -/
def Group.setCtr (g : Group) (cls : EClass) (f : Nat → Nat) : Group :=
  match cls with
  | .ferry => { g with ctrFerry := f g.ctrFerry }
  | .matrix => { g with ctrMatrix := f g.ctrMatrix }
  | .net => { g with ctrNet := f g.ctrNet }

namespace State

/-- A thread's read of scratchpad bytes that may cross rows. -/
def readScrSpans (s : State) (u target : Nat) : List (Nat × Nat) → Res (List Byte)
  | [] => .ok [] s
  | e :: r => (s.readScr u target e.1 e.2).bind fun bs s => (s.readScrSpans u target r).bind fun rest s => .ok (bs ++ rest) s

/-- The bytes of a block, after the checks of its offset (R206, R228, R413). -/
def readBlock (s : State) (u off size : Nat) : Res (List Byte) :=
  if off % 16 != 0 then .trap (accTrap .align .l false off size) s
  else if s.scratchSize u < off + size then .trap (accTrap .scratchBounds .l false off size) s
  else s.readScrSpans u u (lineSpans off size)

/-- An operation issued: its counter rises and it enters the queue (R223). -/
def enqueue (s : State) (u tid : Nat) (cls : EClass) (kind : OpKind) (off promise charge : Nat) : Nat × State :=
  let (uid, s) := s.newUid
  let t := s.team u
  let th := s.thr u tid
  let past := match kind with
    | .nput _ => true
    | .nsend _ => true
    | _ => false
  let o : EngineOp :=
    { uid := uid, cls := cls, kind := kind, team := u, group := groupOf tid, thread := tid, core := t.core,
      interval := if past then none else some t.interval, hyp := th.hyp, sup := th.priv == .supervisor, blockOff := off,
      issuedAt := s.cyc, promise := promise, charge := charge, rowsDone := [], started := false, complete := false,
      acked := false, fault := none, clash := [], touched := [], held := [], rowBuf := [], parts := [], paid := 0,
      excused := false }
  let s := s.updGrp u (groupOf tid) (fun g => g.setCtr cls (fun n => n + 1))
  (uid, { s with ops := s.ops ++ [o] })

/-- An operation by its identity. -/
def op? (s : State) (uid : Nat) : Option EngineOp := s.ops.find? (fun o => o.uid == uid)

/-- Changes an operation. -/
def updOp (s : State) (uid : Nat) (f : EngineOp → EngineOp) : State :=
  { s with ops := mapWhere (fun o => o.uid == uid) f s.ops }

/-! ## Bytes that engines reach -/

/-- Whether two operations' byte steps are ordered: matrix operations of one team (R207). -/
def ordered (a b : EngineOp) : Bool := a.cls == .matrix && b.cls == .matrix && a.team == b.team

/-- Whether an operation writes a place. -/
def opWrites (s : State) (o : EngineOp) (p : Place) : Bool :=
  let t := s.team o.team
  ((s.opExtents o).filter Extent.write).any (fun e => s.extentHas t.vdev t.ctx e p)

/-- Whether an operation reads a place. -/
def opReads (s : State) (o : EngineOp) (p : Place) : Bool :=
  let t := s.team o.team
  ((s.opExtents o).filter (fun e => !e.write)).any (fun e => s.extentHas t.vdev t.ctx e p)

/-- Whether another operation in flight, not ordered against this one, writes a place (R229). -/
def otherWrites (s : State) (o : EngineOp) (p : Place) : Bool :=
  s.ops.any (fun x => x.uid != o.uid && !ordered x o && s.opWrites x p)

/-- Whether two operations in flight, not ordered against each other, write a place (R229). -/
def twiceWritten (s : State) (p : Place) : Bool :=
  let ws := s.ops.filter (fun o => s.opWrites o p)
  ws.any (fun a => ws.any (fun b => a.uid != b.uid && !ordered a b))

/-- The bytes an engine reads: a byte that a colliding write has touched (R315), or that two operations in flight write, is unspecified
(R229). One that a single other operation writes has its old or its new value, as the byte steps stand (R314). -/
def engineSees (s : State) (place : Nat → Place) (bs : List Byte) : List Byte × State :=
  let hit := (List.range bs.length).map (fun i => s.touchedPlace (place i) || s.twiceWritten (place i))
  if hit.any id then
    (((List.range bs.length).map (fun i =>
      if hit.getD i false then Config.freeByte (s.draws * 65536 + i) else bs.getD i 0)), s.draw)
  else (bs, s)

/-- The bytes a copy writes: those of its own source are unspecified (R229). -/
def engineGives (s : State) (o : EngineOp) (place : Nat → Place) (bs : List Byte) : List Byte × State :=
  let hit := (List.range bs.length).map (fun i => o.cls == .ferry && s.opReads o (place i))
  if hit.any id then
    (((List.range bs.length).map (fun i =>
      if hit.getD i false then Config.freeByte (s.draws * 65536 + i) else bs.getD i 0)), s.draw)
  else (bs, s)

/-- An engine fault's record (R225). -/
def faultRec (o : EngineOp) (va : Nat) (sp : Space) (wr : Bool) : FaultRec :=
  { op := o.uid, cls := o.cls, tva := BitVec.ofNat 64 va, tvb := BitVec.ofNat 64 o.blockOff, space := sp, wr := wr,
    past := o.interval.isNone }

/-- An engine's translation of an address. A page walk that misses the die's cache excuses a Ferry operation from its promise (R231). -/
def engineXlate (s : State) (o : EngineOp) (va : Nat) (k : XKind) : Res (Except Cause Nat) :=
  let t := s.team o.team
  let ident := identOf t.vdev t.ctx
  let walks := (tlbHit (s.cor o.core).tlb ident va).isNone && (tlbHit (s.die (o.core / Config.coresPerDie)).tlb ident va).isNone
  (s.translate (some o.team) o.core t.vdev t.ctx va k o.sup).bind fun r s =>
    .ok r (if walks && o.cls == .ferry then s.updOp o.uid (fun x => { x with excused := true }) else s)

/-! ## Reads -/

/-- An engine's read of a span of one line in space G (R229, R314, R323). -/
def engineReadG (s : State) (o : EngineOp) (va n : Nat) : Res (Except FaultRec (List Byte)) :=
  let t := s.team o.team
  (s.engineXlate o va .readOther).bind fun r s =>
  match r with
  | .error _ => .ok (.error (faultRec o va .g false)) s
  | .ok pa =>
    if s.damaged.contains (lineOf pa) then .ok (.error (faultRec o va .g false)) s
    else
    let (c, s) := s.detClass o.team pa
    if c == .waits then .wait .serial s
    else
      (s.homeRead (some o.team) o.core t.vdev t.ctx pa 0).bind fun _ s =>
        let path := s.hypPath (s.hypFollow o.hyp).1
        let bs := if c == .shared then (List.range n).map (fun i => s.viewByteBuf o.team path (pa + i))
          else s.viewBytes path pa n
        let (bs, s) := s.engineSees (fun i => .hbm (pa + i)) bs
        .ok (.ok bs) (if path.isEmpty then s else s.meetVersion o.core (lineOf pa))

/-- An engine's read of a span of one scratchpad row. -/
def engineReadScr (s : State) (o : EngineOp) (target off n : Nat) : Res (List Byte) :=
  let (ok, s) := s.escape (some o.team) (LogItem.isScratch target (scratchRowOf off))
  if !ok then .wait .home s
  else
    let s := s.meetTeams o.team target
    let (bs, s) := s.engineSees (fun i => .scr target (off + i)) (Mem.read (s.team target).scratch off n)
    .ok bs s

/-- The team whose scratchpad an address word names, and the offset (R128). -/
def scrTarget (s : State) (u : Nat) (sp : Space) (a : Nat) : Nat × Nat :=
  if sp == .c then ((s.rankMember u (bitsOf a 24 4)).getD u, bitsOf a 0 24) else (u, a)

/-- An engine's read of spans in a space. -/
def engineRead (s : State) (o : EngineOp) (sp : Space) : List (Nat × Nat) → Res (Except FaultRec (List Byte))
  | [] => .ok (.ok []) s
  | e :: r =>
    (if sp == .g then s.engineReadG o e.1 e.2
     else
      let (target, off) := s.scrTarget o.team sp e.1
      (s.engineReadScr o target off e.2).bind fun bs s => .ok (.ok bs) s).bind fun x s =>
    match x with
    | .error f => .ok (.error f) s
    | .ok bs => (s.engineRead o sp r).bind fun y s => .ok (y.map (fun rest => bs ++ rest)) s

/-! ## Writes -/

/-- An engine's write of bytes of one line at a physical address under its hypothesis; false where no way is free (R353).
Writes of a refuted hypothesis are lost with it (R360). -/
def engineWritePa (s : State) (o : EngineOp) (pa : Nat) (data : List Byte) : Res Bool :=
  let t := s.team o.team
  let (h, ref) := s.hypFollow o.hyp
  if ref.isSome then .ok true s
  else
    let (data, s) := s.engineGives o (fun i => .hbm (pa + i)) data
    if h = 0 then
      (s.homeWriteAs (some o.team) (if o.interval.isSome then some o.team else none) (some o.core) t.vdev t.ctx pa data).bind
        fun _ s => .ok true s
    else s.writeVersionAs o.team o.core o.interval.isSome h pa data

/-- An engine's write of bytes of one line in space G; in a deterministic launch a shared line's write is held (R365). A byte step of a
refuted operation is discarded (R320, R360); the others mark the readers of what they write (R330, R338). -/
def engineWriteG (s : State) (o : EngineOp) (va : Nat) (data : List Byte) : Res (Except FaultRec (List BufEntry)) :=
  (s.engineXlate o va .write).bind fun r s =>
  let (h, ref) := s.hypFollow o.hyp
  match r with
  | .error _ => .ok (.error (faultRec o va .g true)) s
  | .ok pa =>
    if s.damaged.contains (lineOf pa) then .ok (.error (faultRec o va .g true)) s
    else if ref.isSome then .ok (.ok []) s
    else
    let (c, s) := s.detClass o.team pa
    match c with
    | .waits => .wait .serial s
    | .shared =>
      (s.holdVersion o.team h pa).bind fun ok s =>
      if !ok then .ok (.error (faultRec o va .g true)) s
      else .ok (.ok [⟨none, o.hyp, .engine o.uid va ((List.range data.length).map (fun i => (pa + i, data.getD i 0)))⟩]) s
    | .ordinary =>
      (s.engineWritePa o pa data).bind fun ok s =>
        if ok then .ok (.ok []) (s.markWrite o.team va data.length) else .ok (.error (faultRec o va .g true)) s

/-- An engine's write of bytes of one scratchpad row, logged in its team's interval (R255). -/
def engineWriteScr (s : State) (o : EngineOp) (target off : Nat) (data : List Byte) : Res Unit :=
  let (ok, s) := s.escape (some o.team) (LogItem.isScratch target (scratchRowOf off))
  if !ok then .wait .home s
  else
    let s := s.meetTeams o.team target
    let (data, s) := s.engineGives o (fun i => .scr target (off + i)) data
    let s := if o.interval.isSome then s.logScratch o.team target (scratchRowOf off) else s
    .ok () (s.updTeam target (fun t => { t with scratch := Mem.write t.scratch off data }))

/-- Whether a deterministic team's engine write to a rank is held to a serial phase (R365). -/
def heldRank (s : State) (u : Nat) (sp : Space) (a : Nat) : Bool :=
  sp == .c && (s.lau (s.team u).launch).det && bitsOf a 24 4 != (s.team u).rank

/-- An engine's write of chunks in a space: the writes held for a serial phase. -/
def engineWrite (s : State) (o : EngineOp) (sp : Space) : List (Nat × List Byte) → Res (Except FaultRec (List BufEntry))
  | [] => .ok (.ok []) s
  | e :: r =>
    (if sp == .g then s.engineWriteG o e.1 e.2
     else if s.heldRank o.team sp e.1 then
      .ok (.ok [⟨none, o.hyp, .cstore (bitsOf e.1 24 4) (bitsOf e.1 0 24) e.2⟩]) s
     else
      let (target, off) := s.scrTarget o.team sp e.1
      (s.engineWriteScr o target off e.2).bind fun _ s => .ok (.ok []) s).bind fun x s =>
    match x with
    | .error f => .ok (.error f) s
    | .ok hs => (s.engineWrite o sp r).bind fun y s => .ok (y.map (fun rest => hs ++ rest)) s

/-! ## Landing barriers (R233, R234) -/

/-- A landing barrier's bytes after a countdown, and with FAULT set where asked (R233, R234). -/
def countdown (remain phase flags n : Nat) (fault : Bool) : List Byte :=
  if fault then toBytes 8 remain ++ toBytes 4 phase ++ toBytes 4 (flags ||| 2)
  else
    let left := remain - n
    let phase := if 0 < remain && left = 0 then phase + 1 else phase
    toBytes 8 left ++ toBytes 4 phase ++ toBytes 4 (if remain < n then flags ||| 1 else flags)

/-- A countdown on a barrier of a team's scratchpad by a team's engine: one step (R234). -/
def countBarrier (s : State) (by_ : Option Nat) (logs : Bool) (target off n : Nat) (fault : Bool) : Res Unit :=
  let (ok, s) := s.escape by_ (LogItem.isScratch target (scratchRowOf off))
  if !ok then .wait .home s
  else
    let m := (s.team target).scratch
    let bytes := countdown (leNat (Mem.read m off 8)) (leNat (Mem.read m (off + 8) 4)) (leNat (Mem.read m (off + 12) 4)) n fault
    let s := match by_ with
      | some u => (if logs then s.logScratch u target (scratchRowOf off) else s).meetTeams u target
      | none => s.afterOutside (s.team target).core
    .ok () (s.updTeam target (fun t => { t with scratch := Mem.write t.scratch off bytes }))

/-! ## Reports -/

/-- The class's earlier operations of the group have been reported (R223). -/
def oldestOf (s : State) (o : EngineOp) : Bool :=
  !s.ops.any (fun x => x.team == o.team && x.group == o.group && x.cls == o.cls && decide (x.uid < o.uid))

/-- The places an operation has written in which another operation in flight also writes (R229). -/
def clashes (s : State) (o : EngineOp) : List Place :=
  if s.ops.any (fun x => x.uid != o.uid && !ordered x o) then
    let t := s.team o.team
    (((s.opExtents o).filter Extent.write).flatMap (s.extentPlaces t.vdev t.ctx)).filter (s.otherWrites o)
  else []

/-- Leaves a place unspecified, in the view of the hypothesis it was written under (R315); a version that a refute has dropped leaves
nothing behind (R322). -/
def freePlace (s : State) (o : EngineOp) (x : ByteTouch) : Res Unit :=
  let b := Config.freeByte (s.draws * 65536)
  match x.place with
  | .hbm pa => (s.draw.engineWritePa { o with hyp := x.hyp } pa [b]).bind fun _ s => .ok () s
  | .scr t off => s.draw.engineWriteScr o t off [b]

/-- Leaves places unspecified. -/
def freePlaces (s : State) (o : EngineOp) : List ByteTouch → Res Unit
  | [] => .ok () s
  | p :: r => (s.freePlace o p).bind fun _ s => s.freePlaces o r

/-- The rows of an MMA's accumulator whose row of A a colliding write has touched: unspecified, unless a later operation has set the
accumulator to zero (R315). -/
def spoilProduct (s : State) (o : EngineOp) : State :=
  match o.kind with
  | .mma b _ _ =>
    let reset := s.ops.any (fun x => x.team == o.team && decide (o.uid < x.uid) && x.complete &&
      (match x.kind with
       | .mzero a _ => a == b.acc
       | .mdrain d => d.acc == b.acc && d.clear
       | _ => false))
    let row (i : Nat) : Extent := ⟨false, o.team, b.abase + i * b.astride, 0, 1, elemBytes b.fmt b.aelems, false⟩
    let rows := (List.range b.arows).filter (fun i => o.touched.any (fun x => s.extentHas 0 0 (row i) x.place))
    if reset || rows.isEmpty then s
    else
      let new (es : SMap Word) : SMap Word := rows.foldl (fun m i => (List.range 128).foldl (fun m j =>
        SMap.put m (128 * i + j) (Config.freeWord (s.draws * 65536 + 128 * i + j)) 0) m) es
      s.draw.updBody o.team (fun t =>
        let a := SMap.get t.accs b.acc Acc.start
        { t with accs := SMap.set t.accs b.acc { a with elems := new a.elems } })
  | _ => s

/-- The report of a completed operation (R223, R225, R229, R231, R315, R365): colliding bytes end unspecified; the counter
falls; a fault's record goes to the group; a late promise counts; held writes go to the team's buffer. -/
def report (s : State) (o : EngineOp) : State :=
  let mine := s.clashes o
  match s.freePlaces o (o.touched ++ (o.clash ++ mine).map (fun p => ⟨p, o.hyp⟩)) with
  | .wait _ tried => s.askCloses tried
  | .trap _ s => s
  | .ok _ s =>
    let s := s.spoilProduct o
    let s := { s with ops := (s.ops.filter (fun (x : EngineOp) => x.uid != o.uid)).map (fun (x : EngineOp) =>
      let add := mine.filter (s.opWrites x)
      if add.isEmpty || ordered x o then x else { x with clash := x.clash ++ add }) }
    let s := s.updGrp o.team o.group (fun g =>
      let g := g.setCtr o.cls (fun n => n - 1)
      match o.fault with
      | some f => { g with faults := g.faults ++ [{ f with past := o.interval.isNone }] }
      | none => g)
    let s := if o.cls == .ferry && decide (o.promise < s.cyc) then
        { s.count (s.team o.team).vdev 0x05 1 with henip := { s.henip with
          pendingHealth := { s.henip.pendingHealth with promiseMisses := s.henip.pendingHealth.promiseMisses + 1 } } }
      else s
    let s := if o.held.isEmpty then s else s.updBody o.team (fun b => { b with buf := b.buf ++ o.held })
    s.settle o.team

end State

/-- ENGINE_COMPLETION_REPORT (R223): an operation that is complete, when every earlier one of its group and class has been
reported. -/
def execEngineCompletionReport (op : Nat) (s : State) : Ran :=
  match s.op? op with
  | none => .next s
  | some o => .next (if o.complete && s.oldestOf o then s.report o else s)

end Sys2Proof.Machine
end

