-- ==== Sys2Proof/Machine/Ferry.lean ====
section
/-! DEFINITION. The Ferry (R226 to R232): CPY's block and its checks, the promise, and the transfer of a row with its
landing-barrier countdowns and tile stamps. -/

namespace Sys2Proof.Machine

/-- A space code of a block (R226, R412). -/
def blockSpace (n : Nat) : Space :=
  match n with
  | 0 => .g
  | 1 => .l
  | _ => .c

/-- A CPY block's fields (R226). -/
def parseCpy (b : List Byte) : CpyBlk :=
  let flags := leAt b 3 1
  { sspace := blockSpace (leAt b 1 1), dspace := blockSpace (leAt b 2 1), mcast := flags.testBit 0, lbar := flags.testBit 1,
    out := flags.testBit 2, tile := leAt b 4 2, ranks := leAt b 6 2, sbase := leAt b 8 8, dbase := leAt b 16 8,
    sstride := leAt b 24 4, dstride := leAt b 28 4, rows := leAt b 32 4, rowBytes := leAt b 36 4, lboff := leAt b 40 4 }

/-- The fields of a CPY block that are within R226 and R227, in offset order. -/
def cpyFields (b : List Byte) (k : CpyBlk) : List (Nat × Bool) :=
  let small (n : Nat) : Bool := decide (n < 4294967296)
  [ (0, leAt b 0 1 == 4)
  , (1, decide (leAt b 1 1 ≤ 2))
  , (2, decide (leAt b 2 1 ≤ 2) && (!k.mcast || leAt b 2 1 == 2) && !(k.lbar && leAt b 2 1 == 0))
  , (3, decide (leAt b 3 1 < 8))
  , (4, decide (k.tile < 4096))
  , (6, decide (k.ranks < 4096) && (k.mcast == decide (k.ranks ≠ 0)))
  , (8, k.sspace == .g || small k.sbase)
  , (16, k.dspace == .g || (small k.dbase && !(k.mcast && bitsOf k.dbase 24 4 != 0)))
  , (28, decide (k.rows ≤ 1) || decide (k.rowBytes ≤ k.dstride))
  , (32, decide (1 ≤ k.rows ∧ k.rows ≤ 65536))
  , (36, decide (1 ≤ k.rowBytes ∧ k.rowBytes ≤ 16777216))
  , (40, if k.lbar then k.lboff % 16 == 0 else k.lboff == 0)
  , (44, leAt b 44 4 == 0) ]

/-- One past the last byte of a block's record (R226). -/
def recordTop (base stride rows rowBytes : Nat) : Nat := base + (rows - 1) * stride + rowBytes

/-- The number of destination teams (R227). -/
def CpyBlk.dests (k : CpyBlk) : Nat := if k.mcast then (State.cpyRanks k).length else 1

/-- The charged bytes (R227). -/
def CpyBlk.charge (k : CpyBlk) : Nat := k.rows * k.rowBytes * k.dests

/-- The base address words of the destinations: one for each rank of a multicast (R227). -/
def CpyBlk.destBases (k : CpyBlk) : List Nat :=
  if k.mcast then (State.cpyRanks k).map (fun r => r * 16777216 + k.dbase) else [k.dbase]

namespace State

/-- An extent in scratchpad within its team's SCRATCH (R228 step 4). -/
def scrExtentOk (s : State) (u : Nat) (sp : Space) (base stride rows rowBytes : Nat) : Bool :=
  let top := recordTop (if sp == .c then bitsOf base 0 24 else base) stride rows rowBytes
  match sp with
  | .l => decide (top ≤ s.scratchSize u)
  | .c => bitsOf base 28 4 == 0 && decide (bitsOf base 24 4 < s.clusterTeams u) &&
      decide (top ≤ s.scratchSizeOf u (bitsOf base 24 4))
  | _ => true

/-- The checks of R228 steps 4 and 5: the first that fails. -/
def cpyExtentTrap (s : State) (u : Nat) (k : CpyBlk) : Option TrapInfo :=
  let trap (c : Cause) (sp : Space) (wr : Bool) (base stride : Nat) : TrapInfo :=
    accTrap c sp wr base (recordTop base stride k.rows k.rowBytes - base)
  let src := if s.scrExtentOk u k.sspace k.sbase k.sstride k.rows k.rowBytes then none
    else some (trap .scratchBounds k.sspace false k.sbase k.sstride)
  let dst := (k.destBases.find? (fun b => !s.scrExtentOk u k.dspace b k.dstride k.rows k.rowBytes)).map
    (fun b => trap .scratchBounds k.dspace true b k.dstride)
  let bars := if k.lbar then
      (k.destBases.map (fun b => if k.dspace == .c then b / 16777216 * 16777216 + k.lboff else k.lboff)).find?
        (fun a => !s.scrExtentOk u k.dspace a 0 1 16) |>.map (fun a => accTrap .scratchBounds k.dspace true a 16)
    else none
  let far (sp : Space) (wr : Bool) (base stride : Nat) : Option TrapInfo :=
    if sp == .g && decide (9007199254740992 < recordTop base stride k.rows k.rowBytes) then some (trap .xlate sp wr base stride)
    else none
  src <|> dst <|> bars <|> far k.sspace false k.sbase k.sstride <|> far k.dspace true k.dbase k.dstride

/-- The virtual rows of a record in space G, where its context has modifiable regions: the rows that the manifest's rules meet. -/
def recordRows (s : State) (u : Nat) (sp : Space) (base stride rows : Nat) : List Nat :=
  if sp == .g && !(s.ctx (s.team u).vdev (s.team u).ctx).regions.isEmpty then (List.range rows).map (fun i => base + i * stride) else []

/-- The manifest's checks of rows at issue (R330 to R332). -/
def checkRows (s : State) (u : Nat) (wr : Bool) (n : Nat) : List Nat → Res Unit
  | [] => .ok () s
  | a :: r => (if wr then s.checkWrite u a n else s.checkRead u a n).bind fun _ s => s.checkRows u wr n r

/-- Checked rows recorded at issue (R330 to R332). Other manifests are marked in the step of each byte written (R338). -/
def noteRows (s : State) (u h : Nat) (wr : Bool) (n : Nat) (rows : List Nat) : State :=
  rows.foldl (fun s a => if wr then s.recordWrite s u h a n else s.noteRead u h a n) s

/-- The bytes of the virtual device's earlier Ferry operations on the core that remain to be written (R230). -/
def ferryBacklog (s : State) (core d : Nat) : Nat :=
  (s.ops.map (fun o =>
    match o.kind with
    | .cpy k => if o.core = core && (s.team o.team).vdev = d && !o.complete then
        o.charge - o.rowsDone.length * k.rowBytes * k.dests else 0
    | _ => 0)).sum

/-- The promise (R230). -/
def promiseOf (s : State) (u : Nat) (k : CpyBlk) : Nat :=
  let t := s.team u
  let rate := (s.bucket (.ferry t.core) t.vdev).rate
  if rate = 0 then 0xFFFFFFFFFFFFFFFF
  else
    let lf := if k.sspace == .g || k.dspace == .g then 640 else 96
    s.cyc + lf + ((s.ferryBacklog t.core t.vdev + k.charge) * 65536 + rate - 1) / rate

/-- CPY's course in one thread (R228). -/
def cpyIssue (s : State) (u tid : Nat) (d : BitVec 7) (off : Nat) : Act × State :=
  let pc := (s.thr u tid).pc
  match s.readBlock u off 48 with
  | .wait k s => (.retry k, s)
  | .trap x s => (.trap x, s)
  | .ok b s =>
    let k := parseCpy b
    let bases := (if k.sspace == .c then [k.sbase] else []) ++ (if k.dspace == .c then k.destBases else [])
    if bases.any (fun a => (s.rankTeam u (bitsOf a 24 4)).any (fun v => v != u && s.switchBegun v)) then (.retry .home, s)
    else
    match firstBad (cpyFields b k) with
    | some f => (.trap (fieldTrap pc off f), s)
    | none =>
      match s.cpyExtentTrap u k with
      | some x => (.trap x, s)
      | none =>
        if !s.hasRoom u tid .ferry then (.retry (.room (.engine .ferry)), s)
        else
          let h := (s.thr u tid).hyp
          let src := s.recordRows u k.sspace k.sbase k.sstride k.rows
          let dst := s.recordRows u k.dspace k.dbase k.dstride k.rows
          match (s.checkRows u false k.rowBytes src).bind fun _ s => s.checkRows u true k.rowBytes dst with
          | .wait w s => (.retry w, s)
          | .trap x s => (.trap x, s)
          | .ok _ s =>
            let s := (s.noteRows u h false k.rowBytes src).noteRows u h true k.rowBytes dst
            let p := s.promiseOf u k
            let s := (s.enqueue u tid .ferry (.cpy k) off p k.charge).2
            let s := s.count (s.team u).vdev 0x04 k.charge
            (.go, s.writeDest u tid d .n64 p)

/-! ## Transfers -/

/-- Whether an operation may start or go on: a virtual device's operations on a core start in issue order (R229). -/
def ferryMayRun (s : State) (o : EngineOp) : Bool :=
  o.started || !s.ops.any (fun x => x.cls == .ferry && x.core == o.core && decide (x.uid < o.uid) && !x.started &&
    (s.team x.team).vdev == (s.team o.team).vdev)

/-- The other virtual devices whose copies wait for tokens on a core, with whether they have some of their own (R383). -/
def ferryRivals (s : State) (o : EngineOp) : List (Nat × Bool) :=
  let a : Arbiter := .ferry o.core
  let d := (s.team o.team).vdev
  (s.ops.filter (fun x => x.cls == .ferry && x.core == o.core && !x.complete && x.fault.isNone && (s.team x.team).vdev != d &&
    s.affords a (s.team x.team).vdev 1)).map (fun x => ((s.team x.team).vdev, s.ownPays a (s.team x.team).vdev 1))

/-- Tokens drawn towards a row, each charged byte costing one (R382, R383): whether the row is paid. A promise that falls due draws on
the Ferry's reserve. -/
def payRow (s : State) (o : EngineOp) (k : CpyBlk) (due : Bool) : Bool × State :=
  let d := (s.team o.team).vdev
  let a : Arbiter := .ferry o.core
  let need := k.rowBytes * k.dests - o.paid
  let own := min need ((s.bucket a d).tokens / 65536)
  let lent := if (s.vd d).borrow && s.poolTurnOf a d (s.ferryRivals o) then min (need - own) (s.pool a / 65536) else 0
  let s := (s.spendOwn a d own).spendPool a lent
  let s := if lent = 0 then s else { s with poolTurns := SMap.set s.poolTurns a.number d }
  (due || need == own + lent, s.updOp o.uid (fun x => { x with paid := x.paid + own + lent }))

/-- Notes a part of an operation that is done: a row, the place of a destination, and the place of a chunk in the row, or the row's end
for its landing-barrier countdown. Past the last row it is the FAULT bit of the destination's barrier. -/
def partDone (s : State) (uid row dest at_ : Nat) (hs : List BufEntry) : State :=
  s.updOp uid (fun x => { x with parts := (row, dest, at_) :: x.parts, held := x.held ++ hs })

/-- Whether a part is done. -/
def hasPart (s : State) (uid row dest at_ : Nat) : Bool := (s.op? uid).any (fun x => x.parts.contains (row, dest, at_))

/-- The chunks of a row at one destination that are still to be written: each waits by itself where it must (R229). -/
def ferryChunks (s : State) (o : EngineOp) (k : CpyBlk) (row dest base : Nat) : List (Nat × List Byte) → State × Option FaultRec
  | [] => (s, none)
  | c :: r =>
    if s.hasPart o.uid row dest (c.1 - base) then s.ferryChunks o k row dest base r
    else match s.engineWrite o k.dspace [c] with
      | .ok (.ok hs) s => (s.partDone o.uid row dest (c.1 - base) hs).ferryChunks o k row dest base r
      | .ok (.error f) s => (s, some f)
      | .wait _ s => s.ferryChunks o k row dest base r
      | .trap _ s => s.ferryChunks o k row dest base r

/-- A landing barrier of a destination counted down once, or marked with FAULT (R234); one that must wait is left for later. -/
def ferryCount (s : State) (o : EngineOp) (k : CpyBlk) (row dest at_ base n : Nat) (fault : Bool) : State :=
  if s.hasPart o.uid row dest at_ then s
  else if !k.lbar then s.partDone o.uid row dest at_ []
  else if s.heldRank o.team k.dspace base then
    s.partDone o.uid row dest at_ [⟨none, o.hyp, .ccount (bitsOf base 24 4) k.lboff n fault⟩]
  else
    match s.countBarrier (some o.team) o.interval.isSome (s.scrTarget o.team k.dspace base).1 k.lboff n fault with
    | .ok _ s => s.partDone o.uid row dest at_ []
    | .wait _ s => s
    | .trap _ s => s

/-- A row at every destination, each on its own (R280): its bytes, and then its landing barrier's countdown (R229, R234). -/
def ferryDests (s : State) (o : EngineOp) (k : CpyBlk) (row : Nat) (bytes : List Byte) :
    List (Nat × Nat) → State × Option FaultRec
  | [] => (s, none)
  | (b, i) :: r =>
    let base := b + row * k.dstride
    let chunks := lineChunks base bytes
    match s.ferryChunks o k row i base chunks with
    | (s, some f) => (s, some f)
    | (s, none) =>
      let s := if chunks.all (fun c => s.hasPart o.uid row i (c.1 - base)) then
          s.ferryCount o k row i k.rowBytes b k.rowBytes false else s
      s.ferryDests o k row bytes r

/-- The stamps of a tile at a Ferry operation's start (R232). -/
def stampStart (s : State) (o : EngineOp) (k : CpyBlk) : State :=
  if k.out then s
  else s.stampTile o.team k.tile o.interval .cins

/-- The stamps of a tile at a Ferry operation's completion, and the tile's close (R232, R375). -/
def stampEnd (s : State) (o : EngineOp) (k : CpyBlk) : State :=
  if k.tile = 0xFFF then s
  else if !k.out then s.stampTile o.team k.tile o.interval .cine
  else
    match s.tile? o.team k.tile with
    | none => s
    | some _ =>
      let s := s.stampTile o.team k.tile o.interval .coute
      let others := s.ops.any (fun x => x.uid != o.uid && x.team == o.team && !x.complete &&
        (match x.kind with | .cpy j => j.tile == k.tile | _ => false))
      if others then s else s.closeTile o.team k.tile

/-- An operation that ends: complete, with its fault and its held writes. -/
def finishOp (s : State) (uid : Nat) (f : Option FaultRec) : State :=
  let s := s.updOp uid (fun o => { o with complete := true, fault := f })
  s.post (.engineCompletionReport uid)

/-- A faulted operation (R225, R234): it counts nothing down any more, and is complete once every barrier it counts shows FAULT. -/
def ferryFault (s : State) (o : EngineOp) (k : CpyBlk) (f : FaultRec) : State :=
  let s := s.updOp o.uid (fun x => { x with fault := some f })
  let s := k.destBases.zipIdx.foldl (fun s e => s.ferryCount o k k.rows e.2 0 e.1 0 true) s
  if k.destBases.zipIdx.all (fun e => s.hasPart o.uid k.rows e.2 0) then (s.stampEnd o k).finishOp o.uid (some f) else s

/-- The rest of a row whose source has been read: a row all of whose destinations are done is done, and the last row completes the
operation (R229). -/
def ferryWrite (s : State) (o : EngineOp) (k : CpyBlk) (row : Nat) (bytes : List Byte) : State :=
  let dests := k.destBases.zipIdx
  match s.ferryDests o k row bytes dests with
  | (s, some f) => s.ferryFault o k f
  | (s, none) =>
    if dests.all (fun e => s.hasPart o.uid row e.2 k.rowBytes) then
      let done := insertNat row o.rowsDone
      let s := s.updOp o.uid (fun x =>
        { x with rowsDone := done, parts := x.parts.filter (fun p => p.1 != row), rowBuf := SMap.erase x.rowBuf row })
      if k.rows ≤ done.length then (s.stampEnd o k).finishOp o.uid none else s
    else s

/-- A row of a copy (R229): paid for and read once, then written as far as nothing makes a write wait. `due` is a promise that falls due
(R231). -/
def ferryRow (s : State) (o : EngineOp) (k : CpyBlk) (row : Nat) (due : Bool) : State :=
  match o.fault with
  | some f => s.ferryFault o k f
  | none =>
    let s := if o.started then s else (s.updOp o.uid (fun x => { x with started := true })).stampStart o k
    match SMap.find o.rowBuf row with
    | some bytes => s.ferryWrite o k row bytes
    | none =>
      let (ok, s) := s.payRow o k due
      if !ok then s
      else match s.engineRead o k.sspace (lineSpans (k.sbase + row * k.sstride) k.rowBytes) with
        | .wait _ tried => s.askCloses tried
        | .trap _ s => s
        | .ok (.error f) s => s.ferryFault o k f
        | .ok (.ok bytes) s =>
          (s.updOp o.uid (fun x => { x with rowBuf := SMap.set x.rowBuf row bytes, paid := 0 })).ferryWrite o k row bytes

/-- The rows of a copy that are left, moved as far as they can be. -/
def ferryRows (s : State) (uid : Nat) (due : Bool) : List Nat → State
  | [] => s
  | row :: r =>
    match s.op? uid with
    | some o =>
      match o.kind with
      | .cpy k => (if o.complete || o.rowsDone.contains row then s else s.ferryRow o k row due).ferryRows uid due r
      | _ => s
    | none => s

/-- The lines of memory that a copy reaches, granted ahead: the Ferry reserves what its promise needs (R231, R382). -/
def grantAhead (s : State) (u : Nat) (k : CpyBlk) : State :=
  let t := s.team u
  let lines (sp : Space) (base stride : Nat) : List Nat :=
    if sp != .g then []
    else (List.range k.rows).flatMap (fun i => (lineSpans (base + i * stride) k.rowBytes).filterMap (fun e =>
      (s.deviceWalk t.vdev t.ctx e.1).map (fun w => lineOf w.1)))
  let all := lines k.sspace k.sbase k.sstride ++ lines k.dspace k.dbase k.dstride
  { s with memGrants := s.memGrants ++ all.map (fun line => (t.vdev, line)) }

/-- The copies whose promise passes with the current cycle are reported in it, with the earlier ones of their group (R223, R231): all
but those a page walk or a move has excused, a virtual device in reset, and what a write in another team's open interval makes
wait (R229, R259). -/
def keepPromises (s : State) : State :=
  let due (o : EngineOp) : Bool := o.cls == .ferry && o.promise == s.cyc && !o.excused && (s.team o.team).phase.resident &&
    (s.vd (s.team o.team).vdev).resetting.isNone
  let first (o x : EngineOp) : Bool := x.team == o.team && x.group == o.group && x.cls == .ferry && decide (x.uid ≤ o.uid)
  let run := s.ops.filter (fun x => s.ops.any (fun o => due o && first o x))
  run.foldl (fun s x =>
    let s := match x.kind with
      | .cpy k =>
        let kept := s.memGrants
        { (s.grantAhead x.team k).ferryRows x.uid true (List.range k.rows) with memGrants := kept }
      | _ => s
    match s.op? x.uid with
    | some o => if o.complete && s.oldestOf o then s.report o else s
    | none => s) s

end State

/-- CPY (R228): the promise is in place for the next instruction. -/
def execCpy (h : Head) (d : BitVec 7) (a : Src) (s : State) : Ran :=
  .next (perThread (.cpy h d a) (fun s u tid => s.cpyIssue u tid d (s.readSrc u tid 0 a .n32)) s)

/-- FERRY_TRANSFER (R229): one row of an operation in flight, as far as tokens and writes that wait allow it (R259, R382). -/
def execFerryTransfer (op row : Nat) (s : State) : Ran :=
  match s.op? op with
  | none => .next s
  | some o =>
    match o.kind with
    | .cpy k =>
      .next (if !o.complete && decide (row < k.rows) && !o.rowsDone.contains row && s.ferryMayRun o &&
        (s.vd (s.team o.team).vdev).resetting.isNone then s.ferryRow o k row false else s)
    | _ => .next s

end Sys2Proof.Machine
end

