-- ==== Sys2Proof/Machine/Sfq.lean ====
section
/-! DEFINITION. The special-function queue (R237 to R240): the twelve functions as enclosures in fixed point, rounded once
where both ends of the enclosure round alike (notes/assumptions/25.md), SFQ and SFQ_RESULT. -/

namespace Sys2Proof.Machine

/-! ## Enclosures -/

/-- The fraction bits of an enclosure. -/
def encBits : Nat := 400

/-- A nonnegative real between `lo` and `hi`, in units of 2^-400. -/
structure Enc where
  lo : Nat
  hi : Nat
deriving DecidableEq, Repr

namespace Enc

/-- A quotient rounded up. -/
def ceilDiv (a b : Nat) : Nat := (a + b - 1) / b

def one : Enc := ⟨2 ^ encBits, 2 ^ encBits⟩
def add (a b : Enc) : Enc := ⟨a.lo + b.lo, a.hi + b.hi⟩
/-- The difference of a greater and a smaller. -/
def sub (a b : Enc) : Enc := ⟨a.lo - b.hi, a.hi - b.lo⟩
def mul (a b : Enc) : Enc := ⟨a.lo * b.lo / 2 ^ encBits, ceilDiv (a.hi * b.hi) (2 ^ encBits)⟩
def div (a b : Enc) : Enc := ⟨a.lo * 2 ^ encBits / b.hi, ceilDiv (a.hi * 2 ^ encBits) b.lo⟩
def scale (a : Enc) (n : Nat) : Enc := ⟨a.lo * n, a.hi * n⟩
def divBy (a : Enc) (n : Nat) : Enc := ⟨a.lo / n, ceilDiv a.hi n⟩
/-- A remainder of a series below one unit. -/
def slack (a : Enc) : Enc := ⟨a.lo, a.hi + 1⟩

/-- The integer square root, bit by bit from the top. -/
def isqrtFrom (n acc : Nat) : Nat → Nat
  | 0 => acc
  | i + 1 => isqrtFrom n (if (acc + 2 ^ i) * (acc + 2 ^ i) ≤ n then acc + 2 ^ i else acc) i

def isqrt (n : Nat) : Nat := isqrtFrom n 0 (Nat.log2 n / 2 + 1)

/-- A square root. -/
def sqrt (a : Enc) : Enc := ⟨isqrt (a.lo * 2 ^ encBits), isqrt (a.hi * 2 ^ encBits) + 1⟩

/-- m × 2^e. -/
def ofDyadic (m : Nat) (e : Int) : Enc :=
  let k := e + encBits
  if 0 ≤ k then ⟨m * 2 ^ k.toNat, m * 2 ^ k.toNat⟩ else ⟨m / 2 ^ (-k).toNat, ceilDiv m (2 ^ (-k).toNat)⟩

/-- The sum over k of t z^k / (c (k)), `t` the current power: odd reciprocals, for the inverse tangents. -/
def oddSum (z t : Enc) (k : Nat) : Nat → Enc
  | 0 => ⟨0, 1⟩
  | f + 1 => add (t.divBy (2 * k + 1)) (oddSum z (t.mul z) (k + 1) f)

/-- artanh z for z at most 1/3. -/
def artanh (z : Enc) : Enc := oddSum (z.mul z) z 0 140

/-- ln 2 = 2 artanh (1/3). -/
def ln2 : Enc := (artanh (one.divBy 3)).scale 2

/-- The sums of the even and of the odd terms of the alternating series of arctan (1/n). -/
def arctanInv (n : Nat) : Enc :=
  let z := one.divBy n
  let q := (z.mul z).mul (z.mul z)
  let evens (t : Enc) (k : Nat) : Enc := altSum q t k 100
  sub (evens z 0) (evens (z.mul (z.mul z)) 1)
where
  /-- Every second term of the series from the k-th. -/
  altSum (q t : Enc) (k : Nat) : Nat → Enc
    | 0 => ⟨0, 1⟩
    | f + 1 => add (t.divBy (2 * k + 1)) (altSum q (t.mul q) (k + 2) f)

/-- π by Machin's formula. -/
def pi : Enc := sub ((arctanInv 5).scale 16) ((arctanInv 239).scale 4)

/-- The sum of r^n / n! from a term on. -/
def expSum (r t : Enc) (n : Nat) : Nat → Enc
  | 0 => ⟨0, 1⟩
  | f + 1 => add t (expSum r ((t.mul r).divBy (n + 1)) (n + 1) f)

/-- e^x for x at least 0. -/
def exp (x : Enc) : Enc :=
  let k := x.lo / ln2.hi
  let r := sub x (ln2.scale k)
  (expSum r one 0 120).scale (2 ^ k)

/-- e^-x for x at least 0. -/
def expNeg (x : Enc) : Enc := div one (exp x)

/-- Every second term z^(2k+1) / (2k+1)! of the sine series from a term on. -/
def sinSum (z4 t : Enc) (n : Nat) : Nat → Enc
  | 0 => ⟨0, 1⟩
  | f + 1 => add t (sinSum z4 ((t.mul z4).divBy ((n + 1) * (n + 2) * (n + 3) * (n + 4))) (n + 4) f)

/-- sin z for z between 0 and π/2. -/
def sin (z : Enc) : Enc :=
  let z2 := z.mul z
  sub (sinSum (z2.mul z2) z 1 40) (sinSum (z2.mul z2) ((z.mul z2).divBy 6) 3 40)

/-- The sum of x^(2n+1) / (2n+1)!! from a term on (for Φ). -/
def gaussSum (x2 t : Enc) (n : Nat) : Nat → Enc
  | 0 => ⟨0, 1⟩
  | f + 1 => add t (gaussSum x2 ((t.mul x2).divBy (2 * n + 3)) (n + 1) f)

/-- Φ(x) − 1/2 for x between 0 and 15. -/
def phiHalf (x : Enc) : Enc :=
  let x2 := x.mul x
  let density := div (expNeg (x2.divBy 2)) (sqrt (pi.scale 2))
  density.mul (gaussSum x2 x 0 1000)

end Enc

/-- An enclosure rounded once to binary32, where its ends round alike. -/
def roundEnc (neg : Bool) (a : Enc) (e : Int) : Option Nat :=
  let lo := (roundTo .f32 .near (.fin neg a.lo e)).1
  let hi := (roundTo .f32 .near (.fin neg a.hi e)).1
  if lo = hi then some lo else none

/-- An enclosure in its own units, rounded. -/
def roundUnit (neg : Bool) (a : Enc) : Option Nat := roundEnc neg a (-encBits)

/-! ## The functions (R238, R239) -/

/-- 1/x and the roots, exactly: a quotient or root with many more bits than binary32 and a sticky bit below them. -/
def sticky (k : Nat) (exact : Bool) (e : Int) (neg : Bool) : Nat :=
  (roundTo .f32 .near (.fin neg (2 * k + if exact then 0 else 1) (e - 1))).1

/-- 1/x. -/
def rcpBits (neg : Bool) (m : Nat) (e : Int) : Nat :=
  let n := 2 ^ 128
  sticky (n / m) (n % m == 0) (-128 - e) neg

/-- √x. -/
def sqrtBits (m : Nat) (e : Int) : Nat :=
  let (m, e) := if e % 2 = 0 then (m, e) else (2 * m, e - 1)
  let n := m * 2 ^ 128
  let k := Enc.isqrt n
  sticky k (k * k == n) (e / 2 - 64) false

/-- 1/√x. -/
def rsqrtBits (m : Nat) (e : Int) : Nat :=
  let (m, e) := if e % 2 = 0 then (m, e) else (2 * m, e - 1)
  let k := Enc.isqrt (2 ^ 256 / m)
  sticky k (k * k * m == 2 ^ 256) (-(e / 2) - 128) false

/-- ln of m × 2^e: its sign and magnitude. -/
def lnEnc (m : Nat) (e : Int) : Bool × Enc :=
  let l := Nat.log2 m
  let y := (Enc.artanh (Enc.div (Enc.ofDyadic (m - 2 ^ l) 0) (Enc.ofDyadic (m + 2 ^ l) 0))).scale 2
  let k := e + l
  if 0 ≤ k then (false, (Enc.ln2.scale k.toNat).add y) else (true, (Enc.ln2.scale (-k).toNat).sub y)

/-- x modulo 2 for |x| = m × 2^e, in units of 2^e' with e' ≤ 0, and that e'. -/
def modTwo (m : Nat) (e : Int) : Nat × Nat :=
  if 0 ≤ e then (m * 2 ^ e.toNat % 2, 0) else (m % 2 ^ ((-e).toNat + 1), (-e).toNat)

/-- sin (π t / 2^d) for t / 2^d between 0 and 1/2. -/
def sinPiEnc (t d : Nat) : Enc := Enc.sin (Enc.pi.mul (Enc.ofDyadic t (-d)))

/-- sin (π x) of a nonzero x that is no integer. -/
def sinpiBits (neg : Bool) (m : Nat) (e : Int) : Option Nat :=
  let (r, d) := modTwo m e
  let one := 2 ^ d
  let (r, neg) := if one < r then (r - one, !neg) else (r, neg)
  let t := if one < 2 * r then one - r else r
  roundUnit neg (sinPiEnc t d)

/-- cos (π x) of an x that is no multiple of 1/2. -/
def cospiBits (m : Nat) (e : Int) : Option Nat :=
  let (r, d) := modTwo m e
  let one := 2 ^ d
  let r := if one < r then 2 * one - r else r
  let (t, neg) := if one < 2 * r then (2 * r - one, true) else (one - 2 * r, false)
  roundUnit neg (sinPiEnc t (d + 1))

/-- tanh of a magnitude below 16. -/
def tanhBits (neg : Bool) (x : Enc) : Option Nat :=
  let p := Enc.exp (x.scale 2)
  roundUnit neg (Enc.div (p.sub Enc.one) (p.add Enc.one))

/-- 1/(1 + e^-x). -/
def sigmBits (neg : Bool) (x : Enc) : Option Nat :=
  let p := Enc.expNeg x
  roundUnit false (if neg then Enc.div p (Enc.one.add p) else Enc.div Enc.one (Enc.one.add p))

/-- x Φ(x) of a magnitude below 15. -/
def geluBits (neg : Bool) (m : Nat) (e : Int) : Option Nat :=
  let h := Enc.phiHalf (Enc.ofDyadic m e)
  let half := Enc.one.divBy 2
  let p := if neg then half.sub h else half.add h
  roundEnc neg (p.scale m) (e - encBits)

/-- Whether |x| = m × 2^e is at least n. -/
def atLeast (m : Nat) (e : Int) (n : Nat) : Bool := !magLt m e n 0

/-- Constants of binary32. -/
def f32One : Nat := 0x3F800000
def f32Inf : Nat := 0x7F800000
def f32Nan : Nat := 0x7FC00000
def f32Neg : Nat := 0x80000000

/-- A function of a nonzero finite number ± m × 2^e; none where the enclosure does not decide. -/
def sfqFinite (fn : SfqFn) (neg : Bool) (m : Nat) (e : Int) : Option Nat :=
  match fn with
  | .rcp => some (rcpBits neg m e)
  | .sqrt => some (if neg then f32Nan else sqrtBits m e)
  | .rsqrt => some (if neg then f32Nan else rsqrtBits m e)
  | .exp2 =>
    if atLeast m e 150 then some (if neg then 0 else f32Inf)
    else
      let (r, d) := if 0 ≤ e then (m * 2 ^ e.toNat, 0) else (m, (-e).toNat)
      if r % 2 ^ d = 0 then
        let n : Int := r / 2 ^ d
        some (roundTo .f32 .near (.fin false 1 (if neg then -n else n))).1
      else
        let x := Enc.ln2.mul (Enc.ofDyadic m e)
        roundUnit false (if neg then Enc.expNeg x else Enc.exp x)
  | .log2 =>
    if neg then some f32Nan
    else if m = 2 ^ Nat.log2 m then
      let k := e + Nat.log2 m
      some (roundTo .f32 .near (.fin (decide (k < 0)) k.natAbs 0)).1
    else let r := lnEnc m e; roundUnit r.1 (r.2.div Enc.ln2)
  | .exp =>
    if atLeast m e 104 then some (if neg then 0 else f32Inf)
    else let x := Enc.ofDyadic m e; roundUnit false (if neg then Enc.expNeg x else Enc.exp x)
  | .log =>
    if neg then some f32Nan
    else if m = 2 ^ Nat.log2 m && e + Nat.log2 m == 0 then some 0
    else let r := lnEnc m e; roundUnit r.1 r.2
  | .sinpi =>
    let (r, d) := modTwo m e
    if r % 2 ^ d = 0 then some (if neg then f32Neg else 0) else sinpiBits neg m e
  | .cospi =>
    let (r, d) := modTwo m e
    if r % 2 ^ d = 0 then some (if r = 0 then f32One else f32One + f32Neg)
    else if 2 * r % 2 ^ d = 0 then some 0
    else cospiBits m e
  | .tanh =>
    if atLeast m e 16 then some (f32One + if neg then f32Neg else 0) else tanhBits neg (Enc.ofDyadic m e)
  | .sigm =>
    if atLeast m e 104 then some (if neg then 0 else f32One) else sigmBits neg (Enc.ofDyadic m e)
  | .gelu =>
    if atLeast m e 15 then some (if neg then f32Neg else (roundTo .f32 .near (.fin false m e)).1)
    else geluBits neg m e

/-- A function at a zero (R239). -/
def sfqZero (fn : SfqFn) (neg : Bool) : Nat :=
  let sgn := if neg then f32Neg else 0
  match fn with
  | .rcp => f32Inf + sgn
  | .sqrt => sgn
  | .rsqrt => f32Inf + sgn
  | .exp2 => f32One
  | .log2 => f32Inf + f32Neg
  | .exp => f32One
  | .log => f32Inf + f32Neg
  | .sinpi => sgn
  | .cospi => f32One
  | .tanh => sgn
  | .sigm => 0x3F000000
  | .gelu => sgn

/-- A function at an infinity (R239). -/
def sfqInf (fn : SfqFn) (neg : Bool) : Nat :=
  let sgn := if neg then f32Neg else 0
  match fn with
  | .rcp => sgn
  | .sqrt => if neg then f32Nan else f32Inf
  | .rsqrt => if neg then f32Nan else 0
  | .exp2 => if neg then 0 else f32Inf
  | .log2 => if neg then f32Nan else f32Inf
  | .exp => if neg then 0 else f32Inf
  | .log => if neg then f32Nan else f32Inf
  | .sinpi => f32Nan
  | .cospi => f32Nan
  | .tanh => f32One + sgn
  | .sigm => if neg then 0 else f32One
  | .gelu => if neg then f32Neg else f32Inf

/-- The function codes (R238). -/
def sfqCode (fn : SfqFn) : Nat :=
  match fn with
  | .rcp => 0 | .sqrt => 1 | .rsqrt => 2 | .exp2 => 3 | .log2 => 4 | .exp => 5 | .log => 6 | .sinpi => 7 | .cospi => 8
  | .tanh => 9 | .sigm => 10 | .gelu => 11

/-- A special function of binary32 bits (R238, R239). -/
def sfqEval (fn : SfqFn) (v : Nat) : Word :=
  match Ty.f32.num v with
  | .nan _ => BitVec.ofNat 32 f32Nan
  | .inf neg => BitVec.ofNat 32 (sfqInf fn neg)
  | .fin neg m e =>
    if m = 0 then BitVec.ofNat 32 (sfqZero fn neg)
    else match sfqFinite fn neg m e with
      | some r => BitVec.ofNat 32 r
      | none => Config.sfqUndecided (sfqCode fn) (BitVec.ofNat 32 v)

/-! ## The queue (R237, R240) -/

namespace State

/-- The groups of a bundle whose fragments wait: their token is busy, or their quad's queue is full (R237, R240). `more` are
the quads whose queues fragments of this bundle have entered. -/
def sfqHeld (s : State) (u tok : Nat) (takes : Nat → Bool) (more : List Nat) : List Nat → List Nat
  | [] => []
  | g :: r =>
    if !takes g then s.sfqHeld u tok takes more r
    else if (s.grp u g).tokens.any (fun k => k.num == tok) ||
        decide (8 ≤ s.queued u g + (more.filter (fun q => q == g / 4)).length) then
      g :: s.sfqHeld u tok takes more r
    else s.sfqHeld u tok takes (g / 4 :: more) r

/-- A thread's result enters its token, made busy by the fragment's first such thread (R237). Earlier results for the
register are overtaken (R158). -/
def sfqIssue (s : State) (u tid tok r : Nat) (v : Word) : State :=
  let g := groupOf tid
  let (q, s) := s.newUid
  let s := s.updThr u tid (fun t => { t with pend := t.pend.map (Pending.without r) })
  s.updGrp u g (fun gr =>
    let gr := gr.overtake (laneOf tid) [r]
    let others := gr.tokens
    let w := (laneOf tid, r, v)
    if others.any (fun k => k.num == tok) then
      { gr with tokens := others.map (fun k => if k.num = tok then { k with writes := k.writes ++ [w] } else k) }
    else { gr with tokens := others ++ [⟨tok, q, [w]⟩] })

end State

/-- SFQ (R237): a fragment that finds its token busy or its queue full waits whole; the others issue. -/
def execSfq (h : Head) (fn : SfqFn) (tok : BitVec 4) (d : BitVec 7) (a : Src) (s : State) : Ran :=
  let i := Instr.sfq h fn tok d a
  let u := s.issue.team
  let takes (g : Nat) : Bool := s.issue.threads.any (fun tid => groupOf tid == g && s.guard u tid h)
  let held := s.sfqHeld u tok.toNat takes [] (groupsOf s.issue.threads)
  let late := s.issue.threads.filter (fun tid => held.contains (groupOf tid) && (s.thr u tid).st.candidate)
  let s := late.foldl (fun s tid => let pc := (s.thr u tid).pc; s.waitAt u tid (.room (.token tok.toNat)) pc pc false) s
  .next (perThread i (fun s u tid =>
    (.go, s.sfqIssue u tid tok.toNat d.toNat (sfqEval fn (s.readSrc u tid 0 a .f32)))) s)

end Sys2Proof.Machine
end

