-- ==== Sys2Proof/Machine/Matrix.lean ====
section
/-! DEFINITION. The matrix engine (R204 to R222): the blocks and issue checks of MZERO, MMA and MDRAIN, the capture of B, the
arithmetic of an MMA and of a drain, and the engine's turns. -/

namespace Sys2Proof.Machine

/-! ## Blocks (R210, R211, R218) -/

/-- Whether bytes are all zero. -/
def allZero (bs : List Byte) : Bool := bs.all (fun b => b == 0)

/-- FMT of an MMA (R211). -/
def mmaFormat (n : Nat) : Option Ty :=
  match n with
  | 6 => some .f16
  | 7 => some .bf16
  | 8 => some .t8
  | 9 => some .t6
  | 10 => some .s8
  | _ => none

/-- OFMT of an MDRAIN (R218). -/
def drainFormat (n : Nat) : Option Ty :=
  match n with
  | 0 => some .s32
  | 4 => some .f32
  | _ => mmaFormat n

/-- K of a format (R212). -/
def mmaK (t : Ty) : Nat :=
  match t with
  | .t6 => 128
  | .t8 => 64
  | .s8 => 64
  | _ => 32

/-- The B registers of a format (R212). -/
def mmaRegs (t : Ty) : Nat := if t == .t6 then 24 else 16

/-- The alignment of a format's elements (R213, R218). -/
def elemAlign (t : Ty) : Nat := if t == .t6 then 1 else t.width / 8

/-- An MMA block's fields. -/
def parseMma (b : List Byte) : MmaBlk :=
  { acc := leAt b 1 1, fmt := (mmaFormat (leAt b 2 1)).getD .f16, breg := leAt b 3 1, tile := leAt b 4 2, abase := leAt b 8 4,
    astride := leAt b 12 4, arows := leAt b 16 2, aelems := leAt b 18 2 }

/-- An MDRAIN block's fields. -/
def parseDrain (b : List Byte) : DrainBlk :=
  let flags := leAt b 3 1
  { acc := leAt b 1 1, ofmt := (drainFormat (leAt b 2 1)).getD .f32, retire := flags.testBit 0, clear := flags.testBit 1,
    rowsc := flags.testBit 2, colsc := flags.testBit 3, tile := leAt b 4 2, obase := leAt b 8 4, ostride := leAt b 12 4,
    orows := leAt b 16 2, ocols := leAt b 18 2, rsoff := leAt b 20 4, csoff := leAt b 24 4, stoff := leAt b 28 4 }

/-- The accumulator of a team. -/
def TeamBody.acc (b : TeamBody) (a : Nat) : Acc := SMap.get b.accs a Acc.start

/-- Whether an accumulator's mode at issue suits a format (R210, R211). -/
def modeSuits (a : Acc) (fmt : Option Ty) : Bool := (a.issueMode == .s32) == (fmt == some .s8)

/-- A scratchpad extent that a matrix block names (R206 step 5): base, stride, rows, row bytes, alignments. -/
structure MExtent where
  base : Nat
  stride : Nat
  rows : Nat
  rowBytes : Nat
  align : Nat
  strideAlign : Nat
  wr : Bool
deriving DecidableEq, Repr

/-- One past an extent's last byte. -/
def MExtent.top (e : MExtent) : Nat := recordTop e.base e.stride e.rows e.rowBytes

/-- The trap of the first misaligned extent, else of the first out of bounds (R206 step 5). -/
def extentTrap (scratch : Nat) (es : List MExtent) : Option TrapInfo :=
  let trap (c : Cause) (e : MExtent) : TrapInfo := accTrap c .l e.wr e.base (e.top - e.base)
  ((es.find? (fun e => e.base % e.align != 0 || e.stride % e.strideAlign != 0)).map (trap .align)) <|>
  ((es.find? (fun e => decide (scratch < e.top))).map (trap .scratchBounds))

/-- An MMA's extent (R213). -/
def MmaBlk.extents (k : MmaBlk) : List MExtent :=
  let al := elemAlign k.fmt
  [⟨k.abase, k.astride, k.arows, elemBytes k.fmt k.aelems, al, al, false⟩]

/-- An MDRAIN's extents in block field order (R206, R218). -/
def DrainBlk.extents (k : DrainBlk) : List MExtent :=
  let al := elemAlign k.ofmt
  [⟨k.obase, k.ostride, k.orows, elemBytes k.ofmt k.ocols, al, al, true⟩] ++
  (if k.rowsc then [⟨k.rsoff, 0, 1, 4 * k.orows, 4, 1, false⟩] else []) ++
  (if k.colsc then [⟨k.csoff, 0, 1, 4 * k.ocols, 4, 1, false⟩] else []) ++
  (if k.stoff = 0xFFFFFFFF then [] else [⟨k.stoff, 0, 1, 4, 4, 1, true⟩])

namespace State

/-- The fields of an MZERO block within their limits (R210). -/
def mzeroFields (s : State) (u : Nat) (b : List Byte) : List (Nat × Bool) :=
  [ (0, leAt b 0 1 == 3)
  , (1, decide (leAt b 1 1 < (s.team u).var.accums))
  , (2, decide (leAt b 2 1 ≤ 1))
  , (3, allZero (b.drop 3)) ]

/-- The fields of an MMA block within their limits (R211). -/
def mmaFields (s : State) (u : Nat) (b : List Byte) (k : MmaBlk) : List (Nat × Bool) :=
  let fmt := mmaFormat (leAt b 2 1)
  [ (0, leAt b 0 1 == 1)
  , (1, decide (k.acc < (s.team u).var.accums) && modeSuits ((s.team u).body.acc k.acc) fmt)
  , (2, fmt.isSome)
  , (4, decide (k.tile < 4096))
  , (6, leAt b 6 2 == 0)
  , (16, decide (1 ≤ k.arows ∧ k.arows ≤ 128))
  , (18, decide (1 ≤ k.aelems ∧ k.aelems ≤ mmaK k.fmt))
  , (20, allZero (b.drop 20)) ]

/-- The fields of an MDRAIN block within their limits (R218). -/
def drainFields (s : State) (u : Nat) (b : List Byte) (k : DrainBlk) : List (Nat × Bool) :=
  [ (0, leAt b 0 1 == 2)
  , (1, decide (k.acc < (s.team u).var.accums))
  , (2, (drainFormat (leAt b 2 1)).isSome)
  , (3, decide (leAt b 3 1 < 16))
  , (4, decide (k.tile < 4096))
  , (6, leAt b 6 2 == 0)
  , (12, k.ostride != 0)
  , (16, decide (1 ≤ k.orows ∧ k.orows ≤ 128))
  , (18, decide (1 ≤ k.ocols ∧ k.ocols ≤ 128))
  , (20, k.rowsc || k.rsoff == 0)
  , (24, k.colsc || k.csoff == 0) ]

/-- Changes an accumulator. -/
def updAcc (s : State) (u a : Nat) (f : Acc → Acc) : State :=
  s.updBody u (fun b => { b with accs := SMap.set b.accs a (f (b.acc a)) })

/-- The open chains of a team (R208). -/
def openChains (s : State) (u : Nat) : Nat := ((s.team u).body.accs.filter (fun e => e.2.chainOpen)).length

/-- The registers of B by column, as captured at issue, from the issuing thread's quad (R214, R215). -/
def captureB (s : State) (u tid breg n : Nat) : SMap (List Word) :=
  let q := tid / 128
  (List.range 128).filterMap (fun j =>
    let t := 128 * q + j
    if 4 * q + j / 32 < (s.team u).gcount then some (j, (List.range n).map (fun r => s.readLane u t (j % 32) (breg + r)))
    else none)

/-- Whether any register of B has an outstanding result (R158, R215). -/
def captureEarly (s : State) (u tid breg n : Nat) : Bool :=
  (List.range 128).any (fun j => (List.range n).any (fun r => s.laneUncertain u (128 * (tid / 128) + j) (breg + r)))

/-! ## Issue (R206) -/

/-- The course of an issue's steps 1 to 3 and 7: the block read, its fields, then what the operation goes on to. -/
def matrixIssue (s : State) (u tid off size : Nat) (fields : State → List Byte → List (Nat × Bool))
    (go : State → List Byte → Act × State) : Act × State :=
  let pc := (s.thr u tid).pc
  match s.readBlock u off size with
  | .wait k s => (.retry k, s)
  | .trap x s => (.trap x, s)
  | .ok b s =>
    match firstBad (fields s b) with
    | some f => (.trap (fieldTrap pc off f), s)
    | none => go s b

/-- MZERO's course in one thread (R206, R210). -/
def mzeroIssue (s : State) (u tid off : Nat) : Act × State :=
  s.matrixIssue u tid off 16 (fun s b => s.mzeroFields u b) (fun s b =>
    if !s.hasRoom u tid .matrix then (.retry (.room (.engine .matrix)), s)
    else
      let acc := leAt b 1 1
      let mode := if leAt b 2 1 = 1 then AccMode.s32 else AccMode.f32
      let s := (s.enqueue u tid .matrix (.mzero acc mode) off 0 0).2
      (.go, s.updAcc u acc (fun a => { a with issueMode := mode })))

/-- MMA's course in one thread (R206, R208, R214, R215, R375). -/
def mmaIssue (s : State) (u tid off : Nat) : Act × State :=
  let pc := (s.thr u tid).pc
  s.matrixIssue u tid off 32 (fun s b => s.mmaFields u b (parseMma b)) (fun s b =>
    let k := parseMma b
    let n := mmaRegs k.fmt
    let t := s.team u
    if t.var.lregs < k.breg + n then (.trap (ownTrap .regRange pc), s)
    else match extentTrap (s.scratchSize u) k.extents with
      | some x => (.trap x, s)
      | none =>
        let opens := s.openChains u
        if !(t.body.acc k.acc).chainOpen && decide (t.body.permits ≤ opens) then
          (.trap { cause := .perm, va := BitVec.ofNat 64 opens, vb := BitVec.ofNat 64 t.body.permits }, s)
        else if !s.hasRoom u tid .matrix then (.retry (.room (.engine .matrix)), s)
        else
          let early := s.captureEarly u tid k.breg n
          if early && s.hazardOn u then (.trap (ownTrap .hazard pc), s)
          else
            let cols := s.captureB u tid k.breg n
            let s := if early then s.draw else s
            let (op, s) := s.enqueue u tid .matrix (.mma k cols false) off 0 0
            let s := s.addPend u tid (.capture op) [] []
            let s := s.updAcc u k.acc (fun a => { a with chainOpen := true })
            let s := s.closeTile u k.tile
            (.go, s.stampTile u k.tile (some t.interval) .opw))

/-- MDRAIN's course in one thread (R206, R208, R218). -/
def mdrainIssue (s : State) (u tid off : Nat) : Act × State :=
  s.matrixIssue u tid off 32 (fun s b => s.drainFields u b (parseDrain b)) (fun s b =>
    let k := parseDrain b
    match extentTrap (s.scratchSize u) k.extents with
    | some x => (.trap x, s)
    | none =>
      if !s.hasRoom u tid .matrix then (.retry (.room (.engine .matrix)), s)
      else
        let s := (s.enqueue u tid .matrix (.mdrain k) off 0 0).2
        (.go, if k.retire then s.updAcc u k.acc (fun a => { a with chainOpen := false }) else s))

/-! ## Execution -/

/-- Every element +0, in the accumulator's mode; ASTAT 0 (R210, R219). -/
def clearAcc (a : Acc) : Acc := { a with elems := [], astat := 0 }

/-- The accumulator rows an operation writes enter the undo log (R255). -/
def logAccRows (s : State) (o : EngineOp) (acc n : Nat) : State :=
  if o.interval.isNone then s
  else (List.range n).foldl (fun s r => s.updTeam o.team (fun t => t.logAdd (.accRow acc r))) s

end State

/-- Element `k` of packed bits (R84, R212, R213). -/
def elemOf (t : Ty) (v k : Nat) : Nat := bitsOf v (t.width * k) t.width

/-- The terms of one block of 32: the products and whether any is invalid (R114, R216). -/
def blockTerms (t : Ty) (a b lo : Nat) : Nat → List Num × Bool
  | 0 => ([], false)
  | n + 1 =>
    let (p, bad) := (t.num (elemOf t a lo)).mul (t.num (elemOf t b lo))
    let r := blockTerms t a b (lo + 1) n
    (p :: r.1, bad || r.2)

/-- One element through the blocks in increasing k, f32 mode (R216): its value and the flags. -/
def mmaElem (t : Ty) (a b elems : Nat) (acc : Nat) (fl : Flags) : List Nat → Nat × Flags
  | [] => (acc, fl)
  | blk :: r =>
    let (ts, bad) := blockTerms t a b (32 * blk) (min 32 (elems - 32 * blk))
    let (x, bad') := sumNum .near (Ty.f32.num acc :: ts)
    let (v, f) := roundTo .f32 .near x
    mmaElem t a b elems v (fl ||| f ||| Flags.whenF (bad || bad') Flags.nv) r

/-- The exact sum of a block of s8 products (R217). -/
def blockSum (a b lo : Nat) : Nat → Int
  | 0 => 0
  | n + 1 => Ty.s8.int (elemOf .s8 a lo) * Ty.s8.int (elemOf .s8 b lo) + blockSum a b (lo + 1) n

/-- One element through the blocks, s32 mode (R217): its value and whether it saturated. -/
def mmaElemInt (a b elems : Nat) (acc : Int) (sat : Bool) : List Nat → Int × Bool
  | [] => (acc, sat)
  | blk :: r =>
    let y := acc + blockSum a b (32 * blk) (min 32 (elems - 32 * blk))
    let z := Ty.s32.clamp y
    mmaElemInt a b elems z (sat || z != y) r

/-- The blocks of 32 that hold an element. -/
def mmaBlocks (elems : Nat) : List Nat := List.range ((elems + 31) / 32)

/-- One element of an accumulator through an MMA: the element's word and the ASTAT bits. -/
def mmaWord (fmt : Ty) (a b elems : Nat) (w : Word) : Word × Word :=
  if fmt == .s8 then
    let (v, sat) := mmaElemInt a b elems w.toInt false (mmaBlocks elems)
    (BitVec.ofInt 32 v, if sat then 16 else 0)
  else
    let (v, fl) := mmaElem fmt a b elems w.toNat 0 (mmaBlocks elems)
    (BitVec.ofNat 32 v, fl.setWidth 32)

/-- One row of an accumulator through an MMA. -/
def mmaRow (k : MmaBlk) (i : Nat) (row : Nat) (acc : Acc) : List (Nat × Nat) → Acc
  | [] => acc
  | e :: r =>
    let key := 128 * i + e.1
    let (w, st) := mmaWord k.fmt row e.2 k.aelems (SMap.get acc.elems key 0)
    mmaRow k i row { acc with elems := SMap.put acc.elems key w 0, astat := acc.astat ||| st } r

/-- The rows of an MMA. -/
def mmaRows (k : MmaBlk) (cols : List (Nat × Nat)) (i : Nat) (acc : Acc) : List Nat → Acc
  | [] => acc
  | row :: r => mmaRows k cols (i + 1) (mmaRow k i row acc cols) r

/-- The value of an accumulator element (R204, R219). -/
def Acc.num (a : Acc) (i j : Nat) : Num :=
  let w := SMap.get a.elems (128 * i + j) 0
  match a.mode with
  | .f32 => Ty.f32.num w.toNat
  | .s32 => .fin (decide (w.toInt < 0)) w.toInt.natAbs 0

/-- A drain's output of one element, and its ASTAT bits (R209, R219). -/
def drainElem (t : Ty) (x : Num) (r c : Option Num) : Nat × Word :=
  let (x, b1) := match r with | some y => x.mul y | none => (x, false)
  let (x, b2) := match c with | some y => x.mul y | none => (x, false)
  let onv : Word := if b1 || b2 then 256 else 0
  if t == .s32 || t == .s8 then
    match x with
    | .nan _ => (0, onv ||| 256)
    | .inf n => (wrap t.width (if n then t.minInt else t.maxInt), onv ||| 128)
    | .fin n m e =>
      let q := (roundQuantum n m e 0 .near).1
      let y : Int := if n then -q else q
      let z := t.clamp y
      (wrap t.width z, onv ||| (if z != y then 128 else 0))
  else
    let (v, f) := roundTo t .near x
    (v, onv ||| (f.setWidth 32 <<< 5))

/-- A row of outputs packed to bytes, unused T6 places zero (R84, R219). -/
def packRow (t : Ty) (vs : List Nat) : List Byte :=
  let total := (vs.foldl (fun (acc : Nat × Nat) v => (acc.1 + v * 2 ^ acc.2, acc.2 + t.width)) (0, 0)).1
  toBytes (elemBytes t vs.length) total

/-- Binary32 scales from bytes. -/
def scalesOf (bs : List Byte) (n : Nat) : List Num := (List.range n).map (fun i => Ty.f32.num (leAt bs (4 * i) 4))

namespace State

/-- Closes the intervals of other teams that wrote the scratchpad rows an operation reaches (R259): false while one must
wait. -/
def escapeExtents (s : State) (o : EngineOp) (es : List MExtent) : Bool × State :=
  let rows := es.flatMap (fun e => (List.range (e.top / 2048 + 1 - e.base / 2048)).map (fun i => e.base / 2048 + i))
  s.escape (some o.team) (fun it => rows.any (fun r => LogItem.isScratch o.team r it))

/-- Reads the rows of an extent, each as a value. -/
def readRows (s : State) (o : EngineOp) (e : MExtent) : List Nat → Res (List (List Byte))
  | [] => .ok [] s
  | i :: r =>
    (s.engineRead o .l (lineSpans (e.base + i * e.stride) e.rowBytes)).bind fun x s =>
      let bs := match x with | .ok bs => bs | .error _ => []
      (s.readRows o e r).bind fun rest s => .ok (bs :: rest) s

/-- Writes rows of an extent from a row on. -/
def writeRows (s : State) (o : EngineOp) (e : MExtent) (i : Nat) : List (List Byte) → Res Unit
  | [] => .ok () s
  | bs :: r =>
    (s.engineWrite o .l (lineChunks (e.base + i * e.stride) bs)).bind fun _ s => s.writeRows o e (i + 1) r

/-- An MMA (R216, R217). A spoiled B is unspecified whole (R215). -/
def runMma (s : State) (o : EngineOp) (k : MmaBlk) (b : SMap (List Word)) (spoiled : Bool) : Res Unit :=
  let e := k.extents.headD ⟨0, 0, 0, 0, 1, 1, false⟩
  (s.readRows o e (List.range k.arows)).bind fun rows s =>
    let cols := b.map (fun c => (c.1,
      if spoiled then wordsVal ((List.range c.2.length).map (fun r => Config.freeWord (s.draws * 65536 + c.1 * 32 + r)))
      else wordsVal c.2))
    let s := if spoiled then s.draw else s
    let s := s.logAccRows o k.acc k.arows
    .ok () (s.updAcc o.team k.acc (fun a => mmaRows k cols 0 a (rows.map leNat)))

/-- An MDRAIN (R219). -/
def runDrain (s : State) (o : EngineOp) (k : DrainBlk) : Res Unit :=
  let whole (off n : Nat) : MExtent := ⟨off, 0, 1, n, 4, 1, false⟩
  (s.readRows o (whole k.rsoff (4 * k.orows)) (if k.rowsc then [0] else [])).bind fun rb s =>
  (s.readRows o (whole k.csoff (4 * k.ocols)) (if k.colsc then [0] else [])).bind fun cb s =>
    let rs := scalesOf rb.flatten k.orows
    let cs := scalesOf cb.flatten k.ocols
    let acc := (s.team o.team).body.acc k.acc
    let out := (List.range k.orows).map (fun i => (List.range k.ocols).map (fun j =>
      drainElem k.ofmt (acc.num i j) (if k.rowsc then rs[i]? else none) (if k.colsc then cs[j]? else none)))
    let st := out.foldl (fun w row => row.foldl (fun w e => w ||| e.2) w) acc.astat
    let e := k.extents.headD (whole 0 0)
    (s.writeRows o e 0 (out.map (fun row => packRow k.ofmt (row.map Prod.fst)))).bind fun _ s =>
    (if k.stoff = 0xFFFFFFFF then .ok () s else s.writeRows o (whole k.stoff 4) 0 [toBytes 4 st.toNat]).bind fun _ s =>
      let s := s.updAcc o.team k.acc (fun a => { a with astat := st })
      .ok () (if k.clear then (s.logAccRows o k.acc 128).updAcc o.team k.acc clearAcc else s)

/-- MZERO (R210). -/
def runMzero (s : State) (o : EngineOp) (acc : Nat) (mode : AccMode) : State :=
  (s.logAccRows o acc 128).updAcc o.team acc (fun a => { clearAcc a with mode := mode })

/-- The tile stamps of a matrix operation: its start and completion (R220, R275, R375). A retiring MDRAIN closes the tile's matrix
stamps: what was queued before it completed stamps nothing more. -/
def matrixStamps (s : State) (o : EngineOp) : State :=
  let shut (n : Nat) : Bool := (s.tile? o.team n).any (fun t => tileHas t .drne)
  match o.kind with
  | .mma k _ _ =>
    if shut k.tile then s else (s.stampTile o.team k.tile o.interval .mmaf).stampTile o.team k.tile o.interval .mmal
  | .mdrain k =>
    if !k.retire || shut k.tile then s
    else (s.stampTile o.team k.tile o.interval .drne).updTile o.team k.tile (fun t => { t with core := (s.team o.team).core })
  | _ => s

/-- Executes an operation (R207). -/
def runMatrix (s : State) (o : EngineOp) : Res Unit :=
  match o.kind with
  | .mzero acc mode => .ok () (s.runMzero o acc mode)
  | .mma k b spoiled =>
    let (ok, s) := s.escapeExtents o k.extents
    if ok then s.runMma o k b spoiled else .wait .home s
  | .mdrain k =>
    let (ok, s) := s.escapeExtents o k.extents
    if ok then s.runDrain o k else .wait .home s
  | _ => .ok () s

/-- The oldest matrix operation of a team that is not complete (R207). -/
def nextMatrix (s : State) (core u : Nat) : Option EngineOp :=
  s.ops.find? (fun o => o.cls == .matrix && o.team == u && o.core == core && !o.complete)

/-- The teams with queued matrix operations on a core, by first slot (R207). -/
def matrixTeams (s : State) (core : Nat) : List Nat :=
  sortBy (fun u => (s.team u).quads.headD 0)
    (s.resident.filter (fun u => (s.team u).core == core && (s.nextMatrix core u).isSome))

/-- The team whose turn it is: round-robin by slot (R207). -/
def matrixTurnOf (s : State) (core : Nat) : Option Nat :=
  let us := s.matrixTeams core
  match us.find? (fun u => decide ((s.cor core).matrixTurn ≤ (s.team u).quads.headD 0)) with
  | some u => some u
  | none => us.head?

end State

/-! ## The instructions and events -/

/-- MMA (R206, R211 to R217). -/
def execMma (h : Head) (a : Src) (s : State) : Ran :=
  .next (perThread (.mma h a) (fun s u tid => s.mmaIssue u tid (s.readSrc u tid 0 a .n32)) s)

/-- MDRAIN (R206, R218, R219). -/
def execMdrain (h : Head) (a : Src) (s : State) : Ran :=
  .next (perThread (.mdrain h a) (fun s u tid => s.mdrainIssue u tid (s.readSrc u tid 0 a .n32)) s)

/-- MZERO (R206, R210). -/
def execMzero (h : Head) (a : Src) (s : State) : Ran :=
  .next (perThread (.mzero h a) (fun s u tid => s.mzeroIssue u tid (s.readSrc u tid 0 a .n32)) s)

/-- B_CAPTURE_COMPLETE (R215): an outstanding result of the issuing thread ends; B's registers are free again. -/
def execBCaptureComplete (op : Nat) (s : State) : Ran :=
  match s.op? op with
  | none => .next s
  | some o =>
    let s := s.updThr o.team o.thread (fun t => { t with pend := t.pend.filter (fun p => p.tag != .capture op) })
    .next (s.recheck o.team)

/-- MATRIX_OPERATION (R207): the core's engine executes its next queued operation. -/
def execMatrixOperation (core : Nat) (s : State) : Ran :=
  match s.matrixTurnOf core with
  | none => .next s
  | some u =>
    match s.nextMatrix core u with
    | none => .next s
    | some o =>
      if s.capturing o then .next s
      else
        match s.runMatrix o with
        | .wait _ s => .next s
        | .trap _ s => .next s
        | .ok _ s =>
          let s := (s.matrixStamps o).count (s.team u).vdev 0x03 1
          let s := s.updCore core (fun c => { c with matrixTurn := (s.team u).quads.headD 0 + 1 })
          .next (s.finishOp o.uid none)

end Sys2Proof.Machine
end

