-- ==== Sys2Proof/Machine/Teamwork.lean ====
section
/-! DEFINITION. Variant switching (R197 to R200), permits (R201, R202) and YIELD (R203). -/

namespace Sys2Proof.Machine

namespace State

/-- The map of an image for a point and a pair of variants (R34). -/
def mapOf (img : Image) (p src dst : Nat) : Option SwitchMap :=
  img.maps.find? (fun m => m.point == p && m.src == src && m.dst == dst)

/-- SWPT's course in one thread (R198). -/
def swptStep (s : State) (u p : Nat) : Act × State :=
  let t := s.team u
  match t.sw with
  | none => (.go, s)
  | some w =>
    if (mapOf t.img p t.variant w.target).isNone || w.only.any (fun q => q != p) then (.go, s)
    else if w.point.all (fun q => q == p) then
      (.wait (.swpt p), s.updTeam u (fun t => { t with sw := some { w with point := some p, since := some (w.since.getD s.cyc) } }))
    else (.go, s)

/-- A request withdrawn (R200): the waiting threads go on in the variant they are in, and the failed switch counts. -/
def withdrawSwitch (s : State) (u : Nat) : State :=
  match (s.team u).sw with
  | none => s
  | some _ =>
    let s := s.updTeam u (fun t => { t with sw := none })
    let s := (s.waiting u State.isSwpt).foldl (fun s tid => s.wake u tid) s
    s.count (s.team u).vdev 0x06 1

/-! ## The switch (R199) -/

/-- What a map names: the source of a target, for items of a kind. -/
def mapSource (items : List MapItem) (kind x : Nat) : Option Nat :=
  (items.find? (fun i => i.kind == kind && decide (i.dst ≤ x ∧ x < i.dst + i.count))).map (fun i => i.src + (x - i.dst))

/-- Registers carried by a map; those no item names are unspecified (R34). -/
def carryRegs (items : List MapItem) (kind n : Nat) (old : SMap Word) (free : Nat → Word) : SMap Word :=
  (List.range n).foldl (fun m r =>
    match mapSource items kind r with
    | some x => SMap.put m r (SMap.get old x 0) 0
    | none => SMap.put m r (free r) 0) []

/-- Scratchpad bytes carried by a map. -/
def carryBytes (items : List MapItem) (n : Nat) (old : Mem) (free : Nat → Byte) : Mem :=
  (List.range n).foldl (fun m a =>
    match mapSource items 2 a with
    | some x => Mem.set m a (Mem.get old x)
    | none => Mem.set m a (free a)) []

/-- A thread in the new variant (R199 steps 3 and 5). -/
def carryThread (s : State) (m : SwitchMap) (v : Variant) (pc : Addr) (tid : Nat) (t : Thread) : Thread :=
  let t := { t with regs := carryRegs m.items 0 v.lregs t.regs (fun r => Config.freeWord (s.draws * 65536 + tid * 128 + r)) }
  if t.st == .exited then t else { t.wake with pc := pc }

/-- The switch itself (R199 steps 1 to 5), its threads at the point and its operations done. -/
def switchTeam (s : State) (u p target : Nat) (m : SwitchMap) : State :=
  let s := (s.drainAll u).deliverAll u
  let t := s.team u
  let v := t.img.variants.getD target Variant.none
  let pc := BitVec.ofNat 64 (t.img.addr + t.img.codeOff + v.points.getD p 0 + 4)
  let s := s.ephEvent t.launch 3 t.task (p + 256 * target) t.switches 0
  let groups := SMap.mapVal t.body.groups (fun g x => { x with
    unclaimed := []
    uregs := carryRegs m.items 1 v.uregs x.uregs (fun r => Config.freeWord (s.draws * 65536 + 131072 + g * 64 + r)) })
  let threads := SMap.mapVal t.body.threads (fun tid x => s.carryThread m v pc tid x)
  let kept := t.body.accs.filter (fun e => decide (e.1 < min t.var.accums v.accums))
  let scratch := carryBytes m.items v.scratch t.scratch (fun a => Config.freeByte (s.draws * 65536 + a))
  let s := s.updTeam u (fun t => { t with
    variant := target, sw := none, switches := t.switches + 1, scratch := scratch
    body := { t.body with groups := groups, threads := threads, accs := kept } })
  (s.forceClose u).2 |> fun s => { s with draws := s.draws + 16 }


end State

/-- SWPT (R198). -/
def execSwpt (h : Head) (point : BitVec 8) (s : State) : Ran :=
  .next (perThread (.swpt h point) (fun s u _ => s.swptStep u point.toNat) s)

/-- SWITCH_REQUEST (R197, R200, R372): the dispatcher posts a request, where the rules let it; a bound ephemeris posts its own,
and lets it post no other. -/
def execSwitchRequest (u target : Nat) (s : State) : Ran :=
  .next (if (s.ephSwitch u).isSome then s.postBound u
    else if s.switchable u target && s.switchUseful u target then
      s.updTeam u (fun t => { t with sw := some ⟨target, none, none, none⟩ })
    else s)

/-- VARIANT_SWITCH (R199): the switch has begun, and no operation of the team is left. -/
def execVariantSwitch (u : Nat) (s : State) : Ran :=
  let t := s.team u
  match t.sw with
  | none => .next s
  | some w =>
    match w.point with
    | none => .next s
    | some p =>
      match State.mapOf t.img p t.variant w.target with
      | none => .next s
      | some m =>
        if !s.switchBegun u || s.ops.any (s.opTouches u) then .next s
        else
          let (ok, s) := s.escape (some u) (fun it => match it with | .scratchRow x _ _ => x == u | _ => false)
          .next (if ok then (s.switchTeam u p w.target m).settle u else s)

/-- SWITCH_WITHDRAWAL (R197, R200): by the timeout or by the dispatcher, before the switch begins. -/
def execSwitchWithdrawal (u : Nat) (s : State) : Ran := .next (if s.withdrawable u then (s.withdrawSwitch u).settle u else s)

/-! ## Permits -/

/-- The form of PERMIT (R202). -/
inductive PermitForm where
  | acq | rel
  | try_ (d : Pred)
deriving DecidableEq, Repr

/-- PERMIT's course in one thread (R202). -/
def State.permitStep (s : State) (u tid : Nat) (f : PermitForm) (n : Nat) : Act × State :=
  let t := s.team u
  let h := t.body.permits
  let c := t.core
  let free := (s.cor c).permitQ.isEmpty && decide (n ≤ s.freePermits c)
  let bad := match f with
    | .rel => decide (h < n)
    | _ => decide (t.var.permits < h + n)
  let take (s : State) : State :=
    s.updBody u (fun b => { b with permits := b.permits + n })
  if decide (8 < n) || bad then (.trap { cause := .perm, va := BitVec.ofNat 64 n, vb := BitVec.ofNat 64 h }, s)
  else match f with
    | .rel => (.go, (s.updBody u (fun b => { b with permits := b.permits - n })).returnPermits c n)
    | .try_ d =>
      if n = 0 then (.go, s.writePred u tid d.val true)
      else (.go, (if free then take s else s).writePred u tid d.val free)
    | .acq =>
      if n = 0 then (.go, s)
      else if free then (.go, take s)
      else (.wait (.permit n), s.updCore c (fun k => { k with permitQ := k.permitQ ++ [⟨u, some tid, n⟩] }))

/-- PERMIT.acq (R202). -/
def execPermitAcq (h : Head) (a : Src) (s : State) : Ran :=
  .next (perThread (.permitAcq h a) (fun s u tid => s.permitStep u tid .acq (s.readSrc u tid 0 a .n32)) s)

/-- PERMIT.rel (R202). -/
def execPermitRel (h : Head) (a : Src) (s : State) : Ran :=
  .next (perThread (.permitRel h a) (fun s u tid => s.permitStep u tid .rel (s.readSrc u tid 0 a .n32)) s)

/-- PERMIT.try (R202). -/
def execPermitTry (h : Head) (d : Pred) (a : Src) (s : State) : Ran :=
  .next (perThread (.permitTry h d a) (fun s u tid => s.permitStep u tid (.try_ d) (s.readSrc u tid 0 a .n32)) s)

/-- PERMIT_GRANT (R202): waiting acquires of a core granted in first-come order while the pool holds them. -/
def execPermitGrant (core : Nat) (s : State) : Ran := .next (s.grantPermits core (s.cor core).permitQ.length)

/-! ## YIELD -/

/-- What YIELD's end is counted in: %cyc, or a deterministic team's selections (R365). -/
def State.yieldClock (s : State) (u : Nat) : Nat :=
  if (s.lau (s.team u).launch).det then (s.team u).body.selections else s.cyc

/-- YIELD (R203). -/
def execYield (h : Head) (a : Src) (s : State) : Ran :=
  .next (perThread (.yield h a) (fun s u tid =>
    let n := s.readSrc u tid 0 a .n32
    let s := s.count (s.team u).vdev 0x07 1
    if n = 0 then (.go, s) else (.wait (.yield (s.yieldClock u + n)), s)) s)

/-- YIELD_EXPIRY (R203): a yielding thread's cycles, or selections, have passed. -/
def execYieldExpiry (u tid : Nat) (s : State) : Ran :=
  match (s.thr u tid).st, (s.thr u tid).wait with
  | .waiting, some w =>
    match w.kind with
    | .yield n => .next (if s.yieldClock u < n then s else s.wake u tid)
    | _ => .next s
  | _, _ => .next s

end Sys2Proof.Machine
end

