-- ==== Sys2Proof/Machine/Traps.lean ====
section
/-! DEFINITION. TRAP and TRET (R249, R250), control and status registers (R251 to R254), CKPT and interval closes (R256,
R261), rollbacks and uncorrectable errors (R262, R263), and the traps and results that arrive by events of their own. -/

namespace Sys2Proof.Machine

namespace State

/-! ## Control and status registers -/

/-- The version lines a virtual device holds (R351). -/
def versionLines (s : State) (d : Nat) : Nat := (s.vlines.filter (fun v => (s.hypNode v.hyp).vdev == d)).length

/-- CSR hypcap (R351). -/
def hypcap (s : State) (d : Nat) : Nat := (s.liveHyps d).length * 262144 + min 65535 ((s.versionLines d + 63) / 64)

/-- The advances of rngc that are still outstanding in a thread (R127). -/
def rngOut (s : State) (u tid : Nat) : Nat := ((s.thr u tid).pend.filter (fun p => p.tag == .rng)).length

/-- How many of the outstanding advances an access does not see: free (R127). -/
def rngLag (s : State) (u tid : Nat) : Nat := Config.freeChoice s.draws % (s.rngOut u tid + 1)

/-- A CSR's value in a thread (R251). At level 0 the trap slot's registers read as zero. The reserved bits of tsw read as zero
(R8, R246); TRET sees them as they were written. -/
def csrRead (s : State) (u tid : Nat) (c : Csr) : Nat :=
  let t := s.thr u tid
  let b := (s.team u).body.csr
  match c with
  | .tsw => (t.slot.tsw &&& 0x000FF9C1).toNat
  | .tpc => t.slot.tpc.toNat
  | .tca => t.slot.tca.toNat
  | .tva => t.slot.tva.toNat
  | .tvb => t.slot.tvb.toNat
  | .fflags => t.fflags.toNat
  | .rngk => t.rngk.toNat
  | .rngc => (rngAdvance t.rngc (-(s.rngLag u tid : Int))).toNat
  | .fair => b.fair
  | .lease => b.lease
  | .ckint => b.ckint
  | .dbg => b.dbg.toNat
  | .hypcap => s.hypcap (s.team u).vdev
  | .sbase => (s.vd (s.team u).vdev).sbase.toNat

/-- Outstanding results without the oldest `n` advances of rngc (R127). -/
def settleRng : Nat → List Pending → List Pending
  | 0, ps => ps
  | _, [] => []
  | n + 1, p :: ps => if p.tag == .rng then settleRng n ps else p :: settleRng (n + 1) ps

/-- A value held within two bounds (R251). -/
def clampTo (lo hi v : Nat) : Nat := max lo (min hi v)

/-- Changes the team CSRs. -/
def updCsr (s : State) (u : Nat) (f : TeamCsr → TeamCsr) : State := s.updBody u (fun b => { b with csr := f b.csr })

/-- A write of a CSR (R251): read-only CSRs and the trap slot at level 0 never come here. -/
def csrWrite (s : State) (u tid : Nat) (c : Csr) (v : Nat) : State :=
  match c with
  | .tsw => s.updThr u tid (fun t => t.updSlot (fun q => { q with tsw := BitVec.ofNat 32 v }))
  | .tpc => s.updThr u tid (fun t => t.updSlot (fun q => { q with tpc := BitVec.ofNat 64 v }))
  | .fflags => s.updThr u tid (fun t => { t with fflags := BitVec.ofNat 4 v })
  | .rngk => s.updThr u tid (fun t => { t with rngk := BitVec.ofNat 64 v })
  | .rngc =>
    -- the advances that the write comes after are done; those it comes before are still to be made
    let seen := s.rngLag u tid
    s.updThr u tid (fun t => { t with rngc := rngAdvance (BitVec.ofNat 128 v) seen, pend := settleRng (s.rngOut u tid - seen) t.pend })
  | .fair => s.updCsr u (fun k => { k with fair := clampTo 256 65535 v })
  | .lease => s.updCsr u (fun k => { k with lease := clampTo 1 1023 v })
  | .ckint => s.updCsr u (fun k => { k with ckint := max 4096 v })
  | .dbg => s.updCsr u (fun k => { k with dbg := BitVec.ofNat 32 (v % 4) })
  | .sbase => s.updVd (s.team u).vdev (fun d => { d with sbase := BitVec.ofNat 64 v })
  | _ => s

/-- An access to rngc while an advance is outstanding takes a draw. -/
def afterCsr (s : State) (u tid : Nat) (c : Csr) : State := if c == .rngc && s.rngOut u tid != 0 then s.draw else s

/-! ## Rollbacks and errors -/

/-- A trap that reaches a thread from outside its instructions: at the instruction it waits in, or its next one. -/
def interrupt (s : State) (u tid : Nat) (x : TrapInfo) : State :=
  let s := if (s.thr u tid).st == .parked then (s.drain u tid).unpark u tid else s
  let t := s.thr u tid
  let pc := match t.wait with | some w => if t.st == .waiting then w.pc else t.pc | none => t.pc
  let c := (s.team u).core
  let s :=
    if (s.cor c).permitQ.any (fun w => w.team == u && w.thread == some tid) then
      s.updCore c (fun k => { k with permitQ := k.permitQ.filter (fun w => !(w.team == u && w.thread == some tid)) })
    else s
  s.takeTrap u tid pc x

/-- The thread that takes a trap no thread's access met: the first live one in table order (R263). -/
def firstThread (s : State) (u : Nat) : Option Nat := s.lowest u (s.team u).body.live

/-- The space and the direction of a thread's access (R246): whether it writes, or reads and writes. -/
def accessOf : Instr → Space × Bool
  | .ld _ sp _ _ _ _ _ => (sp, false)
  | .uld _ sp _ _ _ _ _ => (sp, false)
  | .st _ sp _ _ _ _ _ => (sp, true)
  | .ust _ sp _ _ _ _ _ => (sp, true)
  | .atom _ _ _ _ _ _ _ _ _ => (.g, true)
  | .sc _ _ _ _ _ _ _ => (.g, true)
  | _ => (.g, false)

/-- The instruction at an address of a team's context as memory holds it. -/
def instrAt (s : State) (u pc : Nat) : Option Instr :=
  let t := s.team u
  let word (i : Nat) : Word := match s.deviceWalk t.vdev t.ctx (pc + 4 * i) with
    | some (pa, _) => BitVec.ofNat 32 (leNat (s.rootBytes pa 4))
    | none => 0
  let head := word 0
  match decode (head :: (List.range (Raw.headLength head - 1)).map (fun i => word (i + 1))) with
  | .ok i => some i
  | .error _ => none

/-- The access of the instruction that a thread has met an error in (R246, R263). -/
def accessAt (s : State) (u tid : Nat) : Space × Bool :=
  let t := s.thr u tid
  let pc := match t.wait with | some w => w.pc | none => t.pc
  ((s.instrAt u pc.toNat).map accessOf).getD (.g, false)

/-- UNCORRECTABLE at a location (R263), with the access of the thread that met it in a scratchpad, an L1 or a memory line (R246). -/
def errTrap (s : State) (u : Nat) (tid : Option Nat) (unit loc : Nat) : TrapInfo :=
  let x : TrapInfo := { cause := .uncorrectable, va := BitVec.ofNat 64 loc, vb := BitVec.ofNat 64 loc, unit := unit }
  match tid, unit with
  | some t, 1 | some t, 3 | some t, 4 | some t, 5 =>
    let a := s.accessAt u t
    { x with space := spaceCode a.1, wr := a.2 }
  | _, _ => x

/-- UNCORRECTABLE taken by the thread that met the error, or the first live one (R263). -/
def takeError (s : State) (u : Nat) (tid : Option Nat) (x : TrapInfo) : State :=
  match (match tid with | some t => some t | none => s.firstThread u) with
  | some t => (s.interrupt u t x).settle u
  | none => s

/-- Restores a row that only the snapshot holds (R262). -/
def undoRow (s : State) (u : Nat) (it : LogItem) : State :=
  let snap := (s.team u).snap
  match it with
  | .regRow g r => s.updBody u (fun b => { b with threads := SMap.mapVal b.threads (fun tid t =>
      if groupOf tid = g then
        { t with regs := SMap.put t.regs r (SMap.get (SMap.get snap.threads tid Thread.none).regs r 0) 0 }
      else t) })
  | .uniRow g row => s.updGrp u g (fun x =>
      let old := (SMap.get snap.groups g Group.start).uregs
      { x with uregs := (List.range 32).foldl (fun m i => SMap.put m (32 * row + i) (SMap.get old (32 * row + i) 0) 0) x.uregs })
  | .accRow a row => s.updBody u (fun b =>
      let old := (SMap.get snap.accs a Acc.start).elems
      let now := SMap.get b.accs a Acc.start
      { b with accs := SMap.set b.accs a { now with
          elems := now.elems.filter (fun e => e.1 / 128 != row) |> fun es =>
            (old.filter (fun e => e.1 / 128 == row)).foldl (fun m e => SMap.set m e.1 e.2) es } })
  | _ => s.undoItem (s.team u).core it

/-- The log's items newer than a damaged offset, newest first (R263): the log fills its region in order. -/
def itemsAbove (off : Nat) : List LogItem → List LogItem
  | [] => []
  | it :: rest => if (rest.map LogItem.bytes).sum ≤ off then [] else it :: itemsAbove off rest

/-- A rollback (R262); one that finds its log damaged stops where it is, and a thread takes UNCORRECTABLE with UNIT 7
(R263). -/
def rollBackOr (s : State) (u : Nat) : State :=
  match (s.team u).logBad with
  | none => (s.rollBack u).settle u
  | some off => ((itemsAbove off (s.team u).log).foldl (fun s it => s.undoRow u it) s).takeError u none (s.errTrap u none 7 off)

/-- Henip's counts of an uncorrectable error by structure (R263, R404). -/
def countError (s : State) (unit : Nat) (rolled : Bool) : State :=
  let h := s.henip.pendingHealth
  let h := { h with uncorrected := SMap.set h.uncorrected unit (SMap.get h.uncorrected unit 0 + 1),
                    errRollbacks := h.errRollbacks + rolled.toNat }
  { s with henip := { s.henip with pendingHealth := h } }

/-- An error in an item whose clean copy the log may hold (R263): rolled back, at most twice in an interval, else
UNCORRECTABLE; `spoil` is what the damage leaves of the item then. -/
def strike (s : State) (u : Nat) (tid : Option Nat) (clean : Bool) (unit loc : Nat) (spoil : State → State) : State :=
  if !(s.team u).phase.resident then s
  else if clean && decide ((s.team u).errRollbacks < 2) then
    ((s.countError unit true).updTeam u (fun t => { t with errRollbacks := t.errRollbacks + 1 })).rollBackOr u
  else (spoil (s.countError unit false)).takeError u tid (s.errTrap u tid unit loc)

/-- Free words for a damaged register row: lane or uniform registers of a group. -/
def spoilRow (s : State) (u g row : Nat) (clean : Bool) : State :=
  let change (b : TeamBody) : TeamBody :=
    if row < 128 then
      { b with threads := SMap.mapVal b.threads (fun tid t =>
          if groupOf tid = g then { t with regs := SMap.put t.regs row (Config.freeWord (s.draws * 65536 + laneOf tid)) 0 } else t) }
    else
      { b with groups := SMap.mapVal b.groups (fun i x => if i = g then
          { x with uregs := (List.range 32).foldl (fun m j =>
              SMap.put m (row - 128 + j) (Config.freeWord (s.draws * 65536 + j)) 0) x.uregs } else x) }
  s.draw.updTeam u (fun t => { t with body := change t.body, snap := if clean then t.snap else change t.snap })

/-- Free elements for a damaged accumulator row. -/
def spoilAcc (s : State) (u a row : Nat) (clean : Bool) : State :=
  let change (b : TeamBody) : TeamBody :=
    let x := SMap.get b.accs a Acc.start
    { b with accs := SMap.set b.accs a { x with elems := (List.range 128).foldl (fun m j =>
        SMap.put m (128 * row + j) (Config.freeWord (s.draws * 65536 + j)) 0) x.elems } }
  s.draw.updTeam u (fun t => { t with body := change t.body, snap := if clean then t.snap else change t.snap })

/-- Free bytes for a damaged scratchpad row. -/
def spoilScratch (s : State) (u row : Nat) : State :=
  s.draw.updTeam u (fun t => { t with scratch := (List.range 2048).foldl (fun m j =>
    Mem.set m (2048 * row + j) (Config.freeByte (s.draws * 65536 + j))) t.scratch })

/-- A memory line marked damaged at its home (R263). -/
def markDamaged (s : State) (line : Nat) : State := { s with damaged := insertNat line s.damaged }

/-- The first virtual address that a table and the levels below it map to a physical one; `va` is what the levels above have fixed, `n`
the entries of the table still to look at. -/
def reverseWalk (rd : Nat → Pte) (pa : Nat) : List Level → Nat → Nat → Option Nat
  | [], _, _ => none
  | lvl :: rest, t, va => (List.range (2 ^ lvl.bits.2)).findSome? (fun i =>
    let e := rd (t + 8 * i)
    let v := va + i * 2 ^ lvl.bits.1
    if !e.valid then none
    else if e.leaf then (if e.pa ≤ pa ∧ pa < e.pa + lvl.pageSize then some (v + (pa - e.pa)) else none)
    else reverseWalk rd pa rest e.pa v)

/-- The virtual address of a physical line in a team's context (R263): by a cached translation, else by its tables, the lowest, else
free. DESIGN CHOICE (notes/assumptions/35.md). -/
def virtOf (s : State) (u line : Nat) : Nat :=
  let t := s.team u
  let pa := 128 * line
  let has (e : TlbEntry) : Bool := e.ident == identOf t.vdev t.ctx && decide (e.pbase ≤ pa ∧ pa < e.pbase + e.size)
  match (((s.cor t.core).tlb ++ (s.die (t.core / Config.coresPerDie)).tlb).find? has) with
  | some e => e.vbase + (pa - e.pbase)
  | none => (((s.ctx t.vdev t.ctx).root.bind (fun root => reverseWalk s.pteAt pa [.a, .b, .c, .d] root 0))).getD
      (128 * ((Config.freeWord s.draws).toNat + 4294967296 * (Config.freeWord (s.draws + 1)).toNat))

/-- The team and thread of a key 1024 × team + thread. -/
def keyTeam (k : Nat) : Nat := k / 1024
def keyThread (k : Nat) : Nat := k % 1024

/-- Whether a team's log holds a line. -/
def logsLine (s : State) (u line : Nat) : Bool := (s.team u).log.any (fun it => match it with | .line l _ => l == line | _ => false)

/-- An error in a memory line (R263): the team that wrote it in its open interval is rolled back; else the line stays marked
at its home and the thread whose access met it takes UNCORRECTABLE. -/
def memError (s : State) (line : Nat) (key : Option Nat) : State :=
  let unit := if (SMap.find s.lines line).isSome then 4 else 5
  match (s.resident.filter (fun u => s.logsLine u line)).head? with
  | some u => s.strike u ((key.filter (fun k => keyTeam k == u)).map keyThread) true unit (s.virtOf u line) (fun s => s.markDamaged line)
  | none =>
    let s := (s.countError unit false).markDamaged line
    match key with
    | some k => s.takeError (keyTeam k) (some (keyThread k)) (s.errTrap (keyTeam k) (some (keyThread k)) unit (s.virtOf (keyTeam k) line))
    | none => s

/-- An error in an L1 line (R263): a clean copy is dropped and fetched again; bytes written in the open interval are rolled
back; older ones are lost. -/
def l1Error (s : State) (core line : Nat) (key : Option Nat) : State :=
  match SMap.find (s.cor core).l1 line with
  | none => s
  | some x =>
    if x.kind == .leased || x.mask = 0 then
      let s := s.dropL1 core line
      match SMap.find s.lines line with
      | some h => { s with lines := SMap.set s.lines line { h with holders := h.holders.filter (fun c => c != core) } }
      | none => s
    else
      let mine := (s.coreTeams core).filter (fun u => identOf (s.team u).vdev (s.team u).ctx == x.ident)
      let logged (u a : Nat) : Bool := (s.team u).log.any (fun it => match it with
        | .line l old => l == line && old.any (fun e => e.1 == a)
        | _ => false)
      let owner := (mine.find? (fun u => s.logsLine u line)).or mine.head?
      match owner with
      | none => (s.recallLine line false).markDamaged line
      | some u =>
        let clean := x.mask &&& x.older == 0 && (x.masked line).all (fun e => logged u e.1)
        s.strike u ((key.filter (fun k => keyTeam k == u)).map keyThread) clean 3 (s.virtOf u line)
          (fun s => (s.recallLine line false).markDamaged line)

/-- An error in a line of an instruction cache: the copy is dropped, and a thread that fetched from it takes UNCORRECTABLE
with the addresses of R57. -/
def icacheError (s : State) (core line : Nat) (key : Option Nat) : State :=
  let s := (s.countError 6 false).updCore core (fun k => { k with icache := k.icache.filter (fun l => l.line != line) })
  match key with
  | none => s
  | some k =>
    let u := keyTeam k
    let tid := keyThread k
    let t := s.team u
    let pc := (s.thr u tid).pc
    let first := match s.deviceWalk t.vdev t.ctx pc.toNat with
      | some (pa, _) => if lineOf pa = line then pc.toNat else (pc.toNat / 128 + 1) * 128
      | none => pc.toNat
    s.takeError u (some tid) { cause := .uncorrectable, va := pc, vb := BitVec.ofNat 64 first, unit := 6 }

end State

/-! ## The instructions -/

/-- TRAP (R249). -/
def execTrap (h : Head) (a : Src) (s : State) : Ran :=
  .next (perThread (.trap h a) (fun s u tid =>
    (.trap { cause := .trap, va := BitVec.ofNat 64 (s.readSrc u tid 0 a .n32), vb := nextPc (.trap h a) (s.thr u tid).pc }, s)) s)

/-- TRET's course in one thread (R250). -/
def State.tretStep (s : State) (u tid : Nat) : Act × State :=
  let t := s.thr u tid
  if t.level = 0 then (.trap (ownTrap .tretOutside t.pc), s)
  else
    match s.returnTrap u tid with
    | .ok s => (.jump (s.thr u tid).pc, s)
    | .error w => (.trap { cause := .badStatus, va := t.pc, vb := w.setWidth 64 }, s)

/-- TRET (R250). -/
def execTret (h : Head) (s : State) : Ran := .next (perThread (.tret h) (fun s u tid => s.tretStep u tid) s)

/-- CSRR (R253): in place for the next instruction. -/
def execCsrr (h : Head) (csr : Csr) (d : BitVec 7) (s : State) : Ran :=
  .next (perThread (.csrr h csr d) (plain (fun s u tid =>
    (s.writeDest u tid d (Form.csrTy csr) (s.csrRead u tid csr)).afterCsr u tid csr)) s)

/-- CSRW (R252, R253). -/
def execCsrw (h : Head) (csr : Csr) (a : Src) (s : State) : Ran :=
  .next (perThread (.csrw h csr a) (plain (fun s u tid =>
    (s.csrWrite u tid csr (s.readSrc u tid 0 a (Form.csrTy csr))).afterCsr u tid csr)) s)

/-- CKPT (R261): the threads whose guard is true wait for one close of their team's interval. -/
def execCkpt (h : Head) (s : State) : Ran :=
  if s.issue.threads.isEmpty then .next s
  else
    let u := s.issue.team
    let r := s.issueAll u (.ckpt h) passOn (fun s _ _ => (.wait .ckpt, s)) s.issue.threads
    let s := r.2.retire u r.1 true
    let s := if (s.waiting u (fun k => k == .ckpt)).isEmpty then s else (s.forceClose u).2
    .next ((s.closeIfDue u).settle u)

/-! ## The events -/

/-- The HAZARD of a thread whose result would land in a register that is being captured (R215): the result has no effect. -/
def State.landHazard (s : State) (u tid : Nat) : State :=
  let t := s.thr u tid
  let pc := match t.wait with | some w => if t.st == .waiting then w.pc else t.pc | none => t.pc
  s.interrupt u tid (ownTrap .hazard pc)

/-- RESULT_WRITEBACK (R157, R158): an outstanding result is written, and what waited for it goes on. With the hazard detector on,
one that would change a register being captured traps its thread (R215). -/
def execResultWriteback (u tid seq : Nat) (s : State) : Ran :=
  let clash := s.hazardOn u && (s.thr u tid).pend.any (fun p => p.seq == seq && p.regs.any (fun e => s.captured u tid e.1))
  .next (if clash then
      ((s.updThr u tid (fun t => { t with pend := t.pend.filter (fun p => p.seq != seq) })).landHazard u tid).settle u
    else ((s.landSeq u tid seq).recheckOne u tid).settle u)

/-- SFQ_RESULT (R237): the results of a token are written and the token is free. A write of a register being captured traps its thread
where the hazard detector is on (R215). -/
def execSfqResult (team group token : Nat) (s : State) : Ran :=
  let clash (w : Nat × Nat × Word) : Bool := s.hazardOn team && s.captured team (32 * group + w.1) w.2.1
  let lanes := (((s.grp team group).tokens.filter (fun k => k.num == token)).flatMap (fun k => (k.writes.filter clash).map Prod.fst))
  let s := if lanes.isEmpty then s
    else s.updGrp team group (fun g => { g with tokens := g.tokens.map (fun k =>
      if k.num = token then { k with writes := k.writes.filter (fun w => !clash w) } else k) })
  .next ((lanes.foldl (fun s l => if (s.thr team (32 * group + l)).st == .exited then s else s.landHazard team (32 * group + l))
    (s.deliver team group token)).settle team)

/-- TAKE_TRAP (R245): a trap reaches a thread. -/
def execTakeTrap (u tid : Nat) (cause : Cause) (va vb : Addr) (s : State) : Ran :=
  .next ((s.interrupt u tid { cause := cause, va := va, vb := vb }).settle u)

/-- INTERVAL_CLOSE (R256, R257): a close that is asked for or due happens when nothing holds the interval open. -/
def execIntervalClose (u : Nat) (s : State) : Ran :=
  let t := s.team u
  .next (if t.phase.resident && (t.closing || decide (t.body.csr.ckint ≤ t.work) || decide (Config.undoLogBytes < logBytes t))
    then (s.forceClose u).2.settle u else s)

/-- ROLLBACK (R262). -/
def execRollback (u : Nat) (s : State) : Ran := .next (if (s.team u).phase.resident then s.rollBackOr u else s)

/-- UNCORRECTABLE_ERROR (R263). `thread` is 1024 × team + thread of the thread whose access met the error. -/
def execUncorrectableError (site : ErrSite) (thread : Option Nat) (s : State) : Ran :=
  let meets (u : Nat) : Option Nat := (thread.filter (fun k => State.keyTeam k == u)).map State.keyThread
  .next (match site with
  | .regRow u g row =>
    let clean := (s.team u).log.contains (if row < 128 then .regRow g row else .uniRow g ((row - 128) / 32))
    s.strike u (meets u) clean 0 (256 * g + row) (fun s => s.spoilRow u g row clean)
  | .scratchRow u row =>
    let clean := (s.team u).log.any (LogItem.isScratch u row)
    s.strike u (meets u) clean 1 (2048 * row) (fun s => s.spoilScratch u row)
  | .accRow u a row =>
    let clean := (s.team u).log.contains (.accRow a row)
    s.strike u (meets u) clean 2 (256 * a + row) (fun s => s.spoilAcc u a row clean)
  | .l1Line core line => s.l1Error core line thread
  | .memLine line => s.memError line thread
  | .icacheLine core line => s.icacheError core line thread
  | .undoLog u off =>
    if (s.team u).phase.resident then
      ((s.countError 7 false).updTeam u (fun t => { t with logBad := some off })).takeError u (meets u) (s.errTrap u (meets u) 7 off)
    else s)

end Sys2Proof.Machine
end

