-- ==== Sys2Proof/Machine/Admission.lean ====
section
/-! DEFINITION. The dispatcher (R189 to R193, R265, R276 to R278, R339, R372): what waits for a core, where it fits, the
admission of single teams and of clusters, the start of a team (R68) and its completion (R147). -/

namespace Sys2Proof.Machine

/-- Where a rank goes: core, variant, lender and slots. -/
structure Spot where
  core : Nat
  variant : Nat
  lender : Option Nat
  slots : List Nat
deriving DecidableEq, Repr

/-- The origin cores of the rectangles of a shape, in order of die, row and column (R278). -/
def origins (h w : Nat) : List Nat :=
  (List.range Config.dies).flatMap (fun d => (List.range (Config.meshRows + 1 - h)).flatMap (fun r =>
    (List.range (Config.meshCols + 1 - w)).map (fun c => Config.coresPerDie * d + Config.meshCols * r + c)))

/-- The core of a rank (R277). -/
def rankCore (origin w r : Nat) : Nat := origin + Config.meshCols * (r / w) + r % w

namespace State

/-! ## Where things fit -/

/-- A rank on a core, for an item named by its first task: where it would go. -/
def spotOn (s : State) (l task core : Nat) (w : Want) : Option Spot :=
  if (s.vd (s.lau l).vdev).resetting.isSome then none
  else (s.fitTeam core l w (some (l, task))).map (fun r => ⟨core, r.1, r.2.1, r.2.2⟩)

/-- The ranks of a shape at an origin; a rank that has ended asks for nothing (R284). -/
def spotsAt (s : State) (l task origin w : Nat) (wants : List (Option Want)) : Option (List (Option Spot)) :=
  (List.range wants.length).mapM (fun r =>
    match wants.getD r none with
    | none => some none
    | some x => (s.spotOn l task (rankCore origin w r) x).map some)

/-- The first rectangle that holds every rank (R278); `first` is the origin of one to try before the others (R372). -/
def placeWants (s : State) (l task h w : Nat) (wants : List (Option Want)) (first : Option Nat) : Option (List (Option Spot)) :=
  ((first.toList.filter (origins h w).contains) ++ origins h w).findSome? (fun o => s.spotsAt l task o w wants)

/-! ## What waits -/

/-- The unmet admissions of a bound ephemeris, in entry order (R372). -/
def nextAdmits (e : Ephem) : List (Nat × EphEntry) :=
  ((List.range e.entries.length).filterMap (fun i => (e.entries[i]?).map (fun x => (i, x)))).filter
    (fun p => p.2.kind == 1 && !e.met.contains p.1)

/-- The admissions that bind a launch, in order; none where nothing binds it, or no recorded one is left (R372). -/
def boundAdmits (s : State) (l : Nat) : List EphEntry :=
  match s.ephOf l with
  | some e => if e.bound then (nextAdmits e).map Prod.snd else []
  | none => []

/-- The tasks of an item's ranks. -/
def itemTasks (s : State) (l : Nat) (it : Item) : List Nat :=
  match it with
  | .grid => (List.range ((s.lau l).ch * (s.lau l).cw)).map (fun r => s.itemTask l it + r)
  | _ => [s.itemTask l it]

/-- Whether the next recorded admissions are those of an item's ranks, at this phase (R372); a record that had overflowed may end among
them. -/
def admitsBind (s : State) (l : Nat) (it : Item) (es : List EphEntry) : Bool :=
  (es.zip (s.itemTasks l it)).all (fun e => e.1.phase == (s.lau l).phases && e.1.team == e.2)

/-- The shape of an item: a spawned task is a cluster of one (R278). -/
def itemShape (s : State) (l : Nat) (it : Item) : Nat × Nat :=
  match it with
  | .grid => ((s.lau l).ch, (s.lau l).cw)
  | .spawned _ => (1, 1)
  | .back c => if (s.clu c).members.length = 1 then (1, 1) else ((s.lau l).ch, (s.lau l).cw)

/-- Where an item would go now; a bound ephemeris gives each rank's variant and the first core (R372). -/
def itemSpots (s : State) (l : Nat) (it : Item) : Option (List (Option Spot)) :=
  let sh := s.itemShape l it
  let free := s.placeWants l (s.itemTask l it) sh.1 sh.2 (s.itemWants l it (fun _ => none)) none
  match it, s.boundAdmits l with
  | .back _, _ => free
  | _, [] => free
  | _, e :: es =>
    if s.admitsBind l it (e :: es) then
      s.placeWants l (s.itemTask l it) sh.1 sh.2 (s.itemWants l it (fun r => ((e :: es)[r]?).map (fun x => bitsOf x.who 16 8)))
        (some (e.who % 65536))
    else none

/-- Whether an item may be admitted now: a deterministic launch admits at phase 0 and at its serial phases (R368); what was
removed comes back at any time (R325). -/
def itemOpen (s : State) (l : Nat) (it : Item) (serial : Bool) : Bool :=
  !(s.lau l).det || serial || (s.lau l).phases == 0 || (match it with | .back _ => true | _ => false)

/-- An item's precedence in its virtual device's queue: reclaimed teams head it (R384), then the priority (R426). -/
def itemRank (s : State) (l : Nat) (it : Item) : Nat :=
  match it with
  | .back c => if (s.clu c).members.any (fun v => (s.team v).reclaimBy.isSome) then 8 else (s.lau l).prio
  | _ => (s.lau l).prio

/-- Whether something of the virtual device with more precedence could be admitted now. -/
def outranked (s : State) (l : Nat) (it : Item) (serial : Bool) : Bool :=
  s.launches.any (fun e => e.2.vdev == (s.lau l).vdev && !e.2.complete &&
    (s.itemsOf e.1).any (fun x => s.itemOpen e.1 x (serial && e.1 == l) && decide (s.itemRank l it < s.itemRank e.1 x) && (s.itemSpots e.1 x).isSome))

/-! ## Admission -/

/-- A team takes its core (R189), its accesses to follow what its launch's acceptance followed (R420). Where its launch's carve is new
there, the lines in the rows that pass to scratchpad are disposed of (R193). -/
def occupy (s : State) (u : Nat) (p : Spot) : State :=
  let s := s.updTeam u (fun t => { t with
    core := p.core, variant := p.variant, lender := p.lender, quads := p.slots, phase := .admitted, admittedAt := s.cyc, chosenAt := none
    reclaimBy := none, drainBy := none, lastIssue := [] })
  (s.adopt p.core (s.lau (s.team u).launch).stamp).shrinkL1 p.core 6144

/-- An admission enters the ephemeris, or meets its entry (R371, R372). -/
def noteAdmit (s : State) (l u : Nat) : State :=
  let t := s.team u
  let who := t.core + 65536 * t.variant
  match s.ephOf l with
  | none => s
  | some e =>
    if e.bound then
      match nextAdmits e with
      | (i, x) :: _ =>
        if x.team = t.task && x.phase = (s.lau l).phases then s.meetEntry l e i t.task else s.diverge l e t.task
      | [] => s.diverge l e t.task
    else s.ephEvent l 1 t.task who 0 0

/-- A new team of a launch, in a cluster, its task's record made (R327, R334). -/
def newTeam (s : State) (l cluster rank : Nat) (t : Team) : Nat × State :=
  let (u, s) := s.newUid
  let x := s.lau l
  let t := { t with launch := l, vdev := x.vdev, ctx := x.ctx, cluster := cluster, rank := rank }
  let s := { s with teams := SMap.set s.teams u t }
  (u, s)

/-- The team of a grid task (R327). -/
def gridTeam (x : Launch) (task clus : Nat) : Team :=
  { Team.none with team := task, task := task, clus := clus, gcount := x.groups, img := x.img, params := x.params,
                   key := task, ordinal := gridOrd task }

/-- The team of a spawned or re-executed task (R339, R342). -/
def taskTeam (q : QTask) : Team :=
  { Team.none with team := q.task, task := q.task, clus := q.task, gcount := q.groups, img := q.img, params := q.params,
                   key := q.key, depth := q.depth, ordinal := q.ordinal, parent := q.parent, startHyp := q.hyp,
                   startOrphan := q.orphan, reexec := q.reexec, freshExec := q.fresh }

/-- The record of a grid team's task, where its launch is traced. That of a spawned task stands since its SPAWN (R339), and one that a
refute has withdrawn does not come back (R361). -/
def teamRec (s : State) (l u : Nat) : State :=
  let t := s.team u
  if t.parent.isSome then s
  else s.addRec l (freshRec t.task t.ordinal t.parent t.img.addr t.key t.gcount t.params t.startHyp t.freshExec)

/-- Admits the teams of a new cluster, rank by rank. -/
def admitNew (s : State) (l cluster : Nat) : List (Team × Spot) → Nat → List Nat × State
  | [], _ => ([], s)
  | (t, p) :: rest, r =>
    let (u, s) := s.newTeam l cluster r t
    let s := ((s.teamRec l u).occupy u p).noteAdmit l u
    let s := s.post (.teamStart u)
    let q := s.admitNew l cluster rest (r + 1)
    (u :: q.1, q.2)

/-- Admits a removed team again (R266, R272): it starts anew, or takes up its record. -/
def admitBack (s : State) (l u : Nat) (p : Spot) : State :=
  let s := s.updLau l (fun x => { x with requeue := x.requeue.filter (fun v => v != u) })
  let saved := (s.team u).phase == .saved
  let s := s.occupy u p
  if saved then s else s.post (.teamStart u)

/-- A thread that resumes: its wait at a collective has lasted as long as at the save (R177). -/
def resumeThread (cyc : Nat) (t : Thread) : Thread :=
  { t with wait := t.wait.map (fun w => if w.kind == .collective then { w with since := cyc - w.since } else w) }

/-- What resumption restores on the new core before a thread issues (R272): the stamp, the permits, the operations' reports
and a new interval. -/
def resume (s : State) (u : Nat) : State :=
  let t := s.team u
  let pts := match t.saveRec with | some r => r.pts | none => 0
  let s := (s.adopt t.core pts).afterOutside t.core
  let h := t.body.permits
  let body := { t.body with threads := SMap.mapVal t.body.threads (fun _ x => resumeThread s.cyc x) }
  let s := s.updTeam u (fun t => { t with
    phase := .running, saveRec := none, snap := body, log := [], work := 0, errRollbacks := 0, body := { body with permits := 0 } })
  let s := { s with ops := s.ops.map (fun (o : EngineOp) => if o.team = u then { o with core := t.core, excused := true } else o) }
  let s := s.setPermits u h
  -- a thread saved in PERMIT.acq joins the end of the core's queue again (R202)
  let s := (s.waiting u (fun k => match k with | .permit _ => true | _ => false)).foldl (fun s tid =>
    match (s.thr u tid).wait with
    | some w => (match w.kind with
        | .permit n => s.updCore t.core (fun k => { k with permitQ := k.permitQ ++ [⟨u, some tid, n⟩] })
        | _ => s)
    | none => s) s
  let s := if (s.cor t.core).permitQ.isEmpty then s else s.post (.permitGrant t.core)
  s.recheck u

/-- Admits an item at its places. -/
def admitItem (s : State) (l : Nat) (it : Item) (spots : List (Option Spot)) : State :=
  match it with
  | .grid =>
    let x := s.lau l
    let k := x.ch * x.cw
    let (c, s) := s.newUid
    let ts := ((List.range k).map (fun r => State.gridTeam x (x.nextClus * k + r) x.nextClus)).zip (spots.filterMap id)
    let s := { s with clusters := SMap.set s.clusters c ⟨l, x.nextClus, [], []⟩ }
    let r := s.admitNew l c ts 0
    let s := { r.2 with clusters := SMap.set r.2.clusters c ⟨l, x.nextClus, r.1, []⟩ }
    s.updLau l (fun x => { x with nextClus := x.nextClus + 1 })
  | .spawned q =>
    let (c, s) := s.newUid
    let s := { s with clusters := SMap.set s.clusters c ⟨l, q.task, [], []⟩ }
    let r := s.admitNew l c ([State.taskTeam q].zip (spots.filterMap id)) 0
    let s := { r.2 with clusters := SMap.set r.2.clusters c ⟨l, q.task, r.1, []⟩ }
    s.updLau l (fun x => { x with spawned := x.spawned.filter (fun y => y != q) })
  | .back c =>
    let ms := ((s.clu c).members.zip spots).filterMap (fun e => e.2.map (fun p => (e.1, p)))
    let was := ms.filter (fun e => (s.team e.1).phase == .saved)
    let s := ms.foldl (fun s e => s.admitBack l e.1 e.2) s
    was.foldl (fun s e => s.resume e.1) s

/-- The cluster number of an item that takes part in the order of R278: a spawned task does not. -/
def gangOrder (s : State) (l : Nat) (it : Item) : Option Nat :=
  match it with
  | .grid => some (s.lau l).nextClus
  | .spawned _ => none
  | .back c => if (s.team ((s.clu c).members.headD 0)).task < (s.lau l).teams then some (s.clu c).index else none

/-- Whether an earlier cluster of the launch that cannot be placed holds an item back (R278). -/
def behind (s : State) (l : Nat) (it : Item) : Bool :=
  (s.gangOrder l it).any (fun n => (s.itemsOf l).any (fun x => (s.gangOrder l x).any (fun m => decide (m < n))))

/-- Admits an item where it can be admitted now. -/
def tryAdmit (s : State) (l : Nat) (it : Item) (serial : Bool) : Option State :=
  if !s.itemOpen l it serial || s.outranked l it serial || s.behind l it then none
  else (s.itemSpots l it).map (fun sp => (s.admitItem l it sp).pruneAll)

/-- Admits what a launch's queue can give, one item after another: a serial phase's step 4 (R368). -/
def admitAll (s : State) (l : Nat) : Nat → State
  | 0 => s
  | f + 1 =>
    match (s.itemsOf l).findSome? (fun it => s.tryAdmit l it true) with
    | some s => s.admitAll l f
    | none => s

/-! ## The start of a team -/

/-- The threads of a starting team (R68): every lane of every group. -/
def startThreads (s : State) (u : Nat) : SMap Thread :=
  let t := s.team u
  let (h, ref) := s.hypFollow t.startHyp
  let orphan := match t.startOrphan with | some k => some k | none => ref
  let pc := BitVec.ofNat 64 (t.img.addr + t.img.codeOff + t.var.entry)
  (List.range (32 * t.gcount)).map (fun tid =>
    (tid, Thread.start pc h (s.lau t.launch).rngk (BitVec.ofNat 128 (t.team * 18446744073709551616 + tid * 4294967296)) orphan))

/-- The scratchpad of a starting team: zero (R193), but for BFLAGS.NET in the barriers of its landings (R415). -/
def startScratch (s : State) (u : Nat) : Mem :=
  let t := s.team u
  let mine := s.endpoint.landings.filter (fun e => e.2.launchId == (s.lau t.launch).id && e.2.task == t.task)
  mine.foldl (fun m e => Mem.set m (e.2.boff + 12) 4) []

/-- A team's start: its scratchpad, its threads (R68), the virtual device's CSR defaults (R251), a fresh interval 0. A
re-execution's record loses STALE and FAILED and sets its old sets aside (R342); what a record keeps over a RESTART no rollback
withdraws (R346). -/
def startTeam (s : State) (u : Nat) : State :=
  let t := s.team u
  let body : TeamBody := { TeamBody.empty with
    threads := s.startThreads u, groups := (List.range t.gcount).map (fun g => (g, Group.start)), csr := (s.vd t.vdev).defaults }
  let s := s.updTeam u (fun t => { t with
    phase := .running, scratch := s.startScratch u, body := body, snap := body, log := [], logBad := none, interval := 0, work := 0
    errRollbacks := 0, closing := false, sw := none, switches := 0, irrevocable := false, children := 0 })
  let s := match t.reexec, s.launchMan t.launch with
    | some task, some m =>
      s.putMan (m.updRec task (fun r => if r.live && !r.done then r else
        { r with stale := false, failed := false, live := true, done := false, oldReads := r.reads, oldWrites := r.writes
                 oldChildren := m.childrenOf task, reads := [], writes := [] }))
    | _, _ => s
  s.updTeam u (fun t => { t with recMark := s.recCounts u })

end State

/-! ## The events -/

/-- TEAM_ADMISSION (R189, R190, R278, R339): the item whose first team is a task, a cluster of one, goes to the first core
that can admit it; elsewhere nothing happens. -/
def execTeamAdmission (launch task core : Nat) (s : State) : Ran :=
  let ok (it : Item) : Bool := s.itemTask launch it == task && s.itemShape launch it == (1, 1)
  match (s.itemsOf launch).find? ok with
  | none => .next s
  | some it =>
    .next (match s.itemSpots launch it with
    | some [some p] => if p.core = core then (s.tryAdmit launch it false).getD s else s
    | _ => s)

/-- CLUSTER_ADMISSION (R278): the launch's next grid cluster, or a cluster that comes back, all teams at once. -/
def execClusterAdmission (launch : Nat) (s : State) : Ran :=
  let gang (it : Item) : Bool := match it with | .spawned _ => false | _ => true
  .next (((s.itemsOf launch).filter gang).findSome? (fun it => s.tryAdmit launch it false) |>.getD s)

/-- TEAM_START (R68, R193): an admitted team starts. -/
def execTeamStart (u : Nat) (s : State) : Ran :=
  .next (if (s.team u).phase == .admitted then s.startTeam u else s)

/-- TEAM_COMPLETION (R147): the last thread has exited and nothing of the team is outstanding; its record closes and its
resources are freed, those of a drained team for the need that caused its removal (R265). -/
def execTeamCompletion (u : Nat) (s : State) : Ran :=
  .next (if s.completable u then
    let t := s.team u
    let s := ((s.deliverAll u).closeRec u).freeTeam u
    let s := if t.phase == .draining && t.need.isSome then
        (s.updCore t.core (fun k => { k with held := k.held ++ [⟨u, t.quads, t.need⟩] })).pruneHolds t.core
      else s
    s.afterEnd u
  else s)

/-- RESUMPTION (R272, R284): a saved team, with the saved teams of its cluster, takes up its record on the first cores that
can admit it. -/
def execResumption (team core : Nat) (s : State) : Ran :=
  let t := s.team team
  let it := Item.back t.cluster
  .next (if t.phase == .saved then
    match s.itemSpots t.launch it with
    | some sp =>
      if ((s.clu t.cluster).members.zip sp).any (fun e => e.1 == team && e.2.any (fun p => p.core == core)) then
        (s.tryAdmit t.launch it true).getD s
      else s
    | none => s
  else s)

end Sys2Proof.Machine
end

