-- ==== Sys2Proof/Machine/AsmText.lean ====
section
/-! DEFINITION. The text of the Cerval assembly language: source lines (R15), tokens (R18) and the reserved words (R19). -/

namespace Sys2Proof.Machine.Asm

/-- A piece of source text. -/
abbrev Text := List Char

/-- Why cvas reports an error, by the rule that makes it one. -/
inductive Err where
  | line      -- a line too long, not ended, or not 7-bit ASCII outside its comment (R15)
  | token     -- no token of R18, or a register number outside its range
  | grammar   -- no statement of the grammar of R16
  | word      -- a name reserved, undefined, defined twice or used before its definition (R19, R28, R31)
  | value     -- an expression without a value, or with one outside its field (R25, R26, R27)
  | segment   -- a relocatable value where none may stand (R28)
  | suffix    -- a suffix the entry does not list, or two of one class (R20)
  | operand   -- operands that the entry does not take (R21, R22, R24)
  | encoding  -- an encoding that would trap with ILL_FORM (R23)
  | budget    -- a register at or beyond the variant's count (R32)
  | place     -- a statement in a place that R30 does not give it
  | limit     -- a directive's operand outside its limits (R31, R32)
  | missing   -- a variant, a resource directive, code or .kend that is not there (R30, R31, R32)
  | point     -- switch points that differ between variants (R33)
  | map       -- a switch map that breaks R34
  | unsettled -- labels whose values do not settle
deriving DecidableEq, Repr

/-! ## Lines -/

/-- The lines of a source, each ended by a line feed (R15); `cur` is the line so far, reversed. None where the last is not ended. -/
def splitLines (cur : Text) : Text → Option (List Text)
  | [] => if cur.isEmpty then some [] else none
  | '\n' :: rest => (splitLines [] rest).map (fun ls => cur.reverse :: ls)
  | c :: rest => splitLines (c :: cur) rest

/-- A line without the carriage return before its line feed (R15). -/
def dropReturn (l : Text) : Text := if l.getLast? = some '\r' then l.dropLast else l

/-- A line without its comment (R15). -/
def dropComment (l : Text) : Text := l.takeWhile (fun c => c != ';')

/-! ## Characters -/

/-- A letter or `_`, the first character of a word (R18). -/
def isLetter (c : Char) : Bool := ('a' ≤ c && c ≤ 'z') || ('A' ≤ c && c ≤ 'Z') || c == '_'

/-- A decimal digit. -/
def isDigit (c : Char) : Bool := '0' ≤ c && c ≤ '9'

/-- A character of a word after its first (R18). -/
def isWordChar (c : Char) : Bool := isLetter c || isDigit c

/-- A capital letter as its small letter. -/
def lowerChar (c : Char) : Char := if 'A' ≤ c ∧ c ≤ 'Z' then Char.ofNat (c.toNat + 32) else c

/-- A text with small letters only, for the names that are read in any mix of case (R19). -/
def lower (w : Text) : Text := w.map lowerChar

/-- The value of a digit in a base of at most 16. -/
def digitIn (base : Nat) (c : Char) : Option Nat :=
  let v := if isDigit c then c.toNat - '0'.toNat
    else if 'a' ≤ lowerChar c ∧ lowerChar c ≤ 'f' then (lowerChar c).toNat - 'a'.toNat + 10 else 99
  if v < base then some v else none

/-! ## Tokens -/

/-- The symbols of the grammar (R16). -/
inductive Mark where
  | dots | comma | colon | lpar | rpar | lbr | rbr | plus | minus | star | slash | tilde | amp | caret | bar
  | shl | shr | sar | arrow | quest
deriving DecidableEq, Repr

/-- A token (R18). `dotted` is a word directly after a `.`; `flt m e` is m × 10^e. -/
inductive Tok where
  | word (w : Text)
  | dotted (w : Text)
  | num (n : Nat)
  | flt (m : Nat) (e : Int)
  | sreg (r : SReg)
  | mark (m : Mark)
deriving DecidableEq, Repr

/-- The special registers' names (R18, R69). -/
def sregNames : List (String × SReg) :=
  [ ("lane", .lane), ("group", .group), ("team", .team), ("task", .task), ("core", .core), ("clus", .clus), ("rank", .rank)
  , ("vdev", .vdev), ("ctx", .ctx), ("hyp", .hyp), ("cyc", .cyc), ("ptp", .ptp), ("work", .work) ]

/-- The entry of a name in a table, in any mix of case. -/
def findName {α : Type} (t : List (String × α)) (w : Text) : Option α := (t.find? (fun p => p.1.toList == lower w)).map Prod.snd

/-- A decimal number's value. -/
def decimal (ds : Text) : Nat := ds.foldl (fun n c => 10 * n + (c.toNat - '0'.toNat)) 0

/-- The digits of a hexadecimal or binary number, which single `_` may separate (R18): the value and the rest. -/
def based (base : Nat) : Text → Option Nat → Except Err (Nat × Text)
  | '_' :: c :: rest, some n => match digitIn base c with
    | some d => based base rest (some (base * n + d))
    | none => .error .token
  | c :: rest, acc => match digitIn base c with
    | some d => based base rest (some (base * acc.getD 0 + d))
    | none => match acc with
      | some n => if isWordChar c then .error .token else .ok (n, c :: rest)
      | none => .error .token
  | [], some n => .ok (n, [])
  | [], none => .error .token

/-- The end of a number or float: no word character follows it directly. -/
def closed (t : Tok) (rest : Text) : Except Err (Tok × Text) :=
  match rest with
  | c :: _ => if isWordChar c then .error .token else .ok (t, rest)
  | [] => .ok (t, [])

/-- The exponent of a float after its `e` or `E` (R18): its value and the rest; none where no digit follows. -/
def exponent (t : Text) : Option (Int × Text) :=
  let signed := match t with
    | '-' :: r => (true, r)
    | '+' :: r => (false, r)
    | r => (false, r)
  let ds := signed.2.takeWhile isDigit
  if ds.isEmpty then none
  else some (if signed.1 then -(decimal ds : Int) else (decimal ds : Int), signed.2.dropWhile isDigit)

/-- A token that begins with a digit (R18). -/
def numeric (t : Text) : Except Err (Tok × Text) :=
  match t with
  | '0' :: 'x' :: rest => do let r ← based 16 rest none; .ok (.num r.1, r.2)
  | '0' :: 'b' :: rest => do let r ← based 2 rest none; .ok (.num r.1, r.2)
  | _ =>
    let whole := t.takeWhile isDigit
    let rest := t.dropWhile isDigit
    match rest with
    | '.' :: d :: more =>
      if isDigit d then
        let part := (d :: more).takeWhile isDigit
        let after := (d :: more).dropWhile isDigit
        let m := decimal (whole ++ part)
        match after with
        | c :: tail =>
          if c = 'e' ∨ c = 'E' then match exponent tail with
            | some (e, r) => closed (.flt m (e - part.length)) r
            | none => .error .token
          else closed (.flt m (-(part.length : Int))) after
        | [] => .ok (.flt m (-(part.length : Int)), [])
      else if whole.length > 1 ∧ whole.head? = some '0' then .error .token else closed (.num (decimal whole)) rest
    | _ => if whole.length > 1 ∧ whole.head? = some '0' then .error .token else closed (.num (decimal whole)) rest

/-- A word and the rest: at most 63 characters (R18). -/
def wordAt (t : Text) : Except Err (Text × Text) :=
  let w := t.takeWhile isWordChar
  if w.length ≤ 63 then .ok (w, t.dropWhile isWordChar) else .error .token

/-- The first token of a text that begins with no blank (R18), the longest that fits. -/
def token (t : Text) : Except Err (Tok × Text) :=
  match t with
  | '>' :: '>' :: '>' :: r => .ok (.mark .sar, r)
  | '>' :: '>' :: r => .ok (.mark .shr, r)
  | '<' :: '<' :: r => .ok (.mark .shl, r)
  | '-' :: '>' :: r => .ok (.mark .arrow, r)
  | '.' :: '.' :: r => .ok (.mark .dots, r)
  | '.' :: r => match r with
    | c :: _ => if isLetter c then do let w ← wordAt r; .ok (.dotted w.1, w.2) else .error .token
    | [] => .error .token
  | '%' :: r => do
    let w ← wordAt r
    match findName sregNames w.1 with
    | some s => .ok (.sreg s, w.2)
    | none => .error .token
  | ',' :: r => .ok (.mark .comma, r)
  | ':' :: r => .ok (.mark .colon, r)
  | '(' :: r => .ok (.mark .lpar, r)
  | ')' :: r => .ok (.mark .rpar, r)
  | '[' :: r => .ok (.mark .lbr, r)
  | ']' :: r => .ok (.mark .rbr, r)
  | '+' :: r => .ok (.mark .plus, r)
  | '-' :: r => .ok (.mark .minus, r)
  | '*' :: r => .ok (.mark .star, r)
  | '/' :: r => .ok (.mark .slash, r)
  | '~' :: r => .ok (.mark .tilde, r)
  | '&' :: r => .ok (.mark .amp, r)
  | '^' :: r => .ok (.mark .caret, r)
  | '|' :: r => .ok (.mark .bar, r)
  | '?' :: r => .ok (.mark .quest, r)
  | c :: _ =>
    if isLetter c then do let w ← wordAt t; .ok (.word w.1, w.2)
    else if isDigit c then numeric t
    else if c.toNat < 128 then .error .token
    else .error .line
  | [] => .error .token

/-- The tokens of a text: blanks separate them (R15). `fuel` is at least the text's length. -/
def tokens : Nat → Text → Except Err (List Tok)
  | 0, t => if t.isEmpty then .ok [] else .error .token
  | _, [] => .ok []
  | n + 1, c :: rest =>
    if c = ' ' ∨ c = '\t' then tokens n rest
    else do
      let r ← token (c :: rest)
      let ts ← tokens n r.2
      .ok (r.1 :: ts)

/-- The tokens of a line (R15, R18): at most 1,024 characters, the comment aside. -/
def lineTokens (l : Text) : Except Err (List Tok) :=
  let l := dropReturn l
  if l.length > 1024 then .error .line else let t := dropComment l; tokens t.length t

/-! ## Words -/

/-- What a register-like word names (R18): a letter v, s, p or a, and a decimal number. -/
inductive RegName where
  | lane (n : BitVec 7)
  | uni (n : BitVec 6)
  | pred (p : Pred)
  | acc (n : Fin 8)
deriving DecidableEq, Repr

/-- The register, predicate or accumulator a word names: none where it has not that form, an error where its number has a leading
zero or lies beyond its range (R18). -/
def regName (w : Text) : Except Err (Option RegName) :=
  match lower w with
  | c :: ds =>
    if ds.isEmpty || !ds.all isDigit || !(['v', 's', 'p', 'a'].contains c) then .ok none
    else if decide (ds.length > 1) && ds.head? == some '0' then .error .token
    else
      let n := decimal ds
      if c = 'v' then (if n < 128 then .ok (some (.lane (BitVec.ofNat 7 n))) else .error .token)
      else if c = 's' then (if n < 64 then .ok (some (.uni (BitVec.ofNat 6 n))) else .error .token)
      else if c = 'p' then (if h : n < 12 then .ok (some (.pred ⟨n, h⟩)) else .error .token)
      else (if h : n < 8 then .ok (some (.acc ⟨n, h⟩)) else .error .token)
  | [] => .ok none

/-- The typenames (R18, R46). -/
def typeNames : List (String × Ty) :=
  [ ("s32", .s32), ("n32", .n32), ("s64", .s64), ("n64", .n64), ("f32", .f32), ("f64", .f64), ("f16", .f16), ("bf16", .bf16)
  , ("t8", .t8), ("t6", .t6), ("s8", .s8), ("n8", .n8), ("s16", .s16), ("n16", .n16), ("b128", .b128) ]

/-- The type a word names. -/
def typeName (w : Text) : Option Ty := findName typeNames w

/-- The other reserved words (R19). -/
def reservedWords : List String := ["mod", "inf", "nan", "scratch", "lo32", "hi32", "param", "psize"]

/-- Whether a word may be an identifier (R18, R19). -/
def isIdent (w : Text) : Bool :=
  (match regName w with | .ok none => true | _ => false) && (typeName w).isNone &&
  !reservedWords.any (fun r => r.toList == lower w)

/-- A word as an identifier. -/
def ident (w : Text) : Except Err Text := if isIdent w then .ok w else .error .word

end Sys2Proof.Machine.Asm
end

