-- ==== Sys2Proof/Machine/AsmExpr.lean ====
section
/-! DEFINITION. The expressions of the Cerval assembly language: their grammar (R16, R17), integer values (R25), float values (R26),
fields (R27), value classes (R28) and the expression functions (R29). -/

namespace Sys2Proof.Machine.Asm

/-- The binary operators (R16, R25). -/
inductive BinOp where
  | mul | div | mod | add | sub | shl | shr | sar | and | xor | or
deriving DecidableEq, Repr

/-- The expression functions of one argument that is an expression (R29). -/
inductive Fn where
  | lo32 | hi32 | enc (t : Ty)
deriving DecidableEq, Repr

/-- An expression (R16). -/
inductive Expr where
  | num (n : Nat)
  | flt (m : Nat) (e : Int)
  | inf
  | nan
  | name (w : Text)
  | acc (n : Fin 8)
  | par (e : Expr)
  | neg (e : Expr)
  | cpl (e : Expr)
  | bin (op : BinOp) (a b : Expr)
  | call (f : Fn) (e : Expr)
  | param (w : Text)
  | psize
deriving DecidableEq, Repr

/-! ## The grammar -/

/-- The binary operator a token is, with its level: 6 binds most tightly, 1 least (R25). -/
def binOp (t : Tok) : Option (BinOp × Nat) :=
  match t with
  | .mark .bar => some (.or, 1)
  | .mark .caret => some (.xor, 2)
  | .mark .amp => some (.and, 3)
  | .mark .shl => some (.shl, 4)
  | .mark .shr => some (.shr, 4)
  | .mark .sar => some (.sar, 4)
  | .mark .plus => some (.add, 5)
  | .mark .minus => some (.sub, 5)
  | .mark .star => some (.mul, 6)
  | .mark .slash => some (.div, 6)
  | .word w => if lower w == "mod".toList then some (.mod, 6) else none
  | _ => none

/-- The functions of one argument, by name (R29). -/
def fnNames : List (String × Fn) :=
  [ ("lo32", .lo32), ("hi32", .hi32), ("f16", .enc .f16), ("bf16", .enc .bf16), ("f32", .enc .f32), ("f64", .enc .f64)
  , ("t8", .enc .t8), ("t6", .enc .t6) ]

/-- What the parser looks for next: an expression of a level, the rest of one after its first operand, or a unary expression. -/
inductive Want where
  | level (k : Nat)
  | rest (k : Nat) (e : Expr)
  | unary
deriving DecidableEq, Repr

/-- The expression at the front of a list of tokens, and the tokens after it (R16, R25: operators of one level associate to the
left). `fuel` bounds the depth. -/
def parse : Nat → Want → List Tok → Except Err (Expr × List Tok)
  | 0, _, _ => .error .grammar
  | n + 1, .level k, ts =>
    if k > 6 then parse n .unary ts
    else do
      let a ← parse n (.level (k + 1)) ts
      parse n (.rest k a.1) a.2
  | n + 1, .rest k e, t :: ts =>
    match binOp t with
    | some (op, l) =>
      if l = k then do
        let b ← parse n (.level (k + 1)) ts
        parse n (.rest k (.bin op e b.1)) b.2
      else .ok (e, t :: ts)
    | none => .ok (e, t :: ts)
  | _ + 1, .rest _ e, [] => .ok (e, [])
  | n + 1, .unary, ts =>
    match ts with
    | .mark .minus :: r => do let a ← parse n .unary r; .ok (.neg a.1, a.2)
    | .mark .tilde :: r => do let a ← parse n .unary r; .ok (.cpl a.1, a.2)
    | .num v :: r => .ok (.num v, r)
    | .flt m e :: r => .ok (.flt m e, r)
    | .mark .lpar :: r => do
      let a ← parse n (.level 1) r
      match a.2 with
      | .mark .rpar :: r' => .ok (.par a.1, r')
      | _ => .error .grammar
    | .word w :: .mark .lpar :: r =>
      if lower w == "psize".toList then match r with
        | .mark .rpar :: r' => .ok (.psize, r')
        | _ => .error .grammar
      else if lower w == "param".toList then match r with
        | .word p :: .mark .rpar :: r' => do let p ← ident p; .ok (.param p, r')
        | _ => .error .grammar
      else match findName fnNames w with
        | none => .error .word
        | some f => do
          let a ← parse n (.level 1) r
          match a.2 with
          | .mark .rpar :: r' => .ok (.call f a.1, r')
          | _ => .error .grammar
    | .word w :: r =>
      if lower w == "inf".toList then .ok (.inf, r)
      else if lower w == "nan".toList then .ok (.nan, r)
      else match regName w with
        | .error e => .error e
        | .ok (some (.acc a)) => .ok (.acc a, r)
        | .ok (some _) => .error .grammar
        | .ok none => if isIdent w then .ok (.name w, r) else .error .word
    | _ => .error .grammar

/-- The expression at the front of a list of tokens. -/
def parseExpr (ts : List Tok) : Except Err (Expr × List Tok) := parse (10 * ts.length + 10) (.level 1) ts

/-! ## Values -/

/-- The segments of an image (R28, R35). -/
inductive Seg where
  | code | data
deriving DecidableEq, Repr

/-- The value of an integer expression (R28): absolute, or an address in a segment. -/
inductive Val where
  | abs (n : Int)
  | addr (seg : Seg) (off : Int)
  | half (hi : Bool) (seg : Seg) (off : Int)
deriving DecidableEq, Repr

/-- What an expression may name: symbols, the parameters' offsets, the parameter block's size once it is known, the switch points in
order, and the variant of each code label. -/
structure Env where
  syms : List (Text × Val)
  params : List (Text × Nat)
  psize : Option Nat
  points : List Text
  homes : List (Text × Nat)
deriving DecidableEq, Repr

/-- The environment before any definition. -/
def Env.empty : Env := ⟨[], [], none, [], []⟩

/-- The entry of a text in a table. -/
def findText {α : Type} (t : List (Text × α)) (w : Text) : Option α := (t.find? (fun p => p.1 == w)).map Prod.snd

/-- The exact value of a float expression (R26): a rational with the sign of a zero. -/
structure Ratio where
  neg : Bool
  n : Nat
  d : Nat
deriving DecidableEq, Repr

/-- An integer as a float operand; an integer zero is +0 (R26). -/
def Ratio.ofInt (x : Int) : Ratio := ⟨decide (x < 0), x.natAbs, 1⟩

/-- A float token's value: m × 10^e. -/
def Ratio.ofDecimal (m : Nat) (e : Int) : Ratio :=
  if e < 0 then ⟨false, m, 10 ^ e.natAbs⟩ else ⟨false, m * 10 ^ e.natAbs, 1⟩

/-- The sum (R26): a zero sum is −0 only when both terms are −0. -/
def Ratio.add (a b : Ratio) : Ratio :=
  let x : Int := (if a.neg then -(a.n * b.d : Int) else (a.n * b.d : Int)) + (if b.neg then -(b.n * a.d : Int) else (b.n * a.d : Int))
  if x = 0 then ⟨a.neg && b.neg && decide (a.n = 0) && decide (b.n = 0), 0, 1⟩ else ⟨decide (x < 0), x.natAbs, a.d * b.d⟩

/-- The value with the other sign, a zero included (R26). -/
def Ratio.flip (a : Ratio) : Ratio := { a with neg := !a.neg }

/-- The product; the signs combine, zeros included (R26). -/
def Ratio.mul (a b : Ratio) : Ratio := ⟨a.neg != b.neg, a.n * b.n, a.d * b.d⟩

/-- The quotient; a zero divisor is an error (R26). -/
def Ratio.div (a b : Ratio) : Except Err Ratio := if b.n = 0 then .error .value else .ok ⟨a.neg != b.neg, a.n * b.d, a.d * b.n⟩

/-- A rational as a number that RoundTo to nearest rounds alike: 1,200 bits below the denominator's own, and one more bit that is
set when the division left a remainder. No type's half quantum is finer. -/
def Ratio.toNum (a : Ratio) : Num :=
  if a.n = 0 then .fin a.neg 0 0
  else
    let k := 1200 + a.d.log2
    let q := a.n * 2 ^ k / a.d
    .fin a.neg (2 * q + (if a.n * 2 ^ k % a.d = 0 then 0 else 1)) (-(k + 1 : Int))

/-- Whether an expression is a float expression: it contains a float token outside a function's parentheses (R26). -/
def Expr.isFloat : Expr → Bool
  | .flt _ _ | .inf | .nan => true
  | .par e | .neg e | .cpl e => e.isFloat
  | .bin _ a b => a.isFloat || b.isFloat
  | _ => false

/-- A bitwise operation on two's-complement values of unbounded width (R25): done in a width that holds both and their signs. -/
def bitwise (op : BinOp) (a b : Int) : Int :=
  let w := a.natAbs.log2 + b.natAbs.log2 + 3
  let x := BitVec.ofInt w a
  let y := BitVec.ofInt w b
  match op with
  | .and => (x &&& y).toInt
  | .xor => (x ^^^ y).toInt
  | _ => (x ||| y).toInt

/-- A binary operator on absolute values (R25). -/
def intOp (op : BinOp) (a b : Int) : Except Err Int :=
  let shift (v : Int) : Except Err Int := if 0 ≤ b ∧ b ≤ 63 then .ok v else .error .value
  match op with
  | .mul => .ok (a * b)
  | .div => if b = 0 then .error .value else .ok (a.tdiv b)
  | .mod => if b = 0 then .error .value else .ok (a % b)
  | .add => .ok (a + b)
  | .sub => .ok (a - b)
  | .shl => shift (a * 2 ^ b.toNat)
  | .shr => shift (a / 2 ^ b.toNat)
  | .sar => shift (a % 2 ^ 64 / 2 ^ b.toNat)
  | .and | .xor | .or => .ok (bitwise op a b)

/-- A binary operator on values (R28): an address plus or minus an absolute value, and the difference of two addresses of one segment,
besides absolute values. -/
def valOp (op : BinOp) (a b : Val) : Except Err Val :=
  match op, a, b with
  | _, .abs x, .abs y => (intOp op x y).map .abs
  | .add, .addr s x, .abs y => .ok (.addr s (x + y))
  | .add, .abs x, .addr s y => .ok (.addr s (x + y))
  | .sub, .addr s x, .abs y => .ok (.addr s (x - y))
  | .sub, .addr s x, .addr s' y => if s = s' then .ok (.abs (x - y)) else .error .segment
  | _, _, _ => .error .segment

/-- The encoding of a rational in a type: rounded once, to nearest with ties to even (R26, R29). -/
def encodeRatio (t : Ty) (a : Ratio) : Nat := (roundTo t .near a.toNum).1

/-- The encoding of a number in a type. -/
def encodeNum (t : Ty) (a : Num) : Nat := (roundTo t .near a).1

/-- An infinity or a NaN, which is written only as `inf`, `-inf`, `nan` or `-nan` (R26). -/
def Expr.special : Expr → Option Num
  | .inf => some (.inf false)
  | .neg .inf => some (.inf true)
  | .nan | .neg .nan => some (.nan false)
  | _ => none

/-- The absolute value among the values. -/
def Val.absolute (v : Val) : Except Err Int :=
  match v with
  | .abs n => .ok n
  | _ => .error .segment

/-- What an expression is worth read both ways: as an integer expression (R25) and as a part of a float expression (R26). -/
abbrev Worth := Except Err Val × Except Err Ratio

/-- The worth of an integer operand: in a float expression it stands for its exact value (R26). -/
def Worth.ofVal (v : Except Err Val) : Worth :=
  (v, do let x ← v; let n ← x.absolute; .ok (Ratio.ofInt n))

/-- The worth of a float operand. -/
def Worth.ofRatio (r : Except Err Ratio) : Worth := (.error .value, r)

/-- The worth of a binary operator: in a float expression only +, -, * and / are allowed (R26). -/
def Worth.bin (op : BinOp) (a b : Worth) : Worth :=
  (do valOp op (← a.1) (← b.1),
   match op with
   | .add => do .ok ((← a.2).add (← b.2))
   | .sub => do .ok ((← a.2).add (← b.2).flip)
   | .mul => do .ok ((← a.2).mul (← b.2))
   | .div => do (← a.2).div (← b.2)
   | _ => .error .value)

/-- The value of an expression function on an argument and its worth (R29): lo32 and hi32 take integer expressions, an encoding takes
its argument as the argument's own tokens make it. -/
def Fn.apply (f : Fn) (e : Expr) (w : Worth) : Except Err Val :=
  match f with
  | .enc t =>
    match e.special with
    | some x => .ok (.abs (encodeNum t x))
    | none => do
      let r ← if e.isFloat then w.2 else (Worth.ofVal w.1).2
      .ok (.abs (encodeRatio t r))
  | .lo32 => do match ← w.1 with
    | .abs n => .ok (.abs (n % 2 ^ 32))
    | .addr s x => .ok (.half false s x)
    | .half _ _ _ => .error .segment
  | .hi32 => do match ← w.1 with
    | .abs n => .ok (.abs (n / 2 ^ 32 % 2 ^ 32))
    | .addr s x => .ok (.half true s x)
    | .half _ _ _ => .error .segment

/-- The value of a name in a table. -/
def known {α : Type} (o : Option α) : Except Err α :=
  match o with
  | some x => .ok x
  | none => .error .word

/-- The worth of an expression (R25, R26, R28, R29). -/
def Expr.worth (env : Env) : Expr → Worth
  | .num n => Worth.ofVal (.ok (.abs n))
  | .acc n => Worth.ofVal (.ok (.abs n.val))
  | .name w => Worth.ofVal (known (findText env.syms w))
  | .param w => Worth.ofVal ((known (findText env.params w)).map (fun n => .abs n))
  | .psize => Worth.ofVal ((known env.psize).map (fun n => .abs n))
  | .flt m e => Worth.ofRatio (.ok (Ratio.ofDecimal m e))
  | .inf | .nan => Worth.ofRatio (.error .value)
  | .par e => e.worth env
  | .neg e =>
    let w := e.worth env
    (do let x ← w.1; let n ← x.absolute; .ok (.abs (-n)), do .ok (← w.2).flip)
  | .cpl e =>
    let w := e.worth env
    (do let x ← w.1; let n ← x.absolute; .ok (.abs (-n - 1)), .error .value)
  | .bin op a b => Worth.bin op (a.worth env) (b.worth env)
  | .call f e => Worth.ofVal (f.apply e (e.worth env))

/-- The value of an integer expression; a float expression in its place is an error (R26). -/
def Expr.val (env : Env) (e : Expr) : Except Err Val := if e.isFloat then .error .value else (e.worth env).1

/-- The value of an absolute integer expression. -/
def Expr.abs (env : Env) (e : Expr) : Except Err Int := do let v ← e.val env; v.absolute

/-- An absolute integer expression within bounds. -/
def Expr.within (env : Env) (lo hi : Int) (bad : Err) (e : Expr) : Except Err Nat := do
  let n ← e.abs env
  if lo ≤ n ∧ n ≤ hi then .ok n.toNat else .error bad

/-- The bits of an integer in a field of n bits (R27). -/
def fieldBits (n : Nat) (x : Int) : Except Err Nat :=
  if -(2 ^ (n - 1)) ≤ x ∧ x ≤ 2 ^ n - 1 then .ok (wrap n x) else .error .value

/-- The encoding of an expression's value in a floating-point or tapered type, where an integer stands for its exact value (R22, R26).
DESIGN CHOICE (notes/assumptions/86.md): an integer the type cannot hold exactly is rounded to it, as R26 rounds a float expression;
R22 does not say whether it is an error. -/
def Expr.encoding (env : Env) (t : Ty) (e : Expr) : Except Err Nat :=
  match e.special with
  | some x => .ok (encodeNum t x)
  | none => do
    let r ← if e.isFloat then (e.worth env).2 else (Worth.ofVal (e.worth env).1).2
    .ok (encodeRatio t r)

end Sys2Proof.Machine.Asm
end

