-- ==== Sys2Proof/Machine/AsmInstr.lean ====
section
/-! DEFINITION. Instructions in the Cerval assembly language: operands and suffixes (R16, R17, R20), modifier words (R21), operand codes
(R22), guards and the switch marker (R23), branch operands (R24), the mnemonics (R62) and the register check of R32. -/

namespace Sys2Proof.Machine.Asm

/-! ## The grammar of an instruction -/

/-- An operand as written (R16). A register carries its minus sign and its absolute-value bars (R17). -/
inductive Opnd where
  | reg (r : Src) (neg abs : Bool)
  | mem (base : Option Src) (minus : Bool) (e : Option Expr)
  | pred (p : Pred)
  | sreg (r : SReg)
  | expr (e : Expr)
deriving DecidableEq, Repr

/-- An instruction as written (R16): names with small letters only. -/
structure Written where
  guard : Guard
  mnemonic : Text
  suffixes : List (Text × Option Expr)
  ops : List Opnd
  k : Bool
deriving DecidableEq, Repr

/-- The lane or uniform register a word names. -/
def regSrc (w : Text) : Except Err (Option Src) := do
  match ← regName w with
  | some (.lane n) => .ok (some (.lane n))
  | some (.uni n) => .ok (some (.uni n))
  | _ => .ok none

/-- The register between two bars (R17). -/
def barred (neg : Bool) (w : Text) (rest : List Tok) : Except Err (Opnd × List Tok) := do
  match ← regSrc w, rest with
  | some r, .mark .bar :: rest' => .ok (.reg r neg true, rest')
  | _, _ => .error .grammar

/-- An expression operand. -/
def exprOpnd (ts : List Tok) : Except Err (Opnd × List Tok) := do
  let r ← parseExpr ts
  .ok (.expr r.1, r.2)

/-- The end of a memory operand. -/
def closeMem (o : Opnd) (ts : List Tok) : Except Err (Opnd × List Tok) :=
  match ts with
  | .mark .rbr :: r => .ok (o, r)
  | _ => .error .grammar

/-- A memory operand after its opening bracket (R16). -/
def memOpnd (ts : List Tok) : Except Err (Opnd × List Tok) := do
  let base ← match ts with
    | .word w :: r => do
      match ← regSrc w with
      | some s => .ok (some (s, r))
      | none => .ok none
    | _ => .ok none
  match base with
  | none => do let e ← parseExpr ts; closeMem (.mem none false (some e.1)) e.2
  | some (s, .mark .plus :: r) => do let e ← parseExpr r; closeMem (.mem (some s) false (some e.1)) e.2
  | some (s, .mark .minus :: r) => do let e ← parseExpr r; closeMem (.mem (some s) true (some e.1)) e.2
  | some (s, r) => closeMem (.mem (some s) false none) r

/-- The operand at the front of a list of tokens (R16, R17). -/
def opnd (ts : List Tok) : Except Err (Opnd × List Tok) :=
  match ts with
  | .mark .lbr :: r => memOpnd r
  | .mark .bar :: .word w :: r => barred false w r
  | .mark .minus :: .mark .bar :: .word w :: r => barred true w r
  | .mark .minus :: .word w :: r => do
    match ← regSrc w with
    | some s => .ok (.reg s true false, r)
    | none => exprOpnd ts
  | .word w :: r => do
    match ← regName w with
    | some (.lane n) => .ok (.reg (.lane n) false false, r)
    | some (.uni n) => .ok (.reg (.uni n) false false, r)
    | some (.pred p) => .ok (.pred p, r)
    | _ => exprOpnd ts
  | .sreg s :: r => .ok (.sreg s, r)
  | _ => exprOpnd ts

/-- The operands to the end of the line, separated by commas. -/
def opnds : Nat → List Tok → Except Err (List Opnd)
  | 0, _ => .error .grammar
  | n + 1, ts => do
    let o ← opnd ts
    match o.2 with
    | [] => .ok [o.1]
    | .mark .comma :: r => do let os ← opnds n r; .ok (o.1 :: os)
    | _ => .error .grammar

/-- The argument of a suffix, where it takes one, and the rest (R16): `.scale` alone takes an argument (R20), so a parenthesis after
another suffix opens the first operand. -/
def sfxArg (w : Text) (ts : List Tok) : Except Err (Option Expr × List Tok) :=
  match lower w == "scale".toList, ts with
  | true, .mark .lpar :: r => do
    let e ← parseExpr r
    match e.2 with
    | .mark .rpar :: r => .ok (some e.1, r)
    | _ => .error .grammar
  | _, ts => .ok (none, ts)

/-- The suffixes at the front of a list of tokens, and the rest (R16). -/
def suffixes : Nat → List Tok → Except Err (List (Text × Option Expr) × List Tok)
  | n + 1, .dotted w :: ts => do
    let a ← sfxArg w ts
    let more ← suffixes n a.2
    .ok ((lower w, a.1) :: more.1, more.2)
  | _, ts => .ok ([], ts)

/-- The guard at the front of a list of tokens, and the rest (R16, R23). -/
def guardOf (ts : List Tok) : Except Err (Guard × List Tok) :=
  let named (neg : Bool) (w : Text) (r : List Tok) : Except Err (Guard × List Tok) := do
    match ← regName w with
    | some (.pred p) => .ok (.pred p neg, r)
    | _ => .error .grammar
  match ts with
  | .mark .quest :: .mark .tilde :: .word w :: r => named true w r
  | .mark .quest :: .word w :: r => named false w r
  | .mark .quest :: _ => .error .grammar
  | _ => .ok (.always, ts)

/-- The instruction that the tokens of a line are, its label aside (R16). A last `^` is the switch marker (R17). -/
def written (ts : List Tok) : Except Err Written := do
  let k := ts.getLast? == some (.mark .caret)
  let g ← guardOf (if k then ts.dropLast else ts)
  match g.2 with
  | .word m :: r => do
    let s ← suffixes r.length r
    let os ← if s.2.isEmpty then .ok [] else opnds s.2.length s.2
    .ok ⟨g.1, lower m, s.1, os, k⟩
  | _ => .error .grammar

/-! ## From the written form to the instruction -/

/-- A relocation for an immediate word, `.word` or `.dword` (R28, R40): its kind, its target segment and its addend. -/
structure Fix where
  kind : Nat
  seg : Seg
  addend : Int
deriving DecidableEq, Repr

/-- What is left of a written instruction while its fields are filled in, and what was filled in beside them: the modifier fields, and
the relocation of its immediate word. `pos` is its first byte's code-segment offset, `home` its variant. -/
structure Work where
  env : Env
  pos : Nat
  home : Nat
  sfx : List (Text × Option Expr)
  ops : List Opnd
  mod : Modifier
  used : Bool
  scaled : Bool
  fix : Option Fix

/-- A step that fills in fields. -/
abbrev Build (α : Type) := StateT Work (Except Err) α

/-- An error. -/
def fail {α : Type} (e : Err) : Build α := fun _ => .error e

/-- A value or an error. -/
def lift {α : Type} (r : Except Err α) : Build α := fun w => r.map (fun x => (x, w))

/-- The suffix of a class, taken away; an argument belongs to `.scale` alone (R20). -/
def optional {α : Type} (table : List (String × α)) : Build (Option α) := fun w =>
  match w.sfx.find? (fun s => (findName table s.1).isSome && s.2.isNone) with
  | some s => .ok (findName table s.1, { w with sfx := w.sfx.erase s })
  | none => .ok (none, w)

/-- The suffix of a class that the instruction needs. -/
def needed {α : Type} (table : List (String × α)) : Build α := do
  match ← optional table with
  | some x => pure x
  | none => fail .suffix

/-- The suffix of a class, or what its absence means. -/
def otherwise {α : Type} (table : List (String × α)) (d : α) : Build α := do return (← optional table).getD d

/-- Whether a suffix stands. -/
def flag (name : String) : Build Bool := otherwise [(name, true)] false

/-- The type suffix (R20). -/
def typ : Build Ty := needed typeNames

/-- The type suffix of an entry that has one type only; it may be left out. -/
def onlyType (t : Ty) : Build Unit := do if (← otherwise typeNames t) = t then pure () else fail .suffix

/-- The saturation, rounding and scale suffixes (R20, R21). -/
def modSuffixes : Build Unit := do
  let sat ← optional [("sat", Satc.sat), ("clamp01", .clamp01), ("clamp11", .clamp11)]
  let rm ← optional [("rz", Rm.rz), ("rup", .rup), ("rdn", .rdn)]
  let w ← get
  let scale := w.sfx.find? (fun s => s.1 == "scale".toList && s.2.isSome)
  let e ← match scale with
    | some (_, some e) => lift do let n ← e.abs w.env; if -32 ≤ n ∧ n ≤ 31 then .ok n else .error .value
    | _ => pure 0
  set { w with
    sfx := match scale with | some s => w.sfx.erase s | none => w.sfx
    mod := { w.mod with satc := sat.getD .none, rm := rm.getD .dflt, scale := BitVec.ofInt 6 e }
    used := sat.isSome || rm.isSome || scale.isSome
    scaled := scale.isSome }

/-- The next operand. -/
def pop : Build Opnd := fun w =>
  match w.ops with
  | o :: os => .ok (o, { w with ops := os })
  | [] => .error .operand

/-- Sets the negation and absolute value of a source field (R21). -/
def modSource (field : Nat) (neg abs : Bool) : Build Unit := modify fun w =>
  if neg || abs then
    let m := w.mod
    { w with used := true, mod := match field with
      | 0 => { m with na := neg, aa := abs }
      | 1 => { m with nb := neg, ab := abs }
      | _ => { m with nc := neg, ac := abs } }
  else w

/-- The constant codes (R49). -/
def konsts : List Konst := [.zero, .one, .minusOne, .half, .two]

/-- The operand code of an encoding in a type (R22): a constant code that has it, else the immediate word that R50 reads back as it. -/
def sourceOf (t : Ty) (bits : Nat) : Except Err Src :=
  match konsts.find? (fun k => konstOk k t && konstVal k t == bits) with
  | some k => .ok (.konst k)
  | none =>
    let w : Word := BitVec.ofNat 32 (if t = .f64 then bits / 2 ^ 32 else bits)
    if immOk w t && immVal w t == bits then .ok (.imm w) else .error .value

/-- The operand code of an element's encoding in a packed operand (R22): both halves alike. -/
def packedOf (t : Ty) (bits : Nat) : Src :=
  match konsts.find? (fun k => konstVal k t == bits) with
  | some k => .konst k
  | none => .imm (BitVec.ofNat 32 (bits * 65537))

/-- A relocatable value's relocation in a 32-bit word (R28): LO32 or HI32, and LO32 for the address itself. -/
def Val.fix32 : Val → Option Fix
  | .addr s x => some ⟨1, s, x⟩
  | .half hi s x => some ⟨if hi then 2 else 1, s, x⟩
  | .abs _ => none

/-- The value such a word holds before relocation: the offset's own bits. -/
def Fix.word (f : Fix) : Nat := wrap 32 (if f.kind = 2 then f.addend / 2 ^ 32 else f.addend)

/-- An integer value as a source of an integer type (R22, R27). A relocatable one takes the immediate word of a 32- or 64-bit type. -/
def intSource (t : Ty) (v : Val) : Build Src := do
  match v, v.fix32 with
  | .abs n, _ => lift do sourceOf t (← fieldBits t.width n)
  | _, some f => if t.isInt4 then do modify (fun w => { w with fix := some f }); pure (.imm (BitVec.ofNat 32 f.word)) else fail .segment
  | _, none => fail .segment

/-- An expression as a source of a kind (R22); a base or a pair is a register. -/
def constSource (k : SKind) (e : Expr) : Build Src := do
  let env := (← get).env
  match k with
  | .ty t =>
    if t.isIeee || t.isTapered then lift do sourceOf t (← e.encoding env t)
    else intSource t (← lift (e.val env))
  | .packed t => lift do .ok (packedOf t (← e.encoding env t))
  | .disp => intSource .s32 (← lift (e.val env))
  | .base64 | .base32 | .pair => fail .operand

/-- The next operand as source field 0, 1 or 2, read in a kind. -/
def src (field : Nat) (k : SKind) : Build Src := do
  match ← pop with
  | .reg r neg abs => do modSource field neg abs; pure r
  | .expr e => constSource k e
  | _ => fail .operand

/-- A source of a type. -/
def srcTy (field : Nat) (t : Ty) : Build Src := src field (.ty t)

/-- The next operand as a lane destination. -/
def lane : Build (BitVec 7) := do
  match ← pop with
  | .reg (.lane r) false false => pure r
  | _ => fail .operand

/-- The next operand as a uniform destination. -/
def uni : Build (BitVec 6) := do
  match ← pop with
  | .reg (.uni r) false false => pure r
  | _ => fail .operand

/-- The next operand as a predicate. -/
def pred : Build Pred := do
  match ← pop with
  | .pred p => pure p
  | _ => fail .operand

/-- The last operand as a result predicate, where one is left (R171). -/
def lastPred : Build (Option Pred) := do
  if (← get).ops.isEmpty then pure none else some <$> pred

/-- The next operand as an absolute number within bounds. -/
def number (lo hi : Int) : Build Nat := do
  match ← pop with
  | .expr e => do let w ← get; lift (e.within w.env lo hi .operand)
  | _ => fail .operand

/-- The next operand as an absolute number in a field of `n` bits (R27). -/
def field (n : Nat) : Build Nat := do
  match ← pop with
  | .expr e => do let x ← lift (e.abs (← get).env); lift (fieldBits n x)
  | _ => fail .operand

/-- The next operand as a predicate input (R107, R171): a constant is written 0 or 1. -/
def input : Build PIn := do
  match ← pop with
  | .pred p => pure (.pred p)
  | .expr e => do
    let w ← get
    pure (if (← lift (e.within w.env 0 1 .operand)) = 0 then .zero else .one)
  | _ => fail .operand

/-- The next operand as a memory operand: base and displacement (R130). -/
def memory : Build (Src × Src) := do
  match ← pop with
  | .mem base minus e => do
    let a := base.getD (.konst .zero)
    match e with
    | none => pure (a, .konst .zero)
    | some e =>
      if minus then do
        let n ← lift (e.abs (← get).env)
        pure (a, ← intSource .s32 (.abs (-n)))
      else pure (a, ← constSource .disp e)
  | _ => fail .operand

/-- The next operand as a branch target (R24): a code label of the same variant, as the offset from the branch, or an absolute
offset. -/
def target : Build Word := do
  match ← pop with
  | .expr e => do
    let w ← get
    let off ← match e with
      | .name l => match findText w.env.homes l, findText w.env.syms l with
        | some v, some (.addr _ x) => if v = w.home then pure (x - w.pos) else fail .operand
        | _, _ => lift (e.abs w.env)
      | _ => lift (e.abs w.env)
    if off % 4 = 0 then lift do .ok (BitVec.ofNat 32 (← fieldBits 32 off)) else fail .operand
  | _ => fail .operand

/-- The next operand as a switch point's number (R33). -/
def point : Build (BitVec 8) := do
  match ← pop with
  | .expr (.name w) => do
    let i := (← get).env.points.findIdx (fun p => p == w)
    if i < (← get).env.points.length then pure (BitVec.ofNat 8 i) else fail .point
  | _ => fail .operand

/-- The next operand as a special register. -/
def special : Build SReg := do
  match ← pop with
  | .sreg r => pure r
  | _ => fail .operand

/-! ## The operand shapes that several entries share -/

/-- An instruction but for its head. -/
abbrev Shaped := Build (Head → Instr)

/-- D and A, of one type. -/
def one (mk : Head → Ty → BitVec 7 → Src → Instr) : Shaped := do
  let t ← typ; let d ← lane; let a ← srcTy 0 t
  pure (fun h => mk h t d a)

/-- D, A and B, of one type. -/
def two (mk : Head → Ty → BitVec 7 → Src → Src → Instr) : Shaped := do
  let t ← typ; let d ← lane; let a ← srcTy 0 t; let b ← srcTy 1 t
  pure (fun h => mk h t d a b)

/-- D, A and B, where B is an n32 count or field. -/
def counted (mk : Head → Ty → BitVec 7 → Src → Src → Instr) : Shaped := do
  let t ← typ; let d ← lane; let a ← srcTy 0 t; let b ← srcTy 1 .n32
  pure (fun h => mk h t d a b)

/-- D, A and the n32 count of a shift, whose A is read as the n type of the width (R97). -/
def shifted (mk : Head → Ty → BitVec 7 → Src → Src → Instr) : Shaped := do
  let t ← typ; let d ← lane; let a ← srcTy 0 (Ty.asN t); let b ← srcTy 1 .n32
  pure (fun h => mk h t d a b)

/-- D, A, B and C, of one type. -/
def three (mk : Head → Ty → BitVec 7 → Src → Src → Src → Instr) : Shaped := do
  let t ← typ; let d ← lane; let a ← srcTy 0 t; let b ← srcTy 1 t; let c ← srcTy 2 t
  pure (fun h => mk h t d a b c)

/-- Packed D, A and B (R124). -/
def packed2 (mk : Head → Ty → BitVec 7 → Src → Src → Instr) : Shaped := do
  let t ← typ; let d ← lane; let a ← src 0 (.packed t); let b ← src 1 (.packed t)
  pure (fun h => mk h t d a b)

/-- Packed D, A and B with a third source of a kind (R124, R125). -/
def packed3 (third : Ty → SKind) (mk : Head → Ty → BitVec 7 → Src → Src → Src → Instr) : Shaped := do
  let t ← typ; let d ← lane; let a ← src 0 (.packed t); let b ← src 1 (.packed t); let c ← src 2 (third t)
  pure (fun h => mk h t d a b c)

/-- Uniform D, A and B of one type. -/
def utwo (mk : Head → Ty → BitVec 6 → Src → Src → Instr) : Shaped := do
  let t ← typ; let d ← uni; let a ← srcTy 0 t; let b ← srcTy 1 t
  pure (fun h => mk h t d a b)

/-- Uniform D, A and the n32 count of a shift (R97, R165). -/
def ushifted (mk : Head → Ty → BitVec 6 → Src → Src → Instr) : Shaped := do
  let t ← typ; let d ← uni; let a ← srcTy 0 (Ty.asN t); let b ← srcTy 1 .n32
  pure (fun h => mk h t d a b)

/-- One source of a kind. -/
def alone (k : SKind) (mk : Head → Src → Instr) : Shaped := do
  let a ← src 0 k
  pure (fun h => mk h a)

/-- A lane destination and one n32 source. -/
def laneAnd (mk : Head → BitVec 7 → Src → Instr) : Shaped := do
  let d ← lane; let a ← srcTy 0 .n32
  pure (fun h => mk h d a)

/-- A predicate destination and one source of a kind. -/
def predAnd (k : SKind) (mk : Head → Pred → Src → Instr) : Shaped := do
  let p ← pred; let a ← src 0 k
  pure (fun h => mk h p a)

/-- A conversion's type, source type, D and A (R121 to R123). -/
def convert (mk : Head → Ty → Ty → BitVec 7 → Src → Instr) : Shaped := do
  let st ← needed (typeNames.map (fun p => ("from_" ++ p.1, p.2)))
  let t ← typ; let d ← lane; let a ← srcTy 0 st
  pure (fun h => mk h t st d a)

/-- The space suffix (R128) and the cache hint (R130). -/
def spaces : List (String × Space) := [("g", .g), ("l", .l), ("c", .c), ("k", .k)]
def hints : List (String × Hint) := [("nl1", .nl1), ("lu", .lu)]

/-- The space suffix of an instruction that acts in space G alone; it may be left out. -/
def spaceG : Build Unit := do let _ ← optional [("g", ())]

/-- A load: space, hint, type, D and the memory operand. -/
def load {w : Nat} (d : Build (BitVec w)) (mk : Head → Space → Hint → Ty → BitVec w → Src → Src → Instr) : Shaped := do
  let sp ← otherwise spaces .g; let hn ← otherwise hints .normal; let t ← typ; let d ← d; let m ← memory
  pure (fun h => mk h sp hn t d m.1 m.2)

/-- A store: space, hint, type, the memory operand and the data. -/
def store (mk : Head → Space → Hint → Ty → Src → Src → Src → Instr) : Shaped := do
  let sp ← otherwise spaces .g; let hn ← otherwise hints .normal; let t ← typ; let m ← memory; let c ← srcTy 2 t
  pure (fun h => mk h sp hn t m.1 m.2 c)

/-- A branch. -/
def branch (mk : Head → Word → Instr) : Shaped := do
  let off ← target
  pure (fun h => mk h off)

/-- No operand. -/
def bare (mk : Head → Instr) : Shaped := pure mk

/-! ## The mnemonics (R60 to R62) -/

/-- The conditions of ICMP and UCMP (R103) and of FCMP (R118). -/
def iconds : List (String × ICond) := [("eq", .eq), ("ne", .ne), ("lt", .lt), ("le", .le), ("gt", .gt), ("ge", .ge)]
def fconds : List (String × FCond) :=
  [("eq", .eq), ("ne", .ne), ("lt", .lt), ("le", .le), ("gt", .gt), ("ge", .ge), ("un", .un), ("ord", .ord)]

/-- The operations of ATOM (R136). -/
def atomOps : List (String × AtomOp) :=
  [ ("add", .add), ("min", .min), ("max", .max), ("and", .and), ("or", .or), ("xor", .xor), ("exch", .exch), ("cas", .cas)
  , ("fadd", .fadd), ("fmin", .fmin), ("fmax", .fmax), ("inc", .inc), ("dec", .dec) ]

/-- The functions of SFQ (R238). -/
def sfqFns : List (String × SfqFn) :=
  [ ("rcp", .rcp), ("sqrt", .sqrt), ("rsqrt", .rsqrt), ("exp2", .exp2), ("log2", .log2), ("exp", .exp), ("log", .log)
  , ("sinpi", .sinpi), ("cospi", .cospi), ("tanh", .tanh), ("sigm", .sigm), ("gelu", .gelu) ]

/-- The operations of REDUX and SCAN (R182). -/
def redOps : List (String × RedOp) :=
  [ ("add", .add), ("min", .min), ("max", .max), ("and", .and), ("or", .or), ("xor", .xor), ("fadd", .fadd), ("fmin", .fmin)
  , ("fmax", .fmax), ("mini", .mini), ("maxi", .maxi), ("fmini", .fmini), ("fmaxi", .fmaxi) ]

/-- The CSRs (R251). -/
def csrNames : List (String × Csr) :=
  [ ("tsw", .tsw), ("tpc", .tpc), ("tca", .tca), ("tva", .tva), ("tvb", .tvb), ("fflags", .fflags), ("rngk", .rngk)
  , ("rngc", .rngc), ("fair", .fair), ("lease", .lease), ("ckint", .ckint), ("dbg", .dbg), ("hypcap", .hypcap), ("sbase", .sbase) ]

/-- The integer, logic, move and predicate mnemonics (R90). -/
def intMnemonics : List (String × Shaped) :=
  [ ("iadd", two .iadd), ("isub", two .isub), ("imul", two .imul), ("imulh", two .imulh), ("imad", three .imad)
  , ("idiv", two .idiv), ("irem", two .irem), ("imin", two .imin), ("imax", two .imax)
  , ("and", two .and), ("or", two .or), ("xor", two .xor), ("andn", two .andn), ("not", one .not)
  , ("shl", shifted .shl), ("shr", shifted .shr), ("sar", shifted .sar), ("rotl", shifted .rotl)
  , ("popc", one .popc), ("clz", one .clz), ("brev", one .brev), ("bfx", counted .bfx)
  , ("bfi", do
      let t ← typ; let d ← lane; let a ← srcTy 0 t; let b ← srcTy 1 t; let c ← srcTy 2 .n32
      pure (fun h => .bfi h t d a b c))
  , ("perm", do
      onlyType .n32
      let d ← lane; let a ← srcTy 0 .n32; let b ← srcTy 1 .n32; let c ← srcTy 2 .n32
      pure (fun h => .perm h d a b c))
  , ("lea", do
      let e ← otherwise [("sx", LeaExt.sx), ("zx", .zx)] .plain
      let t ← typ; let d ← lane; let a ← srcTy 0 t; let b ← srcTy 1 (Form.leaB e t); let sh ← number 0 63
      pure (fun h => .lea h e t d a b (BitVec.ofNat 6 sh)))
  , ("icmp", do
      let cd ← needed iconds; let t ← typ; let p ← pred; let a ← srcTy 0 t; let b ← srcTy 1 t
      pure (fun h => .icmp h cd t p a b))
  , ("idp4", do
      let s ← needed [("uu", (false, false)), ("su", (true, false)), ("us", (false, true)), ("ss", (true, true))]
      let t ← typ; let d ← lane; let a ← srcTy 0 .n32; let b ← srcTy 1 .n32; let c ← srcTy 2 t
      pure (fun h => .idp4 h s.1 s.2 t d a b c))
  , ("mov", one .mov)
  , ("sel", do
      let t ← typ; let d ← lane; let a ← srcTy 0 t; let b ← srcTy 1 t; let p ← pred
      pure (fun h => .sel h t p d a b))
  , ("plop", do
      let p ← pred; let a ← input; let b ← input; let c ← input; let lut ← field 8
      pure (fun h => .plop h (BitVec.ofNat 8 lut) p a b c))
  , ("movp", do
      if ← flag "set" then
        let a ← srcTy 0 .n32; let b ← srcTy 1 .n32
        pure (fun h => .movpSet h a b)
      else
        let d ← lane
        pure (fun h => .movp h d))
  , ("rdsr", do
      let d ← lane; let r ← special
      pure (fun h => .rdsr h r d))
  , ("nop", bare .nop) ]

/-- The floating-point mnemonics (R112), the special-function queue and the waits (R224, R235 to R241). -/
def fltMnemonics : List (String × Shaped) :=
  [ ("fadd", two .fadd), ("fsub", two .fsub), ("fmul", two .fmul), ("ffma", three .ffma)
  , ("fmin", do let n ← flag "nan"; two (fun h => .fmin h n)), ("fmax", do let n ← flag "nan"; two (fun h => .fmax h n))
  , ("fcmp", do
      let cd ← needed fconds; let t ← typ; let p ← pred; let a ← srcTy 0 t; let b ← srcTy 1 t
      pure (fun h => .fcmp h cd t p a b))
  , ("fclass", one .fclass), ("frnd", do let aw ← flag "rna"; one (fun h => .frnd h aw))
  , ("fcvt", convert .fcvt), ("f2i", convert .f2i), ("i2f", convert .i2f)
  , ("padd", packed2 .padd), ("pmul", packed2 .pmul), ("pfma", packed3 .packed .pfma), ("pdot2", packed3 (fun _ => .ty .f32) .pdot2)
  , ("rng", do
      let u ← flag "unif"; let t ← typ; let d ← lane
      if t = (if u then .f32 else .b128) then pure (fun h => .rng h u d) else fail .suffix)
  , ("sfq", do
      let fn ← needed sfqFns; onlyType .f32
      let d ← lane; let a ← srcTy 0 .f32; let tok ← number 0 15
      pure (fun h => .sfq h fn (BitVec.ofNat 4 tok) d a))
  , ("waitt", alone (.ty .n32) .waitt), ("sleept", alone (.ty .n64) .sleept)
  , ("lwait", do
      let a ← srcTy 0 .n32; let b ← srcTy 1 .n32
      pure (fun h => .lwait h a b))
  , ("waitc", do
      let c ← needed [("ferry", EClass.ferry), ("matrix", .matrix), ("net", .net)]; let n ← number 0 63
      pure (fun h => .waitc h c (BitVec.ofNat 6 n))) ]

/-- The cross-lane mnemonics (R171): the mask stands after the sources, the result predicate last. -/
def crossMnemonics : List (String × Shaped) :=
  [ ("shfl", do
      let m ← needed [("lane", ShflMode.lane), ("step", .step), ("mix", .mix), ("rot", .rot)]
      let t ← typ; let d ← lane; let a ← srcTy 0 t; let b ← srcTy 1 (if m = .step then .s32 else .n32); let c ← srcTy 2 .n32
      let p ← lastPred
      pure (fun h => .shfl h m t p d a b c))
  , ("vote", do
      let fn ← needed [("atleast", VoteFn.atleast), ("fewer", .fewer), ("same", .same), ("odd", .odd)]
      let p ← pred; let i ← input
      let b ← if fn = .atleast ∨ fn = .fewer then srcTy 1 .n32 else pure (.lane 0)
      let c ← srcTy 2 .n32
      pure (fun h => .vote h fn p i b c))
  , ("ballot", do
      let d ← lane; let i ← input; let c ← srcTy 2 .n32
      pure (fun h => .ballot h d i c))
  , ("match", do
      let t ← typ; let d ← lane; let a ← srcTy 0 t; let c ← srcTy 2 .n32; let p ← lastPred
      pure (fun h => .matchLanes h t p d a c))
  , ("redux", do
      let op ← needed redOps; let t ← typ; let d ← lane; let a ← srcTy 0 t
      let b ← if Form.redIndexed op then srcTy 1 .n32 else pure (.lane 0)
      let c ← srcTy 2 .n32; let p ← lastPred
      pure (fun h => .redux h op t p d a b c))
  , ("scan", do
      let op ← needed redOps; let ex ← flag "excl"; let t ← typ; let d ← lane; let a ← srcTy 0 t; let c ← srcTy 2 .n32
      let p ← lastPred
      pure (fun h => .scan h op ex t p d a c))
  , ("elect", do
      let p ← pred
      let a ← if (← get).ops.isEmpty then pure (.konst .zero) else srcTy 0 .n32
      pure (fun h => .elect h p a)) ]

/-- The memory and control mnemonics (R129), the engines (R205, R228, R411) and the barriers (R195, R198, R281). -/
def memMnemonics : List (String × Shaped) :=
  [ ("ld", load lane .ld), ("st", store .st)
  , ("atom", do
      spaceG
      let op ← needed atomOps; let nr ← flag "nr"; let hn ← otherwise hints .normal; let t ← typ
      let d ← if nr then pure 0 else lane
      let m ← memory; let c ← srcTy 2 t
      pure (fun h => .atom h op nr hn t d m.1 m.2 c))
  , ("lr", do
      spaceG
      let hn ← otherwise hints .normal; let t ← typ; let d ← lane; let m ← memory
      pure (fun h => .lr h hn t d m.1 m.2))
  , ("sc", do
      spaceG
      let hn ← otherwise hints .normal; let t ← typ; let p ← pred; let m ← memory; let c ← srcTy 2 t
      pure (fun h => .sc h hn t p m.1 m.2 c))
  , ("fence", do
      let n ← needed [("e", false), ("n", true)]
      pure (fun h => if n then .fenceN h else .fenceE h))
  , ("pref", do
      spaceG
      let l2 ← otherwise [("l1", false), ("l2", true)] false; let m ← memory
      pure (fun h => .pref h l2 m.1 m.2))
  , ("cpy", laneAnd .cpy), ("mma", alone (.ty .n32) .mma), ("mdrain", alone (.ty .n32) .mdrain), ("mzero", alone (.ty .n32) .mzero)
  , ("nput", alone (.ty .n32) .nput), ("nget", alone (.ty .n32) .nget), ("nsend", alone (.ty .n32) .nsend)
  , ("bra", branch .bra), ("brx", alone .pair .brx)
  , ("call", do
      if ← flag "x" then
        let d ← lane; let a ← src 0 .pair
        pure (fun h => .callX h d a)
      else
        let d ← lane; let off ← target
        pure (fun h => .call h d off))
  , ("ret", alone .pair .ret), ("exit", bare .exit)
  , ("bar", do
      let arv ← flag "arv"; let b ← number 0 15
      pure (fun h => if arv then .barArv h (BitVec.ofNat 4 b) else .bar h (BitVec.ofNat 4 b)))
  , ("cbar", do
      let arv ← flag "arv"; let b ← number 0 3
      pure (fun h => if arv then .cbarArv h (BitVec.ofNat 2 b) else .cbar h (BitVec.ofNat 2 b)))
  , ("swpt", do
      let p ← point
      pure (fun h => .swpt h p)) ]

/-- The task, hypothesis, determinism, trap and system mnemonics (R339 to R341, R355, R369, R202, R203, R249 to R261, R391). -/
def sysMnemonics : List (String × Shaped) :=
  [ ("spawn", laneAnd .spawn)
  , ("modreg", do
      let d ← lane; let a ← src 0 .pair; let b ← srcTy 1 .n32; let lg ← number 0 63
      pure (fun h => .modreg h (BitVec.ofNat 6 lg) d a b))
  , ("modrel", alone (.ty .n32) .modrel), ("prop", predAnd .pair .prop)
  , ("hnew", do
      let d ← lane
      pure (fun h => .hnew h d))
  , ("hent", alone (.ty .n32) .hent)
  , ("hres", do
      let conf ← needed [("conf", true), ("ref", false)]
      predAnd (.ty .n32) (fun h p a => if conf then .hresConf h p a else .hresRef h p a))
  , ("dph", bare .dph), ("trap", alone (.ty .n32) .trap), ("tret", bare .tret)
  , ("csrr", do
      let cs ← needed csrNames; let d ← lane
      pure (fun h => .csrr h cs d))
  , ("csrw", do
      let cs ← needed csrNames; let a ← srcTy 0 (Form.csrTy cs)
      pure (fun h => .csrw h cs a))
  , ("ckpt", bare .ckpt)
  , ("permit", do
      match ← needed [("acq", 0), ("rel", 1), ("try", 2)] with
      | 0 => alone (.ty .n32) .permitAcq
      | 1 => alone (.ty .n32) .permitRel
      | _ => predAnd (.ty .n32) .permitTry)
  , ("yield", alone (.ty .n32) .yield)
  , ("tlbi", do
      match ← needed [("page", 0), ("ctx", 1), ("vdev", 2)] with
      | 0 => alone .pair .tlbiPage
      | 1 => bare .tlbiCtx
      | _ => bare .tlbiVdev)
  , ("cflush", do
      let a ← src 0 .pair; let b ← srcTy 1 .n32
      pure (fun h => .cflush h a b)) ]

/-- The uniform-set mnemonics (R61, R164). -/
def uniMnemonics : List (String × Shaped) :=
  [ ("uadd", utwo .uadd), ("usub", utwo .usub), ("umul", utwo .umul), ("umulh", utwo .umulh)
  , ("umad", do
      let t ← typ; let d ← uni; let a ← srcTy 0 t; let b ← srcTy 1 t; let c ← srcTy 2 t
      pure (fun h => .umad h t d a b c))
  , ("umin", utwo .umin), ("umax", utwo .umax), ("uand", utwo .uand), ("uor", utwo .uor), ("uxor", utwo .uxor)
  , ("ushl", ushifted .ushl), ("ushr", ushifted .ushr), ("usar", ushifted .usar)
  , ("ulea", do
      let e ← otherwise [("sx", LeaExt.sx), ("zx", .zx)] .plain
      let t ← typ; let d ← uni; let a ← srcTy 0 t; let b ← srcTy 1 (Form.leaB e t); let sh ← number 0 63
      pure (fun h => .ulea h e t d a b (BitVec.ofNat 6 sh)))
  , ("ucmp", do
      let cd ← needed iconds; let t ← typ; let p ← pred; let a ← srcTy 0 t; let b ← srcTy 1 t
      pure (fun h => .ucmp h cd t p a b))
  , ("umov", do
      let t ← typ; let d ← uni; let a ← srcTy 0 t
      pure (fun h => .umov h t d a))
  , ("urdsr", do
      let d ← uni; let r ← special
      pure (fun h => .urdsr h r d))
  , ("uld", load uni .uld), ("ust", store .ust), ("ubra", branch .ubra) ]

/-- The Cerval mnemonics. -/
def mnemonics : List (String × Shaped) :=
  intMnemonics ++ fltMnemonics ++ crossMnemonics ++ memMnemonics ++ sysMnemonics ++ uniMnemonics

/-! ## The instruction -/

/-- An instruction with the shortest words its entry allows (R90), or the error that none is legal (R23). -/
def shortest (mk : Head → Instr) (h : Head) : Except Err Instr :=
  let i := mk { h with bare := true }
  let j := mk { h with bare := false }
  if i.checks then .ok i else if j.checks then .ok j else .error .encoding

/-- Whether an instruction's entry accepts a `.scale` suffix (R20, R113). -/
def scales (i : Instr) : Bool :=
  match i.form with
  | some f => (f.mod.map ModRule.scale).getD false
  | none => false

/-- The instruction that a written one is, at a code-segment offset of a variant, with its immediate word's relocation. No operand and
no suffix is left over (R20), and a modifier word stands exactly where R21 has it. -/
def Written.build (x : Written) (env : Env) (pos home : Nat) : Except Err (Instr × Option Fix) := do
  let shape ← match findName mnemonics x.mnemonic with
    | some s => .ok s
    | none => .error .grammar
  let start : Work := ⟨env, pos, home, x.suffixes, x.ops, ⟨.none, 0, false, false, false, false, false, false, .dflt⟩, false, false, none⟩
  let r ← (do modSuffixes; shape : Shaped) start
  let w := r.2
  if !w.sfx.isEmpty then .error .suffix
  else if !w.ops.isEmpty then .error .operand
  else
    let i ← shortest r.1 ⟨x.guard, x.k, true, if w.used then some w.mod else none⟩
    if w.scaled && !scales i then .error .suffix else .ok (i, w.fix)

/-- Whether an instruction names a register at or beyond a variant's counts (R32). -/
def overBudget (i : Instr) (lregs uregs : Nat) : Bool := (regUse i).beyond ⟨lregs, uregs, 0, 0, 0, 0, 0, 0, []⟩

end Sys2Proof.Machine.Asm
end

