-- ==== Sys2Proof/Machine/Record.lean ====
section
/-! DEFINITION. Save records (R162, R268 to R271): a thread as its record holds it, the header, and the bytes of a record in the virtual
device's save area. The engine and team section and the deterministic section have no stated layout, and their bytes are not written
(notes/assumptions/36.md). -/

namespace Sys2Proof.Machine

namespace State

/-- A thread as a record holds it (R270): a wait that no WAIT code names is settled, at the instruction it would next issue; of one at a
collective the record holds the cycles it has waited (R177). -/
def recordThread (cyc : Nat) (det : Bool) (t : Thread) : Thread :=
  let t := { t with pend := [] }
  let t := if det then t else { t with fair := 0, promoted := false }
  match t.st, t.wait with
  | .waiting, some w =>
    match w.kind with
    | .marker | .room _ | .home | .close | .dataflow _ | .serial | .yield _ | .ckpt | .tlbi _ | .swpt _ => t.wake
    | .dph => { t.wake with pc := w.pc }
    | .collective => { t with wait := some { w with since := cyc - w.since } }
    | _ => t
  | _, _ => t

/-! ## The thread section (R270) -/

/-- STATE. -/
def stateCode (t : ThState) : Nat :=
  match t with
  | .ready => 0
  | .waiting => 1
  | .parked => 2
  | .inHandler => 3
  | .orphaned => 4
  | .exited => 5

/-- WAIT and WAITARG of a wait: none where the wait has no argument of those WAITARG names. -/
def waitCode (k : WaitKind) : Nat × Option Nat :=
  match k with
  | .bar b | .barDrain b _ | .barAgain b _ => (1, some b)
  | .cbar b | .cbarDrain b _ | .cbarAgain b _ => (2, some b)
  | .waitc _ n => (3, some n)
  | .waitt mask => (4, some mask.toNat)
  | .lwait _ n => (5, some n)
  | .sleept stamp _ => (6, some stamp.toNat)
  | .fenceE _ | .fenceN _ => (7, none)
  | .collective => (8, none)
  | .permit n => (9, some n)
  | _ => (0, none)

/-- A save slot's 32 bytes. -/
def slotBytes (q : SaveSlot) : List Byte :=
  toBytes 4 q.tsw.toNat ++ toBytes 4 q.tca.toNat ++ toBytes 8 q.tpc.toNat ++ toBytes 8 q.tva.toNat ++ toBytes 8 q.tvb.toNat

/-- A thread's entry of 128 bytes; a WAITARG that no wait gives is free. -/
def threadEntry (s : State) (tid : Nat) (t : Thread) : List Byte :=
  let wait := if t.st == .waiting then (t.wait.map (fun w => waitCode w.kind)).getD (0, none) else (0, none)
  let free := (Config.freeWord (s.draws * 65536 + 2 * tid)).toNat + 4294967296 * (Config.freeWord (s.draws * 65536 + 2 * tid + 1)).toNat
  let level := t.level + (if t.fw1 then 4 else 0) + (if t.fw2 then 8 else 0) + (if t.priv == .supervisor then 128 else 0)
  toBytes 8 t.pc.toNat ++ toBytes 1 (stateCode t.st) ++ toBytes 1 wait.1 ++ toBytes 1 level ++ toBytes 1 (s.hypNumber t.hyp) ++
  toBytes 2 t.preds.toNat ++ toBytes 1 t.fflags.toNat ++ toBytes 1 0 ++ toBytes 8 t.rngk.toNat ++ toBytes 16 t.rngc.toNat ++
  toBytes 8 (wait.2.getD free) ++ toBytes 16 0 ++ slotBytes t.slot1 ++ slotBytes t.slot2

/-! ## The other sections (R271) -/

/-- A group's rows: LREGS lane rows, then its uniform rows. -/
def groupRows (v : Variant) (b : TeamBody) (g : Nat) : List Byte :=
  let lane (r l : Nat) : List Byte := toBytes 4 (SMap.get (SMap.get b.threads (32 * g + l) Thread.none).regs r 0).toNat
  let uni (r : Nat) : List Byte := toBytes 4 (SMap.get (SMap.get b.groups g Group.start).uregs r 0).toNat
  (List.range v.lregs).flatMap (fun r => (List.range 32).flatMap (lane r)) ++
  (List.range (32 * ((v.uregs + 31) / 32))).flatMap uni

/-- An accumulator's 16 bytes and its elements. The bytes that stand for a mode and for a chain have no stated code, and are free. -/
def accBytes (s : State) (i : Nat) (a : Acc) : List Byte :=
  let code (k : Nat) : Byte := Config.freeByte (s.draws * 65536 + 2 * i + k)
  [code 0, code 1] ++ toBytes 2 0 ++ toBytes 4 a.astat.toNat ++ toBytes 8 0 ++
  (List.range 16384).flatMap (fun e => toBytes 4 (SMap.get a.elems e 0).toNat)

/-- The header's 64 bytes (R269). -/
def headerBytes (r : SaveRec) : List Byte :=
  toBytes 4 0x5653485A ++ toBytes 1 r.mode ++ toBytes 1 r.variant ++ toBytes 1 r.groups ++ toBytes 1 r.permits ++ toBytes 4 r.team ++
  toBytes 4 r.task ++ toBytes 8 r.interval ++ toBytes 4 r.pts.toNat ++ toBytes 4 0 ++ toBytes 4 r.thrOff ++ toBytes 4 r.regOff ++
  toBytes 4 r.scrOff ++ toBytes 4 r.accOff ++ toBytes 4 r.engOff ++ toBytes 4 r.detOff ++ toBytes 4 0 ++ toBytes 4 r.size

/-- A record's bytes up to its engine and team section. -/
def recordBytes (s : State) (u : Nat) (r : SaveRec) : List Byte :=
  let t := s.team u
  headerBytes r ++
  (List.range (32 * t.gcount)).flatMap (fun tid => s.threadEntry tid (SMap.get t.body.threads tid Thread.none)) ++
  (List.range t.gcount).flatMap (groupRows t.var t.body) ++ Mem.read t.scratch 0 t.var.scratch ++
  (List.range t.var.accums).flatMap (fun i => s.accBytes i (SMap.get t.body.accs i Acc.start))

/-! ## Records -/

/-- The room a record takes in the save area: its stated sections, and 64 KiB for those whose size the spec does not give. DESIGN CHOICE
(notes/assumptions/36.md). -/
def recordRoom (r : SaveRec) : Nat := r.engOff + 65536

/-- Where a virtual device's next record goes: past every record that its saved teams have. -/
def recordPlace (s : State) (d : Nat) : Option Nat :=
  (s.vd d).saveArea.map (fun a => (s.teams.filterMap (fun e =>
    if e.2.vdev = d && e.2.phase == .saved then
      e.2.saveRec.bind (fun r => r.at_.map (fun p => p + recordRoom r))
    else none)).foldl max a.pa)

/-- The header of a save record (R269). The sections after ENGOFF have no stated size, so DETOFF and SIZE are free. -/
def saveHeader (s : State) (u mode interval : Nat) : SaveRec :=
  let t := s.team u
  let reg := 64 + 4096 * t.gcount
  let scr := reg + t.gcount * t.var.rows * 128
  let acc := scr + t.var.scratch
  { mode := mode, variant := t.variant, groups := t.gcount, permits := t.body.permits, team := t.team, task := t.task,
    interval := interval, pts := s.pts t.core, thrOff := 64, regOff := reg, scrOff := scr, accOff := acc,
    engOff := acc + t.var.accums * 65552,
    detOff := if t.body.buf.isEmpty then 0 else (Config.freeWord (s.draws * 65536)).toNat,
    size := (Config.freeWord (s.draws * 65536 + 1)).toNat, at_ := s.recordPlace t.vdev }

/-- A team leaves its core: its permits return, its place in the queue and its reservations go (R268, R272). -/
def leaveCore (s : State) (u : Nat) : State :=
  let s := s.noteRemoved u
  let t := s.team u
  let s := (s.unqueue t.core u).returnPermits t.core t.body.permits
  let s := { s with resv := s.resv.filter (fun r => r.team != u) }
  let s := s.updTeam u (fun t => { t with quads := [], lender := none, sw := none, drainBy := none, need := none, closing := false })
  s.updLau t.launch (fun l => { l with
    stamp := serialMax l.stamp (s.pts t.core), requeue := if l.requeue.contains u then l.requeue else l.requeue ++ [u] })

/-- Stores a record's bytes in the save area, which no task can address (R269, R270, R271). -/
def storeRecord (s : State) (u : Nat) (r : SaveRec) : State :=
  match r.at_ with
  | some p => { s with mem := Mem.write s.mem p (s.recordBytes u r) }
  | none => s

/-- Writes a team's record: it is out of its core, its permits named for reacquisition (R269, R272). -/
def writeRecord (s : State) (u mode interval permits : Nat) : State :=
  let s := s.updBody u (fun b => { b with threads := SMap.mapVal b.threads (fun _ x => recordThread s.cyc (s.lau (s.team u).launch).det x) })
  let held := (s.team u).body.permits
  let s := s.updBody u (fun b => { b with permits := permits })
  let r := s.saveHeader u mode interval
  let s := (s.storeRecord u r).updBody u (fun b => { b with permits := held })
  let s := (s.draw.leaveCore u).updBody u (fun b => { b with permits := permits })
  s.updTeam u (fun t => { t with phase := .saved, saveRec := some r })

end State

end Sys2Proof.Machine
end

