-- ==== Sys2Proof/Machine/Preempt.lean ====
section
/-! DEFINITION. Pre-emption (R264 to R273, R284) and reclaim (R384): the choice of mode, DRAIN, RESTART, ROLLBACK and SAVE,
and what a lender takes back. -/

namespace Sys2Proof.Machine

namespace State

/-! ## The modes -/

/-- ROLLBACK (R267): rolled back in place, then its record with MODE 2. -/
def rollbackAway (s : State) (u : Nat) : State :=
  let permits := (s.team u).snap.permits
  let s := s.rollBack u
  s.writeRecord u 2 ((s.team u).interval - 1) permits

/-- RESTART (R266, R346): state and operations discarded; writes stand; the record keeps its write entries alone. -/
def restartAway (s : State) (u : Nat) : State :=
  let t := s.team u
  let s := { s with ops := s.ops.filter (fun o => o.team != u), tiles := s.tiles.filter (fun x => x.team != u) }
  let s := match s.launchMan t.launch with
    | some m => s.putMan (m.updRec t.task (fun r => { r with reads := [] }))
    | none => s
  let s := s.leaveCore u
  let c := s.clu t.cluster
  let s := { s with clusters := SMap.set s.clusters t.cluster { c with bars := [] } }
  s.updTeam u (fun t => { t with phase := .restarting, body := { t.body with permits := 0 }, scratch := [], log := [] })

/-- SAVE's stop (R268): the team issues nothing more; its record follows when its operations allow. -/
def stopForSave (s : State) (u : Nat) : State :=
  let s := (s.drainAll u).deliverAll u
  let s := s.updTeam u (fun t => { t with phase := .saving, saveRolled := false })
  (s.recheck u).settle u

/-- SAVE's steps 5 and 6 (R268), and the record of a team that an error rolled back meanwhile (R273). -/
def saveAway (s : State) (u : Nat) : State :=
  let t := s.team u
  let s := { s with resv := s.resv.filter (fun r => r.team != u) }
  if t.saveRolled then s.writeRecord u 2 (t.interval - 1) t.snap.permits
  else
    let s := s.doClose u
    s.writeRecord u 1 t.interval (s.team u).body.permits

/-- The teams that pre-emption removes together: those of the cluster that are resident (R284). -/
def together (s : State) (u : Nat) : List Nat :=
  let ms := (s.clu (s.team u).cluster).members
  (if ms.contains u then ms else [u]).filter (fun v => (s.team v).phase.resident)

/-- The mode for a cluster (R264, R284); `estimate` is the Observatory's longest estimate in microseconds. -/
inductive Mode where
  | rollback | drain | restart | save
deriving DecidableEq, Repr

def modeOf (s : State) (vs : List Nat) (need : PreNeed) (estimate : Nat) : Mode :=
  if need != .other then .rollback
  else if vs.all (fun v => decide (estimate ≤ (s.vd (s.team v).vdev).drainUs)) then .drain
  else if vs.all (fun v => (s.team v).img.idempotent && !(s.team v).irrevocable) then .restart
  else .save

/-- What a DRAIN makes room for: a free choice among what waits anywhere (R265). DESIGN CHOICE (notes/assumptions/92.md). -/
def drainNeed (s : State) : Option (Nat × Nat) :=
  let all := s.launches.flatMap (fun e => (s.itemsOf e.1).map (fun it => (e.1, s.itemTask e.1 it)))
  if all.isEmpty then none else all[Config.freeChoice s.draws % all.length]?

/-- Removes teams in one mode; one that has not started yet just waits again. A ROLLBACK that finds the undo log of one of them damaged
removes none, and that one takes UNCORRECTABLE (R263, R284). -/
def remove (s : State) (vs : List Nat) (m : Mode) : State :=
  let bad := vs.filter (fun v => (s.team v).phase != .admitted && (s.team v).logBad.isSome)
  if m == .rollback && !bad.isEmpty then bad.foldl (fun s v => s.rollBackOr v) s
  else
  let need := s.drainNeed
  let s := s.draw
  let s := vs.foldl (fun s v =>
    let fresh := (s.team v).chosenAt.isNone
    let s := (s.withdrawSwitch v).updTeam v (fun t => { t with chosenAt := some (t.chosenAt.getD s.cyc) })
    if fresh then s.count (s.team v).vdev 0x08 1 else s) s
  vs.foldl (fun s v =>
    let t := s.team v
    if t.phase == .admitted then s.restartAway v
    else
      match m with
      | .rollback => s.rollbackAway v
      | .drain =>
        let s := { s with resv := s.resv.filter (fun r => r.team != v) }
        s.updTeam v (fun t => { t with
          phase := if t.phase == .stopped then t.phase else .draining, need := need
          drainBy := some (s.cyc + 2 * (s.vd t.vdev).drainUs * Config.cyclesPerUs) })
      | .restart => s.restartAway v
      | .save => s.stopForSave v) s

/-- Puts an event off until after the next cycle. -/
def defer (s : State) (i : Instr) : State := { s with later := s.later ++ [i] }

/-- Whether the removal of teams waits for what comes first: a switch that has begun (R200, R273), or a cluster barrier that has
completed and whose closes are still to come (R286). -/
def removalWaits (s : State) (vs : List Nat) : Bool :=
  vs.any (fun v => s.switchBegun v || (!(s.lau (s.team v).launch).det &&
    (s.clu (s.team v).cluster).bars.any (fun e => Bar.full e.2 (s.cluLive (s.team v).cluster))))

/-- Pre-empts the cluster of a team (R264, R284). -/
def preempt (s : State) (u : Nat) (need : PreNeed) (estimate : Nat) : State :=
  let vs := (s.together u).filter (fun v => (s.team v).phase != .saving)
  let m := s.modeOf vs need estimate
  -- a draining team is chosen already; a deadline turns its DRAIN into ROLLBACK (R273)
  if m != .rollback && vs.any (fun v => (s.team v).phase == .draining) then s
  else s.remove vs m

/-! ## Reclaim (R384) -/

/-- Whether a team draws on another virtual device's lent range of a core. -/
def borrows (s : State) (d core u : Nat) : Bool := (s.team u).core == core && (s.team u).lender == some d && (s.team u).phase.resident

/-- Marks a reclaimed team: it heads its queue, and after 64 microseconds gets room made for it. -/
def markReclaimed (s : State) (u : Nat) : State :=
  s.updTeam u (fun t => { t with reclaimBy := some (s.cyc + 64 * Config.cyclesPerUs) })

/-- Evicts a borrower's line from a lent way; a pinned line stays (R384, R394). -/
def reclaimLine (s : State) (line : Nat) : State :=
  if s.pinned line then s
  else if (s.holders line).isEmpty then s.evictLine line
  else match s.escapeLine none line with
    | .ok _ s => s.evictLine line
    | .wait _ s => s
    | .trap _ s => s

end State

/-! ## The events -/

/-- PREEMPTION (R264, R284). -/
def execPreemption (team : Nat) (need : PreNeed) (estimate : Nat) (s : State) : Ran :=
  .next (if !(s.team team).phase.resident then s
    else if s.removalWaits (s.together team) then s.defer (.preemption team need estimate)
    else s.preempt team need estimate)

/-- DRAIN_TIMEOUT (R265): twice the drain budget has passed; the teams of the cluster still resident leave by ROLLBACK. -/
def execDrainTimeout (team : Nat) (s : State) : Ran :=
  let t := s.team team
  .next (if (t.phase == .draining || t.phase == .stopped) && t.drainBy.any (fun n => decide (n ≤ s.cyc)) && !s.removalWaits (s.together team) then s.remove (s.together team) .rollback else s)

/-- SAVE (R268): a stopped cluster's records are written once each team's operations allow. -/
def execSave (team : Nat) (s : State) : Ran :=
  let vs := (s.together team).filter (fun v => (s.team v).phase == .saving)
  .next (if (s.team team).phase == .saving && vs.all s.saveReady then vs.foldl (fun s v => s.saveAway v) s else s)

/-- CORE_RANGE_RECLAIM (R384): a lender has a team waiting that a lent range keeps out; the borrowing teams on the core leave
by ROLLBACK and head their queues. -/
def execCoreRangeReclaim (vdev core : Nat) (s : State) : Ran :=
  let needs := (s.waitingTeams vdev).any (fun w => !s.couldAdmit core w)
  let bs := s.resident.filter (s.borrows vdev core)
  .next (if needs then
    bs.foldl (fun s u =>
      if (s.team u).phase.resident && !s.removalWaits (s.together u) then
        let vs := s.together u
        (s.preempt u .reclaim 0) |> fun s => vs.foldl (fun s v => s.markReclaimed v) s
      else s) s
  else s)

/-- RECLAIM_TIMEOUT (R384): a reclaimed team has found no room for 64 microseconds, and has none now; the youngest admitted team of its
virtual device is pre-empted, in the mode of R264. The Observatory's estimate is free. -/
def execReclaimTimeout (team : Nat) (s : State) : Ran :=
  let t := s.team team
  let mine := s.resident.filter (fun v => (s.team v).vdev == t.vdev)
  let youngest := (sortBy (fun v => (s.team v).admittedAt) mine).getLast?
  .next (if t.phase == .saved && t.reclaimBy.any (fun n => decide (n ≤ s.cyc)) && (s.itemSpots t.launch (.back t.cluster)).isNone then
    match youngest with
    | some v =>
      if s.removalWaits (s.together v) then s
      else
      let s := s.updTeam team (fun t => { t with reclaimBy := some 18446744073709551616 })
      s.draw.preempt v .other (Config.freeChoice s.draws)
    | none => s
  else s)

/-- WAY_RECLAIM (R384): every borrower's line leaves a lent way of a slice. -/
def execWayReclaim (die slice way : Nat) (s : State) : Ran :=
  let n := 160 * die + slice
  let owner (d : Nat) : Bool := (SMap.find (s.vd d).ways n).any (fun w => decide (w.first ≤ way ∧ way < w.first + w.count))
  let lines := (s.lines.filter (fun e => sliceOf e.1 == n && e.2.way == way && !owner (e.2.ident / 16))).map Prod.fst
  .next (lines.foldl (fun s line => s.reclaimLine line) s)

end Sys2Proof.Machine
end

