-- ==== Sys2Proof/Machine/Images.lean ====
section
/-! DEFINITION. Kernel images (R34 to R41): the checks, with the image offset of the first failing field, the image as the
dispatcher holds it, and relocation. -/

namespace Sys2Proof.Machine

/-- A way to read a little-endian field of an image: offset and size. -/
abbrev ImgRead := Nat → Nat → Nat

/-- A part of an image (R35): its start, its end, and the field that places it. -/
structure Part where
  lo : Nat
  hi : Nat
  field : Nat
deriving DecidableEq, Repr

/-- A check: the image offset to report and whether it holds. -/
abbrev Check := Nat × Bool

/-- The first failing check's offset. -/
def firstFail (cs : List Check) : Option Nat := (cs.find? (fun c => !c.2)).map Prod.fst

namespace Img

/-! The header's counts and offsets (R36). -/

def nvar (r : ImgRead) : Nat := r 8 1
def npoint (r : ImgRead) : Nat := r 9 1
def nmap (r : ImgRead) : Nat := r 10 2
def varOff (r : ImgRead) : Nat := r 16 4
def mapOff (r : ImgRead) : Nat := r 20 4
def parOff (r : ImgRead) : Nat := r 24 4
def npar (r : ImgRead) : Nat := r 28 4
def codeOff (r : ImgRead) : Nat := r 32 4
def codeSize (r : ImgRead) : Nat := r 36 4
def dataOff (r : ImgRead) : Nat := r 40 4
def dataSize (r : ImgRead) : Nat := r 44 4
def relOff (r : ImgRead) : Nat := r 48 4
def nrel (r : ImgRead) : Nat := r 52 4
def size (r : ImgRead) : Nat := r 60 4

/-- The header's own limits (R36), the segments at 128-byte boundaries (R35). -/
def headChecks (r : ImgRead) (len : Nat) : List Check :=
  [ (0, r 0 4 == 0x494B485A), (4, r 4 2 == 1), (6, decide (r 6 2 < 4)), (8, decide (1 ≤ nvar r ∧ nvar r ≤ 4))
  , (10, decide (nmap r ≤ 12 * npoint r)), (12, r 12 4 % 8 == 0), (32, codeOff r % 128 == 0), (40, dataOff r % 128 == 0)
  , (60, size r == len && decide (64 ≤ len)) ]

/-- A variant's record offset, and a map's (R37, R38). -/
def varAt (r : ImgRead) (i : Nat) : Nat := varOff r + 32 * i
def mapAt (r : ImgRead) (i : Nat) : Nat := mapOff r + 16 * i

/-- The parts a header and its tables place, but for the string table (R35). -/
def parts (r : ImgRead) : List Part :=
  let p (lo n f : Nat) : Part := ⟨lo, lo + n, f⟩
  [ p 0 64 0, p (varOff r) (32 * nvar r) 16, p (mapOff r) (16 * nmap r) 20, p (parOff r) (16 * npar r) 24
  , p (codeOff r) (codeSize r) 32, p (dataOff r) (dataSize r) 40, p (relOff r) (16 * nrel r) 48 ] ++
  (List.range (nvar r)).map (fun i => p (r (varAt r i + 20) 4) (4 * npoint r) (varAt r i + 20)) ++
  (List.range (nmap r)).map (fun i => p (r (mapAt r i + 8) 4) (16 * r (mapAt r i + 4) 4) (mapAt r i + 8))

/-- The string table (R35): from the parameter table's end to the next part above it, or the image's end.
DESIGN CHOICE (notes/assumptions/86.md): parts of size 0 do not end it. -/
def strings (r : ImgRead) : Part :=
  let lo := parOff r + 16 * npar r
  let above := ((parts r).filter (fun p => decide (p.lo < p.hi) && decide (lo < p.lo))).map Part.lo
  ⟨lo, above.foldl min (size r), 24⟩

/-- Whether two parts share a byte. -/
def Part.meets (a b : Part) : Bool := decide (a.lo < b.hi) && decide (b.lo < a.hi) && decide (a.lo < a.hi) && decide (b.lo < b.hi)

/-- No two parts overlap, and all lie within the image (R41): each part against those before it. -/
def partChecks (len : Nat) : List Part → List Part → List Check
  | _, [] => []
  | seen, p :: rest => (p.field, decide (p.hi ≤ len) && !seen.any (fun q => Part.meets q p)) :: partChecks len (seen ++ [p]) rest

/-- A variant's record and its switch points (R37, R41). -/
def varChecks (r : ImgRead) (i : Nat) : List Check :=
  let o := varAt r i
  let code := codeSize r
  let inCode (w : Nat) : Bool := w % 4 == 0 && decide (w + 4 ≤ code)
  [ (o, [32, 64, 96, 128].contains (r o 1)), (o + 1, decide (r (o + 1) 1 ≤ 64)), (o + 2, decide (r (o + 2) 1 ≤ 8))
  , (o + 3, decide (r (o + 3) 1 ≤ r (o + 2) 1)), (o + 4, r (o + 4) 4 % 2048 == 0 && decide (r (o + 4) 4 ≤ 655360))
  , (o + 8, r (o + 8) 4 % 4 == 0 && decide (r (o + 8) 4 ≤ code))
  , (o + 12, r (o + 12) 4 % 4 == 0 && decide (0 < r (o + 12) 4) && decide (r (o + 8) 4 + r (o + 12) 4 ≤ code))
  , (o + 16, r (o + 16) 4 == 0xFFFFFFFF || inCode (r (o + 16) 4)), (o + 24, r (o + 24) 8 == 0) ] ++
  (List.range (npoint r)).map (fun j => let a := r (o + 20) 4 + 4 * j; (a, inCode (r a 4)))

/-- A budget that a map item's range must lie within (R34): lane registers, uniform registers, or SCRATCH. -/
def budget (r : ImgRead) (v kind : Nat) : Nat :=
  match kind with
  | 0 => r (varAt r v) 1
  | 1 => r (varAt r v + 1) 1
  | _ => r (varAt r v + 4) 4

/-- Whether two items of one kind share a target. -/
def shareTarget (r : ImgRead) (a b : Nat) : Bool :=
  r a 1 == r b 1 && decide (r (a + 8) 4 < r (b + 8) 4 + r (b + 12) 4) && decide (r (b + 8) 4 < r (a + 8) 4 + r (a + 12) 4)

/-- A map item (R34, R38), against the items before it. -/
def itemChecks (r : ImgRead) (src dst base j : Nat) : List Check :=
  let a := base + 16 * j
  let kind := r a 1
  let n := r (a + 12) 4
  let unit (x : Nat) : Bool := kind != 2 || x % 4 == 0
  [ (a, decide (kind ≤ 2)), (a + 1, r (a + 1) 3 == 0)
  , (a + 4, unit (r (a + 4) 4) && decide (r (a + 4) 4 + n ≤ budget r src kind))
  , (a + 8, unit (r (a + 8) 4) && decide (r (a + 8) 4 + n ≤ budget r dst kind) &&
      !(List.range j).any (fun k => shareTarget r (base + 16 * k) a))
  , (a + 12, unit n && (kind == 2 || decide (1 ≤ n))) ]

/-- The order of the map table (R38). -/
def mapKey (r : ImgRead) (i : Nat) : Nat := r (mapAt r i) 1 * 65536 + r (mapAt r i + 1) 1 * 256 + r (mapAt r i + 2) 1

/-- A map's record and items (R34, R38). -/
def mapChecks (r : ImgRead) (i : Nat) : List Check :=
  let o := mapAt r i
  let src := r (o + 1) 1
  let dst := r (o + 2) 1
  [ (o, decide (r o 1 < npoint r) && (i == 0 || decide (mapKey r (i - 1) < mapKey r i))), (o + 1, decide (src < nvar r))
  , (o + 2, decide (dst < nvar r) && dst != src), (o + 3, r (o + 3) 1 == 0), (o + 12, r (o + 12) 4 == 0) ] ++
  (List.range (r (o + 4) 4)).flatMap (fun j => itemChecks r src dst (r (o + 8) 4) j)

/-- Whether a string offset names a string with its NUL (R41). -/
def hasString (r : ImgRead) (off : Nat) : Bool :=
  let t := strings r
  decide (t.lo + off < t.hi) && (List.range (t.hi - (t.lo + off))).any (fun i => r (t.lo + off + i) 1 == 0)

/-- The bytes of a parameter of a type (R31). -/
def paramBytes (ty count : Nat) : Nat :=
  match ty with
  | 9 => (3 * count + 3) / 4
  | 0 | 1 | 4 => 4 * count
  | 2 | 3 | 5 => 8 * count
  | 6 | 7 | 12 | 13 => 2 * count
  | 14 => 16 * count
  | _ => count

/-- A parameter's record (R39): its string, its place in the block, its type. -/
def paramChecks (r : ImgRead) (i : Nat) : List Check :=
  let o := parOff r + 16 * i
  let n := r (o + 12) 4
  [ (o, hasString r (r o 4)), (o + 4, decide (r (o + 4) 4 + paramBytes (r (o + 8) 1) n ≤ r 12 4)), (o + 8, decide (r (o + 8) 1 ≤ 14))
  , (o + 9, r (o + 9) 3 == 0), (o + 12, decide (1 ≤ n ∧ n ≤ 65536)) ]

/-- A relocation's record (R40). -/
def relChecks (r : ImgRead) (i : Nat) : List Check :=
  let o := relOff r + 16 * i
  let seg := if r (o + 5) 1 = 0 then codeSize r else dataSize r
  let n := if r (o + 4) 1 = 0 then 8 else 4
  [ (o, decide (r o 4 + n ≤ seg)), (o + 4, decide (r (o + 4) 1 ≤ 2)), (o + 5, decide (r (o + 5) 1 ≤ 1))
  , (o + 6, decide (r (o + 6) 1 ≤ 1)), (o + 7, r (o + 7) 1 == 0) ]

/-- The checks of R41 on an image of a length, but for the traced launch's: the offset of the first field that fails. -/
def bad (r : ImgRead) (len : Nat) : Option Nat :=
  firstFail (headChecks r len) <|>
  firstFail (partChecks len [] (parts r ++ [strings r])) <|>
  firstFail ((List.range (nvar r)).flatMap (varChecks r)) <|>
  firstFail ((List.range (nmap r)).flatMap (mapChecks r)) <|>
  firstFail ((56, hasString r (r 56 4)) :: (List.range (npar r)).flatMap (paramChecks r)) <|>
  firstFail ((List.range (nrel r)).flatMap (relChecks r))

/-- A variant of a checked image. -/
def variant (r : ImgRead) (i : Nat) : Variant :=
  let o := varAt r i
  { lregs := r o 1, uregs := r (o + 1) 1, accums := r (o + 2) 1, permits := r (o + 3) 1, scratch := r (o + 4) 4, entry := r (o + 8) 4,
    codeLen := r (o + 12) 4, handler := r (o + 16) 4,
    points := (List.range (npoint r)).map (fun j => r (r (o + 20) 4 + 4 * j) 4) }

/-- A switch map of a checked image. -/
def smap (r : ImgRead) (i : Nat) : SwitchMap :=
  let o := mapAt r i
  { point := r o 1, src := r (o + 1) 1, dst := r (o + 2) 1,
    items := (List.range (r (o + 4) 4)).map (fun j =>
      let a := r (o + 8) 4 + 16 * j
      ⟨r a 1, r (a + 4) 4, r (a + 8) 4, r (a + 12) 4⟩) }

/-- A checked image at its address. -/
def parse (r : ImgRead) (addr : Nat) : Image :=
  { addr := addr, idempotent := (r 6 2).testBit 0, modular := (r 6 2).testBit 1, npoint := npoint r, psize := r 12 4,
    codeOff := codeOff r, codeSize := codeSize r, imgSize := size r, variants := (List.range (nvar r)).map (variant r),
    maps := (List.range (nmap r)).map (smap r) }

/-- One relocation's patch for an image at an address (R40): image offset and bytes. -/
def patch (r : ImgRead) (addr i : Nat) : Nat × List Byte :=
  let o := relOff r + 16 * i
  let at_ := (if r (o + 5) 1 = 0 then codeOff r else dataOff r) + r o 4
  let target := addr + (if r (o + 6) 1 = 0 then codeOff r else dataOff r)
  let v := wrap 64 ((target : Int) + (BitVec.ofNat 64 (r (o + 8) 8)).toInt)
  match r (o + 4) 1 with
  | 0 => (at_, toBytes 8 v)
  | 1 => (at_, toBytes 4 v)
  | _ => (at_, toBytes 4 (v / 4294967296))

end Img

namespace State

/-! ## Images in memory -/

/-- The physical address of a mapped HBM byte of a context, as the device's own accesses see it (R386). -/
def hbmAt (s : State) (d c va : Nat) : Option (Nat × TlbEntry) :=
  (s.deviceWalk d c va).filter (fun r => inHbm r.1)

/-- The pages of a range of virtual addresses: the base of each 64 KiB. -/
def pagesOf (va n : Nat) : List Nat := if n = 0 then [] else (List.range ((va + n - 1) / 65536 + 1 - va / 65536)).map (fun i => (va / 65536 + i) * 65536)

/-- Whether every page of a range is mapped to HBM, with a test of its permissions. -/
def mapped (s : State) (d c va n : Nat) (ok : TlbEntry → Bool) : Bool :=
  (pagesOf va n).all (fun p => match s.hbmAt d c p with | some r => ok r.2 | none => false)

/-- Bytes of a context's memory as the device reads them: zero where nothing is mapped. -/
def devBytes (s : State) (d c va n : Nat) : List Byte :=
  (List.range n).map (fun i => match s.hbmAt d c (va + i) with | some r => s.rootByte r.1 | none => 0)

/-- The image at an address of a context, checked (R41): none where it is not mapped or fails a check. -/
def imageAt (s : State) (d c addr : Nat) : Except Nat Image :=
  let r : ImgRead := fun off n => leNat (s.devBytes d c (addr + off) n)
  if !s.mapped d c addr 64 (fun _ => true) then .error 0
  else if !s.mapped d c addr (Img.size r) (fun _ => true) then .error 60
  else match Img.bad r (Img.size r) with
    | some f => .error f
    | none => .ok (Img.parse r addr)

end State

end Sys2Proof.Machine
end

