-- ==== Sys2Proof/Machine/AsmKernel.lean ====
section
/-! DEFINITION. Kernels in the Cerval assembly language: directives and their places (R30, R31), variants (R32), switch points (R33),
switch maps (R34), and the kernel image that cvas emits (R35 to R40). `assemble` is cvas: source text to images, or the error. -/

namespace Sys2Proof.Machine.Asm

/-! ## What a source says -/

/-- An item of a variant's code (R30). -/
inductive CodeItem where
  | label (w : Text)
  | ins (x : Written)
  | align (e : Expr)
  | word (e : Expr)
deriving DecidableEq, Repr

/-- An item of the data section (R30, R31); `ints n e` emits n bytes. -/
inductive DataItem where
  | label (w : Text)
  | align (e : Expr)
  | ints (n : Nat) (e : Expr)
  | floats (t : Ty) (es : List Expr)
  | space (n : Expr) (fill : Option Expr)
deriving DecidableEq, Repr

/-- An item of a switch map as written (R16, R34). -/
inductive MoveSrc where
  | regs (lo hi dst : Src)
  | bytes (off len dst : Expr)
deriving DecidableEq, Repr

/-- A `.switch` directive (R31). -/
structure SwitchSrc where
  point : Text
  src : Expr
  dst : Expr
  moves : List MoveSrc
deriving DecidableEq, Repr

/-- A variant block: its resource directives, its maps and its code, each with its line (R30). -/
structure VariantSrc where
  regs : Option (Expr × Expr)
  scratch : Option Expr
  accums : Option Expr
  permits : Option Expr
  handler : Option Text
  switches : List (Nat × SwitchSrc)
  code : List (Nat × CodeItem)
deriving DecidableEq, Repr

/-- A parameter: name, type, count and offset in the block (R31, R39). -/
structure ParamSrc where
  name : Text
  ty : Ty
  count : Nat
  off : Nat
deriving DecidableEq, Repr

/-- A kernel as written. `syms` holds the symbols of `.equ`, those outside kernels included, and every label, at offset 0 until it is
placed; `homes` the variant of each code label. -/
structure KernelSrc where
  name : Text
  idempotent : Bool
  modular : Bool
  params : List ParamSrc
  syms : List (Text × Val)
  homes : List (Text × Nat)
  variants : List VariantSrc
  data : List (Nat × DataItem)
deriving DecidableEq, Repr

/-- Where a line stands (R30). -/
inductive Phase where
  | outside | head | resources | code | data
deriving DecidableEq, Repr

/-- What has been read of a source: the file's `.equ` symbols, the kernels closed, and the open one. -/
structure Reader where
  phase : Phase
  globals : List (Text × Val)
  done : List (Nat × KernelSrc)
  cur : KernelSrc
deriving DecidableEq, Repr

/-- Rounds up to a multiple. -/
def roundUp (x n : Nat) : Nat := (x + n - 1) / n * n

/-- A variant with nothing in it. -/
def VariantSrc.empty : VariantSrc := ⟨none, none, none, none, none, [], []⟩

/-- A kernel with a name and the file's symbols. -/
def KernelSrc.named (w : Text) (globals : List (Text × Val)) : KernelSrc := ⟨w, false, false, [], globals, [], [], []⟩

/-- Nothing read. -/
def Reader.start : Reader := ⟨.outside, [], [], KernelSrc.named [] []⟩

/-- The end of the parameters so far (R31). -/
def paramEnd (ps : List ParamSrc) : Nat :=
  match ps.getLast? with
  | some p => p.off + Img.paramBytes p.ty.code.toNat p.count
  | none => 0

/-- The parameter block's size (R31). -/
def blockSize (ps : List ParamSrc) : Nat := roundUp (paramEnd ps) 8

/-- A parameter's offset (R31): the previous end, rounded up to the element size; t6 elements have no alignment. -/
def paramOff (ps : List ParamSrc) (t : Ty) : Nat :=
  if t = .t6 then paramEnd ps else roundUp (paramEnd ps) (t.width / 8)

/-- The environment of a kernel's expressions; the block's size is known once the variants begin. -/
def KernelSrc.env (k : KernelSrc) (sized : Bool) : Env :=
  ⟨k.syms, k.params.map (fun p => (p.name, p.off)), if sized then some (blockSize k.params) else none, [], k.homes⟩

/-! ## Directives -/

/-- The arguments of a directive: split at the commas outside parentheses. -/
def splitArgs (depth : Nat) (cur : List Tok) : List Tok → List (List Tok)
  | [] => [cur.reverse]
  | t :: ts =>
    match t with
    | .mark .comma => if depth = 0 then cur.reverse :: splitArgs 0 [] ts else splitArgs depth (t :: cur) ts
    | .mark .lpar => splitArgs (depth + 1) (t :: cur) ts
    | .mark .rpar => splitArgs (depth - 1) (t :: cur) ts
    | _ => splitArgs depth (t :: cur) ts

/-- The arguments of a directive; none where nothing stands. -/
def directiveArgs (ts : List Tok) : List (List Tok) := if ts.isEmpty then [] else splitArgs 0 [] ts

/-- An argument that is an expression. -/
def argExpr (a : List Tok) : Except Err Expr := do
  let r ← parseExpr a
  if r.2.isEmpty then .ok r.1 else .error .grammar

/-- An argument that is an identifier. -/
def argIdent (a : List Tok) : Except Err Text :=
  match a with
  | [.word w] => ident w
  | _ => .error .grammar

/-- An argument that is a typename. -/
def argType (a : List Tok) : Except Err Ty :=
  match a with
  | [.word w] => match typeName w with
    | some t => .ok t
    | none => .error .grammar
  | _ => .error .grammar

/-- An argument that is a map item (R16). -/
def argMove (a : List Tok) : Except Err MoveSrc := do
  match a with
  | .word w :: .mark .lpar :: ts =>
    if lower w == "scratch".toList then
      let off ← parseExpr ts
      match off.2 with
      | .mark .comma :: ts' =>
        let len ← parseExpr ts'
        match len.2 with
        | .mark .rpar :: .mark .arrow :: ts'' => .ok (.bytes off.1 len.1 (← argExpr ts''))
        | _ => .error .grammar
      | _ => .error .grammar
    else .error .grammar
  | [.word lo, .mark .dots, .word hi, .mark .arrow, .word dst] =>
    match ← regSrc lo, ← regSrc hi, ← regSrc dst with
    | some l, some h, some d => .ok (.regs l h d)
    | _, _, _ => .error .grammar
  | [.word lo, .mark .arrow, .word dst] =>
    match ← regSrc lo, ← regSrc dst with
    | some l, some d => .ok (.regs l l d)
    | _, _ => .error .grammar
  | _ => .error .grammar

/-- A new symbol, whose name no symbol has yet (R31). -/
def addSym (syms : List (Text × Val)) (w : Text) (v : Val) : Except Err (List (Text × Val)) :=
  if (findText syms w).isSome then .error .word else .ok (syms ++ [(w, v)])

/-- The open variant with a change. -/
def KernelSrc.inVariant (k : KernelSrc) (f : VariantSrc → VariantSrc) : KernelSrc :=
  { k with variants := k.variants.dropLast ++ (k.variants.getLast?.map f).toList }

/-- The open variant. -/
def KernelSrc.variant (k : KernelSrc) : VariantSrc := k.variants.getLast?.getD VariantSrc.empty

/-- Whether a variant has its four resource directives (R32). -/
def VariantSrc.resourced (v : VariantSrc) : Bool := v.regs.isSome && v.scratch.isSome && v.accums.isSome && v.permits.isSome

/-- Whether a variant holds an instruction or a `.word` (R30). -/
def VariantSrc.hasCode (v : VariantSrc) : Bool :=
  v.code.any (fun c => match c.2 with | .ins _ => true | .word _ => true | _ => false)

/-- Begins a variant's code, after its resource directives (R30, R32). -/
def Reader.toCode (r : Reader) : Except Err Reader :=
  match r.phase with
  | .code => .ok r
  | .resources => if r.cur.variant.resourced then .ok { r with phase := .code } else .error .missing
  | _ => .error .place

/-- Ends a variant's code (R30). -/
def Reader.endVariant (r : Reader) : Except Err Reader :=
  match r.phase with
  | .code => if r.cur.variant.hasCode then .ok r else .error .missing
  | .resources => .error .missing
  | _ => .ok r

/-- A code item at a line. -/
def Reader.addCode (r : Reader) (n : Nat) (c : CodeItem) : Except Err Reader := do
  let r ← r.toCode
  .ok { r with cur := r.cur.inVariant (fun v => { v with code := v.code ++ [(n, c)] }) }

/-- Data items at a line. -/
def Reader.addData (r : Reader) (n : Nat) (ds : List DataItem) : Except Err Reader :=
  if r.phase = .data then .ok { r with cur := { r.cur with data := r.cur.data ++ ds.map (fun d => (n, d)) } } else .error .place

/-- A label (R16, R28): in a variant's code or in the data section. -/
def Reader.label (r : Reader) (n : Nat) (w : Text) : Except Err Reader := do
  let w ← ident w
  match r.phase with
  | .data =>
    let syms ← addSym r.cur.syms w (.addr .data 0)
    ({ r with cur := { r.cur with syms := syms } } : Reader).addData n [.label w]
  | .resources | .code =>
    let syms ← addSym r.cur.syms w (.addr .code 0)
    let homes := r.cur.homes ++ [(w, r.cur.variants.length - 1)]
    ({ r with cur := { r.cur with syms := syms, homes := homes } } : Reader).addCode n (.label w)
  | _ => .error .place

/-- A resource directive that must not stand twice (R32). -/
def Reader.resource (r : Reader) (there : VariantSrc → Bool) (f : VariantSrc → VariantSrc) : Except Err Reader :=
  if r.phase ≠ .resources then .error .place
  else if there r.cur.variant then .error .limit
  else .ok { r with cur := r.cur.inVariant f }

/-- `.equ` (R31): in a kernel's head or outside kernels. DESIGN CHOICE (notes/assumptions/86.md): a float expression is refused; R26's
list of the directives that refuse one does not name `.equ`. -/
def Reader.equ (r : Reader) (w : Text) (e : Expr) : Except Err Reader := do
  match r.phase with
  | .outside =>
    let n ← e.abs ⟨r.globals, [], none, [], []⟩
    .ok { r with globals := ← addSym r.globals w (.abs n) }
  | .head =>
    let n ← e.abs (r.cur.env false)
    .ok { r with cur := { r.cur with syms := ← addSym r.cur.syms w (.abs n) } }
  | _ => .error .place

/-- `.variant` (R31): the number is the count of the variants before it, and there are at most four. -/
def Reader.openVariant (r : Reader) (e : Expr) : Except Err Reader := do
  if r.phase ≠ .head ∧ r.phase ≠ .code ∧ r.phase ≠ .resources then .error .place
  else
    let r ← r.endVariant
    let n ← e.abs (r.cur.env true)
    if n = r.cur.variants.length ∧ r.cur.variants.length < 4 then
      .ok { r with phase := .resources, cur := { r.cur with variants := r.cur.variants ++ [VariantSrc.empty] } }
    else .error .limit

/-- A directive (R30, R31). DESIGN CHOICE (notes/assumptions/86.md): a repeated `.idempotent` or `.modular` is accepted; the spec says
nothing of a repeat. -/
def Reader.directive (r : Reader) (n : Nat) (name : Text) (ts : List Tok) : Except Err Reader := do
  let args := directiveArgs ts
  let dir (s : String) : Bool := lower name == s.toList
  if dir "kernel" then
    match r.phase, args with
    | .outside, [a] =>
      let w ← argIdent a
      if r.done.any (fun k => k.2.name == w) then .error .word
      else .ok { r with phase := .head, cur := KernelSrc.named w r.globals }
    | .outside, _ => .error .grammar
    | _, _ => .error .place
  else if dir "kend" then
    match r.phase, args with
    | .outside, _ => .error .place
    | .head, _ => .error .missing
    | _, [] => do
      let r ← r.endVariant
      .ok { r with phase := .outside, done := r.done ++ [(n, r.cur)] }
    | _, _ => .error .grammar
  else if dir "idempotent" || dir "modular" then
    match r.phase, args with
    | .head, [] =>
      let k := if dir "modular" then { r.cur with modular := true } else { r.cur with idempotent := true }
      .ok { r with cur := k }
    | .head, _ => .error .grammar
    | _, _ => .error .place
  else if dir "param" then
    match r.phase, args with
    | .head, [a, t, c] =>
      let w ← argIdent a
      let ty ← argType t
      let count ← (← argExpr c).within (r.cur.env false) 1 65536 .limit
      if r.cur.params.any (fun p => p.name == w) then .error .word
      else .ok { r with cur := { r.cur with params := r.cur.params ++ [⟨w, ty, count, paramOff r.cur.params ty⟩] } }
    | .head, _ => .error .grammar
    | _, _ => .error .place
  else if dir "equ" then
    match args with
    | [a, e] => r.equ (← argIdent a) (← argExpr e)
    | _ => .error .grammar
  else if dir "variant" then
    match args with
    | [e] => r.openVariant (← argExpr e)
    | _ => .error .grammar
  else if dir "regs" then
    match args with
    | [l, u] =>
      let l ← argExpr l
      let u ← argExpr u
      r.resource (fun v => v.regs.isSome) (fun v => { v with regs := some (l, u) })
    | _ => .error .grammar
  else if dir "scratch" then
    match args with
    | [e] =>
      let e ← argExpr e
      r.resource (fun v => v.scratch.isSome) (fun v => { v with scratch := some e })
    | _ => .error .grammar
  else if dir "accums" then
    match args with
    | [e] =>
      let e ← argExpr e
      r.resource (fun v => v.accums.isSome) (fun v => { v with accums := some e })
    | _ => .error .grammar
  else if dir "permits" then
    match args with
    | [e] =>
      let e ← argExpr e
      r.resource (fun v => v.permits.isSome) (fun v => { v with permits := some e })
    | _ => .error .grammar
  else if dir "handler" then
    match args with
    | [a] =>
      let w ← argIdent a
      r.resource (fun v => v.handler.isSome) (fun v => { v with handler := some w })
    | _ => .error .grammar
  else if dir "switch" then
    match args with
    | p :: a :: b :: items =>
      let p ← argIdent p
      let a ← argExpr a
      let b ← argExpr b
      let moves ← items.mapM argMove
      let r ← r.toCode
      .ok { r with cur := r.cur.inVariant (fun v => { v with switches := v.switches ++ [(n, ⟨p, a, b, moves⟩)] }) }
    | _ => .error .grammar
  else if dir "data" then
    match r.phase, args with
    | .code, [] | .resources, [] => do
      let r ← r.endVariant
      .ok { r with phase := .data }
    | .code, _ | .resources, _ => .error .grammar
    | _, _ => .error .place
  else if dir "align" then
    match args with
    | [e] =>
      let e ← argExpr e
      if r.phase = .data then r.addData n [.align e] else r.addCode n (.align e)
    | _ => .error .grammar
  else if dir "word" then
    let es ← args.mapM argExpr
    if es.isEmpty then .error .grammar
    else if r.phase = .data then r.addData n (es.map (.ints 4)) else es.foldlM (fun r e => r.addCode n (.word e)) r
  else if dir "byte" || dir "half" || dir "dword" then
    let es ← args.mapM argExpr
    if es.isEmpty then .error .grammar
    else r.addData n (es.map (.ints (if dir "byte" then 1 else if dir "half" then 2 else 8)))
  else if dir "float" then
    match args with
    | t :: e :: es =>
      let t ← argType t
      let es ← (e :: es).mapM argExpr
      if t.isIeee || t.isTapered then r.addData n [.floats t es] else .error .limit
    | _ => .error .grammar
  else if dir "space" then
    match args with
    | [c] => r.addData n [.space (← argExpr c) none]
    | [c, f] => r.addData n [.space (← argExpr c) (some (← argExpr f))]
    | _ => .error .grammar
  else .error .grammar

/-- A line's statement, its label aside (R16). -/
def Reader.statement (r : Reader) (n : Nat) (ts : List Tok) : Except Err Reader :=
  match ts with
  | [] => .ok r
  | .dotted d :: args => r.directive n d args
  | _ => do r.addCode n (.ins (← written ts))

/-- One line (R15, R16). -/
def Reader.line (r : Reader) (n : Nat) (l : Text) : Except Err Reader := do
  match ← lineTokens l with
  | .word w :: .mark .colon :: ts => do
    let r ← r.label n w
    r.statement n ts
  | ts => r.statement n ts

/-- The lines of a source, from a line number on; an error carries its line's number. -/
def Reader.lines (r : Reader) (n : Nat) : List Text → Except (Nat × Err) Reader
  | [] => if r.phase = .outside then .ok r else .error (n, .missing)
  | l :: ls => match r.line n l with
    | .ok r' => r'.lines (n + 1) ls
    | .error e => .error (n, e)

/-! ## Placing the labels -/

/-- The padding of `.align` at an offset (R31); none where the operand has no value. DESIGN CHOICE (notes/assumptions/86.md): the offset
counts from the start of the segment, so a multiple above the segment's own alignment does not align the loaded address. -/
def padding (env : Env) (e : Expr) (pos : Nat) : Nat :=
  match e.within env 1 4096 .limit with
  | .ok n => roundUp pos n - pos
  | .error _ => 0

/-- The bytes a code item takes at an offset of a variant; a length for one that is in error, which its emission reports. -/
def CodeItem.size (env : Env) (home pos : Nat) : CodeItem → Nat
  | .label _ => 0
  | .ins x => match x.build env pos home with
    | .ok r => instrBytes r.1
    | .error _ => 12
  | .align e => padding env e pos
  | .word _ => 4

/-- The bytes of t6 elements, four to three bytes (R31, R84). -/
def packT6 : List Nat → List Byte
  | a :: b :: c :: d :: rest => toBytes 3 (a + b * 2 ^ 6 + c * 2 ^ 12 + d * 2 ^ 18) ++ packT6 rest
  | [] => []
  | part => toBytes 3 (part.getD 0 0 + part.getD 1 0 * 2 ^ 6 + part.getD 2 0 * 2 ^ 12)

/-- The bytes a data item takes at an offset. -/
def DataItem.size (env : Env) (pos : Nat) : DataItem → Nat
  | .label _ => 0
  | .align e => padding env e pos
  | .ints n _ => n
  | .floats t es => if t = .t6 then (es.length + 3) / 4 * 3 else es.length * (t.width / 8)
  | .space n _ => match n.abs env with
    | .ok k => k.toNat
    | .error _ => 0

/-- What a pass has placed: labels with their offsets, switch points with theirs, and the offset reached. -/
structure Placed where
  labels : List (Text × Val)
  points : List (Text × Nat)
  pos : Nat
deriving DecidableEq, Repr

/-- The switch point an instruction names, when it is an SWPT (R33). -/
def Written.swpt (x : Written) : Option Text :=
  match x.ops with
  | [.expr (.name w)] => if x.mnemonic == "swpt".toList then some w else none
  | _ => none

/-- Places a variant's code from an offset. -/
def placeCode (env : Env) (home : Nat) (p : Placed) (items : List (Nat × CodeItem)) : Placed :=
  items.foldl (fun p c =>
    { labels := match c.2 with | .label w => p.labels ++ [(w, .addr .code p.pos)] | _ => p.labels
      points := match c.2 with | .ins x => p.points ++ (x.swpt.map (fun w => (w, p.pos))).toList | _ => p.points
      pos := p.pos + c.2.size env home p.pos }) p

/-- Places the data section. -/
def placeData (env : Env) (p : Placed) (items : List (Nat × DataItem)) : Placed :=
  items.foldl (fun p d =>
    { p with
      labels := match d.2 with | .label w => p.labels ++ [(w, .addr .data p.pos)] | _ => p.labels
      pos := p.pos + d.2.size env p.pos }) p

/-- A variant's place in the code segment: its first byte, its end, and its switch points' offsets (R37). -/
structure Span where
  lo : Nat
  hi : Nat
  points : List (Text × Nat)
deriving DecidableEq, Repr

/-- Places every variant, each at a 128-byte boundary (R37), from an offset: the labels and the spans. -/
def placeVariants (env : Env) : Nat → Nat → List VariantSrc → List (Text × Val) × List Span
  | _, _, [] => ([], [])
  | home, pos, v :: vs =>
    let lo := roundUp pos 128
    let p := placeCode env home ⟨[], [], lo⟩ v.code
    let rest := placeVariants env (home + 1) p.pos vs
    (p.labels ++ rest.1, ⟨lo, p.pos, p.points⟩ :: rest.2)

/-- One pass: every label's offset as an environment's values give it. -/
def KernelSrc.place (k : KernelSrc) (env : Env) : List (Text × Val) × List Span × Nat :=
  let c := placeVariants env 0 0 k.variants
  let d := placeData env ⟨[], [], 0⟩ k.data
  (c.1 ++ d.labels, c.2, d.pos)

/-- The symbols with the labels' offsets in place. -/
def withLabels (syms labels : List (Text × Val)) : List (Text × Val) := syms.map (fun s => (s.1, (findText labels s.1).getD s.2))

/-- Passes until the labels' offsets no longer change; an operand may be shorter for the difference of two labels. -/
def KernelSrc.settle (k : KernelSrc) : Nat → Env → Except Err (Env × List Span)
  | 0, _ => .error .unsettled
  | n + 1, env =>
    let r := k.place env
    let syms := withLabels env.syms r.1
    if syms = env.syms then .ok (env, r.2.1) else k.settle n { env with syms := syms }

/-! ## Switch points, resources and maps -/

/-- The names of a variant's switch points, in order. -/
def VariantSrc.points (v : VariantSrc) : List Text :=
  v.code.filterMap (fun c => match c.2 with | .ins x => x.swpt | _ => none)

/-- The switch points (R33): the same names in every variant, each once, numbered as they stand in variant 0. -/
def KernelSrc.points (k : KernelSrc) : Except Err (List Text) :=
  let ps := (k.variants.head?.map VariantSrc.points).getD []
  let same (v : VariantSrc) : Bool :=
    decide v.points.Nodup && decide (v.points.length = ps.length) && v.points.all (fun p => ps.contains p)
  if k.variants.all same && decide (ps.length ≤ 255) then .ok ps else .error .point

/-- A variant's record but for its place (R31, R32, R37). -/
def VariantSrc.record (v : VariantSrc) (env : Env) (home : Nat) (sp : Span) : Except Err Variant := do
  match v.regs, v.scratch, v.accums, v.permits with
  | some (l, u), some s, some a, some p =>
    let l ← l.within env 32 128 .limit
    let u ← u.within env 0 64 .limit
    let s ← s.within env 0 655360 .limit
    let a ← a.within env 0 8 .limit
    let p ← p.within env 0 a .limit
    let h ← match v.handler with
      | none => .ok 0xFFFFFFFF
      | some w => match findText env.homes w, findText env.syms w with
        | some i, some (.addr _ x) => if i = home then .ok x.toNat else .error .word
        | _, _ => .error .word
    if l % 32 = 0 then
      .ok ⟨l, u, a, p, roundUp s 2048, sp.lo, sp.hi - sp.lo, h, env.points.map (fun w => (findText sp.points w).getD 0)⟩
    else .error .limit
  | _, _, _, _ => .error .missing

/-- The budget of a variant that a map item's kind counts in (R34). -/
def budgetOf (v : Variant) (kind : Nat) : Nat :=
  match kind with
  | 0 => v.lregs
  | 1 => v.uregs
  | _ => v.scratch

/-- A map item (R34): registers of one kind in their order, or bytes in multiples of 4, within both variants. -/
def MoveSrc.item (m : MoveSrc) (env : Env) (a b : Variant) : Except Err MapItem := do
  let it : MapItem ← match m with
    | .regs (.lane x) (.lane y) (.lane z) => if x.toNat ≤ y.toNat then .ok ⟨0, x.toNat, z.toNat, y.toNat - x.toNat + 1⟩ else .error .map
    | .regs (.uni x) (.uni y) (.uni z) => if x.toNat ≤ y.toNat then .ok ⟨1, x.toNat, z.toNat, y.toNat - x.toNat + 1⟩ else .error .map
    | .regs _ _ _ => .error .map
    | .bytes off len dst => do
      let off ← off.within env 0 655360 .map
      let len ← len.within env 0 655360 .map
      let dst ← dst.within env 0 655360 .map
      if off % 4 = 0 ∧ len % 4 = 0 ∧ dst % 4 = 0 then .ok ⟨2, off, dst, len⟩ else .error .map
  if it.src + it.count ≤ budgetOf a it.kind ∧ it.dst + it.count ≤ budgetOf b it.kind then .ok it else .error .map

/-- Whether two items share a target (R34). -/
def sameTarget (a b : MapItem) : Bool :=
  a.kind == b.kind && decide (a.dst < b.dst + b.count) && decide (b.dst < a.dst + a.count)

/-- A `.switch` directive as a map (R34). -/
def SwitchSrc.map (s : SwitchSrc) (env : Env) (vs : List Variant) : Except Err SwitchMap := do
  let p := env.points.findIdx (fun w => w == s.point)
  let i ← s.src.within env 0 3 .map
  let j ← s.dst.within env 0 3 .map
  if p ≥ env.points.length ∨ i = j then .error .map
  else match vs[i]?, vs[j]? with
    | some a, some b =>
      let items ← s.moves.mapM (fun m => m.item env a b)
      if items.Pairwise (fun x y => !sameTarget x y) then .ok ⟨p, i, j, items⟩ else .error .map
    | _, _ => .error .map

/-- The order of the map table (R38). -/
def mapOrder (m : SwitchMap) : Nat := m.point * 16 + m.src * 4 + m.dst

/-- A map in its place in the table; two maps of one point and pair are an error (R34). -/
def insertMap (m : SwitchMap) : List SwitchMap → Except Err (List SwitchMap)
  | [] => .ok [m]
  | x :: xs =>
    if mapOrder m < mapOrder x then .ok (m :: x :: xs)
    else if mapOrder m = mapOrder x then .error .map
    else do .ok (x :: (← insertMap m xs))

/-! ## Emission -/

/-- A relocation record (R40). -/
structure Reloc where
  site : Nat
  siteSeg : Seg
  fix : Fix
deriving DecidableEq, Repr

/-- The bytes of an item and the relocations in them. -/
abbrev Out := List Byte × List Reloc

/-- The operand of `.align` (R31): a power of two, at least 4 in code. -/
def alignment (env : Env) (least : Int) (e : Expr) : Except Err Nat := do
  let n ← e.within env least 4096 .limit
  if n = 2 ^ n.log2 then .ok n else .error .limit

/-- A 32-bit value of `.word` (R27, R28): absolute, or a relocatable one in its lo32 or hi32 form. -/
def wordOut (env : Env) (seg : Seg) (pos : Nat) (e : Expr) : Except Err Out := do
  match ← e.val env with
  | .abs n => .ok (toBytes 4 (← fieldBits 32 n), [])
  | .half hi s x => let f : Fix := ⟨if hi then 2 else 1, s, x⟩; .ok (toBytes 4 f.word, [⟨pos, seg, f⟩])
  | .addr _ _ => .error .segment

/-- A code item's bytes (R31, R32, R42, R43): padding is NOP words, and an immediate word is an instruction's third. -/
def CodeItem.emit (env : Env) (home lregs uregs pos : Nat) : CodeItem → Except Err Out
  | .label _ => .ok ([], [])
  | .align e => do
    let n ← alignment env 4 e
    .ok ((List.replicate ((roundUp pos n - pos) / 4) (toBytes 4 0x046F0000)).flatten, [])
  | .word e => wordOut env .code pos e
  | .ins x => do
    let r ← x.build env pos home
    if overBudget r.1 lregs uregs then .error .budget
    else .ok ((encode r.1).flatMap (fun w => toBytes 4 w.toNat), (r.2.map (fun f => (⟨pos + 8, .code, f⟩ : Reloc))).toList)

/-- A data item's bytes (R31). -/
def DataItem.emit (env : Env) (pos : Nat) : DataItem → Except Err Out
  | .label _ => .ok ([], [])
  | .align e => do let n ← alignment env 1 e; .ok (List.replicate (roundUp pos n - pos) 0, [])
  | .ints n e =>
    if n = 4 then wordOut env .data pos e
    else do match ← e.val env with
      | .abs x => .ok (toBytes n (← fieldBits (8 * n) x), [])
      | .addr s x => if n = 8 then .ok (toBytes 8 (wrap 64 x), [⟨pos, .data, ⟨0, s, x⟩⟩]) else .error .segment
      | .half _ _ _ => .error .segment
  | .floats t es => do
    let vs ← es.mapM (fun e => e.encoding env t)
    .ok (if t = .t6 then packT6 vs else vs.flatMap (fun v => toBytes (t.width / 8) v), [])
  | .space n fill => do
    let k ← n.abs env
    let f ← match fill with
      | some e => do fieldBits 8 (← e.abs env)
      | none => .ok 0
    if 0 ≤ k then .ok (List.replicate k.toNat (BitVec.ofNat 8 f), []) else .error .limit

/-- The bytes of items one after another from an offset; an error carries its item's line. -/
def emitAll {α : Type} (f : Nat → α → Except Err Out) : Nat → List (Nat × α) → Except (Nat × Err) Out
  | _, [] => .ok ([], [])
  | pos, x :: xs =>
    match f pos x.2 with
    | .error e => .error (x.1, e)
    | .ok o => do
      let rest ← emitAll f (pos + o.1.length) xs
      .ok (o.1 ++ rest.1, o.2 ++ rest.2)

/-- The bytes of the variants' code, each after zero bytes up to its place (R37). -/
def emitVariants (env : Env) : Nat → Nat → List (VariantSrc × Variant) → Except (Nat × Err) Out
  | _, _, [] => .ok ([], [])
  | home, pos, (v, r) :: vs => do
    let o ← emitAll (CodeItem.emit env home r.lregs r.uregs) r.entry v.code
    let rest ← emitVariants env (home + 1) (r.entry + o.1.length) vs
    .ok (List.replicate (r.entry - pos) 0 ++ o.1 ++ rest.1, o.2 ++ rest.2)

/-- A NUL-terminated string (R36). -/
def cstring (w : Text) : List Byte := w.map (fun c => BitVec.ofNat 8 c.toNat) ++ [0]

/-- Bytes with zero bytes up to a length. -/
def padTo (n : Nat) (bs : List Byte) : List Byte := bs ++ List.replicate (n - bs.length) 0

/-- A variant's record (R37), its switch-point table at an offset. -/
def variantBytes (v : Variant) (pointOff : Nat) : List Byte :=
  toBytes 1 v.lregs ++ toBytes 1 v.uregs ++ toBytes 1 v.accums ++ toBytes 1 v.permits ++ toBytes 4 v.scratch ++ toBytes 4 v.entry ++
  toBytes 4 v.codeLen ++ toBytes 4 v.handler ++ toBytes 4 pointOff ++ toBytes 8 0

/-- The map table's records (R38), their items from an offset on. -/
def mapBytes : Nat → List SwitchMap → List Byte
  | _, [] => []
  | off, m :: ms =>
    toBytes 1 m.point ++ toBytes 1 m.src ++ toBytes 1 m.dst ++ toBytes 1 0 ++ toBytes 4 m.items.length ++ toBytes 4 off ++ toBytes 4 0 ++
    mapBytes (off + 16 * m.items.length) ms

/-- A map item (R38). -/
def itemBytes (i : MapItem) : List Byte := toBytes 1 i.kind ++ toBytes 3 0 ++ toBytes 4 i.src ++ toBytes 4 i.dst ++ toBytes 4 i.count

/-- The parameter table (R39), the names from a string offset on. -/
def paramBytes : Nat → List ParamSrc → List Byte
  | _, [] => []
  | at_, p :: ps =>
    toBytes 4 at_ ++ toBytes 4 p.off ++ toBytes 1 p.ty.code.toNat ++ toBytes 3 0 ++ toBytes 4 p.count ++
    paramBytes (at_ + p.name.length + 1) ps

/-- The number of a segment (R40). -/
def Seg.number : Seg → Nat
  | .code => 0
  | .data => 1

/-- A relocation record (R40). -/
def relocBytes (r : Reloc) : List Byte :=
  toBytes 4 r.site ++ toBytes 1 r.fix.kind ++ toBytes 1 r.siteSeg.number ++ toBytes 1 r.fix.seg.number ++ toBytes 1 0 ++
  toBytes 8 (wrap 64 r.fix.addend)

/-- The image (R35 to R40) of the assembled parts. -/
def imageBytes (k : KernelSrc) (vs : List Variant) (npoint : Nat) (maps : List SwitchMap) (code data : Out) : List Byte :=
  let pointOff := 64 + 32 * vs.length
  let mapOff := pointOff + 4 * npoint * vs.length
  let itemOff := mapOff + 16 * maps.length
  let items := maps.flatMap SwitchMap.items
  let parOff := itemOff + 16 * items.length
  let strings := cstring k.name ++ k.params.flatMap (fun p => cstring p.name)
  let codeOff := roundUp (parOff + 16 * k.params.length + strings.length) 128
  let dataOff := roundUp (codeOff + code.1.length) 128
  let relOff := dataOff + data.1.length
  let rels := code.2 ++ data.2
  let head := toBytes 4 0x494B485A ++ toBytes 2 1 ++ toBytes 2 ((if k.idempotent then 1 else 0) + (if k.modular then 2 else 0)) ++
    toBytes 1 vs.length ++ toBytes 1 npoint ++ toBytes 2 maps.length ++ toBytes 4 (blockSize k.params) ++ toBytes 4 64 ++ toBytes 4 mapOff ++
    toBytes 4 parOff ++ toBytes 4 k.params.length ++ toBytes 4 codeOff ++ toBytes 4 code.1.length ++ toBytes 4 dataOff ++
    toBytes 4 data.1.length ++ toBytes 4 relOff ++ toBytes 4 rels.length ++ toBytes 4 0 ++ toBytes 4 (relOff + 16 * rels.length)
  let tables := head ++ (List.range vs.length).flatMap (fun i => variantBytes (vs.getD i ⟨0, 0, 0, 0, 0, 0, 0, 0, []⟩) (pointOff + 4 * npoint * i)) ++
    vs.flatMap (fun v => v.points.flatMap (toBytes 4)) ++ mapBytes itemOff maps ++ items.flatMap itemBytes ++
    paramBytes (k.name.length + 1) k.params ++ strings
  padTo dataOff (padTo codeOff tables ++ code.1) ++ data.1 ++ rels.flatMap relocBytes

/-- The image of a kernel closed at a line (R30 to R40), or the error. Every check of R41 but the traced launch's holds of it. -/
def KernelSrc.assemble (n : Nat) (k : KernelSrc) : Except (Nat × Err) (List Byte) := do
  let here {α : Type} (r : Except Err α) : Except (Nat × Err) α := r.mapError (fun e => (n, e))
  let points ← here k.points
  let (env, spans) ← here (k.settle 64 { k.env true with points := points })
  let vs ← here ((List.range k.variants.length).mapM (fun i =>
    (k.variants.getD i VariantSrc.empty).record env i (spans.getD i ⟨0, 0, []⟩)))
  let maps ← (k.variants.flatMap VariantSrc.switches).foldlM (fun ms s =>
    (do insertMap (← s.2.map env vs) ms : Except Err (List SwitchMap)).mapError (fun e => (s.1, e))) []
  let code ← emitVariants env 0 0 (k.variants.zip vs)
  let data ← emitAll (DataItem.emit env) 0 k.data
  let image := imageBytes k vs points.length maps code data
  match Img.bad (fun off size => leAt image off size) image.length with
  | none => .ok image
  | some _ => .error (n, .limit)

/-- cvas: the kernels of a source and their images, in order, or the line and the kind of an error (R15 to R40). -/
def assemble (source : Text) : Except (Nat × Err) (List (Text × List Byte)) := do
  match splitLines [] source with
  | none => .error ((source.filter (fun c => c == '\n')).length + 1, .line)
  | some ls =>
    let r ← Reader.start.lines 1 ls
    r.done.mapM (fun k => do .ok (k.2.name, ← k.2.assemble k.1))

end Sys2Proof.Machine.Asm
end

