-- ==== Sys2Proof/Machine/Tasks.lean ====
section
/-! DEFINITION. Tasks and the manifest (R327 to R349): SPAWN, MODREG and MODREL, PROP, the walk of a propagation and the
completion step of a re-executed task. -/

namespace Sys2Proof.Machine

namespace Manifest

/-- The record after a task's in trace order, and the one after its sub-trace (R342). -/
def nextOf (m : Manifest) (task : Nat) : Option Nat :=
  ((m.recs.dropWhile (fun r => r.task != task)).drop 1).head?.map TRec.task

def afterSub (m : Manifest) (task : Nat) : Option Nat :=
  ((m.recs.dropWhile (fun r => r.task != task)).dropWhile (m.inSub task)).head?.map TRec.task

end Manifest

namespace State

/-! ## SPAWN (R339, R343) -/

/-- The parameter block read as thread reads of 8 bytes (R339 step 5). -/
def spawnParams (s : State) (u tid base : Nat) : List Nat → Res (List Byte)
  | [] => .ok [] s
  | i :: rest =>
    match s.address u .g base (8 * i : Nat) 8 false with
    | .error x => .trap x s
    | .ok ea => (s.readG u tid ea 8 .readOther true).bind fun bs s =>
        (s.spawnParams u tid base rest).bind fun more s => .ok (bs ++ more) s

/-- The ordinal a task has now: its record's, where it has one (R328). -/
def ordOf (s : State) (u : Nat) : Nat :=
  let t := s.team u
  match (s.launchMan t.launch).bind (fun m => m.rec? t.task) with
  | some r => r.ord
  | none => t.ordinal

/-- The children of a running task before its cursor, and all of them. -/
def childCounts (s : State) (u : Nat) : Nat × Nat :=
  let t := s.team u
  match (s.launchMan t.launch).bind (fun m => (m.rec? t.task).map (fun r => (m, r))) with
  | some (m, r) => let n := (m.kids t.task).length; (n - r.oldChildren.length, n)
  | none => (t.children, t.children)

/-- The old child that a re-executed task's SPAWN matches (R343). -/
def matchChild (s : State) (u image key : Nat) : Option Nat :=
  let t := s.team u
  if t.reexec.isNone then none
  else (s.launchMan t.launch).bind (fun m => (m.rec? t.task).bind (fun r =>
    r.oldChildren.find? (fun k => (m.rec? k).any (fun c => c.image == image && c.key == key))))

/-- A matched child (R343): the old children before it discarded, its parameters compared, the cursor moved past it. -/
def takeMatch (s : State) (u child : Nat) (params : List Byte) : State :=
  let t := s.team u
  match s.launchMan t.launch with
  | none => s
  | some m =>
    let m := m.updRec t.task (fun r =>
      { r with dropped := r.dropped ++ r.oldChildren.takeWhile (fun k => k != child)
               oldChildren := (r.oldChildren.dropWhile (fun k => k != child)).drop 1 })
    let m := match m.rec? child with
      | some c => if c.params = params then m else (m.updRec child (fun c => { c with params := params })).mark child
      | none => m
    s.keepMan (m.renumber t.task (m.kids t.task))

/-- Whether a launch's manifest is in a propagation that walks records, so that new tasks are fresh (R343). -/
def walking (s : State) (l : Nat) : Bool := (s.launchMan l).any (fun m => m.walk.any (fun w => !w.full))

/-- A new child (R339, R343): its number, its record before the cursor, its place in the queue. -/
def newChild (s : State) (u hyp : Nat) (img : Image) (params : List Byte) (key groups : Nat) : Nat × State :=
  let t := s.team u
  let l := t.launch
  let task := (s.lau l).nextTask
  let fresh := s.walking l
  let before := (s.childCounts u).1
  let ord := childOrd (s.ordOf u) (t.depth + 1) before
  let s := s.updLau l (fun x => { x with nextTask := x.nextTask + 1 })
  let s := match s.launchMan l with
    | some m =>
      let order := m.kids t.task
      let order := order.take before ++ [task] ++ order.drop before
      let r := freshRec task ord (some t.task) img.addr key groups params hyp fresh
      s.keepMan (({ m with recs := insertBy TRec.ord r m.recs, nextId := task + 1 } : Manifest).renumber t.task order)
    | none => s
  let q : QTask :=
    { task := task, img := img, params := params, key := key, groups := groups, depth := t.depth + 1, ordinal := ord,
      parent := some t.task, hyp := hyp, orphan := none, reexec := none, fresh := fresh }
  let s := s.updLau l (fun x => { x with spawned := x.spawned ++ [q], stamp := serialMax x.stamp (s.pts (s.team u).core) })
  (task, s.updTeam u (fun t => { t with children := t.children + 1 }))

/-- Reads of a context's memory that a device check makes reach their homes, for a team or for none (R259, R295). -/
def reachSpans (s : State) (u : Option Nat) (d c : Nat) : List (Nat × Nat) → Res Unit
  | [] => .ok () s
  | e :: r =>
    match s.hbmAt d c e.1 with
    | some x => (s.reach u (lineOf x.1) true).bind fun _ s => s.reachSpans u d c r
    | none => s.reachSpans u d c r

/-- The reads of an image's header, and then of all its bytes. -/
def reachImage (s : State) (u : Option Nat) (d c addr : Nat) : Res Unit :=
  (s.reachSpans u d c (lineSpans addr 64)).bind fun _ s =>
    let n := Img.size (fun off n => leNat (s.devBytes d c (addr + off) n))
    if s.mapped d c addr 64 (fun _ => true) && s.mapped d c addr n (fun _ => true) then s.reachSpans u d c (lineSpans addr n)
    else .ok () s

/-- SPAWN's course in one thread (R339). -/
def spawnStep (s : State) (u tid : Nat) (d : BitVec 7) (off : Nat) : Act × State :=
  let pc := (s.thr u tid).pc
  match s.readBlock u off 32 with
  | .wait k s => (.retry k, s)
  | .trap x s => (.trap x, s)
  | .ok b s =>
    let groups := leAt b 24 2
    let image := leAt b 0 8
    let key := leAt b 16 8
    match firstBad [(24, decide (1 ≤ groups ∧ groups ≤ 32)), (26, leAt b 26 6 == 0)] with
    | some f => (.trap (fieldTrap pc off f), s)
    | none =>
      let t := s.team u
      let l := s.lau t.launch
      let perm : TrapInfo := { cause := .perm, va := BitVec.ofNat 64 image, vb := BitVec.ofNat 64 (s.ordOf u) }
      match s.reachImage (some u) t.vdev t.ctx image with
      | .wait k s => (.retry k, s)
      | .trap x s => (.trap x, s)
      | .ok _ s =>
        match s.imageAt t.vdev t.ctx image with
        | .error _ => (.trap perm, s)
        | .ok img =>
          let m := s.matchChild u image key
          let n := s.childCounts u
          if (l.traced && !img.modular) || !img.variants.any (fun v => decide (v.scratch ≤ l.carve)) || decide (4 ≤ t.depth) ||
              decide (1023 ≤ n.1) || (m.isNone && decide (1023 ≤ n.2)) then (.trap perm, s)
          else
            match s.spawnParams u tid (leAt b 8 8) (List.range (img.psize / 8)) with
            | .wait k s => (.retry k, s)
            | .trap x s => (.trap x, s)
            | .ok params s =>
              match m with
              | some c => (.go, (s.takeMatch u c params).writeDest u tid d .n32 c)
              | none =>
                let r := s.newChild u (s.thr u tid).hyp img params key groups
                (.go, r.2.writeDest u tid d .n32 r.1)

/-! ## Regions (R329, R340) -/

/-- Whether a manifest of a context records or propagates. -/
def recording (s : State) (d c : Nat) : Bool := s.manifests.any (fun m => m.vdev == d && m.ctx == c && (m.state == 1 || m.state == 4))

/-- The lowest free entry of a context's region table (R340). -/
def freeRegion (s : State) (d c : Nat) : Option Nat :=
  (List.range 256).find? (fun k => (SMap.find (s.ctx d c).regions k).isNone)

/-- Whether a range meets a region of a context. -/
def meetsRegion (s : State) (d c base n : Nat) : Bool :=
  (s.ctx d c).regions.any (fun e => decide (base < e.2.base + e.2.count * 2 ^ e.2.lg) && decide (e.2.base < base + n))

/-- Enters a region. -/
def enterRegion (s : State) (d c k : Nat) (r : Region) : State :=
  s.updCtx d c (fun x => { x with regions := SMap.set x.regions k r })

/-- What the release of a region does to a manifest (R340). -/
def dropRegion (m : Manifest) (k : Nat) : Manifest :=
  let hit := (m.recs.filter (fun r => r.reads.any (fun g => g.region == k))).map TRec.task
  let m := hit.foldl Manifest.mark m
  { m with recs := m.recs.map (fun r =>
      { r with reads := r.reads.filter (fun g => g.region != k), writes := r.writes.filter (fun g => g.region != k) }) }

/-- Releases a region (R340). -/
def leaveRegion (s : State) (d c k : Nat) : State :=
  let s := s.manifests.foldl (fun s m =>
    if m.vdev = d && m.ctx = c && dropRegion m k != m then (s.putMan (dropRegion m k)).syncMan d c m.handle else s) s
  s.updCtx d c (fun x => { x with regions := SMap.erase x.regions k })

/-- MODREG's course in one thread (R340, R349, R354). -/
def modregStep (s : State) (u tid lg : Nat) (d : BitVec 7) (base n : Nat) : Act × State :=
  let t := s.team u
  let g := 2 ^ lg
  let top := BitVec.ofNat 64 (base + n * g + 18446744073709551615)
  let trap (c : Cause) (vb : Addr) : Act × State := (.trap { cause := c, va := BitVec.ofNat 64 base, vb := vb }, s)
  if (s.thr u tid).hyp != 0 then (.trap (ownTrap .perm (s.thr u tid).pc), s)
  else if base % g != 0 then trap .align (BitVec.ofNat 64 (base + g - 1))
  else if 9007199254740992 < base + n * g then trap .xlate top
  else if n = 0 || s.meetsRegion t.vdev t.ctx base (n * g) then trap .perm top
  else
    match s.freeRegion t.vdev t.ctx with
    | none => trap .perm top
    | some k => (.go, (s.enterRegion t.vdev t.ctx k ⟨base, lg, n⟩).writeDest u tid d .n32 k)

/-- MODREL's course in one thread (R340, R354). -/
def modrelStep (s : State) (u tid k : Nat) : Act × State :=
  let t := s.team u
  if (s.thr u tid).hyp != 0 then (.trap (ownTrap .perm (s.thr u tid).pc), s)
  else if decide (255 < k) || (SMap.find (s.ctx t.vdev t.ctx).regions k).isNone || s.recording t.vdev t.ctx then
    (.trap { cause := .perm, va := BitVec.ofNat 64 k, vb := BitVec.ofNat 64 k }, s)
  else (.go, s.leaveRegion t.vdev t.ctx k)

/-! ## Propagation (R341, R342) -/

/-- The manifest at a handle of a context. -/
def man? (s : State) (d c h : Nat) : Option Manifest := s.manifests.find? (fun m => m.isAt d c h)

/-- The launch that carries a propagation's work (R341): as the recorded launch, with its carve, key and virtual device. -/
def propLaunch (old : Launch) (m : Manifest) (full : Bool) : Launch :=
  { old with prop := true, traced := true, untraced := false, det := false, replay := false, complete := false,
             nextClus := if full then 0 else old.teams, nextTask := if full then m.grid else m.nextId, spawned := [], doneTasks := [],
             requeue := [], phases := 0, first := none, last := none, instrs := 0, entries := [], modOrder := false, marks := [],
             carve := m.carve, rngk := m.rngk, mhandle := m.handle }

/-- Starts a propagation of a manifest whose STATE is 2, 3 or 5 (R341, R342). -/
def startPropagation (s : State) (m : Manifest) : State :=
  let full := m.state != 2
  let (l, s) := s.newUid
  let old := s.lau (m.launch.getD 0)
  let s := { s with launches := SMap.set s.launches l { propLaunch old m full with stamp := s.outStamp } }
  let recs := if full then [] else m.recs.map (fun r => { r with live := false, done := true, fresh := false })
  let first := (recs.head?).map TRec.task
  let m := { m with state := 4, cause := 0, recs := recs, launch := some l, wantState := none,
                    walk := some ⟨if full then none else first, false, full, false⟩ }
  let s := (s.putMan m).syncMan m.vdev m.ctx m.handle
  if full then s.count m.vdev 0x0C m.grid else s.post (.propagateWalk (s.manIndex m))

/-- PROP's course in one thread (R341, R354). -/
def propStep (s : State) (u tid : Nat) (d : Pred) (h : Nat) : Act × State :=
  let t := s.team u
  if (s.thr u tid).hyp != 0 then (.trap (ownTrap .perm (s.thr u tid).pc), s)
  else
    match s.man? t.vdev t.ctx h with
    | none => (.trap { cause := .perm, va := BitVec.ofNat 64 h, vb := BitVec.ofNat 64 h }, s)
    | some m =>
      if m.state == 0 || m.state == 1 || m.state == 4 then (.go, s.writePred u tid d.val false)
      else (.go, (((s.raiseOut (s.pts t.core)).startPropagation m).afterOutside t.core).writePred u tid d.val true)

/-- Ends a walk (R342): the run counts, and the final state waits for the launch's work to end. -/
def endWalk (s : State) (m : Manifest) : State :=
  let m := { m with walk := none, runs := if m.state == 4 then m.runs + 1 else m.runs, wantState := some 2, cause := 0 }
  let s := s.putMan m
  match m.launch with
  | some l => s.checkLaunch l
  | none => s

/-- Puts a stale record's task in the queue (R342): its own image, groups, parameters, number and hypothesis. -/
def reExecute (s : State) (m : Manifest) (w : Walk) (r : TRec) : State :=
  match m.launch, s.imageAt m.vdev m.ctx r.image with
  | some l, .ok img =>
    let q : QTask :=
      { task := r.task, img := img, params := r.params, key := r.key, groups := r.groups, depth := m.depth r.task, ordinal := r.ord,
        parent := r.parent, hyp := r.hyp, orphan := none, reexec := some r.task, fresh := false }
    let s := s.putMan { m with walk := some { w with at_ := some r.task, waiting := true } }
    (s.updLau l (fun x => { x with spawned := x.spawned ++ [q], stamp := serialMax x.stamp s.outStamp })).count m.vdev 0x0C 1
  | _, _ =>
    -- the image no longer passes R41: nothing can be started from the record, and the walk ends
    let s := s.putMan { m with walk := none, wantState := some 5, cause := 0 }
    match m.launch with
    | some l => s.checkLaunch l
    | none => s

/-- The walk from a record on (R342): to the next stale record, to a fresh task that still runs, or to the end. -/
def walkOn (s : State) (m : Manifest) (w : Walk) : Nat → State
  | 0 => s
  | f + 1 =>
    match w.at_ with
    | none => s.endWalk m
    | some t =>
      match m.rec? t with
      | none => s.endWalk m
      | some r =>
        if r.live && !r.done then s.putMan { m with walk := some w }
        else if r.stale then s.reExecute m w r
        else if r.desc then
          s.walkOn (m.updRec t (fun r => { r with desc := false })) { w with at_ := m.nextOf t } f
        else s.walkOn m { w with at_ := m.afterSub t } f

/-! ## The completion step (R344) -/

/-- A write entry to restore, with the ordinal of the record that holds it. -/
structure Restore where
  ord : Nat
  entry : WriteG
deriving DecidableEq, Repr

/-- What the step restores, in reverse trace order (R344 steps 1 to 3): dropped writes and those of discarded sub-traces. -/
def restores (m : Manifest) (r : TRec) : List Restore :=
  let gone := r.dropped ++ r.oldChildren
  let own := (r.oldWrites.filter (fun w => !r.writes.any (fun x => x.addr == w.addr))).map (fun w => Restore.mk r.ord w)
  let subs := (m.recs.filter (fun x => gone.any (fun k => m.inSub k x))).flatMap (fun x => x.writes.map (fun w => Restore.mk x.ord w))
  (sortBy Restore.ord (own ++ subs)).reverse

/-- The physical lines of a granule. -/
def granuleLines (s : State) (m : Manifest) (w : WriteG) : List Nat :=
  (lineSpans w.addr (2 ^ w.lg)).filterMap (fun e => (s.deviceWalk m.vdev m.ctx e.1).map (fun r => lineOf r.1))

/-- The closes that the step needs first (R344, R259). -/
def escapeAll (s : State) : List Nat → Bool × State
  | [] => (true, s)
  | line :: rest =>
    let (ok, s) := s.escape none (LogItem.isLine line)
    let (ok', s) := s.escapeAll rest
    (ok && ok', s)

/-- A write of a granule's bytes by the step, at the root or in a version. -/
def restoreWrite (s : State) (m : Manifest) (w : WriteG) (data : List Byte) : State :=
  (lineChunks w.addr data).foldl (fun s e =>
    match s.deviceWalk m.vdev m.ctx e.1 with
    | some (pa, _) => if w.hyp = 0 then s.devWrite m.vdev m.ctx pa e.2 else s.putVersion w.hyp m.ctx pa e.2
    | none => s) s

/-- One restoration (R344 steps 3 and 4). -/
def restoreOne (s : State) (d c h : Nat) (gone : List Nat) (x : Restore) : State :=
  match s.man? d c h with
  | none => s
  | some m =>
    let w := x.entry
    match m.recs.find? (fun r => r.live && !gone.contains r.task && r.writes.any (fun y => y.addr == w.addr)) with
    | some r => s.putMan (m.updRec r.task (fun r => { r with
        writes := r.writes.map (fun y => if y.addr = w.addr then { y with prior := w.prior } else y) }))
    | none =>
      let now := s.granuleValue d c w.hyp w.addr w.lg
      let s := s.restoreWrite m w w.prior
      if now = w.prior then s
      else (s.putMan (m.markReaders w.addr none)).markOutside d c (some h) [⟨w.region, w.addr, w.lg⟩]

/-- Whether two records hold one granule in their write sets (R344 step 6). -/
def twoWriters (m : Manifest) : Bool :=
  m.recs.any (fun a => m.recs.any (fun b => a.task != b.task && a.writes.any (fun w => b.writes.any (fun x => x.addr == w.addr))))

/-- The step, its closes made (R344). -/
def completeStep (s : State) (m : Manifest) (r : TRec) : State :=
  let gone := (m.recs.filter (fun x => (r.dropped ++ r.oldChildren).any (fun k => m.inSub k x))).map TRec.task
  let s := (restores m r).foldl (fun s x => s.restoreOne m.vdev m.ctx m.handle gone x) s
  match s.man? m.vdev m.ctx m.handle with
  | none => s
  | some m =>
    let m := { m with recs := m.recs.filter (fun x => !gone.contains x.task) }
    let m := m.updRec r.task (fun r => { r with oldWrites := [], oldChildren := [], dropped := [] })
    let s := s.putMan (m.renumber r.task (m.kids r.task))
    let s := s.cutoff m r
    match s.man? m.vdev m.ctx m.handle with
    | none => s
    | some m =>
      if twoWriters m then
        let s := s.putMan { m with walk := none, wantState := some 5, cause := 3 }
        match m.launch with | some l => s.checkLaunch l | none => s
      else
        match m.walk with
        | none => s
        | some w =>
          let m := m.updRec r.task (fun r => { r with desc := false })
          (s.putMan { m with walk := some { w with at_ := m.nextOf r.task, waiting := false } }).post
            (.propagateWalk (s.manIndex m))

end State

/-! ## The instructions -/

/-- SPAWN (R339), irrevocable (R260). -/
def execSpawn (h : Head) (d : BitVec 7) (a : Src) (s : State) : Ran :=
  .next (perThreadIrrevocable (.spawn h d a) (fun s u tid => s.spawnStep u tid d (s.readSrc u tid 0 a .n32)) s)

/-- MODREG (R340). -/
def execModreg (h : Head) (lg : BitVec 6) (d : BitVec 7) (a b : Src) (s : State) : Ran :=
  .next (perThread (.modreg h lg d a b) (fun s u tid =>
    s.modregStep u tid lg.toNat d (s.readPair u tid 0 a) (s.readSrc u tid 1 b .n32)) s)

/-- MODREL (R340). -/
def execModrel (h : Head) (a : Src) (s : State) : Ran :=
  .next (perThread (.modrel h a) (fun s u tid => s.modrelStep u tid (s.readSrc u tid 0 a .n32)) s)

/-- PROP (R341), irrevocable (R260). -/
def execProp (h : Head) (d : Pred) (a : Src) (s : State) : Ran :=
  .next (perThreadIrrevocable (.prop h d a) (fun s u tid => s.propStep u tid d (s.readPair u tid 0 a)) s)

/-! ## The events -/

/-- PROPAGATE_WALK (R342): the walk of a manifest goes on, where it does not wait for a re-execution. -/
def execPropagateWalk (manifest : Nat) (s : State) : Ran :=
  .next (match s.manifests[manifest]? with
  | some m => (match m.walk with
      | some w => if w.waiting || w.full then s else s.walkOn m w (m.recs.length + 1)
      | none => s)
  | none => s)

/-- REEXECUTION_COMPLETION (R344): the completion step of a re-executed task, once every interval that wrote a line it
writes has closed. -/
def execReexecutionCompletion (team : Nat) (s : State) : Ran :=
  let t := s.team team
  .next (match s.launchMan t.launch with
  | none => s
  | some m =>
    match m.walk, t.reexec.bind m.rec? with
    | some w, some r =>
      if !w.waiting || w.at_ != some r.task || !r.done then s
      else
        let lines := (State.restores m r).flatMap (fun x => s.granuleLines m x.entry)
        let (ok, s) := s.escapeAll lines
        if ok then s.completeStep m r else s
    | _, _ => s)

end Sys2Proof.Machine
end

