-- ==== Sys2Proof/Machine/Hypotheses.lean ====
section
/-! DEFINITION. Hypotheses (R350 to R363): HNEW, HENT and HRES. -/

namespace Sys2Proof.Machine

namespace State

/-! ## The tree -/

/-- The lowest free number of a virtual device (R356). -/
def freeNumber (s : State) (d : Nat) : Option Nat :=
  let used := (s.liveHyps d).map s.hypNumber
  ((List.range 63).map (fun i => i + 1)).find? (fun k => !used.contains k)

/-- HNEW's effect (R356): the number of a new child of a node, 0 where there is none. -/
def newHyp (s : State) (d parent : Nat) : Nat × State :=
  if decide (63 ≤ (s.liveHyps d).length) || decide (8 ≤ s.hypDepth parent) then (0, s)
  else
    match s.freeNumber d with
    | none => (0, s)
    | some k =>
      let (n, s) := s.newUid
      (k, { s with hyps := SMap.set s.hyps n ⟨d, k, parent, .live⟩ })

/-- HRES's course in one thread (R358). -/
def hresStep (s : State) (u tid : Nat) (d : Pred) (k : Nat) (ref : Bool) : Act × State :=
  if k = 0 || 63 < k then (.trap { cause := .perm, va := BitVec.ofNat 64 k, vb := BitVec.ofNat 64 k }, s)
  else
    match s.hypByNumber (s.team u).vdev k with
    | none => (.go, s.writePred u tid d.val false)
    | some n =>
      match s.resolve u n ref with
      | (none, s) => (.wait (.resolve d n ref), s)
      | (some s, _) => (.go, s.writePred u tid d.val true)

end State

/-! ## The instructions -/

/-- HNEW (R356), irrevocable (R260). -/
def execHnew (h : Head) (d : BitVec 7) (s : State) : Ran :=
  .next (perThreadIrrevocable (.hnew h d) (fun s u tid =>
    let r := s.newHyp (s.team u).vdev (s.thr u tid).hyp
    (.go, r.2.writeDest u tid d .n32 r.1)) s)

/-- HENT (R357). -/
def execHent (h : Head) (a : Src) (s : State) : Ran :=
  .next (perThread (.hent h a) (fun s u tid =>
    let k := s.readSrc u tid 0 a .n32
    match if 63 < k then none else s.hypByNumber (s.team u).vdev k with
    | none => (.trap { cause := .perm, va := BitVec.ofNat 64 k, vb := BitVec.ofNat 64 k }, s)
    | some n =>
      if n = (s.thr u tid).hyp then (.go, s)
      else (.go, (s.dropResv u tid).updThr u tid (fun t => { t with hyp := n }))) s)

/-- HRES.conf (R358, R359), irrevocable (R260). -/
def execHresConf (h : Head) (d : Pred) (a : Src) (s : State) : Ran :=
  .next (perThreadIrrevocable (.hresConf h d a) (fun s u tid => s.hresStep u tid d (s.readSrc u tid 0 a .n32) false) s)

/-- HRES.ref (R358, R360), irrevocable (R260). -/
def execHresRef (h : Head) (d : Pred) (a : Src) (s : State) : Ran :=
  .next (perThreadIrrevocable (.hresRef h d a) (fun s u tid => s.hresStep u tid d (s.readSrc u tid 0 a .n32) true) s)

end Sys2Proof.Machine
end

