-- ==== Sys2Proof/Machine/Determinism.lean ====
section
/-! DEFINITION. Deterministic launches (R364 to R369, R324): DPH, the end of a quantum, the serial phase with its commit steps,
cluster barriers, ownership marks, admissions and closes. -/

namespace Sys2Proof.Machine

namespace State

/-! ## Quanta (R367) -/

/-- The teams of a launch that have not ended. -/
def launchTeams (s : State) (l : Nat) : List Nat :=
  (s.teams.filter (fun e => e.2.launch == l && e.2.phase != .ended)).map Prod.fst

/-- A wait that only a serial phase ends (R367). -/
def heldKind (k : WaitKind) : Bool :=
  match k with
  | .dph | .serial | .cbar _ | .cbarAgain _ _ => true
  | _ => false

/-- The threads a waiting thread's barrier or collective still misses; none for another wait. -/
def missing (s : State) (u tid : Nat) : Option (List Nat) :=
  let live := (s.team u).body.live
  match (s.thr u tid).st, (s.thr u tid).wait with
  | .waiting, some w =>
    match w.kind with
    | .bar b => some (live.filter (fun t => !(s.bar u b).arrived.contains t))
    | .barAgain b _ => some (live.filter (fun t => !(s.bar u b).arrived.contains t))
    | .collective =>
      let g := groupOf tid
      ((s.grp u g).colls.find? (fun c => (CInstance.waits c).any (fun a => a.lane == laneOf tid))).bind (fun c =>
        ((CInstance.waits c).find? (fun a => a.lane == laneOf tid)).map (fun a =>
          ((maskLanes a.mask).filter (fun j => !CInstance.recorded c j && (s.thr u (32 * g + j)).st != .exited)).map
            (fun j => 32 * g + j)))
    | _ => none
  | _, _ => none

/-- Widens the threads that cannot issue again before the phase by those that wait for them alone (R367). -/
def stuck (s : State) (u : Nat) (held : List Nat) : Nat → List Nat
  | 0 => held
  | f + 1 =>
    let more := (s.team u).body.live.filter (fun tid => !held.contains tid &&
      (match s.missing u tid with | some ms => ms.all held.contains | none => false))
    if more.isEmpty then held else s.stuck u (held ++ more) f

/-- Whether a team's quantum has ended (R367). A team that a stop or a pre-emption holds has not ended it (R325, R373). -/
def quantumEnded (s : State) (u : Nat) : Bool :=
  let t := s.team u
  if t.phase == .ended then true
  else
    let live := t.body.live
    let held := s.waiting u heldKind
    t.phase.issues && !t.closing && (s.stopDue u).isNone && !s.ops.any (fun o => o.team == u) &&
    (decide ((s.lau t.launch).quantum ≤ t.body.quantumWork) || live.all (s.stuck u held live.length).contains)

/-- Whether a bound admission of phase 0 can still be made (R372). -/
def admitsFirst (s : State) (l : Nat) : Bool :=
  ((s.boundAdmits l).head?).any (fun e => e.phase == 0 && (s.lau l).phases == 0) && (s.itemsOf l).any (fun it => (s.itemSpots l it).isSome)

/-- Whether a launch's serial phase begins (R368): some team takes part, and every one has ended its quantum. -/
def phaseDue (s : State) (l : Nat) : Bool :=
  let ts := s.launchTeams l
  (s.lau l).det && !ts.isEmpty && ts.all s.quantumEnded && !s.admitsFirst l

/-! ## Commit steps (R324, R365) -/

/-- A waiting thread of a deferred access traps where it waits. -/
def commitTrap (s : State) (u : Nat) (thread : Option Nat) (x : TrapInfo) : State :=
  match thread with
  | none => s
  | some tid =>
    match (s.thr u tid).wait with
    | some w => s.takeTrap u tid w.pc x
    | none => s

/-- A write of committed bytes of one line under a hypothesis: at the home, or in the version; false where no way is free. -/
def commitWrite (s : State) (u h pa : Nat) (data : List Byte) : Res Bool :=
  let t := s.team u
  (if h = 0 then (s.homeWrite (some u) (some t.core) t.vdev t.ctx pa data).bind fun _ s => .ok true s
   else s.writeVersion u h pa data).bind fun ok s =>
  .ok ok (if ok then s.collideWrite h (fun i => .hbm (pa + i)) data.length else s)

/-- A deferred result written to its thread. -/
def commitResult (s : State) (u : Nat) (thread : Option Nat) (d : Nat) (ws : List Word) : State :=
  match thread with
  | some tid => s.writeLanes u tid d ws
  | none => s

/-- A deferred read-write step's write: `late` where only the commit decided that it is one, which is then checked and recorded as
a write of its task (R330, R332). The waiting thread traps where the write cannot happen. -/
def commitChecked (s : State) (u h va pa : Nat) (new : List Byte) (late : Bool) (thread : Option Nat) (done : State → State) : Res Unit :=
  match (if late then s.checkWrite u va new.length else .ok () s) with
  | .trap x s => .ok () (s.commitTrap u thread x)
  | .wait k s => .wait k s
  | .ok _ was => (was.commitWrite u h pa new).bind fun ok s =>
    if !ok then .ok () (s.commitTrap u thread (capacityTrap va))
    else .ok () (done (if late then s.noteWrite was u h va new.length else s.markWrite u va new.length))

/-- The scratchpad of a rank for a deferred access: none where it is gone or too small. That of a team that has ended meanwhile
stays for the accesses in flight to it (R279). -/
def commitRank (s : State) (u rank off n : Nat) : Option Nat :=
  (s.rankMember u rank).filter (fun v => decide (off + n ≤ s.scratchSize v) &&
    ((s.team v).phase != .ended || (s.cor (s.team v).core).held.any (fun h => h.team == v)))

/-- SCRATCH_BOUNDS of a deferred cluster-window access (R131, R279). -/
def rankTrap (rank off n : Nat) (wr : Bool) : TrapInfo := accTrap .scratchBounds .c wr (rank * 16777216 + off) n

/-- One buffer entry performed (R323, R324, R365). An entry of a refuted hypothesis writes nothing (R360). -/
def commitEntry (s : State) (u : Nat) (e : BufEntry) : Res Unit :=
  let (h, ref) := s.hypFollow e.hyp
  let dead := ref.isSome
  match e.op with
  | .store va pa data =>
    if dead then .ok () s else (s.commitWrite u h pa data).bind fun _ s => .ok () (s.markWrite u va data.length)
  | .atom va pa op ty c x dest =>
    let n := accessSize ty
    (s.reach (some u) (lineOf pa) false).bind fun _ s =>
    let (seen, s) := s.collideRead (fun i => .hbm (pa + i)) (s.viewBytes (s.hypPath h) pa n)
    let done (s : State) : State := match dest with
      | some d => s.commitResult u e.thread d (wordsOf ty.words (leNat seen))
      | none => s
    match (if dead then none else atomBytes op ty c.toNat x.toNat seen) with
    | none => (s.atomicStep u h va pa n none).bind fun _ s => .ok () (done s)
    | some new => s.commitChecked u h va pa new (op == .cas) e.thread done
  | .lr pa ty dest =>
    (s.readReserve u (e.thread.getD 0) h pa (accessSize ty)).bind fun bs s =>
      .ok () (s.commitResult u e.thread dest (wordsOf ty.words (leNat bs)))
  | .sc va pa data dest =>
    let tid := e.thread.getD 0
    if s.holdsResv u tid pa && !dead then
      s.commitChecked u h va pa data true e.thread (fun s => (s.dropResv u tid).writePred u tid dest true)
    else .ok () ((s.dropResv u tid).writePred u tid dest false)
  | .cload rank off ty uniform dest =>
    let n := accessSize ty
    match s.commitRank u rank off n with
    | none => .ok () (s.commitTrap u e.thread (rankTrap rank off n false))
    | some v => (s.readScr u v off n).bind fun bs s =>
        let ws := wordsOf (destTy ty).words (loaded ty bs)
        .ok () (if uniform then s.writeUnis u (groupOf (e.thread.getD 0)) dest ws else s.commitResult u e.thread dest ws)
  | .cstore rank off data =>
    match s.commitRank u rank off data.length with
    | none => .ok () (s.commitTrap u e.thread (rankTrap rank off data.length true))
    | some v => s.writeScr u v off data
  | .ccount rank off n fault =>
    match s.commitRank u rank off 16 with
    | none => .ok () s
    | some v => s.countBarrier (some u) true v off n fault
  | .engine _ va writes =>
    match writes with
    | [] => .ok () s
    | w :: _ =>
      if dead then .ok () s
      else (s.commitWrite u h w.1 (writes.map Prod.snd)).bind fun _ s => .ok () (s.markWrite u va writes.length)

/-- A team's commit step: its buffer's entries in order. -/
def commitEntries (s : State) (u : Nat) : List BufEntry → Res Unit
  | [] => .ok () s
  | e :: r => (s.commitEntry u e).bind fun _ s => s.commitEntries u r

/-- The commit steps of the teams, each emptying its buffer. -/
def commitAll (s : State) : List Nat → Res Unit
  | [] => .ok () s
  | u :: r => (s.commitEntries u (s.team u).body.buf).bind fun _ s => (s.updBody u (fun b => { b with buf := [] })).commitAll r

/-! ## Marks (R366) -/

/-- The marks a slice holds, of every launch. -/
def marksIn (s : State) (slice : Nat) : Nat :=
  (s.launches.map (fun e => (e.2.marks.filter (fun m => sliceOf m.1 == slice &&
    (match m.2 with | .claimed _ => false | .unplaced => false | _ => true))).length)).sum

/-- The %team of a claim's first team: the order in which marks are placed. -/
def claimOrder (s : State) (m : Mark) : Nat :=
  match m with
  | .claimed ts => ((ts.map (fun u => (s.team u).team)).foldl min 4294967296)
  | _ => 0

/-- One mark after the phase: claims become private or shared where the slice has room. -/
def settleMark (s : State) (l : Nat) (e : Nat × Mark) : State :=
  let set (m : Mark) : State := s.updLau l (fun x => { x with marks := SMap.set x.marks e.1 m })
  match e.2 with
  | .claimed ts =>
    if 16384 ≤ s.marksIn (sliceOf e.1) then set .unplaced
    else match ts with
      | [u] => set (.private_ u)
      | _ => set .shared
  | .contended _ => set .shared
  | _ => s

/-- The marks of a launch after the phase. -/
def settleMarks (s : State) (l : Nat) : State :=
  (sortBy (fun e => s.claimOrder e.2) (s.lau l).marks).foldl (fun s e => s.settleMark l e) s

/-! ## The phase (R368) -/

/-- Threads held for the phase go on (R368 step 6). -/
def releaseHeld (s : State) (u : Nat) : State :=
  let ws := s.waiting u (fun k => k == .serial || k == .dph)
  (ws.foldl (fun s tid => s.wake u tid) s).updBody u (fun b => { b with quantumWork := 0 })

/-- The phase's steps, its teams in ascending %team order. -/
def runPhase (s : State) (l : Nat) (teams : List Nat) : State :=
  match s.commitAll teams with
  | .wait _ tried => s.askCloses tried
  | .trap _ s => s
  | .ok _ s =>
    let s := s.updLau l (fun x => { x with phases := x.phases + 1 })
    let s := (s.count (s.lau l).vdev 0x0B 1).ephPhase l
    let s := teams.foldl (fun s u => s.checkCbars u true) s
    let s := s.settleMarks l
    let s := s.admitAll l ((s.lau l).teams + (s.lau l).spawned.length + (s.lau l).requeue.length + 1)
    let s := teams.foldl (fun s u => s.doClose u) s
    let s := teams.foldl (fun s u => s.releaseHeld u) s
    -- the new interval starts with the threads released
    let s := teams.foldl (fun s u => s.updTeam u (fun t => { t with snap := t.body })) s
    teams.foldl (fun s u => s.recheck u) s

end State

/-! ## The instruction and the events -/

/-- DPH (R369): outside a deterministic launch, no effect. -/
def execDph (h : Head) (s : State) : Ran :=
  .next (perThread (.dph h) (fun s u _ => (if (s.lau (s.team u).launch).det then .wait .dph else .go, s)) s)

/-- QUANTUM_EXPIRY (R367): a deterministic team has retired Q thread-instructions; no further selection is made for it until
the next serial phase, which its end may let begin. -/
def execQuantumExpiry (team : Nat) (s : State) : Ran :=
  let l := (s.team team).launch
  .next (if (s.lau l).det && decide ((s.lau l).quantum ≤ (s.team team).body.quantumWork) && s.phaseDue l then
    s.post (.serialPhase l) else s)

/-- SERIAL_PHASE (R368): once every team has ended its quantum. -/
def execSerialPhase (launch : Nat) (s : State) : Ran :=
  .next (if s.phaseDue launch then
    s.runPhase launch (sortBy (fun u => (s.team u).team) (s.launchTeams launch))
  else s)

end Sys2Proof.Machine
end

