-- ==== Sys2Proof/Machine/Invalidate.lean ====
section
/-! DEFINITION. Translations and code lines removed (R390 to R393): TLBI, CFLUSH, and a walk as an event of its own. -/

namespace Sys2Proof.Machine

namespace State

/-- Every cached translation of the package. -/
def allTlb (s : State) : List TlbEntry := s.cores.flatMap (fun e => e.2.tlb) ++ s.dies.flatMap (fun e => e.2.tlb)

/-- Removes the cached translations that meet a test from every TLB and translation cache. -/
def dropTlb (s : State) (p : TlbEntry → Bool) : State :=
  { s with cores := SMap.mapVal s.cores (fun _ (k : Core) => { k with tlb := k.tlb.filter (fun e => !p e) }),
           dies := SMap.mapVal s.dies (fun _ (k : Die) => { k with tlb := k.tlb.filter (fun e => !p e) }) }

/-- Whether a record in space G meets a range of virtual addresses. -/
def extentMeets (e : Extent) (base size : Nat) : Bool :=
  e.global && (List.range e.rows).any (fun i =>
    decide (e.base + i * e.stride < base + size) && decide (base < e.base + i * e.stride + e.rowBytes))

/-- The operations issued so far in a scope (R392). -/
def opsOf (s : State) (p : EngineOp → Bool) : List Nat := (s.ops.filter p).map EngineOp.uid

/-- TLBI's course (R392): the removal, then the wait for the operations of the scope. -/
def tlbiStep (s : State) (gone : TlbEntry → Bool) (scope : EngineOp → Bool) : Act × State :=
  let ops := s.opsOf scope
  let s := s.dropTlb gone
  (if ops.isEmpty then .go else .wait (.tlbi ops), s)

/-- The records in space G whose pages an operation translates (R392): those it reaches in memory, and the remote one of an NPUT
or NGET. -/
def xlateExtents (s : State) (o : EngineOp) : List Extent :=
  let far (k : NetBlk) : List Extent := [⟨true, 0, k.raddr, 0, 1, k.len, false⟩]
  s.opExtents o ++ (match o.kind with
    | .nput k => far k
    | .nget k => far k
    | _ => [])

/-- TLBI.page in one thread: at any page size, and at the smallest where no translation was held (R392). -/
def tlbiPageStep (s : State) (u va : Nat) : Act × State :=
  let t := s.team u
  let ident := identOf t.vdev t.ctx
  let hit (e : TlbEntry) : Bool := e.ident == ident && decide (e.vbase ≤ va ∧ va < e.vbase + e.size)
  let pages := (va / 65536 * 65536, 65536) :: (s.allTlb.filter hit).map (fun e => (e.vbase, e.size))
  s.tlbiStep hit (fun o => (s.team o.team).vdev == t.vdev && (s.team o.team).ctx == t.ctx &&
    (s.xlateExtents o).any (fun e => pages.any (fun p => extentMeets e p.1 p.2)))

/-- Where a context maps an address, by a cached translation or its tables (R390, R393). -/
def mapsTo (s : State) (core d c va : Nat) : Option Nat :=
  match tlbHit (s.cor core).tlb (identOf d c) va <|> tlbHit (s.die (core / Config.coresPerDie)).tlb (identOf d c) va with
  | some e => some (e.pbase + (va - e.vbase))
  | none => (s.deviceWalk d c va).map Prod.fst

/-- Removes a line from every instruction cache and fetch agent, under one context (R393): the present values of its words are then
the only ones that can be fetched (R59). -/
def dropCode (s : State) (ident line : Nat) : State :=
  { s with
    cores := SMap.mapVal s.cores (fun _ (k : Core) =>
      { k with icache := k.icache.filter (fun x => !(x.ident == ident && x.line == line)) })
    dies := SMap.mapVal s.dies (fun _ (d : Die) => { d with fetches := dropJoined (fun f e => f == line && e == ident) d.fetches })
    codeLog := s.codeLog.filter (fun e => e.word / 32 != line) }

/-- CFLUSH of a list of addresses, one in each line (R393): a recall may first wait for another team's close. -/
def flushLines (s : State) (u core d c : Nat) : List Nat → Res Unit
  | [] => .ok () s
  | va :: rest =>
    match s.mapsTo core d c va with
    | none => s.flushLines u core d c rest
    | some pa =>
      if !inHbm pa then s.flushLines u core d c rest
      else (s.reach (some u) (lineOf pa) false).bind fun _ s =>
        (s.dropCode (identOf d c) (lineOf pa)).flushLines u core d c rest

/-- CFLUSH's course in one thread (R393). -/
def cflushStep (s : State) (u va n : Nat) : Act × State :=
  let t := s.team u
  if 67108864 < n then (.trap { cause := .perm, va := BitVec.ofNat 64 va, vb := BitVec.ofNat 64 n }, s)
  else if n = 0 then (.go, s)
  else
    let first := va / 128
    let lines := (List.range ((va + n - 1) / 128 + 1 - first)).map (fun i => (first + i) * 128)
    actOf (s.flushLines u t.core t.vdev t.ctx lines)

end State

/-! ## The instructions and the event -/

/-- TLBI.page (R392). -/
def execTlbiPage (h : Head) (a : Src) (s : State) : Ran :=
  .next (perThread (.tlbiPage h a) (fun s u tid => s.tlbiPageStep u (s.readPair u tid 0 a)) s)

/-- TLBI.ctx (R392). -/
def execTlbiCtx (h : Head) (s : State) : Ran :=
  .next (perThread (.tlbiCtx h) (fun s u _ =>
    let t := s.team u
    s.tlbiStep (fun e => e.ident == identOf t.vdev t.ctx)
      (fun o => (s.team o.team).vdev == t.vdev && (s.team o.team).ctx == t.ctx)) s)

/-- TLBI.vdev (R392). -/
def execTlbiVdev (h : Head) (s : State) : Ran :=
  .next (perThread (.tlbiVdev h) (fun s u _ =>
    let t := s.team u
    s.tlbiStep (fun e => e.ident / 16 == t.vdev) (fun o => (s.team o.team).vdev == t.vdev)) s)

/-- CFLUSH (R393). -/
def execCflush (h : Head) (a b : Src) (s : State) : Ran :=
  .next (perThread (.cflush h a b) (fun s u tid => s.cflushStep u (s.readPair u tid 0 a) (s.readSrc u tid 1 b .n32)) s)

/-- TRANSLATION_WALK (R389, R390): a walk for an access of a context on a core; a success is cached, a fault is not. -/
def execTranslationWalk (core vdev ctx : Nat) (va : Addr) (kind : XKind) (supervisor : Bool) (s : State) : Ran :=
  .next (if core < Config.cores && vdev < Config.vdevs && ctx < Config.ctxs then
    match s.translate none core vdev ctx va.toNat kind supervisor with
    | .ok _ s => s
    | .wait _ s => s
    | .trap _ s => s
  else s)

end Sys2Proof.Machine
end

