-- ==== Sys2Proof/Machine/Outside.lean ====
section
/-! DEFINITION. Accesses from outside the device (R319, R410, R416, R424): reads and writes of a context's memory by granules,
landings' writes of scratchpad, and inputs that wait for the close of an interval (R259). -/

namespace Sys2Proof.Machine

/-- Bytes from an address up, cut at the aligned 8-byte granules (R319). -/
def granuleChunks (a : Nat) : List Byte → List (Nat × List Byte)
  | [] => []
  | b :: bs =>
    match granuleChunks (a + 1) bs with
    | [] => [(a, [b])]
    | (q, c) :: r => if (a + 1) % 8 = 0 then (a, [b]) :: (q, c) :: r else (a, b :: c) :: r

namespace State

/-- An input done as a whole, or put off while an interval must close for it (R259). -/
def whole (s : State) (i : Instr) (r : Res Unit) : State :=
  match r with
  | .ok _ s => s
  | .wait _ tried => (s.askCloses tried).defer i
  | .trap _ _ => s

/-- The physical address that an outside access reaches in a context (R389, R410): no privilege, HBM alone. -/
def outsideAddr (s : State) (d c va : Nat) (k : XKind) : Option Nat :=
  match s.deviceWalk d c va with
  | some (_, e) => (match finish e va k false with
      | .ok pa => if inHbm pa then some pa else none
      | .error _ => none)
  | none => none

/-- The physical address of a page that a host command reaches: mapped to HBM, its permissions unchecked (R424). -/
def hostAddr (s : State) (d c va : Nat) : Option Nat :=
  match s.deviceWalk d c va with
  | some (pa, _) => if inHbm pa then some pa else none
  | none => none

/-- The page bases that a range of virtual addresses meets. -/
def pageBases (va n : Nat) : List Nat :=
  if n = 0 then []
  else (List.range ((va + n - 1) / 65536 + 1 - va / 65536)).map (fun i => (va / 65536 + i) * 65536)

/-- Whether every page of a range is reached. -/
def rangeMapped (at_ : Nat → Option Nat) (va n : Nat) : Bool := (pageBases va n).all (fun p => (at_ p).isSome)

/-- Writes granules of a context as outside writes (R319). -/
def outsideSteps (s : State) (d c : Nat) (at_ : Nat → Option Nat) : List (Nat × List Byte) → Res Unit
  | [] => .ok () s
  | e :: r =>
    match at_ e.1 with
    | none => s.outsideSteps d c at_ r
    | some pa => (s.homeWrite none none d c pa e.2).bind fun _ s => s.outsideSteps d c at_ r

/-- A mapped range written from outside, its readers marked (R319, R338). -/
def outsidePut (s : State) (d c : Nat) (at_ : Nat → Option Nat) (va : Nat) (data : List Byte) : Res Unit :=
  (s.outsideSteps d c at_ (granuleChunks va data)).bind fun _ s => .ok () (s.outsideWrite d c va data.length)

/-- An outside read of a line as a read step of R292: at the outside's time or the line's, whichever is later; later writes come after
it. -/
def outsideRead (s : State) (line : Nat) : State :=
  match SMap.find s.lines line with
  | some h =>
    let p := serialMax s.outStamp h.wts
    { s with outStamp := p, lines := SMap.set s.lines line { h with rts := serialMax h.rts p } }
  | none =>
    let p := serialMax s.outStamp (s.estOf (sliceOf line))
    { s with outStamp := p }.raiseEst (sliceOf line) p

/-- Reads spans of a context as outside reads (R319): each at its home, without a lease; a byte that a collision has left
unspecified reads as anything (R315). -/
def outsideGet (s : State) (at_ : Nat → Option Nat) : List (Nat × Nat) → Res (List Byte)
  | [] => .ok [] s
  | e :: r =>
    match at_ e.1 with
    | none => s.outsideGet at_ r
    | some pa =>
      (s.reach none (lineOf pa) true).bind fun _ s =>
        let (bs, s) := s.engineSees (fun i => .hbm (pa + i)) (s.rootBytes pa e.2)
        let s := s.outsideRead (lineOf pa)
        (s.outsideGet at_ r).bind fun rest s => .ok (bs ++ rest) s

/-! ## Scratchpad from outside -/

/-- The rows that some scratchpad bytes meet. -/
def rowsOf (off n : Nat) : List Nat :=
  if n = 0 then [] else (List.range ((off + n - 1) / 2048 + 1 - off / 2048)).map (fun i => off / 2048 + i)

/-- The escape rule for rows of a team's scratchpad, for an agent outside it (R259). -/
def escapeRows (s : State) (target : Nat) : List Nat → Res Unit
  | [] => .ok () s
  | row :: rest =>
    let (ok, s) := s.escape none (LogItem.isScratch target row)
    if ok then s.escapeRows target rest else .wait .home s

/-- A write of a team's scratchpad from outside, outside any log. -/
def outsideScr (s : State) (target off : Nat) (data : List Byte) : Res Unit :=
  (s.escapeRows target (rowsOf off data.length)).bind fun _ s =>
    .ok () (s.updTeam target (fun t => { t with scratch := Mem.write t.scratch off data }))

end State

end Sys2Proof.Machine
end

