-- ==== Sys2Proof/Machine/Network.lean ====
section
/-! DEFINITION. The network (R408 to R418): NPUT, NGET and NSEND with their blocks and checks, what leaves the device, how an
operation ends, exposed windows, and landings. -/

namespace Sys2Proof.Machine

/-- The three operations (R411). -/
inductive NetOp where
  | put | get | send
deriving DecidableEq, Repr

/-- KIND of a block (R412). -/
def NetOp.kind : NetOp → Nat
  | .put => 5
  | .get => 6
  | .send => 7

/-- A network block's fields (R412). -/
def parseNet (b : List Byte) : NetBlk :=
  { local_ := blockSpace (leAt b 1 1), ord := leAt b 2 1 == 1, len := leAt b 4 4, lbase := leAt b 8 8, raddr := leAt b 16 8,
    tag := BitVec.ofNat 32 (leAt b 24 4), moff := leAt b 28 4 }

/-- The field checks of R412, in offset order. -/
def netFields (op : NetOp) (b : List Byte) (k : NetBlk) : List (Nat × Bool) :=
  [ (0, leAt b 0 1 == op.kind), (1, decide (leAt b 1 1 ≤ 1)), (2, decide (leAt b 2 1 ≤ 1)), (3, leAt b 3 1 == 0)
  , (4, decide (1 ≤ k.len ∧ k.len ≤ 16777216)), (16, op != .send || bitsOf k.raddr 28 36 == 0)
  , (24, op == .send || leAt b 24 4 == 0), (28, op == .send || k.moff == 0) ]

/-- The peer and receive context of an NSEND's RADDR (R412). -/
def NetBlk.peer (k : NetBlk) : Nat := bitsOf k.raddr 0 12
def NetBlk.rctx (k : NetBlk) : Nat := bitsOf k.raddr 12 16

/-- What an operation's kind holds. -/
def EngineOp.net (o : EngineOp) : Option (NetOp × NetBlk) :=
  match o.kind with
  | .nput b => some (.put, b)
  | .nget b => some (.get, b)
  | .nsend b => some (.send, b)
  | _ => none

/-- The kind of an operation in the queue. -/
def NetOp.opKind (op : NetOp) (b : NetBlk) : OpKind :=
  match op with
  | .put => .nput b
  | .get => .nget b
  | .send => .nsend b

/-- The spans of a range cut at pages. -/
def pageSpans (va n : Nat) : List (Nat × Nat) :=
  (State.pageBases va n).map (fun p => (max p va, min (p + 65536) (va + n) - max p va))

namespace State

/-- The remote pages of an extent (R413 step 6): each as offset within the extent, length and physical address. -/
def remotePages (s : State) (u core : Nat) (k : XKind) (sup : Bool) (base : Nat) :
    List (Nat × Nat) → Res (Except Cause (List (Nat × Nat × Nat)))
  | [] => .ok (.ok []) s
  | e :: r =>
    let t := s.team u
    (s.translate (some u) core t.vdev t.ctx e.1 k sup).bind fun x s =>
    match x with
    | .error c => .ok (.error c) s
    | .ok pa => (s.remotePages u core k sup base r).bind fun y s => .ok (y.map (fun rest => (e.1 - base, e.2, pa) :: rest)) s

/-- The peer of a remote physical address, and its window byte (R409). -/
def peerOf (pa : Nat) : Nat := bitsOf pa 32 12
def windowByte (pa : Nat) : Nat := bitsOf pa 0 32

/-- Whether an extent's pages lie within one peer's window (R412). -/
def oneWindow (ps : List (Nat × Nat × Nat)) : Bool :=
  match ps with
  | [] => true
  | p :: r => r.all (fun q => peerOf q.2.2 == peerOf p.2.2)

/-- The local extent's check (R413 step 5). -/
def netLocalTrap (s : State) (u : Nat) (op : NetOp) (k : NetBlk) : Option TrapInfo :=
  let wr := op == .get
  match k.local_ with
  | .g => if 9007199254740992 < k.lbase + k.len then some (accTrap .xlate .g wr k.lbase k.len) else none
  | _ => if s.scratchSize u < k.lbase + k.len then some (accTrap .scratchBounds .l wr k.lbase k.len) else none

/-- The remote check (R413 step 6): the pages, or the trap. -/
def netRemote (s : State) (u tid : Nat) (op : NetOp) (k : NetBlk) (pc : Addr) : Res (Option TrapInfo) :=
  let t := s.team u
  match op with
  | .send =>
    if (SMap.find (s.vd t.vdev).peers k.peer).isSome then .ok none s
    else .ok (some { cause := .perm, va := BitVec.ofNat 64 k.peer, vb := pc }) s
  | _ =>
    let kind : XKind := if op == .put then .remoteWrite else .remoteRead
    (s.remotePages u t.core kind ((s.thr u tid).priv == .supervisor) k.raddr (pageSpans k.raddr k.len)).bind fun r s =>
    match r with
    | .error c => .ok (some (accTrap c .g (op == .put) k.raddr k.len)) s
    | .ok ps => .ok (if oneWindow ps then none else some (accTrap .perm .g (op == .put) k.raddr k.len)) s

/-- An operation ends (R414, R225): acknowledged, or with a fault. -/
def netEnd (s : State) (uid : Nat) (f : Option FaultRec) : State :=
  (s.updOp uid (fun o => { o with acked := true })).finishOp uid f

/-- The fault of a negative or missing acknowledgement (R414). -/
def netFault (o : EngineOp) (op : NetOp) (k : NetBlk) : FaultRec :=
  faultRec o (if op == .send then k.peer else k.raddr) .g (op != .get)

/-- What an operation sends once its local bytes are read (R414): frames by page for a window, one message for NSEND. -/
def netFrames (s : State) (o : EngineOp) (op : NetOp) (k : NetBlk) (ps : List (Nat × Nat × Nat)) (bytes : List Byte) : State :=
  match op with
  | .put => ps.foldl (fun s p => s.send (.nput o.uid (peerOf p.2.2) (windowByte p.2.2) ((bytes.drop p.1).take p.2.1))) s
  | .get => ps.foldl (fun s p => s.send (.nget o.uid (peerOf p.2.2) (windowByte p.2.2) p.2.1)) s
  | .send => s.send (.nsend o.uid k.peer k.rctx k.tag k.moff bytes)

/-- An operation's local bytes read, for a put or a message. -/
def netLocal (s : State) (o : EngineOp) (op : NetOp) (k : NetBlk) : Res (Except FaultRec (List Byte)) :=
  if op == .get then .ok (.ok []) s else s.engineRead o k.local_ (lineSpans k.lbase k.len)

/-- What a transfer needs: the remote pages as they translate now and the local bytes, or the fault (R413, R414). -/
def netPrepare (s : State) (o : EngineOp) (op : NetOp) (k : NetBlk) :
    Res (Except FaultRec (List (Nat × Nat × Nat) × List Byte)) :=
  let kind : XKind := if op == .put then .remoteWrite else .remoteRead
  (s.netLocal o op k).bind fun r s =>
  match r with
  | .error f => .ok (.error f) s
  | .ok bytes =>
    if op == .send then .ok (.ok ([], bytes)) s
    else (s.remotePages o.team o.core kind o.sup k.raddr (pageSpans k.raddr k.len)).bind fun p s =>
      match p with
      | .error _ => .ok (.error (netFault o op k)) s
      | .ok ps => .ok (.ok (ps, bytes)) s

/-- The port that an operation's frames leave by (R409), where its peer has one. -/
def netPort (s : State) (o : EngineOp) (op : NetOp) (k : NetBlk) (ps : List (Nat × Nat × Nat)) : Option Nat :=
  let peer := if op == .send then some k.peer else ps.head?.map (fun p => peerOf p.2.2)
  peer.bind (fun n => (SMap.find (s.vd (s.team o.team).vdev).peers n).map Peer.port)

/-- Whether a port is up (R396, R399, R408): it passed its test, and the configuration record and the owner leave it enabled; in the
safe, talkative state, the lowest-numbered such port alone. DEDUCED (notes/assumptions/94.md). -/
def portUp (s : State) (p : Nat) : Bool :=
  let open_ (q : Nat) : Bool := s.henip.passed.getLsbD q && s.henip.portMask.getLsbD q &&
    ((SMap.find s.endpoint.ports q).map Port.enable).getD true
  open_ p && (s.henip.power == .up || (List.range p).all (fun q => !open_ q))

/-- Whether any port is up. -/
def anyPortUp (s : State) : Bool := (List.range 8).any s.portUp

/-- Whether frames of a peer reach a virtual device: by the port its peer table gives it, or by any. -/
def hears (s : State) (d peer : Nat) : Bool :=
  match SMap.find (s.vd d).peers peer with
  | some p => s.portUp p.port
  | none => s.anyPortUp

/-- The other virtual devices with operations that wait to be sent (R383). -/
def netRivals (s : State) (o : EngineOp) (a : Arbiter) : List (Nat × Bool) :=
  let d := (s.team o.team).vdev
  (s.ops.filter (fun x => x.net.isSome && !x.started && !x.complete && (s.team x.team).vdev != d &&
    s.affords a (s.team x.team).vdev 1)).map (fun x => ((s.team x.team).vdev, s.ownPays a (s.team x.team).vdev 1))

/-- Tokens drawn at a port towards the frames of an operation (R382, R408): whether they are paid. DESIGN CHOICE
(notes/assumptions/22.md): the bytes of its frames are those of its payload, and a request for a remote read has none. -/
def payNet (s : State) (o : EngineOp) (port n : Nat) : Bool × State :=
  let d := (s.team o.team).vdev
  let a : Arbiter := .network port
  let need := n - o.paid
  let own := min need ((s.bucket a d).tokens / 65536)
  let lent := if (s.vd d).borrow && s.poolTurnOf a d (s.netRivals o a) then min (need - own) (s.pool a / 65536) else 0
  let s := (s.spendOwn a d own).spendPool a lent
  let s := if lent = 0 then s else { s with poolTurns := SMap.set s.poolTurns a.number d }
  (need == own + lent, s.updOp o.uid (fun x => { x with paid := x.paid + own + lent }))

/-- The transfer of an operation that has not started (R414): its local bytes read and, once its frames are paid for, sent; a read
that must wait leaves it to a later turn. -/
def netStart (s : State) (uid : Nat) : State :=
  match s.op? uid with
  | none => s
  | some o =>
    match o.net with
    | none => s
    | some (op, k) =>
      if o.started || o.complete || (s.vd (s.team o.team).vdev).resetting.isSome then s
      else
        match s.netPrepare o op k with
        | .wait _ tried => s.askCloses tried
        | .trap _ s => s
        | .ok r ready =>
          match r with
          | .error f => ready.netEnd uid (some f)
          | .ok (ps, bytes) =>
            let paid := match s.netPort o op k ps with
              | some port => s.payNet o port bytes.length
              | none => (true, s)
            if paid.1 then
              let s := match ready.netPort o op k ps with
                | some port => (ready.payNet o port bytes.length).2
                | none => ready
              let s := s.updOp uid (fun o => { o with started := true, issuedAt := s.cyc })
              -- what is sent to a port that is down goes nowhere
              if (ready.netPort o op k ps).any (fun p => !s.portUp p) then s else s.netFrames o op k ps bytes
            else paid.2

/-- The course of NPUT, NGET and NSEND in one thread (R413). -/
def netIssue (s : State) (u tid : Nat) (op : NetOp) (off : Nat) : Act × State :=
  let pc := (s.thr u tid).pc
  if op != .get && (s.thr u tid).hyp != 0 then (.trap (ownTrap .perm pc), s)
  else
    match s.readBlock u off 32 with
    | .wait k s => (.retry k, s)
    | .trap x s => (.trap x, s)
    | .ok b s =>
      let k := parseNet b
      match firstBad (netFields op b k) with
      | some f => (.trap (fieldTrap pc off f), s)
      | none =>
        match s.netLocalTrap u op k with
        | some x => (.trap x, s)
        | none =>
          match s.netRemote u tid op k pc with
          | .wait w s => (.retry w, s)
          | .trap x s => (.trap x, s)
          | .ok (some x) s => (.trap x, s)
          | .ok none s =>
            if !s.hasRoom u tid .net then (.retry (.room (.engine .net)), s)
            else
              -- an NGET's local destination is written (R330)
              let rows := if op == .get then s.recordRows u k.local_ k.lbase 0 1 else []
              match s.checkRows u true k.len rows with
              | .wait w s => (.retry w, s)
              | .trap x s => (.trap x, s)
              | .ok _ s =>
                let r := (s.noteRows u (s.thr u tid).hyp true k.len rows).enqueue u tid .net (op.opKind k) off 0 0
                (.go, r.2.netStart r.1)

/-- An NGET's data written to its local extent (R414). -/
def ngetLand (s : State) (o : EngineOp) (k : NetBlk) (data : List Byte) : Res (Except FaultRec (List BufEntry)) :=
  s.engineWrite o k.local_ (lineChunks k.lbase data)

/-! ## Landings (R415 to R418) -/

/-- The team a landing is bound to, where it is resident and not being saved. -/
def landingTeam (s : State) (x : Landing) : Option Nat :=
  ((s.teams.filter (fun e => (e.2.phase == .running || e.2.phase == .draining || e.2.phase == .stopped) &&
    e.2.task == x.task && (s.lau e.2.launch).id == x.launchId && !(s.lau e.2.launch).complete)).map Prod.fst).head?

/-- The landing of a receive context and tag. -/
def landingOf (s : State) (rctx : Nat) (tag : Word) : Option Landing :=
  (s.endpoint.landings.find? (fun e => e.2.rctx == rctx && e.2.tag == tag)).map Prod.snd

/-- BFLAGS.NET set or cleared in a barrier (R415). -/
def setNet (s : State) (target off : Nat) (on : Bool) : Res Unit :=
  let f := leNat (Mem.read (s.team target).scratch (off + 12) 4)
  let f := if on then f ||| 4 else if f.testBit 2 then f - 4 else f
  s.outsideScr target (off + 12) (toBytes 4 f)

/-- A message delivered to a landing: its bytes, then the countdown (R416, R418). -/
def landingWrite (s : State) (target : Nat) (x : Landing) (moff : Nat) (data : List Byte) : Res Unit :=
  (s.escapeRows target (rowsOf (x.roff + moff) data.length ++ rowsOf x.boff 16)).bind fun _ s =>
  (s.outsideScr target (x.roff + moff) data).bind fun _ s => s.countBarrier none false target x.boff data.length false

/-- The exposed window of an inbound operation, where the access lies in it (R410). -/
def windowFor (s : State) (d peer window offset n : Nat) (wr : Bool) : Option Window :=
  match SMap.find (s.vd d).windows window with
  | none => none
  | some w => if w.peer = peer && decide (offset + n ≤ w.len) && (if wr then w.wr else w.rd) then some w else none

end State

/-! ## The instructions -/

/-- NPUT (R413, R414), irrevocable (R260). -/
def execNput (h : Head) (a : Src) (s : State) : Ran :=
  .next (perThreadIrrevocable (.nput h a) (fun s u tid => s.netIssue u tid .put (s.readSrc u tid 0 a .n32)) s)

/-- NGET (R413, R414). -/
def execNget (h : Head) (a : Src) (s : State) : Ran :=
  .next (perThread (.nget h a) (fun s u tid => s.netIssue u tid .get (s.readSrc u tid 0 a .n32)) s)

/-- NSEND (R413, R414), irrevocable (R260). -/
def execNsend (h : Head) (a : Src) (s : State) : Ran :=
  .next (perThreadIrrevocable (.nsend h a) (fun s u tid => s.netIssue u tid .send (s.readSrc u tid 0 a .n32)) s)

/-! ## The events -/

/-- NETWORK_ACKNOWLEDGEMENT (R414): the target acknowledges an NPUT or NSEND; a negative answer faults any of the three. -/
def execNetworkAcknowledgement (op : Nat) (negative : Bool) (s : State) : Ran :=
  match s.op? op with
  | none => .next s
  | some o =>
    match o.net with
    | none => .next s
    | some (k, b) =>
      .next (if !o.started || o.complete || !s.anyPortUp then s
        else if negative then s.netEnd op (some (State.netFault o k b))
        else if k == .get then s
        else s.netEnd op none)

/-- TRANSPORT_TIMEOUT (R414): no acknowledgement in the virtual device's transport timeout. -/
def execTransportTimeout (op : Nat) (s : State) : Ran :=
  match s.op? op with
  | none => .next s
  | some o =>
    match o.net with
    | none => .next s
    | some (k, b) =>
      let limit := o.issuedAt + (s.vd (s.team o.team).vdev).timeoutUs * Config.cyclesPerUs
      .next (if o.started && !o.complete && decide (limit ≤ s.cyc) then s.netEnd op (some (State.netFault o k b)) else s)

/-- NGET_RESPONSE (R414): the remote bytes arrive and are written to the local extent. -/
def execNgetResponse (op : Nat) (data : List Byte) (s : State) : Ran :=
  match s.op? op with
  | none => .next s
  | some o =>
    match o.net with
    | some (.get, b) =>
      if !o.started || o.complete || data.length != b.len || !s.anyPortUp then .next s
      else
        match s.ngetLand o b data with
        | .wait _ tried => .next ((s.askCloses tried).defer (.ngetResponse op data))
        | .trap _ s => .next s
        | .ok r s =>
          match r with
          | .error f => .next (s.netEnd op (some f))
          | .ok hs => .next ((s.updOp op (fun o => { o with held := o.held ++ hs })).netEnd op none)
    | _ => .next s

/-- INBOUND_NPUT (R410): outside writes through an exposed window, or a refusal that writes nothing. -/
def execInboundNput (vdev peer window offset : Nat) (data : List Byte) (s : State) : Ran :=
  if !s.hears vdev peer then .next s
  else match s.windowFor vdev peer window offset data.length true with
  | none => .next (s.send (.ack false))
  | some w =>
    let at_ := fun va => s.outsideAddr vdev w.ctx va .write
    if !State.rangeMapped at_ (w.base + offset) data.length then .next (s.send (.ack false))
    else .next (s.whole (.inboundNput vdev peer window offset data)
      ((s.outsidePut vdev w.ctx at_ (w.base + offset) data).bind fun _ s => .ok () (s.send (.ack true))))

/-- INBOUND_NGET (R410): outside reads through an exposed window, or a refusal. -/
def execInboundNget (vdev peer window offset len : Nat) (s : State) : Ran :=
  if !s.hears vdev peer then .next s
  else match s.windowFor vdev peer window offset len false with
  | none => .next (s.send (.ack false))
  | some w =>
    let at_ := fun va => s.outsideAddr vdev w.ctx va .readOther
    if !State.rangeMapped at_ (w.base + offset) len then .next (s.send (.ack false))
    else .next (s.whole (.inboundNget vdev peer window offset len)
      ((s.outsideGet at_ (lineSpans (w.base + offset) len)).bind fun bs s => .ok () (s.send (.data bs))))

/-- LANDING_MESSAGE (R416 to R418): a message matched by a landing whose team is resident is written, counted down and
acknowledged; one that matches none or does not fit is refused; while the landing is suspended nothing is answered. -/
def execLandingMessage (rctx : Nat) (tag : Word) (moff : Nat) (data : List Byte) (s : State) : Ran :=
  if !s.anyPortUp then .next s
  else match s.landingOf rctx tag with
  | none => .next (s.send (.ack false))
  | some x =>
    match s.landingTeam x with
    | none => .next s
    | some u =>
      if x.rlen < moff + data.length then .next (s.send (.ack false))
      else .next (s.whole (.landingMessage rctx tag moff data)
        ((s.landingWrite u x moff data).bind fun _ s => .ok () (s.send (.ack true))))

end Sys2Proof.Machine
end

