-- ==== Sys2Proof/Machine/Homes.lean ====
section
/-! DEFINITION. The homes' and caches' own events (R292 to R306, R326): requests that a core makes of a home, recalls and
merges, L1 evictions, the stamps' advance and sweep, retention sleep, and tag parity errors. A request that an open interval
must first close for is put off (R259). -/

namespace Sys2Proof.Machine

namespace State

/-- A request that names a core, a context and a byte of HBM that exist. -/
def requestOk (core d c pa : Nat) : Bool :=
  decide (core < Config.cores ∧ d < Config.vdevs ∧ c < Config.ctxs) && inHbm pa

/-- Whether a core holds a line under an identifier so that it may write it (R290). -/
def holdsLine (s : State) (core d c line : Nat) : Bool :=
  match SMap.find (s.cor core).l1 line with
  | some x => x.kind != .leased && x.ident == identOf d c
  | none => false

/-- A read at a home by a core (R292): data and a lease; the core keeps the leased copy. -/
def readEvent (s : State) (core d c pa lease : Nat) : Res Unit :=
  if s.holdsLine core d c (lineOf pa) then .ok () s
  else (s.homeRead none core d c pa lease).bind fun r s =>
    .ok () ((s.rouse (.l1 core)).fillL1 core (lineOf pa) ⟨identOf d c, .leased, r.1, r.2, lineBytes s.mem (lineOf pa), 0, 0⟩)

/-- A renewal by a core whose copy has expired (R292): no data while the line has not been written, else a read. -/
def renewEvent (s : State) (core d c pa lease : Nat) : Res Unit :=
  match SMap.find (s.cor core).l1 (lineOf pa) with
  | none => .ok () s
  | some x =>
    if x.kind != .leased || x.ident != identOf d c || !serialLess x.rts (s.pts core) then .ok () s
    else
      let same := match SMap.find s.lines (lineOf pa) with | some h => h.wts == x.wts && h.holders.isEmpty | none => false
      s.readEvent core d c pa lease |>.bind fun _ s => .ok () (if same then s.count d 0x0E 1 else s)

/-- A write request of a core (R296): ownership, a privatised copy, or none where the write must be performed at the home. A
core that owns the line asks for nothing. -/
def ownEvent (s : State) (core d c pa size : Nat) : Res Unit :=
  let owned := match SMap.find (s.cor core).l1 (lineOf pa) with
    | some x => x.kind == .owned && x.ident == identOf d c
    | none => false
  if owned || size = 0 || decide (128 < pa % 128 + size) then .ok () s
  else (s.requestWrite 0 core d c pa size).bind fun _ s => .ok () s

/-- A write through the home by a core (R292). -/
def writeEvent (s : State) (core d c pa : Nat) (data : List Byte) : Res Unit :=
  if data.isEmpty || decide (128 < pa % 128 + data.length) then .ok () s
  else s.homeWrite none (some core) d c pa data

/-- An ATOM at the home for a core (R301). -/
def atomicEvent (s : State) (core d c pa : Nat) (op : AtomOp) (ty : Ty) (operand expected : BitVec 128) : Res Unit :=
  let n := accessSize ty
  if !Form.atomTy op ty || pa % n != 0 then .ok () s
  else (s.reach none (lineOf pa) false).bind fun _ s =>
    match atomBytes op ty operand.toNat expected.toNat (Mem.read s.mem pa n) with
    | none => (s.homeRead none core d c pa 0).bind fun _ s => .ok () s
    | some new =>
      let p := s.pts core
      (s.homeWrite none (some core) d c pa new).bind fun _ s => .ok () (s.setPts core (serialMax p (s.pts core)))

/-! ## Stamps (R302, R303, R326) -/

/-- The cores of the package. -/
def coreList : List Nat := List.range Config.cores

/-- The stamp base: the greatest program stamp (R302). -/
def stampBase (s : State) : Stamp := coreList.foldl (fun b c => serialMax b (s.pts c)) (s.pts 0)

/-- More than 2^30 behind a base. -/
def farBehind (b x : Stamp) : Bool := serialLess x b && decide (1073741824 < (b - x).toNat)

/-- A stamp raised by a sweep (R302). -/
def swept (b x : Stamp) : Stamp := if farBehind b x then b - 1073741824 else x

/-- What a sleeping cache of a die would drop on waking, dropped when the epoch passes (R305): its leased copies and its
translations. -/
def dropStale (s : State) (cache : CacheId) : State :=
  match cache with
  | .l1 c => s.updCore c (fun k => { k with l1 := k.l1.filter (fun e => e.2.kind != .leased) })
  | .l1tlb c => s.updCore c (fun k => { k with tlb := [] })
  | .dieTlb d => s.updDie d (fun x => { x with tlb := [] })
  | _ => s

/-- The die a cache lies on. -/
def cacheDie : CacheId → Nat
  | .l1 c | .icache c | .l1tlb c => c / Config.coresPerDie
  | .slice d _ => d
  | .dieTlb d => d

/-- Whether a cache exists. -/
def cacheExists : CacheId → Bool
  | .l1 c | .icache c | .l1tlb c => decide (c < Config.cores)
  | .slice d i => decide (d < Config.dies ∧ i < Config.slicesPerDie)
  | .dieTlb d => decide (d < Config.dies)

/-- A die's sweep with a base (R302). -/
def sweepDie (s : State) (d : Nat) (b : Stamp) : State :=
  let cores := (List.range Config.coresPerDie).map (fun i => Config.coresPerDie * d + i)
  let s := cores.foldl (fun s c => s.updCore c (fun k =>
    { k with pts := swept b k.pts, l1 := k.l1.filter (fun e => e.2.kind != .leased || !farBehind b e.2.rts) })) s
  let lines := SMap.mapVal s.lines (fun line h =>
    if (homeOf (line * 128)).1 = d then { h with wts := swept b h.wts, rts := swept b h.rts } else h)
  let est := (List.range Config.slicesPerDie).foldl (fun m i =>
    let n := Config.slicesPerDie * d + i
    SMap.set m n (swept b (s.estOf n))) s.est
  let versions := SMap.mapVal s.verStamp (fun line x => if (homeOf (line * 128)).1 = d then swept b x else x)
  let launches := SMap.mapVal s.launches (fun _ (l : Launch) => { l with stamp := swept b l.stamp })
  let s := { s with lines := lines, est := est, outStamp := swept b s.outStamp, verStamp := versions, launches := launches }
  let s := s.updDie d (fun x => { x with epoch := x.epoch + 1 })
  (s.sleeping.filter (fun e => cacheDie e.1 == d)).foldl (fun s e => s.dropStale e.1) s

/-- Whether a base has passed a multiple of 2^30 since a copy was taken (R302). -/
def crossed (old new : Stamp) : Bool := old.toNat / 1073741824 != new.toNat / 1073741824

/-! ## Tag parity (R306) -/

/-- The virtual devices that an error in a way of a slice resets (R306): the one whose quota includes it, its lender where it is
lent, and those that borrow it, which hold a line there. -/
def wayUsers (s : State) (slice way : Nat) : List Nat :=
  (List.range Config.vdevs).filter (fun d => (s.ownWays d slice).contains way ||
    s.lines.any (fun e => sliceOf e.1 == slice && e.2.way == way && e.2.ident / 16 == d))

/-- Starts the function-level reset of some virtual devices. -/
def startResets (s : State) (ds : List Nat) : State := ds.foldl (fun s d => s.post (.functionLevelReset d)) s

/-- Free bytes for a line that its home had written and HBM not. -/
def freeLine (s : State) (line : Nat) : State :=
  { s.draw with mem := Mem.write s.mem (128 * line) ((List.range 128).map (fun i => Config.freeByte (s.draws * 65536 + i))) }

/-- An entry of a slice lost: way `entry % 20` of set `entry / 20` (R306). -/
def sliceParity (s : State) (slice entry : Nat) : State :=
  let way := entry % Config.waysPerSlice
  let set := entry / Config.waysPerSlice
  let hit := s.wayUsers slice way
  let s := s.countError 4 false
  let s := { s with vlines := s.vlines.filter (fun v => !(sliceOf v.line == slice && v.way == way && setOfLine v.line == set)) }
  let s := match s.lineInWay slice set way with
    | none => s
    | some line =>
      let s := { s with resv := s.resv.filter (fun r => r.granule / 16 != line) }
      let s := if (SMap.find s.lines line).any HomeLine.dirty then s.freeLine line else s
      { s with lines := SMap.erase s.lines line }
  s.startResets hit

/-- An entry of an L1 lost (R306). -/
def l1Parity (s : State) (core entry : Nat) : State :=
  let s := s.countError 3 false
  match (s.cor core).l1[entry]? with
  | none => s
  | some (line, x) =>
    let s := s.dropL1 core line
    if x.kind == .leased then s
    else
      let s := match SMap.find s.lines line with
        | some h => { s with lines := SMap.set s.lines line { h with holders := h.holders.filter (fun c => c != core) } }
        | none => s
      s.startResets ((s.coreTeams core).foldl (fun ds u => insertNat (s.team u).vdev ds) [])

end State

/-! ## The events -/

/-- HOME_READ (R292). -/
def execHomeRead (core vdev ctx pa lease : Nat) (s : State) : Ran :=
  .next (if State.requestOk core vdev ctx pa then
    s.whole (.homeRead core vdev ctx pa lease) (s.readEvent core vdev ctx pa lease) else s)

/-- HOME_RENEWAL (R292). -/
def execHomeRenewal (core vdev ctx pa lease : Nat) (s : State) : Ran :=
  .next (if State.requestOk core vdev ctx pa then
    s.whole (.homeRenewal core vdev ctx pa lease) (s.renewEvent core vdev ctx pa lease) else s)

/-- HOME_OWNERSHIP (R296). -/
def execHomeOwnership (core vdev ctx pa size : Nat) (s : State) : Ran :=
  .next (if State.requestOk core vdev ctx pa then
    s.whole (.homeOwnership core vdev ctx pa size) (s.ownEvent core vdev ctx pa size) else s)

/-- HOME_WRITE_THROUGH (R292). -/
def execHomeWriteThrough (core vdev ctx pa : Nat) (data : List Byte) (s : State) : Ran :=
  .next (if State.requestOk core vdev ctx pa then
    s.whole (.homeWriteThrough core vdev ctx pa data) (s.writeEvent core vdev ctx pa data) else s)

/-- HOME_ATOMIC (R301). -/
def execHomeAtomic (core vdev ctx pa : Nat) (op : AtomOp) (ty : Ty) (operand expected : BitVec 128) (s : State) : Ran :=
  .next (if State.requestOk core vdev ctx pa then
    s.whole (.homeAtomic core vdev ctx pa op ty operand expected) (s.atomicEvent core vdev ctx pa op ty operand expected) else s)

/-- RECALL (R295): the home recalls a line that one core owns. -/
def execRecall (pa : Nat) (forRead : Bool) (s : State) : Ran :=
  .next (if (s.holders (lineOf pa)).length = 1 then
    s.whole (.recall pa forRead) (s.reach none (lineOf pa) forRead) else s)

/-- MERGE (R297): every privatised copy of a line is recalled. -/
def execMerge (pa : Nat) (s : State) : Ran :=
  .next (if (s.holders (lineOf pa)).isEmpty then s else s.whole (.merge pa) (s.reach none (lineOf pa) false))

/-- L1_EVICTION (R294, R297): that of a privatised copy is a merge, which the intervals that wrote the line close for. -/
def execL1Eviction (core pa : Nat) (s : State) : Ran :=
  let shared : Bool := match SMap.find (s.cor core).l1 (lineOf pa) with | some x => x.kind == .privatised | none => false
  .next (if shared then s.whole (.l1Eviction core pa) (s.reach none (lineOf pa) false) else s.evictL1 core (lineOf pa))

/-- PTS_ADVANCE (R326): at each multiple of 1,024 cycles every core's program stamp advances. -/
def execPtsAdvance (s : State) : Ran :=
  .next (if s.cyc % 1024 = 0 then
    State.coreList.foldl (fun s c => s.updCore c (fun k => { k with pts := k.pts + 1 })) s else s)

/-- BUCKET_REFILL (R382, R383): each arbiter adds each rate to its bucket, and grants the memory transfers that wait. -/
def execBucketRefill (s : State) : Ran :=
  .next (let s := s.buckets.foldl (fun s e => s.refillOne e.1 e.2) s
    s.arbitrate s.memReqs.length)

/-- RESERVATION_EXPIRY (R300). -/
def execReservationExpiry (team thread : Nat) (s : State) : Ran :=
  .next { s with resv := s.resv.filter (fun r =>
    !(r.team == team && r.thread == thread && decide (r.placed + Config.reservationCycles ≤ s.cyc))) }

/-- SWEEP (R302): a die's copy of the stamp base is brought up, and the die sweeps where it crosses a multiple of 2^30. -/
def execSweep (die : Nat) (s : State) : Ran :=
  .next (if die < Config.dies then
    let b := s.stampBase
    let old := (s.die die).base
    let s := s.updDie die (fun x => { x with base := b })
    if State.crossed old b then s.sweepDie die b else s
  else s)

/-- Whether a cache has been idle for 100 microseconds (R399). -/
def State.idleCache (s : State) (cache : CacheId) : Bool :=
  decide (((s.cacheUse.find? (fun e => e.1 == cache)).map Prod.snd).getD 0 + 100 * Config.cyclesPerUs ≤ s.cyc)

/-- RETENTION_SLEEP (R305): an awake cache sleeps, with its die's epoch; the configured policy lets idle ones (R399). -/
def execRetentionSleep (cache : CacheId) (s : State) : Ran :=
  .next (if State.cacheExists cache && s.henip.sleepPolicy == 1 && s.idleCache cache && !s.sleeping.any (fun e => e.1 == cache) then
    { s with sleeping := s.sleeping ++ [(cache, (s.die (State.cacheDie cache)).epoch)] } else s)

/-- RETENTION_WAKE (R305): a sleeping cache wakes, and drops its leases and translations where the epoch has changed. -/
def execRetentionWake (cache : CacheId) (s : State) : Ran :=
  .next (match s.sleeping.find? (fun e => e.1 == cache) with
  | none => s
  | some e =>
    let s := { s with sleeping := s.sleeping.filter (fun x => x.1 != cache) }
    if (s.die (State.cacheDie cache)).epoch = e.2 then s else s.dropStale cache)

/-- TAG_PARITY_ERROR (R306). DESIGN CHOICE (notes/assumptions/58.md): errors of an L1 TLB and of a die's translation cache count
under the unit codes 8 and 9, since R246 names none for them. -/
def execTagParityError (cache : CacheId) (entry : Nat) (s : State) : Ran :=
  .next (if !State.cacheExists cache then s
  else match cache with
    | .slice d i => s.sliceParity (Config.slicesPerDie * d + i) entry
    | .l1 c => s.l1Parity c entry
    | .icache c => (s.countError 6 false).updCore c (fun k => { k with icache := k.icache.eraseIdx entry })
    | .l1tlb c => (s.countError 8 false).updCore c (fun k => { k with tlb := k.tlb.eraseIdx entry })
    | .dieTlb d => (s.countError 9 false).updDie d (fun x => { x with tlb := x.tlb.eraseIdx entry }))

end Sys2Proof.Machine
end

