-- ==== Sys2Proof/Machine/Reset.lean ====
section
/-! DEFINITION. The function-level reset of a virtual device (R385): its drain, the end of its teams and launches, and what it
invalidates and clears. -/

namespace Sys2Proof.Machine

namespace State

/-- The drain's length: 50 microseconds (R385). -/
def drainCycles : Nat := 50 * Config.cyclesPerUs

/-- The teams of a virtual device that have not ended. -/
def vdevTeams (s : State) (d : Nat) : List Nat :=
  (s.teams.filter (fun e => e.2.vdev == d && e.2.phase != .ended)).map Prod.fst

/-- The launches of a virtual device that have not completed. -/
def vdevLaunches (s : State) (d : Nat) : List Nat :=
  (s.launches.filter (fun e => e.2.vdev == d && !e.2.complete)).map Prod.fst

/-- One team ended as by R248, without the rollback; no thread caused it, so its entry names no cause and no address. -/
def killTeam (s : State) (u : Nat) : State :=
  let s := { s with ops := s.ops.filter (fun (o : EngineOp) => o.team != u) }
  let out := !(s.team u).phase.resident
  let s := s.updBody u (fun b => { b with
    permits := if out then 0 else b.permits })
  let s := (s.failRec u).freeTeam u
  let s := s.updTeam u (fun t => { t with failed := true, saveRec := none })
  s.addEntry (s.team u).launch ⟨(s.team u).task, 0, false, 0, 0, 0⟩

/-- Manifests of a virtual device that record or propagate end with STATE 5, CAUSE 2 (R385). -/
def failManifests (s : State) (d : Nat) : State :=
  s.manifests.foldl (fun s m => if m.vdev = d && m.open_ then s.settleMan m 5 2 else s) s

/-- Caches, translations and fetch entries tagged with a virtual device leave (R385 step 3): its dirty lines are written back
and its version lines dropped. -/
def invalidate (s : State) (d : Nat) : State :=
  let mine (ident : Nat) : Bool := ident / 16 == d
  let held := (s.cores.flatMap (fun e => (e.2.l1.filter (fun x => mine x.2.ident && x.2.kind != .leased)).map
    (fun x => (x.1, e.1))))
  let s := held.foldl (fun s e => s.evictL1 e.2 e.1) s
  let s := ((s.lines.filter (fun e => mine e.2.ident)).map Prod.fst).foldl (fun s line => s.evictLine line) s
  let clean (k : Core) : Core :=
    { k with l1 := k.l1.filter (fun e => !mine e.2.ident), icache := k.icache.filter (fun x => !mine x.ident),
             tlb := k.tlb.filter (fun x => !mine x.ident), held := k.held.filter (fun x => (s.team x.team).vdev != d) }
  { s with cores := SMap.mapVal s.cores (fun _ k => clean k),
           dies := SMap.mapVal s.dies (fun _ (x : Die) => { x with
             tlb := x.tlb.filter (fun e => !mine e.ident)
             fetches := dropJoined (fun _ e => mine e) x.fetches }),
           vlines := s.vlines.filter (fun v => (s.hypNode v.hyp).vdev != d) }

/-- The hypotheses of a virtual device dropped (R363). -/
def dropHyps (s : State) (d : Nat) : State :=
  let gone (n : HypNode) : HypNode := if n.vdev = d && n.status == .live then { n with status := .refuted n.number 0 } else n
  { s with hyps := SMap.mapVal s.hyps (fun _ n => gone n) }

/-- The rest of a function-level reset once its drain is over (R385 steps 2 and 3). -/
def finishReset (s : State) (d : Nat) : State :=
  let s := (s.vdevTeams d).foldl (fun s u => s.killTeam u) s
  let s := (s.failManifests d)
  let s := (s.vdevLaunches d).foldl (fun s l =>
    (s.updLau l (fun x => { x with spawned := [], requeue := [], nextClus := x.teams })).finishLaunch l 2) s
  let landings := s.endpoint.landings.filter (fun (e : Nat × Landing) => e.2.vdev != d)
  let s := { s with endpoint := { s.endpoint with landings := landings },
                    resv := s.resv.filter (fun (r : Resv) => (s.team r.team).vdev != d)
                    memReqs := s.memReqs.filter (fun (r : MemReq) => r.vdev != d)
                    memGrants := s.memGrants.filter (fun e => e.1 != d) }
  let s := (s.invalidate d).dropHyps d
  s.updVd d (fun v => { v with
    resetting := none, counters := SMap.mapVal v.counters (fun _ (c : Counter) => { c with value := 0 }),
    ctxs := SMap.mapVal v.ctxs (fun _ (x : Ctx) => { x with regions := [] }) })

/-- Whether nothing of a virtual device is outstanding. -/
def drained (s : State) (d : Nat) : Bool := !s.ops.any (fun o => (s.team o.team).vdev == d && !o.complete)

end State

/-- FUNCTION_LEVEL_RESET (R385): it starts with the drain, and ends when nothing is outstanding or 50 microseconds have
passed. -/
def execFunctionLevelReset (vdev : Nat) (s : State) : Ran :=
  .next (if Config.vdevs ≤ vdev then s
  else match (s.vd vdev).resetting with
    | none => s.updVd vdev (fun v => { v with resetting := some s.cyc })
    | some since => if s.drained vdev || decide (since + State.drainCycles ≤ s.cyc) then s.finishReset vdev else s)

end Sys2Proof.Machine
end

