-- ==== Sys2Proof/Machine/Henip.lean ====
section
/-! DEFINITION. Henip and the package (R395 to R407, R430): bring-up, power, the security alarm, throttling and droops, the
lifetime health records, Henip's log, and the clock. -/

namespace Sys2Proof.Machine

/-! ## Lifetime health (R404) -/

/-- The sum of two records by key. -/
def sumMap (a b : SMap Nat) : SMap Nat := b.foldl (fun m e => SMap.set m e.1 (SMap.get m e.1 0 + e.2)) a

/-- One more in a record. -/
def tally (m : SMap Nat) (k n : Nat) : SMap Nat := SMap.set m k (SMap.get m k 0 + n)

/-- The flash records after an update. -/
def Health.merge (a b : Health) : Health :=
  { hours := sumMap a.hours b.hours, droops := sumMap a.droops b.droops, corrected := sumMap a.corrected b.corrected,
    uncorrected := sumMap a.uncorrected b.uncorrected, errRollbacks := a.errRollbacks + b.errRollbacks,
    promiseMisses := a.promiseMisses + b.promiseMisses, preemptLatency := sumMap a.preemptLatency b.preemptLatency,
    retrains := sumMap a.retrains b.retrains, alarms := sumMap a.alarms b.alarms }

/-- The bin of a junction temperature (R404): below 30 °C, then steps of 10 °C, 110 °C and above. -/
def tempBin (c : Int) : Nat := if c < 30 then 0 else min 9 ((c.toNat - 20) / 10)

/-- The code of an alarm's source (R402). -/
def sourceCode : AlarmSource → Nat
  | .seal => 0
  | .glitch => 1
  | .debugToken => 2

namespace State

/-- Changes Henip. -/
def updHenip (s : State) (f : Henip → Henip) : State := { s with henip := f s.henip }

/-- Changes what has been counted since the last update of the health records. -/
def countHealth (s : State) (f : Health → Health) : State := s.updHenip (fun h => { h with pendingHealth := f h.pendingHealth })

/-- Books the time since the last booking under each die's temperature (R404). -/
def bookHours (s : State) : State :=
  let n := s.cyc - s.henip.healthAt
  let add (h : SMap Nat) (d : Nat) : SMap Nat := tally h (10 * d + tempBin (s.die d).temp) n
  s.updHenip (fun h => { h with
    healthAt := s.cyc, pendingHealth := { h.pendingHealth with hours := (List.range Config.dies).foldl add h.pendingHealth.hours } })

/-- Updates the flash records (R404). -/
def flushHealth (s : State) : State :=
  s.bookHours.updHenip (fun h => { h with health := Health.merge h.health h.pendingHealth, pendingHealth := Health.zero })

/-- Writes an entry of Henip's log (R402, R430). -/
def logHenip (s : State) (kind arg : Nat) : State :=
  s.updHenip (fun h => { h with log := h.log ++ [⟨s.ptpNs, s.ptpSec, kind, kind, arg⟩] })

/-! ## Bring-up (R395 to R399) -/

/-- The type's minimum security version (R398). -/
def minVersionOf (h : Henip) (ty : Nat) : Nat := SMap.get h.minVersion ty 0

/-- Whether a signed object verifies (R397): the signer's key against the digest in the mask ROM, then the signature. -/
def verified (body : List Byte) : Bool :=
  shake256 (Config.pathRoot (Config.objSigner body) (Config.objPath body)) == Config.rootDigest &&
  Xmss.verifies (Config.objSigner body) (Config.objSigned body) (Config.objSignature body)

/-- The object of a type that a bring-up finds: the one in flash, or the one the part was delivered with. -/
def bootObject (h : Henip) (ty : Nat) : FwObj :=
  (h.flash.find? (fun o => o.type_ == ty)).getD ⟨ty, Config.objVersion (Config.factoryBody ty), Config.factoryBody ty⟩

/-- Whether that object verifies and is no older than its type's minimum (R397, R398). -/
def boots (h : Henip) (ty : Nat) : Bool :=
  verified (bootObject h ty).body && decide (minVersionOf h ty ≤ (bootObject h ty).version)

/-- Staged objects written to flash, each in the place of the one of its type (R396). -/
def storeStaged (h : Henip) : Henip :=
  { h with flash := h.flash.filter (fun o => !h.staged.any (fun n => n.type_ == o.type_)) ++ h.staged, staged := [] }

/-- The configuration record's fields (R399), and their defaults where no record is verified. -/
def configure (h : Henip) (o : FwObj) : Henip :=
  let f (i : Nat) : Nat := Config.recordField o.body i
  { h with pclass := f 0 % 4, portMask := BitVec.ofNat 8 (f 1), alarmLevel := f 2 % 3, sleepPolicy := f 3 % 2,
           nslot := 1 + f 4 % 8, helper := some (Config.recordHelper o.body) }

def unconfigured (h : Henip) : Henip := { h with pclass := 3, portMask := 0xFF, alarmLevel := 1, sleepPolicy := 0, nslot := 8 }

/-- The stage that a failure code names (R395); 0 for a code of none. -/
def stageOf (c : BitVec 8) : Nat :=
  if 0x10 ≤ c.toNat then 5 else if c.toNat ≤ 4 then c.toNat else if c.toNat ≤ 6 then c.toNat + 1 else 0

/-- The failure of a stage that Henip's own data decides (R395): objects that do not verify; a device key that cannot be
corrected (R400), with the HELPER of the record in flash, or whose state is erased (R403). -/
def ownFailure (h : Henip) (stage : Nat) : Option (BitVec 8) :=
  if stage = 1 && !boots h Config.typeHenip then some 1
  else if stage = 3 && (h.erased || !Config.correctable h.sram (Config.recordHelper (bootObject h Config.typeRecord).body)) then some 3
  else if stage = 4 && !boots h Config.typeRecord then some 4
  else if stage = 6 && !boots h Config.typeDevice then some 5
  else none

/-- The first stage that fails, with its code (R395). -/
def firstFailure (h : Henip) (failure : Option (BitVec 8)) : Option (Nat × BitVec 8) :=
  [1, 2, 3, 4, 5, 6, 7].findSome? (fun st =>
    ((failure.filter (fun c => stageOf c == st)).or (ownFailure h st)).map (fun c => (st, c)))

/-- Everything outside Henip as a power cycle leaves it: every array and memory byte zero (R395), nothing connected. What has
left the device, and what waits to reach it, stand. -/
def blank (s : State) (h : Henip) : State :=
  { State.reset with
    henip := h, agenda := s.agenda, draws := s.draws + 1, nextUid := s.nextUid
    endpoint := { Endpoint.fresh with outbox := s.endpoint.outbox } }

/-- Henip after the stages that passed, `n` of them (R395): what they verified is loaded, the device key derived, the ports
tested. -/
def afterStages (h : Henip) (n : Nat) (tested : BitVec 8) : Henip :=
  let rec_ := bootObject h Config.typeRecord
  let load (st ty : Nat) : List FwObj := if st ≤ n then [bootObject h ty] else []
  let c := if 4 ≤ n then configure h rec_ else unconfigured h
  { c with
    loaded := load 1 Config.typeHenip ++ load 4 Config.typeRecord ++ load 6 Config.typeDevice
    deviceKey := if 3 ≤ n then some partKey else none
    passed := if 5 ≤ n then 0xFF else if n = 4 then tested else 0
    alarms := 0, fwLocked := false, healthAt := 0, ptpClass := 248 }

/-- Bring-up (R395): success, or the safe, talkative state with the failing stage's code (R396). -/
def bringUp (s : State) (failure : Option (BitVec 8)) : State :=
  let tested := Config.portsPassed s.draws
  s.blank (match firstFailure s.henip failure with
    | none => { afterStages s.henip 7 tested with power := .up, failCode := 0 }
    | some (st, c) => { afterStages s.henip (st - 1) tested with power := .safe, failCode := c })

/-- Power goes: flash stays, and an object that was not committed is lost (R398, R407). -/
def powerOff (s : State) : State :=
  s.blank { s.henip with power := .off, staged := [], deviceKey := none, passed := 0, pendingHealth := Health.zero, healthAt := 0 }

/-! ## The security alarm (R403, R406) -/

/-- The actions of alarm level 1: every virtual device reset, the safe, talkative state, FWLOAD refused. -/
def stopAndLock (s : State) : State :=
  ((List.range Config.vdevs).foldl (fun s d => s.finishReset d) s).updHenip (fun h => { h with power := .safe, fwLocked := true })

/-- Level 2 besides: the keys erased, an object being loaded discarded (R407). -/
def eraseKeys (s : State) : State :=
  s.stopAndLock.updHenip (fun h => { h with erased := true, deviceKey := none, staged := [] })

/-- What an alarm does by its level. -/
def actOnAlarm (s : State) : State :=
  match s.henip.alarmLevel with
  | 0 => s
  | 1 => s.stopAndLock
  | _ => s.eraseKeys

/-! ## The clock (R430) -/

/-- %ptp moved by nanoseconds, never below zero. -/
def movePtp (s : State) (n : Int) : State :=
  let v := ((s.ptpSec : Int) * 1000000000 + s.ptpNs + n).toNat
  { s with ptpSec := v / 1000000000, ptpNs := v % 1000000000 }

/-- Whether the device has power. -/
def powered (s : State) : Bool := s.henip.power != .off

end State

/-! ## The events -/

/-- POWER_ON (R395): the SRAM block shows its power-up contents (R400), and the stages run. -/
def execPowerOn (failure : Option (BitVec 8)) (s : State) : Ran :=
  .next (if s.powered then s else (s.updHenip (fun h => { h with sram := Config.sramPowerUp s.draws })).bringUp failure)

/-- POWER_DOWN (R404): a controlled power-down updates the health records first. -/
def execPowerDown (s : State) : Ran := .next (if s.powered then s.flushHealth.powerOff else s)

/-- POWER_LOSS (R398, R401): what was counted since the last update is lost. -/
def execPowerLoss (s : State) : Ran := .next (if s.powered then s.powerOff else s)

/-- HEALTH_UPDATE (R404). -/
def execHealthUpdate (s : State) : Ran := .next (if s.powered then s.flushHealth else s)

/-- SECURITY_ALARM (R402, R403): logged and counted, then acted on by level. -/
def execSecurityAlarm (source : AlarmSource) (s : State) : Ran :=
  let noted := ((s.logHenip 1 (sourceCode source)).countHealth (fun h => { h with alarms := tally h.alarms (sourceCode source) 1 })).updHenip
    (fun h => { h with alarms := h.alarms + 1 })
  .next (if s.powered then noted.actOnAlarm else s)

/-- DROOP_EVENT (R406): counted; the die stretches its clocks, which changes no result and no %cyc count. -/
def execDroopEvent (die : Nat) (s : State) : Ran :=
  .next (if s.powered && decide (die < Config.dies) then
    (s.countHealth (fun h => { h with droops := tally h.droops die 1 })).updDie die (fun x => { x with stretched := true })
  else s)

/-- DROOP_RECOVERY (R406). -/
def execDroopRecovery (die : Nat) (s : State) : Ran :=
  .next (if s.powered && decide (die < Config.dies) then s.updDie die (fun x => { x with stretched := false }) else s)

/-- THROTTLING (R406): a junction reached 105 °C. -/
def execThrottling (die : Nat) (s : State) : Ran :=
  .next (if s.powered && decide (die < Config.dies) then
    s.bookHours.updDie die (fun x => { x with temp := 105, throttled := true })
  else s)

/-- THROTTLING_END (R406): the junction has cooled to some temperature below 105 °C. -/
def execThrottlingEnd (die : Nat) (s : State) : Ran :=
  .next (if s.powered && decide (die < Config.dies) then
    let c : Int := (Config.freeWord (s.draws * 65536)).toNat % 105
    s.bookHours.draw.updDie die (fun x => { x with temp := c, throttled := false })
  else s)

/-- THERMAL_TRIP (R406): at 115 °C, the actions of alarm level 1. -/
def execThermalTrip (die : Nat) (s : State) : Ran :=
  .next (if s.powered && decide (die < Config.dies) then
    (s.bookHours.updDie die (fun x => { x with temp := 115 })).stopAndLock
  else s)

/-- LINK_RETRAIN (R404): ports are links 0 to 7, die links follow. -/
def execLinkRetrain (link : Nat) (s : State) : Ran :=
  .next (if s.powered && decide (link < 8 + Config.dieLinks) then
    s.countHealth (fun h => { h with retrains := tally h.retrains link 1 })
  else s)

/-- PTP_MESSAGE (R430): a correction below 1 microsecond slews, a larger one steps and is logged. A master's clockClass is
free. -/
def execPtpMessage (correctionNs : Int) (s : State) : Ran :=
  let heard (s : State) : State :=
    if s.henip.ptpClass = 248 then s.draw.updHenip (fun h => { h with ptpClass := (Config.freeWord (s.draws * 65536)).toNat % 256 })
    else s
  .next (if s.henip.power != .up then s
  else if correctionNs.natAbs < 1000 then heard { s with ptpAdjust := correctionNs }
  else heard { ((s.movePtp correctionNs).logHenip 2 correctionNs.natAbs) with ptpAdjust := 0 })

/-- PTP_MASTER_LOST (R430): the clock runs free, with clockClass 248. -/
def execPtpMasterLost (s : State) : Ran :=
  .next (if s.powered then { s.updHenip (fun h => { h with ptpClass := 248 }) with ptpAdjust := 0 } else s)

end Sys2Proof.Machine
end

