-- ==== Sys2Proof/Machine/Endpoint.lean ====
section
/-! DEFINITION. The command endpoint (R419 to R424): the course of every command from its arrival to its reply, the owner's
election (R428, R429), the management commands (R422) and the reading of counters (R379). -/

namespace Sys2Proof.Machine

/-- Who may issue a command (R420, R422): any master, any claimant, any claimant and whoever is on the management
connection, the owner, or the owner and in the safe state the management connection. -/
inductive Issuer where
  | anyMaster | claimant | open_ | owner | firmware
deriving DecidableEq, Repr

/-- How a command ends (R419): done, with its value and reply payload; refused at a payload offset; with another status; put
off until intervals close (R259); or accepted, its reply to come (R373). -/
inductive Answer where
  | ok (value : Nat) (payload : List Byte) (s : State)
  | refused (field : Nat)
  | status (n : Nat)
  | later (tried : State)
  | silent (s : State)

/-- The sender of a command. -/
def senderOf (i : Instr) : Option Sender :=
  match i with
  | .launch w _ | .propagate w _ | .memread w _ | .memwrite w _ | .claim w _ | .handover w _ | .loadimg w _ | .configQuota w _
  | .configBucket w _ | .configWays w _ | .configLending w _ | .configPeer w _ | .configWindow w _ | .configTimeout w _
  | .configSbase w _ | .configRing w _ | .configCounter w _ | .configRegionRegister w _ | .configRegionRelease w _
  | .configArena w _ | .configHbmarea w _ | .configPermits w _ | .configRoot w _ | .configDefaults w _ | .configCntpage w _
  | .configPort w _ | .configClock w _ | .stop w _ | .resume w _ | .landbind w _ | .landrel w _ | .status w _ | .log w _
  | .health w _ | .attest w _ | .fwload w _ | .commit w _ | .reset w _ | .cntread w _ => some w
  | _ => none

/-- No failing field (R423). -/
def noField : Nat := 0xFFFFFFFF

/-- A failing header (R423). -/
def headerField : Nat := 0xFFFFFFFE

/-- Whether a message's header stands (R423): MAGIC, the reserved bytes, PLEN. -/
def headerOk (msg : List Byte) : Bool :=
  decide (32 ≤ msg.length) && leAt msg 0 4 == 0x444D435A && leAt msg 6 2 == 0 && leAt msg 20 4 == 0 &&
  leAt msg 12 4 + 32 == msg.length

namespace State

/-! ## Masters (R428) -/

/-- Changes the endpoint. -/
def updEndpoint (s : State) (f : Endpoint → Endpoint) : State := { s with endpoint := f s.endpoint }

/-- The endpoint number of a sender. -/
def numberOf (s : State) (who : Sender) : Option Nat :=
  match who with
  | .mgmt => none
  | .master id => (s.endpoint.masters.find? (fun e => e.2.id == id)).map Prod.fst

/-- The lowest free endpoint number. -/
def freeEndpoint (s : State) : Option Nat :=
  (List.range s.henip.nslot).find? (fun n => (SMap.find s.endpoint.masters n).isNone)

/-- Changes a master. -/
def updMaster (s : State) (n : Nat) (f : Master → Master) : State :=
  match SMap.find s.endpoint.masters n with
  | some m => s.updEndpoint (fun e => { e with masters := SMap.set e.masters n (f m) })
  | none => s

/-- A frame of a sender arrives: a master gets its endpoint number, its last frame is noted. False where every number is
held. -/
def admitFrame (s : State) (who : Sender) : Bool × State :=
  match who, s.numberOf who, s.freeEndpoint with
  | .mgmt, _, _ => (true, s)
  | .master _, some n, _ => (true, s.updMaster n (fun m => { m with lastFrame := s.cyc }))
  | .master id, none, some n =>
    (true, s.updEndpoint (fun e => { e with masters := SMap.set e.masters n ⟨id, none, s.cyc⟩ }))
  | .master _, none, none => (false, s)

/-- The owner's endpoint number, 0xFF where there is none (R424). -/
def ownerNumber (s : State) : Nat := s.endpoint.owner.getD 0xFF

/-- Whether a sender is the owner. -/
def isOwner (s : State) (who : Sender) : Bool := s.endpoint.owner.isSome && s.numberOf who == s.endpoint.owner

/-- Whether a sender may issue a command. Every master that holds an endpoint number is a claimant here. -/
def mayCommand (s : State) (who : Sender) (i : Issuer) : Bool :=
  match i with
  | .anyMaster | .claimant => who != .mgmt
  | .open_ => true
  | .owner => s.isOwner who
  | .firmware => s.isOwner who || (who == .mgmt && s.henip.power == .safe)

/-- Whether the safe, talkative state refuses a command (R396, R403). -/
def refusedSafe (s : State) (code : Nat) : Bool :=
  s.henip.power == .safe &&
  (if s.henip.erased && s.henip.failCode == 3 then code != 0x20 && code != 0x21
  else if code = 0x24 then s.henip.fwLocked
  else if code = 0x26 then s.henip.staged.isEmpty
  else code != 0x20 && code != 0x21 && code != 0x22)

/-- Whether an earlier command of the sender has had no reply yet (R420). -/
def replyDue (s : State) (who : Sender) : Bool :=
  s.later.any (fun i => senderOf i == some who) ||
  s.teams.any (fun e => match e.2.stop with | some q => q.who == who | none => false)

/-- The course of a command (R419 to R423): power and, for a master, a port that is up, the endpoint number, the turn of its
sender, the header, the safe state, the payload's exact length, the issuer, then its own checks and effect. `size` is the length
that its layout gives. -/
def command (s : State) (i : Instr) (code : Nat) (who : Sender) (msg : List Byte) (issuer : Issuer) (size : List Byte → Nat)
    (body : State → List Byte → Answer) : State :=
  let seq := BitVec.ofNat 32 (leAt msg 8 4)
  let pay := msg.drop 32
  let done (s : State) (status field value : Nat) : State := s.reply who code status seq field value []
  if !s.powered || (who != .mgmt && !s.anyPortUp) then s else
  let (ok, s) := s.admitFrame who
  if !ok then done s 1 noField 0xFF
  else if s.replyDue who then s.defer i
  else if !headerOk msg || (who == .mgmt && decide (code < 0x20 ∨ 0x26 < code)) then done s 1 headerField 0
  else if s.refusedSafe code then done s 4 noField 0
  else if pay.length != size pay then done s 1 (min pay.length (size pay)) 0
  else if !s.mayCommand who issuer then done s 2 noField 0
  else match body s pay with
    | .ok value payload t => t.reply who code 0 seq noField value payload
    | .refused f => done s 1 f 0
    | .status n => done s n noField 0
    | .later t => (s.askCloses t).defer i
    | .silent t => t

/-- Whether a message bears a command's code; one too short to bear any does, and fails its header check. -/
def bears (msg : List Byte) (code : Nat) : Bool := decide (msg.length ≤ 4) || leAt msg 4 1 == code

/-- A command by its code: another command's message is none of this one. -/
def run (s : State) (i : Instr) (code : Nat) (who : Sender) (msg : List Byte) (issuer : Issuer) (size : List Byte → Nat)
    (body : State → List Byte → Answer) : Ran :=
  .next (if bears msg code then s.command i code who msg issuer size body else s)

/-! ## Election (R428, R429) -/

/-- The better of two claimants: the higher priority, then the lower endpoint number. -/
def better (best : Option (Nat × Nat)) (e : Nat × Master) : Option (Nat × Nat) :=
  match e.2.prio, best with
  | none, b => b
  | some p, none => some (e.1, p)
  | some p, some b => if b.2 < p || (b.2 == p && e.1 < b.1) then some (e.1, p) else some b

/-- The claimant that an election makes owner. -/
def winner (s : State) : Option Nat := (s.endpoint.masters.foldl better none).map Prod.fst

/-- Holds an election; the new owner's second without a frame (R429) starts then. -/
def elect (s : State) : State :=
  let w := s.winner
  let s := s.updEndpoint (fun e => { e with owner := w, electionAt := none })
  match w with
  | some n => s.updMaster n (fun m => { m with lastFrame := s.cyc })
  | none => s

/-- The election window, 10 ms (R428), and the owner's silence, 1 s (R429), in cycles. -/
def windowCycles : Nat := 10000 * Config.cyclesPerUs
def silenceCycles : Nat := 1000000 * Config.cyclesPerUs

/-- CLAIM (R428). -/
def claimBody (who : Sender) (s : State) (pay : List Byte) : Answer :=
  match s.numberOf who with
  | none => .status 1
  | some n =>
    let s := s.updMaster n (fun m => { m with prio := some (leAt pay 0 1) })
    let s := if s.endpoint.owner.isNone && s.endpoint.electionAt.isNone then
        s.updEndpoint (fun e => { e with electionAt := some (s.cyc + windowCycles) })
      else s
    .ok (n + if s.endpoint.owner == some n then 256 else 0) [] s

/-- HANDOVER (R429). -/
def handoverBody (s : State) (pay : List Byte) : Answer :=
  let t := leAt pay 0 1
  if t = 0xFF then let s := s.elect; .ok s.ownerNumber [] s
  else match SMap.find s.endpoint.masters t with
    | some m => if m.prio.isSome then .ok t [] (s.updEndpoint (fun e => { e with owner := some t })) else .refused 0
    | none => .refused 0

/-! ## Management (R422, R424) -/

/-- The status block. -/
def statusBlock (s : State) : List Byte :=
  let h := s.henip
  toBytes 1 h.failCode.toNat ++ toBytes 1 (h.power == .safe).toNat ++ toBytes 1 h.pclass ++ toBytes 1 h.alarmLevel ++ toBytes 4 0 ++
  (List.range Config.dies).flatMap (fun d => toBytes 8 ((s.die d).throttleCyc / Config.cyclesPerUs)) ++
  (List.range Config.dies).flatMap (fun d => toBytes 2 (wrap 16 (s.die d).temp)) ++ toBytes 1 h.ptpClass ++ toBytes 7 0

/-- The bytes of a log entry. -/
def logBytes32 (e : LogEntry) : List Byte :=
  toBytes 4 e.ptpNs ++ toBytes 6 e.ptpSec ++ toBytes 2 (Config.logSource e.source) ++ toBytes 4 (Config.logCode e.code) ++
  toBytes 16 (Config.logData e.source e.data)

/-- LOG. -/
def logBody (s : State) (pay : List Byte) : Answer :=
  let es := (s.henip.log.drop (leAt pay 0 8)).take (leAt pay 8 4)
  .ok es.length (es.flatMap logBytes32) s

/-- One record of the health reply: a count and that many values. -/
def healthRecord (vs : List Nat) : List Byte := toBytes 4 vs.length ++ vs.flatMap (fun v => toBytes 8 v)

/-- The values of a record by key. -/
def keyed (m : SMap Nat) (n : Nat) : List Nat := (List.range n).map (fun k => SMap.get m k 0)

/-- The lifetime records in the order of R404's table; hours are whole hours of %cyc. -/
def healthBytes (h : Health) : List Byte :=
  healthRecord ((keyed h.hours 40).map (fun c => c / (3600 * 1000000 * Config.cyclesPerUs))) ++ healthRecord (keyed h.droops 4) ++
  healthRecord (keyed h.corrected 8) ++ healthRecord (keyed h.uncorrected 8) ++ healthRecord [h.errRollbacks] ++
  healthRecord [h.promiseMisses] ++ healthRecord (keyed h.preemptLatency 11) ++
  healthRecord (keyed h.retrains (8 + Config.dieLinks)) ++ healthRecord (keyed h.alarms 3)

/-- The contents and version of the loaded object of a type. -/
def loadedBody (h : Henip) (ty : Nat) : List Byte :=
  match h.loaded.find? (fun o => o.type_ == ty) with
  | some o => o.body
  | none => Config.factoryBody ty

def loadedVersion (h : Henip) (ty : Nat) : Nat :=
  match h.loaded.find? (fun o => o.type_ == ty) with
  | some o => o.version
  | none => Config.objVersion (Config.factoryBody ty)

/-- ATTEST (R401): the index is committed before the signature. DESIGN CHOICE (notes/assumptions/28.md): a digest of MEAS is 32
bytes. -/
def attestBody (s : State) (pay : List Byte) : Answer :=
  let h := s.henip
  if 1048576 ≤ h.attIndex then .status 5
  else
    let types := [Config.typeHenip, Config.typeDevice, Config.typeRecord]
    let report := Config.reportBytes pay (types.map (fun ty => shake256 (loadedBody h ty))) (types.map (loadedVersion h))
      (s.ptpNs, s.ptpSec) h.attIndex h.alarms
    .ok h.attIndex (report ++ Config.attestSign (h.deviceKey.getD 0) h.attIndex report) (s.updHenip (fun h => { h with attIndex := h.attIndex + 1 }))

/-- FWLOAD (R396 to R398): an object that verifies, of a known type and no lower version, is staged. -/
def fwloadBody (s : State) (pay : List Byte) : Answer :=
  let ty := Config.objType pay
  let v := Config.objVersion pay
  let known := ty == Config.typeHenip || ty == Config.typeDevice || ty == Config.typeRecord
  if !verified pay || !known || decide (v < minVersionOf s.henip ty) then .refused 0
  else if s.henip.power == .safe && ty == Config.typeRecord then .status 4
  else .ok 0 [] (s.updHenip (fun h => { h with
    staged := h.staged.filter (fun o => o.type_ != ty) ++ [⟨ty, v, pay⟩] }))

/-- COMMIT (R398): the object loaded by FWLOAD, or else the one that boots, is in flash, and the minimum version rises to its
version. -/
def commitBody (s : State) (pay : List Byte) : Answer :=
  let ty := leAt pay 0 1
  let h := s.henip
  let known := ty == Config.typeHenip || ty == Config.typeDevice || ty == Config.typeRecord
  let o := (h.staged.find? (fun o => o.type_ == ty)).getD (bootObject h ty)
  let v := max (minVersionOf h ty) o.version
  if !known && !h.staged.any (fun o => o.type_ == ty) then .refused 0
  else .ok v [] (s.updHenip (fun h => { h with
    minVersion := SMap.set h.minVersion ty v, flash := h.flash.filter (fun o => o.type_ != ty) ++ [o]
    staged := h.staged.filter (fun o => o.type_ != ty) }))

/-- RESET (R422): the reply is sent before the restart. -/
def resetBody (who : Sender) (seq : Word) (s : State) (_ : List Byte) : Answer :=
  .silent (((s.reply who 0x26 0 seq noField 0 []).updHenip storeStaged).bringUp (Config.bringUpFault s.draws))

/-- CNTREAD (R379): whole, the low half with its latch, or the high half from the latch. -/
def cntreadBody (who : Sender) (s : State) (pay : List Byte) : Answer :=
  let d := leAt pay 0 1
  let i := leAt pay 1 1
  let half := leAt pay 2 1
  let v := (SMap.get (s.vd d).counters i (Counter.dflt i)).value.toNat
  let id := match who with | .master id => id | .mgmt => 0
  let mine (l : Latch) : Bool := l.master == id && l.vdev == d && l.index == i
  let rest := s.endpoint.latches.filter (fun l => !mine l)
  if 16 ≤ d then .refused 0
  else if 64 ≤ i then .refused 1
  else if half = 0 then .ok v [] s
  else if half = 1 then
    .ok (v % 4294967296) [] (s.updEndpoint (fun e => { e with latches := rest ++ [⟨id, d, i, BitVec.ofNat 32 (v / 4294967296)⟩] }))
  else if half = 2 then
    match s.endpoint.latches.find? mine with
    | some l => .ok l.high.toNat [] (s.updEndpoint (fun e => { e with latches := rest }))
    | none => .ok (v / 4294967296) [] s
  else .refused 2

/-- The length of a fixed layout. -/
def fixed (n : Nat) (_ : List Byte) : Nat := n

end State

/-! ## The instructions -/

/-- CLAIM (R428). -/
def execClaim (who : Sender) (msg : List Byte) (s : State) : Ran :=
  s.run (.claim who msg) 0x05 who msg .anyMaster (State.fixed 8) (State.claimBody who)

/-- HANDOVER (R429). -/
def execHandover (who : Sender) (msg : List Byte) (s : State) : Ran :=
  s.run (.handover who msg) 0x06 who msg .owner (State.fixed 8) State.handoverBody

/-- STATUS (R424). -/
def execStatus (who : Sender) (msg : List Byte) (s : State) : Ran :=
  s.run (.status who msg) 0x20 who msg .open_ (State.fixed 0) (fun s _ => .ok s.ownerNumber s.statusBlock s)

/-- LOG (R424). -/
def execLog (who : Sender) (msg : List Byte) (s : State) : Ran :=
  s.run (.log who msg) 0x21 who msg .open_ (State.fixed 16) State.logBody

/-- HEALTH (R404, R424). -/
def execHealth (who : Sender) (msg : List Byte) (s : State) : Ran :=
  s.run (.health who msg) 0x22 who msg .open_ (State.fixed 0) (fun s _ => .ok 0 (State.healthBytes s.henip.health) s)

/-- ATTEST (R401). -/
def execAttest (who : Sender) (msg : List Byte) (s : State) : Ran :=
  s.run (.attest who msg) 0x23 who msg .claimant (State.fixed 32) State.attestBody

/-- FWLOAD (R397). -/
def execFwload (who : Sender) (msg : List Byte) (s : State) : Ran :=
  s.run (.fwload who msg) 0x24 who msg .firmware Config.objLength State.fwloadBody

/-- COMMIT (R398). -/
def execCommit (who : Sender) (msg : List Byte) (s : State) : Ran :=
  s.run (.commit who msg) 0x25 who msg .owner (State.fixed 8) State.commitBody

/-- RESET (R396, R422). -/
def execReset (who : Sender) (msg : List Byte) (s : State) : Ran :=
  s.run (.reset who msg) 0x26 who msg .firmware (State.fixed 0) (State.resetBody who (BitVec.ofNat 32 (leAt msg 8 4)))

/-- CNTREAD (R379). -/
def execCntread (who : Sender) (msg : List Byte) (s : State) : Ran :=
  s.run (.cntread who msg) 0x27 who msg .claimant (State.fixed 8) (State.cntreadBody who)

/-! ## The events -/

/-- ELECTION_WINDOW_END (R428). -/
def execElectionWindowEnd (s : State) : Ran :=
  .next (if s.endpoint.owner.isNone && s.endpoint.electionAt.any (fun n => decide (n ≤ s.cyc)) then s.elect else s)

/-- OWNER_TIMEOUT (R429): the owner has sent no frame for a second. -/
def execOwnerTimeout (s : State) : Ran :=
  let silent := match s.endpoint.owner.bind (fun n => SMap.find s.endpoint.masters n) with
    | some m => decide (m.lastFrame + State.silenceCycles ≤ s.cyc)
    | none => false
  .next (if silent then s.elect else s)

/-- MASTER_GONE (R427): its endpoint number and latches go. An owner's going leaves the device without one; the election of
R429 comes a second after its last frame. -/
def execMasterGone (master : Nat) (s : State) : Ran :=
  .next (match s.numberOf (.master master) with
  | none => s
  | some n =>
    let last := (SMap.get s.endpoint.masters n ⟨0, none, 0⟩).lastFrame
    let s := s.updEndpoint (fun e => { e with
      masters := SMap.erase e.masters n, latches := e.latches.filter (fun l => l.master != master) })
    if s.endpoint.owner = some n then
      s.updEndpoint (fun e => { e with owner := none, electionAt := some (last + State.silenceCycles) })
    else s)

end Sys2Proof.Machine
end

