-- ==== Sys2Proof/Machine/HostMemory.lean ====
section
/-! DEFINITION. The commands on a context's memory (R420, R421, R424): MEMREAD, MEMWRITE and LOADIMG. -/

namespace Sys2Proof.Machine

/-- An outside access's end as a command's: done, or put off while intervals close (R259). -/
def answerOf {α : Type} (r : Res α) (f : α → State → Answer) : Answer :=
  match r with
  | .ok a s => f a s
  | .wait _ t => .later t
  | .trap _ _ => .status 1

/-- The first failing field of a payload, in the order of its fields. -/
def refuseFirst (cs : List Check) (go : Answer) : Answer :=
  match firstFail cs with
  | some f => .refused f
  | none => go

/-- The checks of VDEV and CTX at their offsets. -/
def ctxChecks (d c dOff cOff : Nat) : List Check := [(dOff, decide (d < Config.vdevs)), (cOff, decide (c < Config.ctxs))]

/-- Bytes with some replaced from an offset up. -/
def patchBytes (img : List Byte) (off : Nat) (bs : List Byte) : List Byte := img.take off ++ bs ++ img.drop (off + bs.length)

namespace State

/-- The length of the payload of MEMWRITE: the data as LEN states it. -/
def memwriteSize (pay : List Byte) : Nat := 16 + leAt pay 4 4

/-- MEMREAD (R424). -/
def memreadBody (s : State) (pay : List Byte) : Answer :=
  let d := leAt pay 0 1
  let c := leAt pay 1 1
  let n := leAt pay 4 4
  let va := leAt pay 8 8
  let at_ := s.hostAddr d c
  refuseFirst (ctxChecks d c 0 1 ++ [(4, decide (1 ≤ n ∧ n ≤ 1048576)), (8, rangeMapped at_ va n)])
    (answerOf (s.outsideGet at_ (lineSpans va n)) (fun bs s => .ok 0 bs s))

/-- MEMWRITE (R424): replied after every step. -/
def memwriteBody (s : State) (pay : List Byte) : Answer :=
  let d := leAt pay 0 1
  let c := leAt pay 1 1
  let n := leAt pay 4 4
  let va := leAt pay 8 8
  let at_ := s.hostAddr d c
  refuseFirst (ctxChecks d c 0 1 ++ [(4, decide (1 ≤ n ∧ n ≤ 1048576)), (8, rangeMapped at_ va n)])
    (answerOf (s.outsidePut d c at_ va (pay.drop 16)) (fun _ s => .ok 0 [] s))

/-! ## LOADIMG (R421) -/

/-- The length of its payload: the image itself where SRC is 0. -/
def loadimgSize (pay : List Byte) : Nat := 32 + if leAt pay 2 1 = 0 then leAt pay 24 8 else 0

/-- An image with every relocation applied (R40). -/
def relocated (img : List Byte) (addr : Nat) : List Byte :=
  let r : ImgRead := fun off n => leAt img off n
  (List.range (Img.nrel r)).foldl (fun bs i => let p := Img.patch r addr i; patchBytes bs p.1 p.2) img

/-- Whether a page of the code segment has X, in a context. -/
def pageX (s : State) (d c va : Nat) : Bool :=
  match s.deviceWalk d c va with
  | some (_, e) => e.x
  | none => false

/-- Drops the fetched copies of a range of addresses, as they are mapped, in every instruction cache and fetch agent (R59). -/
def dropFetched (s : State) (at_ : Nat → Option Nat) (va n : Nat) : State :=
  let lines := (lineSpans va n).filterMap (fun e => (at_ e.1).map lineOf)
  { s with
    cores := SMap.mapVal s.cores (fun _ (k : Core) => { k with icache := k.icache.filter (fun x => !lines.contains x.line) })
    dies := SMap.mapVal s.dies (fun _ (d : Die) => { d with fetches := d.fetches.filter (fun f => !lines.contains f.line) })
    codeLog := s.codeLog.filter (fun e => !lines.contains (e.word / 32)) }

/-- The steps of LOADIMG on image bytes at hand. -/
def loadImage (s : State) (d c addr : Nat) (img : List Byte) : Answer :=
  let n := img.length
  let r : ImgRead := fun off n => leAt img off n
  let at_ := s.hostAddr d c
  if Img.size r != n then .refused 24
  else match Img.bad r n with
    | some f => .refused (32 + f)
    | none =>
      let code := pageBases (addr + Img.codeOff r) (Img.codeSize r)
      if !rangeMapped at_ addr n || !code.all (s.pageX d c) then .refused 8
      else answerOf (s.outsidePut d c at_ addr (relocated img addr)) (fun _ s => .ok addr [] (s.dropFetched at_ addr n))

/-- LOADIMG (R421). -/
def loadimgBody (s : State) (pay : List Byte) : Answer :=
  let d := leAt pay 0 1
  let c := leAt pay 1 1
  let src := leAt pay 2 1
  let addr := leAt pay 8 8
  let sa := leAt pay 16 8
  let n := leAt pay 24 8
  let readable (va : Nat) : Option Nat := (s.hostAddr d c va).filter (fun _ =>
    match s.deviceWalk d c va with | some (_, e) => e.r | none => false)
  let apart := decide (sa + n ≤ addr ∨ addr + n ≤ sa)
  refuseFirst (ctxChecks d c 0 1 ++ [(2, decide (src ≤ 1)), (8, addr % 4096 == 0), (16, src == 1 || sa == 0),
      (24, decide (64 ≤ n ∧ n ≤ 16777216)), (16, src == 0 || (apart && rangeMapped readable sa n))])
    (if src = 0 then s.loadImage d c addr (pay.drop 32)
    else answerOf (s.outsideGet readable (lineSpans sa n)) (fun img s => s.loadImage d c addr img))

end State

/-- MEMREAD (R424). -/
def execMemread (who : Sender) (msg : List Byte) (s : State) : Ran :=
  s.run (.memread who msg) 0x03 who msg .claimant (State.fixed 16) State.memreadBody

/-- MEMWRITE (R424). -/
def execMemwrite (who : Sender) (msg : List Byte) (s : State) : Ran :=
  s.run (.memwrite who msg) 0x04 who msg .owner State.memwriteSize State.memwriteBody

/-- LOADIMG (R421). -/
def execLoadimg (who : Sender) (msg : List Byte) (s : State) : Ran :=
  s.run (.loadimg who msg) 0x07 who msg .owner State.loadimgSize State.loadimgBody

end Sys2Proof.Machine
end

