-- ==== Sys2Proof/Machine/HostConfig.lean ====
section
/-! DEFINITION. The items of CONFIG (R425): their rules, the offset of the first field that breaks one, and their effects. -/

namespace Sys2Proof.Machine

/-- Whether two ranges share an element; an empty range shares none. -/
def rangesMeet (a n b m : Nat) : Bool := decide (0 < n) && decide (0 < m) && decide (a < b + m) && decide (b < a + n)

/-- The elements that a field names: one below a bound, or all of them at 0xFFFF. -/
def named (x count : Nat) : List Nat := if x = 0xFFFF then List.range count else [x]

/-- The check that a field names an element or all. -/
def nameCheck (off x count : Nat) : Check := (off, decide (x < count) || x == 0xFFFF)

/-- The offset at which a range breaks a rule: its start where the start is at fault, else its length. -/
def rangeField (off lenOff start : Nat) (others : List (Nat × Nat)) : Nat :=
  if others.any (fun o => decide (o.1 ≤ start ∧ start < o.1 + o.2)) then off else lenOff

namespace State

/-- Changes a virtual device for every element of a list. -/
def updEach (s : State) (l : List Nat) (f : State → Nat → State) : State := l.foldl f s

/-! ## QUOTA (R381) -/

/-- The quota in a payload. -/
def readQuota (pay : List Byte) : Quota :=
  { slot0 := leAt pay 10 1, nslot := leAt pay 11 1, rrow0 := (List.range 4).map (fun i => leAt pay (12 + 2 * i) 2),
    nrrow := (List.range 4).map (fun i => leAt pay (20 + 2 * i) 2), srow0 := leAt pay 28 2, nsrow := leAt pay 30 2,
    acc0 := leAt pay 32 1, nacc := leAt pay 33 1, pshare := leAt pay 34 1 }

/-- The ranges of a quota with the offsets of their starts and lengths. -/
def quotaRanges (q : Quota) : List (Nat × Nat × Nat × Nat × Nat) :=
  [(10, 11, q.slot0, q.nslot, 64)] ++
  (List.range 4).map (fun i => (12 + 2 * i, 20 + 2 * i, q.rrow0.getD i 0, q.nrrow.getD i 0, 1024)) ++
  [(28, 30, q.srow0, q.nsrow, 320), (32, 33, q.acc0, q.nacc, 8)]

/-- The quotas of the other virtual devices on some cores. -/
def otherQuotas (s : State) (d : Nat) (cores : List Nat) : List Quota :=
  (s.vdevs.filter (fun e => e.1 != d)).flatMap (fun e => (e.2.quotas.filter (fun k => cores.contains k.1)).map Prod.snd)

/-- The checks of a quota: whole quads, each range within its resource, no overlap with another virtual device's range on a
core, the share within the pool. -/
def quotaChecks (s : State) (d : Nat) (cores : List Nat) (q : Quota) : List Check :=
  let others := (s.otherQuotas d cores).map quotaRanges
  let one (r : Nat × Nat × Nat × Nat × Nat) : List Check :=
    let same := others.flatMap (fun rs => (rs.filter (fun x => x.1 == r.1)).map (fun x => (x.2.2.1, x.2.2.2.1)))
    let clash := same.any (fun o => rangesMeet r.2.2.1 r.2.2.2.1 o.1 o.2)
    [(r.1, decide (r.2.2.1 ≤ r.2.2.2.2)), (r.2.1, decide (r.2.2.1 + r.2.2.2.1 ≤ r.2.2.2.2)),
     (rangeField r.1 r.2.1 r.2.2.1 same, !clash)]
  [(10, q.slot0 % 4 == 0), (11, q.nslot % 4 == 0)] ++ (quotaRanges q).flatMap one ++
  [(34, cores.all (fun c => decide (q.pshare ≤ (s.cor c).pool)))]

/-- CONFIG QUOTA. -/
def quotaBody (s : State) (pay : List Byte) : Answer :=
  let d := leAt pay 2 1
  let x := leAt pay 8 2
  let q := readQuota pay
  let cores := named x Config.cores
  refuseFirst ([(2, decide (d < Config.vdevs)), nameCheck 8 x Config.cores] ++ s.quotaChecks d cores q)
    (.ok 0 [] (s.updVd d (fun v => { v with quotas := cores.foldl (fun m c => SMap.set m c q) v.quotas })))

/-! ## BUCKET (R382) -/

/-- The arbiters of a kind: the number of the first, and how many. -/
def arbiterKind (k : Nat) : Nat × Nat :=
  match k with
  | 0 => (0, 480)
  | 1 => (960, 640)
  | 2 => (1600, 512)
  | 3 => (2112, 8)
  | _ => (480, 480)

/-- The rates of the other virtual devices at an arbiter. -/
def otherRates (s : State) (n d : Nat) : Nat :=
  (((List.range Config.vdevs).filter (fun x => x != d)).map (fun x => (SMap.get s.buckets (bucketKey n x) ⟨0, 0, 0⟩).rate)).sum

/-- CONFIG BUCKET: tokens above a lower depth are lost. -/
def bucketBody (s : State) (pay : List Byte) : Answer :=
  let d := leAt pay 2 1
  let k := leAt pay 8 1
  let x := leAt pay 10 2
  let rate := leAt pay 12 4
  let depth := leAt pay 16 4
  let r := arbiterKind k
  let ns := (named x r.2).map (fun i => r.1 + i)
  let set (s : State) (n : Nat) : State :=
    let b := SMap.get s.buckets (bucketKey n d) ⟨0, 0, 0⟩
    { s with buckets := SMap.set s.buckets (bucketKey n d) ⟨rate, depth, min b.tokens (depth * 65536)⟩ }
  refuseFirst [(2, decide (d < Config.vdevs)), (8, decide (k ≤ 4)), nameCheck 10 x r.2,
      (12, ns.all (fun n => decide (rate + s.otherRates n d ≤ arbiterCapacity n))), (16, decide (1 ≤ depth ∧ depth ≤ 16777216))]
    (.ok 0 [] (s.updEach ns set))

/-! ## WAYS (R382, R384) -/

/-- The ways of the other virtual devices in some slices. -/
def otherWays (s : State) (d : Nat) (slices : List Nat) : List (Nat × Nat) :=
  (s.vdevs.filter (fun e => e.1 != d)).flatMap (fun e => (e.2.ways.filter (fun k => slices.contains k.1)).map (fun k =>
    (k.2.first, k.2.count)))

/-- CONFIG WAYS: disjoint ranges of a slice's twenty ways. -/
def waysBody (s : State) (pay : List Byte) : Answer :=
  let d := leAt pay 2 1
  let x := leAt pay 8 2
  let first := leAt pay 10 1
  let count := leAt pay 11 1
  let w : Ways := ⟨first, count, BitVec.ofNat 32 (leAt pay 12 4)⟩
  let slices := named x 640
  let others := s.otherWays d slices
  refuseFirst [(2, decide (d < Config.vdevs)), nameCheck 8 x 640, (10, decide (first ≤ Config.waysPerSlice)),
      (11, decide (first + count ≤ Config.waysPerSlice)),
      (rangeField 10 11 first others, !others.any (fun o => rangesMeet first count o.1 o.2))]
    (.ok 0 [] (s.updVd d (fun v => { v with ways := slices.foldl (fun m i => SMap.set m i w) v.ways })))

/-- CONFIG LENDING (R383, R384, R264). -/
def lendingBody (s : State) (pay : List Byte) : Answer :=
  let d := leAt pay 2 1
  let lend := leAt pay 8 1
  let borrow := leAt pay 9 1
  let core := leAt pay 10 1
  refuseFirst [(2, decide (d < Config.vdevs)), (8, decide (lend ≤ 1)), (9, decide (borrow ≤ 1)), (10, decide (core < 16))]
    (.ok 0 [] (s.updVd d (fun v => { v with
      lend := lend == 1, borrow := borrow == 1, coreLend := BitVec.ofNat 8 core, drainUs := leAt pay 12 4 })))

/-! ## The fabric's items (R408 to R410, R430) -/

/-- CONFIG PEER (R409). -/
def peerBody (s : State) (pay : List Byte) : Answer :=
  let d := leAt pay 2 1
  let i := leAt pay 8 2
  let p := leAt pay 10 1
  refuseFirst [(2, decide (d < Config.vdevs)), (8, decide (i < 4096)), (10, decide (p < 8))]
    (.ok 0 [] (s.updVd d (fun v => { v with peers := SMap.set v.peers i ⟨p, (pay.drop 12).take 16⟩ })))

/-- CONFIG WINDOW (R410). -/
def windowBody (s : State) (pay : List Byte) : Answer :=
  let d := leAt pay 2 1
  let c := leAt pay 3 1
  let i := leAt pay 8 1
  let perm := leAt pay 9 1
  let peer := leAt pay 10 2
  let len := leAt pay 12 4
  let base := leAt pay 16 8
  refuseFirst (ctxChecks d c 2 3 ++ [(9, decide (perm ≤ 3)), (10, decide (peer < 4096)), (16, decide (base + len ≤ 9007199254740992))])
    (.ok 0 [] (s.updVd d (fun v => { v with
      windows := SMap.set v.windows i ⟨c, peer, base, len, perm.testBit 0, perm.testBit 1⟩ })))

/-- CONFIG TIMEOUT (R409): 10 microseconds to 100 milliseconds. -/
def timeoutBody (s : State) (pay : List Byte) : Answer :=
  let d := leAt pay 2 1
  let us := leAt pay 8 4
  refuseFirst [(2, decide (d < Config.vdevs)), (8, decide (10 ≤ us ∧ us ≤ 100000))]
    (.ok 0 [] (s.updVd d (fun v => { v with timeoutUs := us })))

/-- CONFIG PORT (R408). -/
def portBody (s : State) (pay : List Byte) : Answer :=
  let p := leAt pay 8 1
  let en := leAt pay 9 1
  let x : Port := ⟨en == 1, BitVec.ofNat 32 (leAt pay 12 4), (pay.drop 16).take 6, (pay.drop 24).take 16⟩
  refuseFirst [(8, decide (p < 8)), (9, decide (en ≤ 1))]
    (.ok 0 [] (s.updEndpoint (fun e => { e with ports := SMap.set e.ports p x })))

/-- The number of ports in a mask. -/
def portCount (m : Nat) : Nat := ((List.range 8).filter (fun i => m.testBit i)).length

/-- CONFIG CLOCK (R430): an ordinary clock uses one port. -/
def clockBody (s : State) (pay : List Byte) : Answer :=
  let mode := leAt pay 8 1
  let ports := leAt pay 9 1
  let pd := leAt pay 10 1
  refuseFirst [(8, decide (mode ≤ 1)), (9, mode == 1 || decide (portCount ports = 1)), (10, decide (pd ≤ 1))]
    (.ok 0 [] (s.updEndpoint (fun e => { e with clockMode := mode, clockPorts := ports, clockPeerDelay := pd == 1 })))

/-! ## A virtual device's own items -/

/-- CONFIG SBASE (R243). -/
def sbaseBody (s : State) (pay : List Byte) : Answer :=
  let d := leAt pay 2 1
  refuseFirst [(2, decide (d < Config.vdevs))] (.ok 0 [] (s.updVd d (fun v => { v with sbase := BitVec.ofNat 64 (leAt pay 8 8) })))

/-- CONFIG COUNTER (R377): the event is set and the counter cleared in one step. -/
def counterBody (s : State) (pay : List Byte) : Answer :=
  let d := leAt pay 2 1
  let i := leAt pay 8 1
  refuseFirst [(2, decide (d < Config.vdevs)), (8, decide (i < 64))]
    (.ok 0 [] (s.updVd d (fun v => { v with counters := SMap.set v.counters i ⟨leAt pay 9 1, 0⟩ })))

/-- CONFIG DEFAULTS (R251): what a CSRW of each would set. -/
def defaultsBody (s : State) (pay : List Byte) : Answer :=
  let d := leAt pay 2 1
  let csr : TeamCsr :=
    { fair := max 256 (min 65535 (leAt pay 8 4)), lease := max 1 (min 1023 (leAt pay 12 4)), ckint := max 4096 (leAt pay 16 4),
      dbg := BitVec.ofNat 32 (leAt pay 20 4 % 4) }
  refuseFirst [(2, decide (d < Config.vdevs))] (.ok 0 [] (s.updVd d (fun v => { v with defaults := csr })))

/-- CONFIG HBMAREA (R258, R269). -/
def hbmareaBody (s : State) (pay : List Byte) : Answer :=
  let d := leAt pay 2 1
  let kind := leAt pay 8 1
  let a : HbmArea := ⟨leAt pay 24 8, leAt pay 16 8⟩
  refuseFirst [(2, decide (d < Config.vdevs)), (8, decide (kind ≤ 1)), (16, decide (a.size ≤ Config.hbmEnd)),
      (24, decide (a.pa + a.size ≤ Config.hbmEnd))]
    (.ok 0 [] (s.updVd d (fun v => if kind = 0 then { v with undoArea := some a } else { v with saveArea := some a })))

/-- CONFIG PERMITS (R201, R405): never above the class's pool. -/
def permitsBody (s : State) (pay : List Byte) : Answer :=
  let x := leAt pay 8 2
  let n := leAt pay 10 1
  let set (s : State) (c : Nat) : State :=
    let s := s.updCore c (fun k => { k with pool := n })
    if (s.cor c).permitQ.isEmpty then s else s.post (.permitGrant c)
  refuseFirst [nameCheck 8 x Config.cores, (10, decide (n ≤ poolOfClass s.henip.pclass))]
    (.ok 0 [] (s.updEach (named x Config.cores) set))

/-! ## A context's items -/

/-- CONFIG ROOT (R388): in HBM, a multiple of 32 KiB. -/
def rootBody (s : State) (pay : List Byte) : Answer :=
  let d := leAt pay 2 1
  let c := leAt pay 3 1
  let pa := leAt pay 8 8
  refuseFirst (ctxChecks d c 2 3 ++ [(8, pa % 32768 == 0 && inHbm pa)]) (.ok 0 [] (s.updCtx d c (fun x => { x with root := some pa })))

/-- CONFIG CNTPAGE (R378): 0 unmaps it. -/
def cntpageBody (s : State) (pay : List Byte) : Answer :=
  let d := leAt pay 2 1
  let c := leAt pay 3 1
  let va := leAt pay 8 8
  refuseFirst (ctxChecks d c 2 3 ++ [(8, va % 65536 == 0 && decide (va < 9007199254740992))])
    (.ok 0 [] (s.updCtx d c (fun x => { x with cntpage := if va = 0 then none else some va })))

/-- The physical pages that a range is bound to (R333, R376). -/
def bindPages (s : State) (d c va n : Nat) : List Nat :=
  (pageBases va n).filterMap (fun p => s.hostAddr d c p)

/-- Whether every page of a range is mapped to HBM with R, and with W or without it. -/
def bindable (s : State) (d c va n : Nat) (w : Bool) : Bool :=
  (pageBases va n).all (fun p => (s.hostAddr d c p).isSome &&
    (match s.deviceWalk d c p with | some (_, e) => e.r && e.w == w | none => false))

/-- CONFIG RING (R376): bound to its pages, WIDX and RIDX set to 0. -/
def ringBody (s : State) (pay : List Byte) : Answer :=
  let d := leAt pay 2 1
  let c := leAt pay 3 1
  let kind := leAt pay 8 1
  let n := leAt pay 12 4
  let va := leAt pay 16 8
  let r : Ring := ⟨n, s.bindPages d c va n, va % 65536⟩
  let bound (s : State) : State :=
    (s.boundWrite d c r.pages r.off0 0 (toBytes 8 0)).boundWrite d c r.pages r.off0 8 (toBytes 8 0)
  refuseFirst (ctxChecks d c 2 3 ++ [(8, decide (kind ≤ 1)), (12, decide (4096 ≤ n ∧ n ≤ 1073741824) && n == 2 ^ Nat.log2 n),
      (16, va % n == 0 && s.bindable d c va n true)])
    (.ok 0 [] (bound (s.updVd d (fun v => if kind = 0 then { v with tileRing := some r } else { v with sumRing := some r }))))

/-! ## REGION (R329, R340) -/

/-- CONFIG REGION with OP 0 (or an OP that is none): as MODREG. -/
def regionRegisterBody (s : State) (pay : List Byte) : Answer :=
  let d := leAt pay 2 1
  let c := leAt pay 3 1
  let lg := leAt pay 9 1
  let n := leAt pay 12 4
  let base := leAt pay 16 8
  let g := 2 ^ lg
  refuseFirst (ctxChecks d c 2 3 ++ [(8, leAt pay 8 1 == 0), (9, decide (2 ≤ lg ∧ lg ≤ 8)), (12, decide (1 ≤ n)), (16, base % g == 0),
      (12, decide (base + n * g ≤ 9007199254740992)), (12, !s.meetsRegion d c base (n * g))])
    (match s.freeRegion d c with
    | none => .refused 16
    | some k => .ok k [] (s.enterRegion d c k ⟨base, lg, n⟩))

/-- CONFIG REGION with OP 1: as MODREL. -/
def regionReleaseBody (s : State) (pay : List Byte) : Answer :=
  let d := leAt pay 2 1
  let c := leAt pay 3 1
  let k := leAt pay 16 8
  refuseFirst (ctxChecks d c 2 3 ++
      [(16, decide (k < 256) && (SMap.find (s.ctx d c).regions k).isSome && !s.recording d c)])
    (.ok k [] (s.leaveRegion d c k))

/-! ## ARENA (R333, R370) -/

/-- Whether a range meets another arena of a context than the one at a handle of a kind. -/
def meetsArena (s : State) (d c va n : Nat) (manifest : Bool) : Bool :=
  s.manifests.any (fun m => m.vdev == d && m.ctx == c && !(manifest && m.handle == va) && rangesMeet va n m.handle m.size) ||
  s.ephems.any (fun e => e.vdev == d && e.ctx == c && !(!manifest && e.handle == va) && rangesMeet va n e.handle e.size)

/-- Binds an empty manifest arena, in the place of the one at its handle. -/
def bindManifest (s : State) (d c va n : Nat) : State :=
  let m : Manifest :=
    { vdev := d, ctx := c, handle := va, size := n, pages := s.bindPages d c va n, off0 := va % 65536, state := 0, cause := 0,
      runs := 0, carve := 0, rngk := 0, grid := 0, nextId := 0, image := 0, groups := 0, recs := [], launch := none, walk := none,
      wantState := none }
  ({ s with manifests := s.manifests.filter (fun (x : Manifest) => !x.isAt d c va) ++ [m] }).syncMan d c va

/-- Binds an empty ephemeris arena likewise. -/
def bindEphem (s : State) (d c va n : Nat) : State :=
  let e : Ephem :=
    { vdev := d, ctx := c, handle := va, size := n, pages := s.bindPages d c va n, off0 := va % 65536, state := 0, entries := [],
      phases := 0, divPhase := 0, divTeam := 0, met := [], bound := false, cut := false }
  ({ s with ephems := s.ephems.filter (fun (x : Ephem) => !(x.vdev == d && x.ctx == c && x.handle == va)) ++ [e] }).syncEph d c va

/-- Whether the arena at a handle is in use, so that its replacement is answered BUSY. -/
def arenaBusy (s : State) (d c va : Nat) (manifest : Bool) : Bool :=
  if manifest then (s.man? d c va).any (fun m => m.state == 1 || m.state == 4)
  else (s.eph d c va).any (fun e => e.state == 1 || e.state == 3)

/-- CONFIG ARENA (R333): VALUE is the handle. -/
def arenaBody (s : State) (pay : List Byte) : Answer :=
  let d := leAt pay 2 1
  let c := leAt pay 3 1
  let kind := leAt pay 8 1
  let n := leAt pay 16 8
  let va := leAt pay 24 8
  refuseFirst (ctxChecks d c 2 3 ++ [(8, decide (kind ≤ 1)), (16, decide (4096 ≤ n ∧ n ≤ 9007199254740992) && n % 4096 == 0),
      (24, decide (va + n ≤ 9007199254740992) && s.bindable d c va n false && !s.meetsArena d c va n (kind == 0))])
    (if s.arenaBusy d c va (kind == 0) then .status 3
    else .ok va [] (if kind = 0 then s.bindManifest d c va n else s.bindEphem d c va n))

/-- The course of a CONFIG with an item: another item's message is none of this one. -/
def runConfig (s : State) (i : Instr) (item : Nat) (who : Sender) (msg : List Byte) (size : Nat)
    (body : State → List Byte → Answer) : Ran :=
  if bears msg 0x10 && decide (34 ≤ msg.length) && leAt msg 32 2 != item then .next s
  else s.run i 0x10 who msg .owner (fixed size) body

/-- Whether a CONFIG REGION names a release. -/
def isRelease (msg : List Byte) : Bool := leAt msg 40 1 == 1

end State

/-! ## The instructions -/

/-- CONFIG QUOTA (R381). -/
def execConfigQuota (who : Sender) (msg : List Byte) (s : State) : Ran :=
  s.runConfig (.configQuota who msg) 0x01 who msg 36 State.quotaBody

/-- CONFIG BUCKET (R382). -/
def execConfigBucket (who : Sender) (msg : List Byte) (s : State) : Ran :=
  s.runConfig (.configBucket who msg) 0x02 who msg 20 State.bucketBody

/-- CONFIG WAYS (R382, R384). -/
def execConfigWays (who : Sender) (msg : List Byte) (s : State) : Ran :=
  s.runConfig (.configWays who msg) 0x03 who msg 16 State.waysBody

/-- CONFIG LENDING (R383, R384). -/
def execConfigLending (who : Sender) (msg : List Byte) (s : State) : Ran :=
  s.runConfig (.configLending who msg) 0x04 who msg 16 State.lendingBody

/-- CONFIG PEER (R409). -/
def execConfigPeer (who : Sender) (msg : List Byte) (s : State) : Ran :=
  s.runConfig (.configPeer who msg) 0x05 who msg 28 State.peerBody

/-- CONFIG WINDOW (R410). -/
def execConfigWindow (who : Sender) (msg : List Byte) (s : State) : Ran :=
  s.runConfig (.configWindow who msg) 0x06 who msg 24 State.windowBody

/-- CONFIG TIMEOUT (R409). -/
def execConfigTimeout (who : Sender) (msg : List Byte) (s : State) : Ran :=
  s.runConfig (.configTimeout who msg) 0x07 who msg 12 State.timeoutBody

/-- CONFIG SBASE (R243). -/
def execConfigSbase (who : Sender) (msg : List Byte) (s : State) : Ran :=
  s.runConfig (.configSbase who msg) 0x08 who msg 16 State.sbaseBody

/-- CONFIG RING (R376). -/
def execConfigRing (who : Sender) (msg : List Byte) (s : State) : Ran :=
  s.runConfig (.configRing who msg) 0x09 who msg 24 State.ringBody

/-- CONFIG COUNTER (R377). -/
def execConfigCounter (who : Sender) (msg : List Byte) (s : State) : Ran :=
  s.runConfig (.configCounter who msg) 0x0A who msg 10 State.counterBody

/-- CONFIG REGION, registering (R329). -/
def execConfigRegionRegister (who : Sender) (msg : List Byte) (s : State) : Ran :=
  if State.isRelease msg then .next s
  else s.runConfig (.configRegionRegister who msg) 0x0B who msg 24 State.regionRegisterBody

/-- CONFIG REGION, releasing (R329). -/
def execConfigRegionRelease (who : Sender) (msg : List Byte) (s : State) : Ran :=
  if State.isRelease msg then s.runConfig (.configRegionRelease who msg) 0x0B who msg 24 State.regionReleaseBody
  else .next s

/-- CONFIG ARENA (R333, R370). -/
def execConfigArena (who : Sender) (msg : List Byte) (s : State) : Ran :=
  s.runConfig (.configArena who msg) 0x0C who msg 32 State.arenaBody

/-- CONFIG HBMAREA (R258, R269). -/
def execConfigHbmarea (who : Sender) (msg : List Byte) (s : State) : Ran :=
  s.runConfig (.configHbmarea who msg) 0x0D who msg 32 State.hbmareaBody

/-- CONFIG PERMITS (R201, R405). -/
def execConfigPermits (who : Sender) (msg : List Byte) (s : State) : Ran :=
  s.runConfig (.configPermits who msg) 0x0E who msg 12 State.permitsBody

/-- CONFIG ROOT (R388). -/
def execConfigRoot (who : Sender) (msg : List Byte) (s : State) : Ran :=
  s.runConfig (.configRoot who msg) 0x0F who msg 16 State.rootBody

/-- CONFIG DEFAULTS (R251). -/
def execConfigDefaults (who : Sender) (msg : List Byte) (s : State) : Ran :=
  s.runConfig (.configDefaults who msg) 0x10 who msg 24 State.defaultsBody

/-- CONFIG CNTPAGE (R378). -/
def execConfigCntpage (who : Sender) (msg : List Byte) (s : State) : Ran :=
  s.runConfig (.configCntpage who msg) 0x11 who msg 16 State.cntpageBody

/-- CONFIG PORT (R408). -/
def execConfigPort (who : Sender) (msg : List Byte) (s : State) : Ran :=
  s.runConfig (.configPort who msg) 0x12 who msg 40 State.portBody

/-- CONFIG CLOCK (R430). -/
def execConfigClock (who : Sender) (msg : List Byte) (s : State) : Ran :=
  s.runConfig (.configClock who msg) 0x13 who msg 12 State.clockBody

end Sys2Proof.Machine
end

