-- ==== Sys2Proof/Machine/HostLaunch.lean ====
section
/-! DEFINITION. The commands that start and steer work (R420, R424, R426): LAUNCH, PROPAGATE, STOP and RESUME (R373), LANDBIND
and LANDREL (R415). -/

namespace Sys2Proof.Machine

namespace State

/-! ## LAUNCH (R426) -/

/-- The launch of a launch record (R426), its image and parameters given. A launch without a shape runs in clusters of one
team (R276); QUANTUM 0 means 65,536 (R364). -/
def launchOf (who : Sender) (seq : Word) (pay : List Byte) (img : Image) (params : List Byte) : Launch :=
  let f := leAt pay 7 1
  { Launch.none with
    id := BitVec.ofNat 64 (leAt pay 64 8), who := who, seq := seq, vdev := leAt pay 4 1, ctx := leAt pay 5 1, prio := leAt pay 6 1
    traced := f.testBit 0, det := f.testBit 1, replay := f.testBit 2, img := img, params := params, teams := leAt pay 24 4
    groups := leAt pay 28 1, ch := max 1 (leAt pay 29 1), cw := max 1 (leAt pay 30 1), carve := leAt pay 32 4
    quantum := if leAt pay 36 4 = 0 then 65536 else leAt pay 36 4, rngk := BitVec.ofNat 64 (leAt pay 40 8)
    mhandle := leAt pay 48 8, ephem := leAt pay 56 8, nextTask := leAt pay 24 4, complete := false }

/-- The checks of a launch record before its image's (R426). -/
def recordChecks (pay : List Byte) : List Check :=
  let f := leAt pay 7 1
  [(0, leAt pay 0 4 == 0x4E4C485A)] ++ ctxChecks (leAt pay 4 1) (leAt pay 5 1) 4 5 ++
  [(6, decide (leAt pay 6 1 ≤ 7)), (7, decide (f < 8) && (!f.testBit 2 || f.testBit 1))]

/-- The carve's rules (R191). -/
def carveOk (img : Image) (c : Nat) : Bool :=
  c % 16384 == 0 && decide (c ≤ 655360) && img.variants.any (fun v => decide (v.scratch ≤ c))

/-- The checks after the image's (R426, R276, R191, R364, R334, R370 to R372). -/
def restChecks (s : State) (pay : List Byte) (l : Launch) : List Check :=
  let h := leAt pay 29 1
  let w := leAt pay 30 1
  let q := leAt pay 36 4
  let states : List Nat := if l.replay then [2, 5] else [0, 2]
  let eph := s.eph l.vdev l.ctx l.ephem
  [ (24, decide (1 ≤ l.teams ∧ l.teams ≤ 16777216) && l.teams % (l.ch * l.cw) == 0), (28, decide (1 ≤ l.groups ∧ l.groups ≤ 32))
  , (29, decide (h ≤ 10) && ((h == 0) == (w == 0))), (30, decide (w ≤ 12 ∧ l.ch * l.cw ≤ 12)), (32, carveOk l.img l.carve)
  , (36, q == 0 || (l.det && decide (4096 ≤ q ∧ q ≤ 16777216)))
  , (48, if l.traced then l.mhandle != 0 && (s.man? l.vdev l.ctx l.mhandle).isSome else l.mhandle == 0)
  , (56, if l.det then l.ephem != 0 && eph.any (fun e => e.state == 1 || e.state == 3 || states.contains e.state)
      else l.ephem == 0)
  , (64, !s.launches.any (fun e => e.2.id == l.id && !e.2.complete && !e.2.prop)) ]

/-- Whether what a launch names is in use (R419). -/
def launchBusy (s : State) (l : Launch) : Bool :=
  (l.traced && s.arenaBusy l.vdev l.ctx l.mhandle true) || (l.det && s.arenaBusy l.vdev l.ctx l.ephem false)

/-- A traced launch's manifest begins to record (R334). -/
def beginManifest (s : State) (uid : Nat) (l : Launch) : State :=
  if l.traced then
    (s.updMan l.vdev l.ctx l.mhandle (fun m => { m with
      state := 1, cause := 0, runs := 0, carve := l.carve, rngk := l.rngk, grid := l.teams, nextId := l.teams, image := l.img.addr
      groups := l.groups, recs := [], launch := some uid, walk := none, wantState := none })).syncMan l.vdev l.ctx l.mhandle
  else s

/-- A deterministic launch's ephemeris begins to record, or to bind the run (R371, R372). -/
def beginEphem (s : State) (l : Launch) : State :=
  if l.det then
    (s.updEph l.vdev l.ctx l.ephem (fun e =>
      if l.replay then { e with state := 3, met := [], bound := true, cut := e.state == 5 }
      else { e with state := 1, entries := [], phases := 0, divPhase := 0, divTeam := 0, met := [], bound := false, cut := false })).syncEph
      l.vdev l.ctx l.ephem
  else s

/-- Queues a launch (R420); it follows the outside's earlier writes. -/
def queueLaunch (s : State) (l : Launch) : State :=
  let (uid, s) := s.newUid
  (({ s with launches := SMap.set s.launches uid { l with stamp := s.outStamp } }).beginManifest uid l).beginEphem l

/-- The image at an address of a context, read by outside reads (R319) and checked (R41): first its header, then all of it. -/
def readImage (s : State) (d c addr : Nat) (go : Except Nat Image → State → Answer) : Answer :=
  let at_ := s.hostAddr d c
  if !rangeMapped at_ addr 64 then go (.error 0) s
  else answerOf (s.outsideGet at_ (lineSpans addr 64)) (fun head s =>
    let n := Img.size (fun off n => leAt head off n)
    if !rangeMapped at_ addr n then go (.error 60) s
    else answerOf (s.outsideGet at_ (lineSpans addr n)) (fun img s =>
      let r : ImgRead := fun off n => leAt img off n
      match Img.bad r n with
      | some f => go (.error f) s
      | none => go (.ok (Img.parse r addr)) s))

/-- LAUNCH (R426, R41). -/
def launchBody (who : Sender) (seq : Word) (s : State) (pay : List Byte) : Answer :=
  let d := leAt pay 4 1
  let c := leAt pay 5 1
  let pa := leAt pay 16 8
  refuseFirst (recordChecks pay)
    (s.readImage d c (leAt pay 8 8) (fun r s => match r with
    | .error _ => .refused 8
    | .ok img =>
      if (leAt pay 7 1).testBit 0 && !img.modular then .refused 8
      else if !rangeMapped (s.hostAddr d c) pa img.psize then .refused 16
      else answerOf (s.outsideGet (s.hostAddr d c) (lineSpans pa img.psize)) (fun params s =>
        let l := launchOf who seq pay img params
        refuseFirst (s.restChecks pay l) (if s.launchBusy l then .status 3 else .ok 0 [] (s.queueLaunch l)))))

/-- PROPAGATE (R341, R424). -/
def propagateBody (s : State) (pay : List Byte) : Answer :=
  let d := leAt pay 0 1
  let c := leAt pay 1 1
  refuseFirst (ctxChecks d c 0 1)
    (match s.man? d c (leAt pay 8 8) with
    | none => .refused 8
    | some m =>
      if m.state = 0 then .refused 8
      else if m.state = 1 || m.state = 4 then .status 3
      else .ok 1 [] (s.startPropagation m))

/-! ## STOP and RESUME (R373) -/

/-- The launch not yet completed of an identifier. -/
def launchNamed (s : State) (id : Nat) : Option Nat :=
  ((s.launches.filter (fun e => e.2.id.toNat == id && !e.2.complete && !e.2.prop)).map Prod.fst).head?

/-- The latest team of a task of a launch. -/
def taskTeam? (s : State) (l task : Nat) : Option Nat :=
  ((s.teams.filter (fun e => e.2.launch == l && e.2.task == task)).map Prod.fst).getLast?

/-- A stop toward a point of a deterministic team's schedule: the interval passed, the point passed in it, or still ahead. -/
def stopPrecise (s : State) (u : Nat) (q : StopReq) : Answer :=
  let t := s.team u
  if q.interval < t.interval then .status 6
  else
    let s := if q.interval = t.interval && decide (q.work < t.work) then s.rollBackOr u else s
    let s := s.updTeam u (fun t => { t with stop := some q, phase := if t.phase != .stopped then t.phase else if t.drainBy.isSome then .draining else .running })
    .silent ((s.stopDue u).getD s)

/-- A stop outside deterministic mode: at this bundle boundary, imprecise, with the %work reached. -/
def stopNow (s : State) (u : Nat) : Answer :=
  .ok ((s.team u).work + 9223372036854775808) [] (s.updTeam u (fun t => { t with phase := .stopped }))

/-- STOP (R373). A task that waits to run, or for a stop already asked, keeps the command waiting. -/
def stopBody (who : Sender) (seq : Word) (s : State) (pay : List Byte) : Answer :=
  let task := leAt pay 8 4
  match s.launchNamed (leAt pay 0 8) with
  | none => .refused 0
  | some l =>
    if (s.lau l).nextTask ≤ task then .refused 8
    else
      match s.taskTeam? l task with
      | none => .later s
      | some u =>
        let t := s.team u
        if t.phase == .ended then .status 7
        else if t.stop.isSome || !(t.phase.issues || t.phase == .stopped) then .later s
        else if (s.lau l).det then s.stopPrecise u ⟨who, seq, leAt pay 16 8, leAt pay 24 8⟩
        else s.stopNow u

/-- RESUME (R373). -/
def resumeBody (s : State) (pay : List Byte) : Answer :=
  match s.launchNamed (leAt pay 0 8) with
  | none => .refused 0
  | some l =>
    match s.taskTeam? l (leAt pay 8 4) with
    | none => .refused 8
    | some u =>
      if (s.team u).phase == .stopped then
        .ok 0 [] (((s.updTeam u (fun t => { t with phase := if t.drainBy.isSome then .draining else .running })).closeIfDue u).settle u)
      else .refused 8

/-! ## Landings (R415) -/

/-- The scratchpad that a task's landing must lie in: its team's, or that of the smallest variant it may take. -/
def landingScratch (s : State) (l task : Nat) : Option Nat :=
  let least (img : Image) : Nat := (img.variants.map Variant.scratch).foldl min 655360
  match s.taskTeam? l task with
  | some u => if (s.team u).phase == .ended then none else if (s.team u).phase == .restarting then some (least (s.team u).img)
      else some (s.team u).var.scratch
  | none =>
    if task < (s.lau l).teams then some (least (s.lau l).img)
    else ((s.lau l).spawned.find? (fun q => q.task == task)).map (fun q => least q.img)

/-- Sets or clears NET in a landing's barrier, where its team holds a scratchpad. -/
def landingNet (s : State) (x : Landing) (on : Bool) : Res Unit :=
  match (s.launchNamed x.launchId.toNat).bind (fun l => s.taskTeam? l x.task) with
  | some u =>
    if (s.team u).phase == .ended || (s.team u).phase == .restarting || (s.team u).phase == .admitted then .ok () s
    else s.setNet u x.boff on
  | none => .ok () s

/-- The lowest free binding number. -/
def freeBinding (s : State) : Option Nat := (List.range 4096).find? (fun n => (SMap.find s.endpoint.landings n).isNone)

/-- LANDBIND (R415). -/
def landbindBody (s : State) (pay : List Byte) : Answer :=
  let d := leAt pay 0 1
  let c := leAt pay 1 1
  let x : Landing :=
    { vdev := d, ctx := c, rctx := leAt pay 2 2, tag := BitVec.ofNat 32 (leAt pay 4 4), launchId := BitVec.ofNat 64 (leAt pay 8 8),
      task := leAt pay 16 4, roff := leAt pay 20 4, rlen := leAt pay 24 4, boff := leAt pay 28 4 }
  let taken := s.endpoint.landings.any (fun e => e.2.rctx == x.rctx && e.2.tag == x.tag)
  let l := (s.launchNamed x.launchId.toNat).filter (fun l => (s.lau l).vdev == d && (s.lau l).ctx == c)
  let size := l.bind (fun l => s.landingScratch l x.task)
  let n := size.getD 0
  refuseFirst (ctxChecks d c 0 1 ++ [(2, x.rctx != 0), (4, !taken), (8, l.isSome), (16, size.isSome), (20, decide (x.roff ≤ n)),
      (24, decide (x.roff + x.rlen ≤ n)), (28, x.boff % 16 == 0 && decide (x.boff + 16 ≤ n))])
    (match s.freeBinding with
    | none => .refused 2
    | some k => answerOf (s.landingNet x true) (fun _ s =>
        .ok k [] (s.updEndpoint (fun e => { e with landings := SMap.set e.landings k x }))))

/-- LANDREL (R415): NET is cleared where no other landing counts the same barrier. -/
def landrelBody (s : State) (pay : List Byte) : Answer :=
  let k := leAt pay 0 4
  match SMap.find s.endpoint.landings k with
  | none => .refused 0
  | some x =>
    let rest := SMap.erase s.endpoint.landings k
    let other := rest.any (fun e => e.2.launchId == x.launchId && e.2.task == x.task && e.2.boff == x.boff)
    let done (s : State) : Answer := .ok 0 [] (s.updEndpoint (fun e => { e with landings := rest }))
    if other then done s else answerOf (s.landingNet x false) (fun _ s => done s)

end State

/-- LAUNCH (R426). -/
def execLaunch (who : Sender) (msg : List Byte) (s : State) : Ran :=
  s.run (.launch who msg) 0x01 who msg .owner (State.fixed 80) (State.launchBody who (BitVec.ofNat 32 (leAt msg 8 4)))

/-- PROPAGATE (R341). -/
def execPropagate (who : Sender) (msg : List Byte) (s : State) : Ran :=
  s.run (.propagate who msg) 0x02 who msg .owner (State.fixed 16) State.propagateBody

/-- STOP (R373). -/
def execStop (who : Sender) (msg : List Byte) (s : State) : Ran :=
  s.run (.stop who msg) 0x11 who msg .owner (State.fixed 32) (State.stopBody who (BitVec.ofNat 32 (leAt msg 8 4)))

/-- RESUME (R373). -/
def execResume (who : Sender) (msg : List Byte) (s : State) : Ran :=
  s.run (.resume who msg) 0x12 who msg .owner (State.fixed 16) State.resumeBody

/-- LANDBIND (R415). -/
def execLandbind (who : Sender) (msg : List Byte) (s : State) : Ran :=
  s.run (.landbind who msg) 0x13 who msg .owner (State.fixed 32) State.landbindBody

/-- LANDREL (R415). -/
def execLandrel (who : Sender) (msg : List Byte) (s : State) : Ran :=
  s.run (.landrel who msg) 0x14 who msg .owner (State.fixed 8) State.landrelBody

end Sys2Proof.Machine
end

