-- ==== Sys2Proof/Machine/Place.lean ====
section
/-! DEFINITION. Placing one instruction where the next step fetches: a launch with one resident team of one thread at task
level, an identity mapping, and the instruction's bytes at the thread's PC and in the core's instruction cache (notes/assumptions/23.md says how a program comes
to run from reset). -/

namespace Sys2Proof.Machine

/-- Where the instruction is placed: virtual and physical address. -/
def placeAt : Nat := 65536

/-- The tables of the placed mapping: a level-A table that names a level-B table whose first entry maps 2 GiB one to one,
readable, writable and executable (R388, R389). -/
def placeRoot : Nat := 0x40000
def placeNext : Nat := 0x48000

/-- A variant with every budget at its limit and every switch point at the placed instruction. -/
def placeVariant : Variant :=
  { lregs := 128, uregs := 64, accums := 8, permits := 8, scratch := 65536, entry := 0, codeLen := 65536,
    handler := 0xFFFFFFFF, points := List.replicate 256 0 }

/-- The image of the placed instruction. -/
def placeImage : Image :=
  { addr := placeAt, idempotent := false, modular := false, npoint := 255, psize := 0, codeOff := 0, codeSize := 65536,
    imgSize := 65536, variants := [placeVariant], maps := [] }

/-- The one thread, at the placed instruction (R68). -/
def placeThread : Thread := Thread.start (BitVec.ofNat 64 placeAt) 0 0 0 none

/-- The body of the one team. -/
def placeBody : TeamBody := { TeamBody.empty with threads := [(0, placeThread)], groups := [(0, Group.start)] }

/-- The launch of one team. -/
def placeLaunch : Launch :=
  { Launch.none with img := placeImage, teams := 1, groups := 1, carve := 65536, nextClus := 1, nextTask := 1, complete := false }

/-- The team, resident on core 0 in quadrant 0. -/
def placeTeam (launch cluster : Nat) : Team :=
  { Team.none with launch := launch, cluster := cluster, gcount := 1, img := placeImage, quads := [0], phase := .running,
                   body := placeBody, snap := placeBody }

namespace State

/-- The state with the instruction whose bits are `w` placed for the next step. -/
def place (s : State) (nbits w : Nat) : State :=
  let u := s.nextUid
  let l := u + 1
  let c := u + 2
  let mem := Mem.write s.mem placeRoot (toBytes 8 (placeNext + 1))
  let mem := Mem.write mem placeNext (toBytes 8 0x1F)
  let mem := Mem.write mem placeAt (toBytes 16 (w % 2 ^ nbits))
  let s := { s with
    mem := mem
    teams := SMap.set s.teams u (placeTeam l c)
    clusters := SMap.set s.clusters c ⟨l, 0, [u], []⟩
    launches := SMap.set s.launches l placeLaunch
    codeLog := s.codeLog.filter (fun e => e.word / 32 != lineOf placeAt)
    buckets := SMap.set (SMap.set s.buckets (bucketKey (Arbiter.issue 0).number 0) ⟨65536, 1024, 1024 * 65536⟩)
      (bucketKey (Arbiter.memory 0).number 0) ⟨65536, 65536, 65536 * 65536⟩
    agenda := .issue u 0 :: s.agenda
    nextUid := u + 3 }
  let s := s.updCore 0 (fun k => { k with icache := ⟨identOf 0 0, lineOf placeAt, lineBytes mem (lineOf placeAt)⟩ :: k.icache })
  s.updCtx 0 0 (fun x => { x with root := some placeRoot })

end State

end Sys2Proof.Machine
end

