-- ==== Sys2Proof/Machine/Dispatch.lean ====
section
/-! DEFINITION. The dispatch of every instruction and event to its meaning. -/

namespace Sys2Proof.Machine

/-- What an instruction or event does. -/
def exec (i : Instr) (s : State) : Host.Outcome State Fault Refusal :=
  match i with
  | .iadd h ty d a b => Sys2Proof.Machine.execIadd h ty d a b s
  | .isub h ty d a b => Sys2Proof.Machine.execIsub h ty d a b s
  | .imul h ty d a b => Sys2Proof.Machine.execImul h ty d a b s
  | .imulh h ty d a b => Sys2Proof.Machine.execImulh h ty d a b s
  | .imad h ty d a b c => Sys2Proof.Machine.execImad h ty d a b c s
  | .idiv h ty d a b => Sys2Proof.Machine.execIdiv h ty d a b s
  | .irem h ty d a b => Sys2Proof.Machine.execIrem h ty d a b s
  | .imin h ty d a b => Sys2Proof.Machine.execImin h ty d a b s
  | .imax h ty d a b => Sys2Proof.Machine.execImax h ty d a b s
  | .and h ty d a b => Sys2Proof.Machine.execAnd h ty d a b s
  | .or h ty d a b => Sys2Proof.Machine.execOr h ty d a b s
  | .xor h ty d a b => Sys2Proof.Machine.execXor h ty d a b s
  | .andn h ty d a b => Sys2Proof.Machine.execAndn h ty d a b s
  | .not h ty d a => Sys2Proof.Machine.execNot h ty d a s
  | .shl h ty d a b => Sys2Proof.Machine.execShl h ty d a b s
  | .shr h ty d a b => Sys2Proof.Machine.execShr h ty d a b s
  | .sar h ty d a b => Sys2Proof.Machine.execSar h ty d a b s
  | .rotl h ty d a b => Sys2Proof.Machine.execRotl h ty d a b s
  | .popc h ty d a => Sys2Proof.Machine.execPopc h ty d a s
  | .clz h ty d a => Sys2Proof.Machine.execClz h ty d a s
  | .brev h ty d a => Sys2Proof.Machine.execBrev h ty d a s
  | .bfx h ty d a b => Sys2Proof.Machine.execBfx h ty d a b s
  | .bfi h ty d a b c => Sys2Proof.Machine.execBfi h ty d a b c s
  | .perm h d a b c => Sys2Proof.Machine.execPerm h d a b c s
  | .lea h ext ty d a b sh => Sys2Proof.Machine.execLea h ext ty d a b sh s
  | .icmp h cond ty d a b => Sys2Proof.Machine.execIcmp h cond ty d a b s
  | .idp4 h sa sb ty d a b c => Sys2Proof.Machine.execIdp4 h sa sb ty d a b c s
  | .fadd h ty d a b => Sys2Proof.Machine.execFadd h ty d a b s
  | .fsub h ty d a b => Sys2Proof.Machine.execFsub h ty d a b s
  | .fmul h ty d a b => Sys2Proof.Machine.execFmul h ty d a b s
  | .ffma h ty d a b c => Sys2Proof.Machine.execFfma h ty d a b c s
  | .fmin h nan ty d a b => Sys2Proof.Machine.execFmin h nan ty d a b s
  | .fmax h nan ty d a b => Sys2Proof.Machine.execFmax h nan ty d a b s
  | .fcmp h cond ty d a b => Sys2Proof.Machine.execFcmp h cond ty d a b s
  | .fclass h ty d a => Sys2Proof.Machine.execFclass h ty d a s
  | .frnd h away ty d a => Sys2Proof.Machine.execFrnd h away ty d a s
  | .fcvt h ty sty d a => Sys2Proof.Machine.execFcvt h ty sty d a s
  | .f2i h ty sty d a => Sys2Proof.Machine.execF2i h ty sty d a s
  | .i2f h ty sty d a => Sys2Proof.Machine.execI2f h ty sty d a s
  | .padd h ty d a b => Sys2Proof.Machine.execPadd h ty d a b s
  | .pmul h ty d a b => Sys2Proof.Machine.execPmul h ty d a b s
  | .pfma h ty d a b c => Sys2Proof.Machine.execPfma h ty d a b c s
  | .pdot2 h ty d a b c => Sys2Proof.Machine.execPdot2 h ty d a b c s
  | .rng h unif d => Sys2Proof.Machine.execRng h unif d s
  | .sfq h fn tok d a => Sys2Proof.Machine.execSfq h fn tok d a s
  | .waitt h a => Sys2Proof.Machine.execWaitt h a s
  | .sleept h a => Sys2Proof.Machine.execSleept h a s
  | .lwait h a b => Sys2Proof.Machine.execLwait h a b s
  | .mov h ty d a => Sys2Proof.Machine.execMov h ty d a s
  | .sel h ty p d a b => Sys2Proof.Machine.execSel h ty p d a b s
  | .plop h lut d a b c => Sys2Proof.Machine.execPlop h lut d a b c s
  | .movp h d => Sys2Proof.Machine.execMovp h d s
  | .movpSet h a b => Sys2Proof.Machine.execMovpSet h a b s
  | .rdsr h sr d => Sys2Proof.Machine.execRdsr h sr d s
  | .nop h => Sys2Proof.Machine.execNop h s
  | .elect h d a => Sys2Proof.Machine.execElect h d a s
  | .shfl h mode ty rp d a b c => Sys2Proof.Machine.execShfl h mode ty rp d a b c s
  | .vote h fn d inp b c => Sys2Proof.Machine.execVote h fn d inp b c s
  | .ballot h d inp c => Sys2Proof.Machine.execBallot h d inp c s
  | .matchLanes h ty rp d a c => Sys2Proof.Machine.execMatchLanes h ty rp d a c s
  | .redux h op ty rp d a b c => Sys2Proof.Machine.execRedux h op ty rp d a b c s
  | .scan h op excl ty rp d a c => Sys2Proof.Machine.execScan h op excl ty rp d a c s
  | .collectiveStall team group address => Sys2Proof.Machine.execCollectiveStall team group address s
  | .ld h sp hint ty d a b => Sys2Proof.Machine.execLd h sp hint ty d a b s
  | .st h sp hint ty a b c => Sys2Proof.Machine.execSt h sp hint ty a b c s
  | .atom h op nr hint ty d a b c => Sys2Proof.Machine.execAtom h op nr hint ty d a b c s
  | .lr h hint ty d a b => Sys2Proof.Machine.execLr h hint ty d a b s
  | .sc h hint ty d a b c => Sys2Proof.Machine.execSc h hint ty d a b c s
  | .fenceE h => Sys2Proof.Machine.execFenceE h s
  | .fenceN h => Sys2Proof.Machine.execFenceN h s
  | .pref h l2 a b => Sys2Proof.Machine.execPref h l2 a b s
  | .cpy h d a => Sys2Proof.Machine.execCpy h d a s
  | .mma h a => Sys2Proof.Machine.execMma h a s
  | .mdrain h a => Sys2Proof.Machine.execMdrain h a s
  | .mzero h a => Sys2Proof.Machine.execMzero h a s
  | .nput h a => Sys2Proof.Machine.execNput h a s
  | .nget h a => Sys2Proof.Machine.execNget h a s
  | .nsend h a => Sys2Proof.Machine.execNsend h a s
  | .waitc h cls n => Sys2Proof.Machine.execWaitc h cls n s
  | .bra h off => Sys2Proof.Machine.execBra h off s
  | .brx h a => Sys2Proof.Machine.execBrx h a s
  | .call h d off => Sys2Proof.Machine.execCall h d off s
  | .callX h d a => Sys2Proof.Machine.execCallX h d a s
  | .ret h a => Sys2Proof.Machine.execRet h a s
  | .exit h => Sys2Proof.Machine.execExit h s
  | .bar h b => Sys2Proof.Machine.execBar h b s
  | .barArv h b => Sys2Proof.Machine.execBarArv h b s
  | .barrierWatchdog cluster owner b => Sys2Proof.Machine.execBarrierWatchdog cluster owner b s
  | .cbar h b => Sys2Proof.Machine.execCbar h b s
  | .cbarArv h b => Sys2Proof.Machine.execCbarArv h b s
  | .swpt h point => Sys2Proof.Machine.execSwpt h point s
  | .spawn h d a => Sys2Proof.Machine.execSpawn h d a s
  | .modreg h lg d a b => Sys2Proof.Machine.execModreg h lg d a b s
  | .modrel h a => Sys2Proof.Machine.execModrel h a s
  | .prop h d a => Sys2Proof.Machine.execProp h d a s
  | .hnew h d => Sys2Proof.Machine.execHnew h d s
  | .hent h a => Sys2Proof.Machine.execHent h a s
  | .hresConf h d a => Sys2Proof.Machine.execHresConf h d a s
  | .hresRef h d a => Sys2Proof.Machine.execHresRef h d a s
  | .dph h => Sys2Proof.Machine.execDph h s
  | .trap h a => Sys2Proof.Machine.execTrap h a s
  | .tret h => Sys2Proof.Machine.execTret h s
  | .csrr h csr d => Sys2Proof.Machine.execCsrr h csr d s
  | .csrw h csr a => Sys2Proof.Machine.execCsrw h csr a s
  | .ckpt h => Sys2Proof.Machine.execCkpt h s
  | .permitAcq h a => Sys2Proof.Machine.execPermitAcq h a s
  | .permitRel h a => Sys2Proof.Machine.execPermitRel h a s
  | .permitTry h d a => Sys2Proof.Machine.execPermitTry h d a s
  | .permitGrant core => Sys2Proof.Machine.execPermitGrant core s
  | .yield h a => Sys2Proof.Machine.execYield h a s
  | .yieldExpiry team thread => Sys2Proof.Machine.execYieldExpiry team thread s
  | .tlbiPage h a => Sys2Proof.Machine.execTlbiPage h a s
  | .tlbiCtx h => Sys2Proof.Machine.execTlbiCtx h s
  | .tlbiVdev h => Sys2Proof.Machine.execTlbiVdev h s
  | .cflush h a b => Sys2Proof.Machine.execCflush h a b s
  | .uadd h ty d a b => Sys2Proof.Machine.execUadd h ty d a b s
  | .usub h ty d a b => Sys2Proof.Machine.execUsub h ty d a b s
  | .umul h ty d a b => Sys2Proof.Machine.execUmul h ty d a b s
  | .umulh h ty d a b => Sys2Proof.Machine.execUmulh h ty d a b s
  | .umad h ty d a b c => Sys2Proof.Machine.execUmad h ty d a b c s
  | .umin h ty d a b => Sys2Proof.Machine.execUmin h ty d a b s
  | .umax h ty d a b => Sys2Proof.Machine.execUmax h ty d a b s
  | .uand h ty d a b => Sys2Proof.Machine.execUand h ty d a b s
  | .uor h ty d a b => Sys2Proof.Machine.execUor h ty d a b s
  | .uxor h ty d a b => Sys2Proof.Machine.execUxor h ty d a b s
  | .ushl h ty d a b => Sys2Proof.Machine.execUshl h ty d a b s
  | .ushr h ty d a b => Sys2Proof.Machine.execUshr h ty d a b s
  | .usar h ty d a b => Sys2Proof.Machine.execUsar h ty d a b s
  | .ulea h ext ty d a b sh => Sys2Proof.Machine.execUlea h ext ty d a b sh s
  | .ucmp h cond ty d a b => Sys2Proof.Machine.execUcmp h cond ty d a b s
  | .umov h ty d a => Sys2Proof.Machine.execUmov h ty d a s
  | .urdsr h sr d => Sys2Proof.Machine.execUrdsr h sr d s
  | .uld h sp hint ty d a b => Sys2Proof.Machine.execUld h sp hint ty d a b s
  | .ust h sp hint ty a b c => Sys2Proof.Machine.execUst h sp hint ty a b c s
  | .ubra h off => Sys2Proof.Machine.execUbra h off s
  | .icacheFill core ident line => Sys2Proof.Machine.execIcacheFill core ident line s
  | .fairnessPromotion team thread => Sys2Proof.Machine.execFairnessPromotion team thread s
  | .resultWriteback team thread seq => Sys2Proof.Machine.execResultWriteback team thread seq s
  | .takeTrap team thread cause va vb => Sys2Proof.Machine.execTakeTrap team thread cause va vb s
  | .bCaptureComplete op => Sys2Proof.Machine.execBCaptureComplete op s
  | .matrixOperation core => Sys2Proof.Machine.execMatrixOperation core s
  | .ferryTransfer op row => Sys2Proof.Machine.execFerryTransfer op row s
  | .engineCompletionReport op => Sys2Proof.Machine.execEngineCompletionReport op s
  | .sfqResult team group token => Sys2Proof.Machine.execSfqResult team group token s
  | .sleepExpiry team thread => Sys2Proof.Machine.execSleepExpiry team thread s
  | .switchRequest team target => Sys2Proof.Machine.execSwitchRequest team target s
  | .variantSwitch team => Sys2Proof.Machine.execVariantSwitch team s
  | .switchWithdrawal team => Sys2Proof.Machine.execSwitchWithdrawal team s
  | .teamAdmission launch task core => Sys2Proof.Machine.execTeamAdmission launch task core s
  | .clusterAdmission launch => Sys2Proof.Machine.execClusterAdmission launch s
  | .teamStart team => Sys2Proof.Machine.execTeamStart team s
  | .teamCompletion team => Sys2Proof.Machine.execTeamCompletion team s
  | .intervalClose team => Sys2Proof.Machine.execIntervalClose team s
  | .rollback team => Sys2Proof.Machine.execRollback team s
  | .uncorrectableError site thread => Sys2Proof.Machine.execUncorrectableError site thread s
  | .preemption team need estimate => Sys2Proof.Machine.execPreemption team need estimate s
  | .drainTimeout team => Sys2Proof.Machine.execDrainTimeout team s
  | .save team => Sys2Proof.Machine.execSave team s
  | .resumption team core => Sys2Proof.Machine.execResumption team core s
  | .homeRead core vdev ctx pa lease => Sys2Proof.Machine.execHomeRead core vdev ctx pa lease s
  | .homeRenewal core vdev ctx pa lease => Sys2Proof.Machine.execHomeRenewal core vdev ctx pa lease s
  | .homeOwnership core vdev ctx pa size => Sys2Proof.Machine.execHomeOwnership core vdev ctx pa size s
  | .homeWriteThrough core vdev ctx pa data => Sys2Proof.Machine.execHomeWriteThrough core vdev ctx pa data s
  | .homeAtomic core vdev ctx pa op ty operand expected => Sys2Proof.Machine.execHomeAtomic core vdev ctx pa op ty operand expected s
  | .recall pa forRead => Sys2Proof.Machine.execRecall pa forRead s
  | .merge pa => Sys2Proof.Machine.execMerge pa s
  | .l1Eviction core pa => Sys2Proof.Machine.execL1Eviction core pa s
  | .ptsAdvance => Sys2Proof.Machine.execPtsAdvance s
  | .reservationExpiry team thread => Sys2Proof.Machine.execReservationExpiry team thread s
  | .sweep die => Sys2Proof.Machine.execSweep die s
  | .retentionSleep cache => Sys2Proof.Machine.execRetentionSleep cache s
  | .retentionWake cache => Sys2Proof.Machine.execRetentionWake cache s
  | .tagParityError cache entry => Sys2Proof.Machine.execTagParityError cache entry s
  | .translationWalk core vdev ctx va kind supervisor => Sys2Proof.Machine.execTranslationWalk core vdev ctx va kind supervisor s
  | .quantumExpiry team => Sys2Proof.Machine.execQuantumExpiry team s
  | .serialPhase launch => Sys2Proof.Machine.execSerialPhase launch s
  | .propagateWalk manifest => Sys2Proof.Machine.execPropagateWalk manifest s
  | .reexecutionCompletion team => Sys2Proof.Machine.execReexecutionCompletion team s
  | .bucketRefill => Sys2Proof.Machine.execBucketRefill s
  | .wayReclaim die slice way => Sys2Proof.Machine.execWayReclaim die slice way s
  | .coreRangeReclaim vdev core => Sys2Proof.Machine.execCoreRangeReclaim vdev core s
  | .reclaimTimeout team => Sys2Proof.Machine.execReclaimTimeout team s
  | .functionLevelReset vdev => Sys2Proof.Machine.execFunctionLevelReset vdev s
  | .powerOn failure => Sys2Proof.Machine.execPowerOn failure s
  | .powerDown => Sys2Proof.Machine.execPowerDown s
  | .healthUpdate => Sys2Proof.Machine.execHealthUpdate s
  | .securityAlarm source => Sys2Proof.Machine.execSecurityAlarm source s
  | .droopEvent die => Sys2Proof.Machine.execDroopEvent die s
  | .throttling die => Sys2Proof.Machine.execThrottling die s
  | .thermalTrip die => Sys2Proof.Machine.execThermalTrip die s
  | .linkRetrain link => Sys2Proof.Machine.execLinkRetrain link s
  | .inboundNput vdev peer window offset data => Sys2Proof.Machine.execInboundNput vdev peer window offset data s
  | .inboundNget vdev peer window offset len => Sys2Proof.Machine.execInboundNget vdev peer window offset len s
  | .landingMessage rctx tag moff data => Sys2Proof.Machine.execLandingMessage rctx tag moff data s
  | .networkAcknowledgement op negative => Sys2Proof.Machine.execNetworkAcknowledgement op negative s
  | .transportTimeout op => Sys2Proof.Machine.execTransportTimeout op s
  | .ptpMessage correctionNs => Sys2Proof.Machine.execPtpMessage correctionNs s
  | .launch who msg => Sys2Proof.Machine.execLaunch who msg s
  | .propagate who msg => Sys2Proof.Machine.execPropagate who msg s
  | .memread who msg => Sys2Proof.Machine.execMemread who msg s
  | .memwrite who msg => Sys2Proof.Machine.execMemwrite who msg s
  | .claim who msg => Sys2Proof.Machine.execClaim who msg s
  | .electionWindowEnd => Sys2Proof.Machine.execElectionWindowEnd s
  | .handover who msg => Sys2Proof.Machine.execHandover who msg s
  | .ownerTimeout => Sys2Proof.Machine.execOwnerTimeout s
  | .loadimg who msg => Sys2Proof.Machine.execLoadimg who msg s
  | .configQuota who msg => Sys2Proof.Machine.execConfigQuota who msg s
  | .configBucket who msg => Sys2Proof.Machine.execConfigBucket who msg s
  | .configWays who msg => Sys2Proof.Machine.execConfigWays who msg s
  | .configLending who msg => Sys2Proof.Machine.execConfigLending who msg s
  | .configPeer who msg => Sys2Proof.Machine.execConfigPeer who msg s
  | .configWindow who msg => Sys2Proof.Machine.execConfigWindow who msg s
  | .configTimeout who msg => Sys2Proof.Machine.execConfigTimeout who msg s
  | .configSbase who msg => Sys2Proof.Machine.execConfigSbase who msg s
  | .configRing who msg => Sys2Proof.Machine.execConfigRing who msg s
  | .configCounter who msg => Sys2Proof.Machine.execConfigCounter who msg s
  | .configRegionRegister who msg => Sys2Proof.Machine.execConfigRegionRegister who msg s
  | .configRegionRelease who msg => Sys2Proof.Machine.execConfigRegionRelease who msg s
  | .configArena who msg => Sys2Proof.Machine.execConfigArena who msg s
  | .configHbmarea who msg => Sys2Proof.Machine.execConfigHbmarea who msg s
  | .configPermits who msg => Sys2Proof.Machine.execConfigPermits who msg s
  | .configRoot who msg => Sys2Proof.Machine.execConfigRoot who msg s
  | .configDefaults who msg => Sys2Proof.Machine.execConfigDefaults who msg s
  | .configCntpage who msg => Sys2Proof.Machine.execConfigCntpage who msg s
  | .configPort who msg => Sys2Proof.Machine.execConfigPort who msg s
  | .configClock who msg => Sys2Proof.Machine.execConfigClock who msg s
  | .stop who msg => Sys2Proof.Machine.execStop who msg s
  | .resume who msg => Sys2Proof.Machine.execResume who msg s
  | .landbind who msg => Sys2Proof.Machine.execLandbind who msg s
  | .landrel who msg => Sys2Proof.Machine.execLandrel who msg s
  | .status who msg => Sys2Proof.Machine.execStatus who msg s
  | .log who msg => Sys2Proof.Machine.execLog who msg s
  | .health who msg => Sys2Proof.Machine.execHealth who msg s
  | .attest who msg => Sys2Proof.Machine.execAttest who msg s
  | .fwload who msg => Sys2Proof.Machine.execFwload who msg s
  | .commit who msg => Sys2Proof.Machine.execCommit who msg s
  | .reset who msg => Sys2Proof.Machine.execReset who msg s
  | .cntread who msg => Sys2Proof.Machine.execCntread who msg s
  | .ngetResponse op data => Sys2Proof.Machine.execNgetResponse op data s
  | .powerLoss => Sys2Proof.Machine.execPowerLoss s
  | .droopRecovery die => Sys2Proof.Machine.execDroopRecovery die s
  | .throttlingEnd die => Sys2Proof.Machine.execThrottlingEnd die s
  | .ptpMasterLost => Sys2Proof.Machine.execPtpMasterLost s
  | .masterGone master => Sys2Proof.Machine.execMasterGone master s

end Sys2Proof.Machine
end

