-- ==== Sys2Proof/Machine/Run.lean ====
section
/-! DEFINITION. What a turn does, which turns the device can take by itself, and the passing of a cycle of %cyc: the clocks,
the waits and timeouts that run out, and the inputs that were put off. -/

namespace Sys2Proof.Machine

namespace State

/-! ## A cycle -/

/-- %ptp after a cycle (R69, R430): it follows %cyc at 2.7 GHz; a slew moves it a nanosecond in 13,500 cycles, which is 200 ppm. -/
def tickPtp (s : State) : State :=
  let step : Int := ((s.cyc * 10 / 27 : Nat) : Int) - ((s.cyc - 1) * 10 / 27 : Nat)
  if s.cyc % 13500 = 0 && s.ptpAdjust != 0 then
    let d : Int := if 0 < s.ptpAdjust then 1 else -1
    { s.movePtp (step + d) with ptpAdjust := s.ptpAdjust - d }
  else s.movePtp step

/-- Throttled time (R406, R424). -/
def tickThrottle (s : State) : State :=
  { s with dies := SMap.mapVal s.dies (fun _ (x : Die) => if x.throttled then { x with throttleCyc := x.throttleCyc + 1 } else x) }

/-- Whether a team's quadrants may issue in a cycle (R154): resident, not held, and with a token of issue. -/
def issuesNow (s : State) (u : Nat) : Bool :=
  let t := s.team u
  t.phase.issues && !t.closing && !s.owedPermits u && (s.vd t.vdev).resetting.isNone && !s.stoppedByResolve u &&
  s.affords (.issue t.core) t.vdev 1

/-- The fairness counters of the candidates (R154); a deterministic team counts selections instead (R365). -/
def tickFair (s : State) (u : Nat) : State :=
  if (s.lau (s.team u).launch).det || !s.issuesNow u then s
  else s.updBody u (fun b => { b with threads := SMap.mapVal b.threads (fun _ t => if t.st.candidate then t.tickFair b.csr.fair else t) })

/-- A wait that the device ends in its own time, so that a deterministic team's next selection waits for it (R365). -/
def inFlight (k : WaitKind) : Bool :=
  match k with
  | .room _ | .home | .close | .resolve _ _ _ | .tlbi _ | .ckpt => true
  | _ => false

/-- A deterministic team none of whose threads can be selected while some yield: its turn passes as a selection of nothing, once every
result and completion has arrived (R203, R365). -/
def tickEmpty (s : State) (u : Nat) : State :=
  let t := s.team u
  let l := s.lau t.launch
  let yields := !(s.waiting u (fun k => match k with | .yield _ => true | _ => false)).isEmpty
  if l.det && t.phase.issues && !t.closing && yields && !s.ops.any (fun o => o.team == u) && decide (t.body.quantumWork < l.quantum) then
    let s := ((s.drainAll u).deliverAll u).recheck u
    if (s.detQuadrant u).isNone && (s.waiting u inFlight).isEmpty then
      s.updBody u (fun b => { b with selections := b.selections + 1 })
    else s
  else s

/-- The waits and timers of a team that have run out. DESIGN CHOICE (notes/assumptions/96.md): a barrier's watchdog (R160) counts every
cycle since the last arrival that its phase holds, those of a save or before a rollback too. -/
def dueOfTeam (s : State) (u : Nat) : List Instr :=
  let t := s.team u
  let threads := t.body.threads.flatMap (fun e =>
    match e.2.st, e.2.wait with
    | .waiting, some w =>
      (match w.kind with
      | .sleept stamp _ => if stamp.toNat ≤ s.cyc then [.sleepExpiry u e.1] else []
      | .yield n => if n ≤ s.yieldClock u then [.yieldExpiry u e.1] else []
      | _ => [])
    | _, _ => [])
  let bars := (t.body.bars.filter (fun e => decide (0 < e.2.count ∧ e.2.last + Config.watchdogCycles ≤ s.cyc))).map
    (fun e => .barrierWatchdog false u e.1)
  let colls := t.body.groups.flatMap (fun g => (g.2.colls.filter (fun c =>
      let r := s.stalled u g.1 c
      (r.1 ++ r.2).any (fun l => s.waitedLong u (32 * g.1 + l)))).map (fun c => .collectiveStall u g.1 c.address))
  let sw := match t.sw with
    | some w => if w.since.any (fun n => decide (n + 4 * t.body.csr.fair ≤ s.cyc)) && s.withdrawable u then [.switchWithdrawal u] else []
    | none => []
  let drain := if (t.phase == .draining || t.phase == .stopped) && t.drainBy.any (fun n => decide (n ≤ s.cyc)) then [.drainTimeout u] else []
  (if t.phase.issues then threads ++ bars ++ colls ++ sw else []) ++ drain

/-- What time alone makes due in the rest of the device. -/
def dueElsewhere (s : State) : List Instr :=
  (if s.cyc % 2048 = 0 then (List.range Config.dies).map .sweep else []) ++
  (if s.buckets.isEmpty then [] else [.bucketRefill]) ++
  s.clusters.flatMap (fun c => (c.2.bars.filter (fun e => decide (0 < e.2.count ∧ e.2.last + Config.watchdogCycles ≤ s.cyc))).map
    (fun e => .barrierWatchdog true c.1 e.1)) ++
  (s.resv.filter (fun r => decide (r.placed + Config.reservationCycles ≤ s.cyc))).map (fun r => .reservationExpiry r.team r.thread) ++
  (s.teams.filter (fun e => e.2.phase == .saved && e.2.reclaimBy.any (fun n => decide (n ≤ s.cyc)))).map (fun e => .reclaimTimeout e.1) ++
  (s.ops.filter (fun o => o.net.isSome && o.started && !o.complete &&
    decide (o.issuedAt + (s.vd (s.team o.team).vdev).timeoutUs * Config.cyclesPerUs ≤ s.cyc))).map (fun o => .transportTimeout o.uid) ++
  (s.vdevs.filter (fun e => e.2.resetting.any (fun n => s.drained e.1 || decide (n + drainCycles ≤ s.cyc)))).map
    (fun e => .functionLevelReset e.1) ++
  (if s.endpoint.electionAt.any (fun n => decide (n ≤ s.cyc)) then [.electionWindowEnd] else []) ++
  (if (s.endpoint.owner.bind (fun n => SMap.find s.endpoint.masters n)).any (fun m => decide (m.lastFrame + silenceCycles ≤ s.cyc)) then
    [.ownerTimeout] else []) ++
  (if s.henip.healthAt + 60000000 * Config.cyclesPerUs ≤ s.cyc then [.healthUpdate] else [])

/-- A cycle of %cyc passes (R69). -/
def cycleTurn (s : State) : State :=
  let s := s.keepPromises.pruneAll
  let s := { s with cyc := s.cyc + 1 }
  let s := s.tickPtp.tickThrottle
  let us := (s.teams.filter (fun e => e.2.phase != .ended)).map Prod.fst
  let s := us.foldl (fun s u => (s.tickFair u).tickEmpty u) s
  let s : State := (s.ops.filter (fun o => !o.started && o.net.isSome)).foldl (fun (s : State) (o : EngineOp) => s.netStart o.uid) s
  -- the advance of R326 is the cycle's own: it comes before every access of the cycle
  let first : List Turn := if s.cyc % 1024 = 0 then [.event .ptsAdvance] else []
  let s := { s with agenda := first ++ s.later.map Turn.event ++ s.agenda, later := [] }
  ((us.flatMap s.dueOfTeam) ++ s.dueElsewhere).foldl (fun (s : State) i => s.post i) s

/-! ## The turns the device can take by itself -/

/-- Waits that the team's next issue turn looks at, whatever made their condition hold (R140, R157, R195, R223, R224, R235, R237,
R241, R259, R260, R331, R392). -/
def lazyKind (k : WaitKind) : Bool :=
  match k with
  | .room _ | .home | .close | .dataflow _ | .lwait _ _ | .tlbi _ | .resolve _ _ _ | .waitc _ _ | .fenceE _ | .fenceN _ | .waitt _ => true
  | .marker | .barDrain _ _ | .cbarDrain _ _ => true
  | _ => false

/-- What a team's parts allow: issue, results, special functions, its start, close, save, switch and completion. -/
def teamTurns (s : State) (u : Nat) : List Turn :=
  let t := s.team u
  let looks := !(s.waiting u lazyKind).isEmpty || t.body.threads.any (fun e => e.2.st == .parked && s.settled u e.1)
  let issue := ((List.range 4).filter (fun q => decide (SMap.get t.lastIssue q 0 ≤ s.cyc) &&
    ((s.mayIssue u q && !(s.candidates u q).isEmpty) || looks || (s.stopDue u).isSome))).map (fun q => Turn.issue u q)
  let results := t.body.threads.flatMap (fun e => e.2.pend.map (fun p =>
    match p.tag with
    | .capture op => Turn.event (.bCaptureComplete op)
    | _ => .event (.resultWriteback u e.1 p.seq)))
  let tokens := t.body.groups.flatMap (fun g => g.2.tokens.map (fun k => Turn.event (.sfqResult u g.1 k.num)))
  let promoted := (t.body.threads.filter (fun e => e.2.st.candidate && !e.2.promoted && s.windowReached u e.1)).map
    (fun e => Turn.event (.fairnessPromotion u e.1))
  let switches := if t.sw.isNone && t.phase.issues then
      ((List.range t.img.variants.length).filter (fun v => v != t.variant)).map (fun v => Turn.event (.switchRequest u v)) else []
  (if t.phase.issues || (t.phase == .saving && looks) then issue else []) ++ (if t.phase.issues then promoted else []) ++ results ++ tokens ++ switches ++
  (if t.phase == .admitted then [.event (.teamStart u)] else []) ++
  (if t.closing && s.closable u then [.event (.intervalClose u)] else []) ++
  (if t.phase == .saving && s.saveReady u then [.event (.save u)] else []) ++
  (if s.switchBegun u then [.event (.variantSwitch u)] else if t.sw.isSome && s.withdrawable u then [.event (.switchWithdrawal u)] else []) ++
  (if s.completable u then [.event (.teamCompletion u)] else []) ++
  (if (s.lau t.launch).det && decide ((s.lau t.launch).quantum ≤ t.body.quantumWork) then [.event (.quantumExpiry u)] else []) ++
  (if t.phase.resident && t.phase != .saving then [.event (.preemption u .other (Config.freeChoice s.draws))] else [])

/-- What an operation in flight allows. -/
def opTurns (s : State) (o : EngineOp) : List Turn :=
  (match o.kind with
  | .cpy k =>
    if o.complete || !s.ferryMayRun o then []
    else if o.fault.isSome then [.event (.ferryTransfer o.uid ((List.range k.rows).find? (fun i => !o.rowsDone.contains i) |>.getD 0))]
    else ((List.range k.rows).filter (fun i => !o.rowsDone.contains i)).map (fun i => Turn.event (.ferryTransfer o.uid i))
  | _ => []) ++
  (if o.complete && s.oldestOf o then [.event (.engineCompletionReport o.uid)] else [])

/-- What a core allows: its matrix engine, its permit queue, the eviction of its lines. -/
def coreTurns (s : State) (c : Nat) : List Turn :=
  (if (s.matrixTurnOf c).isSome then [.event (.matrixOperation c)] else []) ++
  (match (s.cor c).permitQ with
  | w :: _ => if s.grantable c w then [.event (.permitGrant c)] else []
  | [] => []) ++
  (s.cor c).l1.map (fun e => .event (.l1Eviction c (128 * e.1)))

/-- What a launch allows: admissions and its serial phase. -/
def launchTurns (s : State) (l : Nat) : List Turn :=
  let entryOf (it : Item) : List Turn :=
    match it, s.itemSpots l it with
    | _, none => []
    | .back c, some sp => ((s.clu c).members.zip sp).filterMap (fun e => e.2.map (fun p =>
        if (s.team e.1).phase == .saved then Turn.event (.resumption e.1 p.core) else .event (.clusterAdmission l)))
    | _, some [some p] => if s.itemShape l it = (1, 1) then [.event (.teamAdmission l (s.itemTask l it) p.core)] else [.event (.clusterAdmission l)]
    | _, some _ => [.event (.clusterAdmission l)]
  if (s.lau l).complete then []
  else (s.itemsOf l).flatMap entryOf ++ (if s.phaseDue l then [.event (.serialPhase l)] else [])

/-- What a manifest's walk allows. -/
def walkTurns (s : State) (i : Nat) (m : Manifest) : List Turn :=
  match m.walk with
  | none => []
  | some w =>
    if w.full then []
    else if w.waiting then
      (s.teams.filter (fun e => e.2.phase == .ended && e.2.reexec.isSome && e.2.reexec == w.at_ && m.launch == some e.2.launch)).map
        (fun e => .event (.reexecutionCompletion e.1))
    else [.event (.propagateWalk i)]

/-- What a die's fetch agent allows (R56): the return of each line in flight. DESIGN CHOICE (notes/assumptions/87.md): the device's own
turns fill no line that no instruction has asked for; a prefetch comes only as an ICACHE_FILL on the agenda. -/
def fetchTurns (x : Die) : List Turn :=
  x.fetches.flatMap (fun f => (f.joined.take 1).map (fun e => .event (.icacheFill e.1 e.2 f.line)))

/-- The turns the device can take by itself now. -/
def enabledTurns (s : State) : List Turn :=
  if s.henip.power != .up then []
  else
    ((s.teams.filter (fun e => e.2.phase != .ended)).flatMap (fun e => s.teamTurns e.1)) ++ s.ops.flatMap s.opTurns ++
    s.cores.flatMap (fun e => s.coreTurns e.1) ++ s.dies.flatMap (fun e => fetchTurns e.2) ++ s.launches.flatMap (fun e => s.launchTurns e.1) ++
    (List.range s.manifests.length).flatMap (fun i => match s.manifests[i]? with | some m => s.walkTurns i m | none => []) ++
    (s.vdevs.filter (fun e => e.2.lend && !(s.waitingTeams e.1).isEmpty)).flatMap (fun e =>
      ((s.resident.filter (fun u => (s.team u).lender == some e.1)).map (fun u => .event (.coreRangeReclaim e.1 (s.team u).core)))) ++
    (s.vdevs.filter (fun e => e.2.resetting.isSome && s.drained e.1)).map (fun e => .event (.functionLevelReset e.1))

/-- The next turn: the agenda's first, else a free choice among the turns the device can take and the passing of a cycle. None
where the device has no power and nothing waits on the agenda. -/
def nextTurn (s : State) : Option (Turn × State) :=
  match s.agenda with
  | t :: rest => some (t, { s with agenda := rest })
  | [] =>
    if !s.powered then none
    else
      match s.enabledTurns with
      | [] => some (.cycle, s)
      | ts => some (ts.getD (Config.freeChoice s.draws % (ts.length + 1)) .cycle, s.draw)

end State

/-- Runs the instruction of the bundle in hand; the bundle is then done. One that was put off whole has not issued (R259): the state
before its selection stands, with the closes it asks for. -/
def runIssued (before : State) (i : Instr) (s : State) : Host.Outcome State Fault Refusal :=
  match exec i s with
  | .next t => .next (if t.issue.threads.isEmpty then before.askCloses t else { t with issue := ⟨0, []⟩ })
  | r => r

/-- Runs a turn that has been taken. -/
def runTurn (t : Turn) (s : State) : Host.Outcome State Fault Refusal :=
  match t with
  | .event i => exec i s
  | .issue u q =>
    match s.issueTurn u q with
    | (some i, t) => runIssued s i t
    | (none, t) => .next t
  | .cycle => .next s.cycleTurn

end Sys2Proof.Machine
end

