-- ==== Sys2Proof/Machine/Step.lean ====
section
/-! DEFINITION. A step of the device: its next turn. -/

namespace Sys2Proof.Machine

/-- A step. -/
def step (s : State) : Host.Outcome State Fault Refusal :=
  match s.nextTurn with
  | none => .fault .poweredOff
  | some p => runTurn p.1 p.2

/-- The state with an instruction stored where the next step fetches and runs it. -/
def State.withFetchWord (s : State) (nbits w : Nat) : State := s.place nbits w

end Sys2Proof.Machine
end

