-- ==== Sys2Proof/Safety.lean ====
section
/-! DEFINITION. The terms that claims use: what a register, a byte or a predicate holds, when a thread executes an instruction
(R57), when the end of its bundle closes nothing (R146, R195, R256), what an instruction leaves as it was, and reachable states. -/

namespace Sys2Proof.Safety

open Sys2Proof.Machine

/-! ## What the state holds -/

/-- What a lane register holds. -/
def reg (s : State) (u tid r : Nat) : Word := SMap.get (s.thr u tid).regs r 0

/-- What a uniform register of a group holds. -/
def ureg (s : State) (u g r : Nat) : Word := SMap.get (s.grp u g).uregs r 0

/-- What a predicate holds. -/
def pred (s : State) (u tid q : Nat) : Bool := (s.thr u tid).preds.getLsbD q

/-- A byte of HBM as its home holds it. -/
def byte (s : State) (a : Nat) : Byte := Mem.get s.mem a

/-- A byte of a team's scratchpad array. -/
def scr (s : State) (u off : Nat) : Byte := Mem.get (s.team u).scratch off

/-- A value lies in consecutive lane registers, its low word lowest (R7, R46). -/
def Holds (s : State) (u tid r : Nat) : List Word → Prop
  | [] => True
  | w :: ws => reg s u tid r = w ∧ Holds s u tid (r + 1) ws

/-- A value lies in consecutive uniform registers. -/
def UHolds (s : State) (u g r : Nat) : List Word → Prop
  | [] => True
  | w :: ws => ureg s u g r = w ∧ UHolds s u g (r + 1) ws

/-- An outstanding result of a thread (R157) that will write these registers and predicates. -/
def Owes (s : State) (u tid : Nat) (tag : PendTag) (regs : List (Nat × Word)) (preds : List (Nat × Bool)) : Prop :=
  ∃ p ∈ (s.thr u tid).pend, p.tag = tag ∧ p.regs = regs ∧ p.preds = preds

/-! ## When a thread executes an instruction -/

/-- One thread is in hand and executes the instruction: it may issue and waits at no switch point (R149, R156, R198),
it passes the checks of R51, R64, R198 and R251, its
guard holds (R53), and no hazard trap is taken on an outstanding operand (R158). -/
structure Runs (s : State) (u tid : Nat) (i : Instr) : Prop where
  inHand : s.issue = ⟨u, [tid]⟩
  team : (s.team u).phase.issues = true
  ready : (s.thr u tid).st = .ready ∨ (s.thr u tid).st = .inHandler
  notHeld : tid ∉ s.waiting u State.isSwpt
  form : s.formBad u tid i = false
  range : (regUse i).beyond (s.team u).var = false
  level : needsSupervisor i = true → (s.thr u tid).priv = .supervisor
  guard : s.guard u tid (headOf i) = true
  calm : s.hazardOn u = false ∨
    (s.earlyGuard u tid (headOf i) = false ∧ s.earlyRead u tid (regUse i) = false ∧ s.captureConflict u tid i (regUse i) = false)

/-- The end of the bundle closes nothing and completes nothing: the interval's count and log have room (R256), no stop (R373) and
no close is asked for, no arrival at a collective may complete (R174), and no barrier of the team or its cluster stands complete
(R146, R195, R281). -/
structure Quiet (s : State) (u n : Nat) : Prop where
  count : (s.team u).work + n < (s.team u).body.csr.ckint
  log : logBytes (s.team u) + 8192 ≤ Config.undoLogBytes
  stop : (s.team u).stop = none
  closing : (s.team u).closing = false
  colls : ∀ g, ∀ c ∈ (s.grp u g).colls, ∀ a ∈ CInstance.waits c, s.collReady u g c a = false
  bars : ∀ b, State.Bar.full (s.bar u b) (s.team u).body.live = false
  cbars : (s.lau (s.team u).launch).det = true ∨
    ∀ b, State.Bar.full (s.cbarOf (s.team u).cluster b) (s.cluLive (s.team u).cluster) = false

/-- One thread executes the instruction and its bundle ends quietly. -/
def Clear (s : State) (u tid : Nat) (i : Instr) : Prop := Runs s u tid i ∧ Quiet s u 1

/-- What an instruction of one thread may write: lane, uniform-register and predicate numbers of its thread or group; the sticky
flags, the random counter and key, the trap slots and the hypothesis of its thread; the CSRs, barriers, permits and accumulators
of its team;
the handler base of its virtual device; scratchpad bytes, by team and offset, and bytes of HBM. -/
structure Touch where
  lanes : List Nat := []
  unis : List Nat := []
  preds : List Nat := []
  flags : Bool := false
  rng : Bool := false
  key : Bool := false
  slots : Bool := false
  hyp : Bool := false
  csr : Bool := false
  bars : Bool := false
  permits : Bool := false
  sbase : Bool := false
  accs : Bool := false
  stores : List (Nat × Nat) := []
  bytes : List Nat := []

/-- What an instruction of one thread leaves as it was: everything of the registers, the thread, its team and memory but what it
may write; the thread's level and privilege; every other thread. -/
structure Frame (s t : State) (u tid : Nat) (w : Touch) : Prop where
  lanes : ∀ r, r ∉ w.lanes → reg t u tid r = reg s u tid r
  preds : ∀ q, q ∉ w.preds → pred t u tid q = pred s u tid q
  flags : w.flags = false → (t.thr u tid).fflags = (s.thr u tid).fflags
  counter : w.rng = false → (t.thr u tid).rngc = (s.thr u tid).rngc
  key : w.key = false → (t.thr u tid).rngk = (s.thr u tid).rngk
  level : (t.thr u tid).level = (s.thr u tid).level
  priv : (t.thr u tid).priv = (s.thr u tid).priv
  slot1 : w.slots = false → (t.thr u tid).slot1 = (s.thr u tid).slot1
  slot2 : w.slots = false → (t.thr u tid).slot2 = (s.thr u tid).slot2
  hyp : w.hyp = false → (t.thr u tid).hyp = (s.thr u tid).hyp
  others : ∀ v j, ¬(v = u ∧ j = tid) → t.thr v j = s.thr v j
  unis : ∀ v g r, ¬(v = u ∧ g = groupOf tid ∧ r ∈ w.unis) → ureg t v g r = ureg s v g r
  csr : ∀ v, ¬(v = u ∧ w.csr = true) → (t.team v).body.csr = (s.team v).body.csr
  accs : ∀ v, ¬(v = u ∧ w.accs = true) → (t.team v).body.accs = (s.team v).body.accs
  bars : ∀ v, ¬(v = u ∧ w.bars = true) → (t.team v).body.bars = (s.team v).body.bars
  permits : ∀ v, ¬(v = u ∧ w.permits = true) → (t.team v).body.permits = (s.team v).body.permits
  sbase : ∀ d, ¬(d = (s.team u).vdev ∧ w.sbase = true) → (t.vd d).sbase = (s.vd d).sbase
  scratch : ∀ v off, (v, off) ∉ w.stores → scr t v off = scr s v off
  mem : ∀ a, a ∉ w.bytes → byte t a = byte s a

/-- The thread went on: its PC stands after the instruction (R57), and it counts in %work (R70). -/
def WentOn (s t : State) (u tid : Nat) (i : Instr) : Prop :=
  (t.thr u tid).pc = nextPc i (s.thr u tid).pc ∧ (t.team u).work = (s.team u).work + 1

/-- The thread waits with its instruction retired: it goes on after it (R156), and counts in %work (R70). -/
def Waits (s t : State) (u tid : Nat) (i : Instr) (k : WaitKind) : Prop :=
  (t.thr u tid).st = .waiting ∧ (t.thr u tid).wait = some ⟨k, (s.thr u tid).pc, (headOf i).k, s.cyc, (s.team u).interval⟩ ∧
    (t.thr u tid).pc = nextPc i (s.thr u tid).pc ∧ (t.team u).work = (s.team u).work + 1

/-- `n` consecutive numbers from `d` up. -/
def span (d n : Nat) : List Nat := (List.range n).map (fun j => d + j)

/-! ## How an instruction of one thread completes -/

/-- The instruction completes with a value of `n` words in its lane destination for the very next instruction, and changes
nothing else. -/
def Gives (i : Instr) (d : BitVec 7) (n : Nat) (v : State → Nat → Nat → Nat) : Prop :=
  ∀ s u tid, Clear s u tid i → ∃ t, exec i s = .next t ∧ Holds t u tid d.toNat (wordsOf n (v s u tid)) ∧
    Frame s t u tid { lanes := span d.toNat n } ∧ WentOn s t u tid i

/-- As `Gives`, with flags that are raised and none cleared (R72). -/
def GivesNum (i : Instr) (d : BitVec 7) (n : Nat) (v : State → Nat → Nat → Nat × Flags) : Prop :=
  ∀ s u tid, Clear s u tid i → ∃ t, exec i s = .next t ∧ Holds t u tid d.toNat (wordsOf n (v s u tid).1) ∧
    (t.thr u tid).fflags = (s.thr u tid).fflags ||| (v s u tid).2 ∧
    Frame s t u tid { lanes := span d.toNat n, flags := true } ∧ WentOn s t u tid i

/-- The instruction completes with an outstanding result of `n` words for its lane destination (R157), nothing else changed. -/
def GivesLate (i : Instr) (d : BitVec 7) (n : Nat) (v : State → Nat → Nat → Nat) : Prop :=
  ∀ s u tid, Clear s u tid i → ∃ t, exec i s = .next t ∧ Owes t u tid .result (regPairs d.toNat (wordsOf n (v s u tid))) [] ∧
    Frame s t u tid {} ∧ WentOn s t u tid i

/-- The instruction completes with a truth value in its predicate destination, nothing else changed. -/
def GivesPred (i : Instr) (q : Pred) (v : State → Nat → Nat → Bool) : Prop :=
  ∀ s u tid, Clear s u tid i → ∃ t, exec i s = .next t ∧ pred t u tid q.val = v s u tid ∧
    Frame s t u tid { preds := [q.val] } ∧ WentOn s t u tid i

/-- The instruction completes and changes nothing but the thread's place and its count. -/
def GivesNothing (i : Instr) : Prop :=
  ∀ s u tid, Clear s u tid i → ∃ t, exec i s = .next t ∧ Frame s t u tid {} ∧ WentOn s t u tid i

/-- The instruction completes for a fragment of one thread with a value of `n` words in the uniform registers of the thread's
group for the very next instruction (R163), and changes nothing else. -/
def GivesUni (i : Instr) (d : BitVec 6) (n : Nat) (v : State → Nat → Nat → Nat) : Prop :=
  ∀ s u tid, Clear s u tid i → ∃ t, exec i s = .next t ∧ UHolds t u (groupOf tid) d.toNat (wordsOf n (v s u tid)) ∧
    Frame s t u tid { unis := span d.toNat n } ∧ WentOn s t u tid i

/-- The instruction completes and the thread's PC takes a target; nothing else changes. -/
def JumpsTo (i : Instr) (target : State → Nat → Nat → Addr) : Prop :=
  ∀ s u tid, Clear s u tid i → ∃ t, exec i s = .next t ∧ Frame s t u tid {} ∧ (t.thr u tid).pc = target s u tid ∧
    (t.team u).work = (s.team u).work + 1

/-- A fragment of one group, `lead` its lowest lane, executes a uniform-set instruction: the checks and the guard are those of
the lowest lane (R51, R57, R150). -/
structure RunsFragment (s : State) (u lead : Nat) (rest : List Nat) (i : Instr) : Prop where
  inHand : s.issue = ⟨u, lead :: rest⟩
  team : (s.team u).phase.issues = true
  ready : ∀ tid ∈ lead :: rest, (s.thr u tid).st = .ready ∨ (s.thr u tid).st = .inHandler
  group : ∀ tid ∈ rest, groupOf tid = groupOf lead
  notHeld : lead ∉ s.waiting u State.isSwpt
  form : s.formBad u lead i = false
  range : (regUse i).beyond (s.team u).var = false
  level : needsSupervisor i = true → (s.thr u lead).priv = .supervisor
  guard : s.guard u lead (headOf i) = true
  calm : s.hazardOn u = false ∨ (s.earlyGuard u lead (headOf i) = false ∧ s.earlyRead u lead (regUse i) = false)

/-- Where its condition holds the instruction completes and changes nothing but the thread's place and its count. -/
def PassesWhen (i : Instr) (p : State → Nat → Nat → Prop) : Prop :=
  ∀ s u tid, Clear s u tid i → p s u tid → ∃ t, exec i s = .next t ∧ Frame s t u tid {} ∧ WentOn s t u tid i

/-- Where its condition holds the instruction's thread waits, nothing else changed. -/
def WaitsWhen (i : Instr) (k : State → Nat → Nat → WaitKind) (p : State → Nat → Nat → Prop) : Prop :=
  ∀ s u tid, Clear s u tid i → p s u tid → ∃ t, exec i s = .next t ∧ Frame s t u tid {} ∧ Waits s t u tid i (k s u tid)

/-! ## Where an instruction of one thread leads -/

/-- A state with a draw of free values taken where an operand was outstanding (R158). -/
def drawn (s t : State) (u tid : Nat) (i : Instr) : State :=
  if s.earlyGuard u tid (headOf i) || s.earlyRead u tid (regUse i) then t.draw else t

/-- The thread goes on to `pc` from the state its operation left, and the bundle ends, or is put off where its team's undo log has
no room (R256). -/
def onward (s s1 : State) (u tid : Nat) (i : Instr) (pc : Addr) : State :=
  s.bundleDone (1, drawn s (s1.goOn u tid pc (headOf i).k) u tid i) true

/-- The thread goes on to the next instruction. -/
def onNext (s s1 : State) (u tid : Nat) (i : Instr) : State := onward s s1 u tid i (nextPc i (s.thr u tid).pc)

/-- The thread takes a trap at the instruction, which does not retire (R57, R245). -/
def trapped (s s1 : State) (u tid : Nat) (i : Instr) (x : TrapInfo) : State :=
  s.bundleDone (0, drawn s (s1.takeTrap u tid (s.thr u tid).pc x) u tid i) true

/-- The thread waits with its instruction retired: it goes on after it (R156). -/
def held (s s1 : State) (u tid : Nat) (i : Instr) (k : WaitKind) : State :=
  s.bundleDone (1, drawn s (s1.waitAt u tid k (s.thr u tid).pc (nextPc i (s.thr u tid).pc) (headOf i).k) u tid i) true

/-- The thread waits at the instruction, which issues again (R156); for another team's close (R259) the whole bundle is put off. -/
def putOff (s s1 : State) (u tid : Nat) (i : Instr) (k : WaitKind) : State :=
  s.bundleDone (0, drawn s (s1.waitAt u tid k (s.thr u tid).pc (s.thr u tid).pc false) u tid i) true

/-- The instructions of the lane set that act for the threads of a bundle one after the other, and retire with them. -/
def laneSet : Instr → Bool
  | .iadd .. | .isub .. | .imul .. | .imulh .. | .imad .. | .idiv .. | .irem .. | .imin .. | .imax .. | .and .. | .or ..
  | .xor .. | .andn .. | .not .. | .shl .. | .shr .. | .sar .. | .rotl .. | .popc .. | .clz .. | .brev .. | .bfx .. | .bfi ..
  | .perm .. | .lea .. | .icmp .. | .idp4 .. | .fadd .. | .fsub .. | .fmul .. | .ffma .. | .fmin .. | .fmax .. | .fcmp ..
  | .fclass .. | .frnd .. | .fcvt .. | .f2i .. | .i2f .. | .padd .. | .pmul .. | .pfma .. | .pdot2 .. | .rng .. | .waitt ..
  | .sleept .. | .lwait .. | .mov .. | .sel .. | .plop .. | .movp .. | .movpSet .. | .rdsr .. | .nop .. | .ld .. | .st ..
  | .atom .. | .lr .. | .sc .. | .fenceE .. | .fenceN .. | .pref .. | .cpy .. | .mma .. | .mdrain .. | .mzero .. | .nget ..
  | .waitc .. | .bra .. | .brx .. | .call .. | .callX .. | .ret .. | .exit .. | .bar .. | .barArv .. | .cbar .. | .cbarArv ..
  | .swpt .. | .modreg .. | .modrel .. | .hent .. | .dph .. | .trap .. | .tret .. | .csrr .. | .csrw .. | .permitAcq ..
  | .permitRel .. | .permitTry .. | .yield .. | .tlbiPage .. | .tlbiCtx .. | .tlbiVdev .. | .cflush .. => true
  | _ => false

/-! ## Memory -/

/-- Bytes of a team's scratchpad array as a list. -/
def scrBytes (s : State) (u off n : Nat) : List Byte := (List.range n).map (fun i => scr s u (off + i))

/-- Bytes of HBM as a list. -/
def hbmBytes (s : State) (a n : Nat) : List Byte := (List.range n).map (fun i => byte s (a + i))

/-- A team's access to bytes of a scratchpad array meets no open interval of another team (R259) and no engine operation in
flight (R315). -/
structure FreeScr (s : State) (u target off n : Nat) : Prop where
  alone : ∀ i, i < n ∨ i = 0 → s.writers (some u) (LogItem.isScratch target (scratchRowOf (off + i))) = []
  settled : ∀ i, i < n → s.collides (.scr target (off + i)) = false
  still : target = u ∨ s.switchBegun target = false

/-- The thread's core holds the translation of an address for a kind of access (R389, R390). -/
def Cached (s : State) (u tid va pa : Nat) (k : XKind) : Prop :=
  va < 9007199254740992 ∧ ¬(Config.fwBase ≤ va ∧ va ≤ Config.fwLast) ∧
    ∃ e, State.tlbHit (s.cor (s.team u).core).tlb (identOf (s.team u).vdev (s.team u).ctx) va = some e ∧
      State.finish e va k ((s.thr u tid).priv == .supervisor) = .ok pa

/-- A thread's access to bytes of one line of HBM that only its home holds: its core has the translation, the line is
resident under the team's identifier (R288, R290) and no core holds a copy of it (R293, R296), its team runs under the root in a
launch that is not deterministic (R320, R366), no granule of a region is met (R329), no open interval of another team has a part
in it (R259), and no engine operation is in flight (R315) and no arena open (R333). -/
structure AtHome (s : State) (u tid va n pa : Nat) (k : XKind) : Prop where
  cached : Cached s u tid va pa k
  hbm : inHbm pa = true
  oneLine : pa % 128 + n ≤ 128
  sound : s.damaged.contains (lineOf pa) = false
  free : (s.lau (s.team u).launch).det = false
  root : (s.thr u tid).hyp = 0
  untracked : s.granules (s.team u).vdev (s.team u).ctx va n = []
  alone : s.writers (some u) (LogItem.isLine (lineOf pa)) = []
  home : ∃ h, SMap.find s.lines (lineOf pa) = some h ∧ h.ident = identOf (s.team u).vdev (s.team u).ctx ∧ h.holders = []
  noCopy : SMap.find (s.cor (s.team u).core).l1 (lineOf pa) = none
  room : (s.cor (s.team u).core).l1.length < s.l1Cap (s.team u).core
  idle : s.ops = [] ∧ s.manifests.any Manifest.open_ = false

/-- The effective address of an access in a space (R131). -/
def effective (s : State) (u tid : Nat) (sp : Space) (a b : Src) : Nat :=
  wrap (if sp = .g then 64 else 32) ((baseVal s u tid sp a : Int) + State.readDisp b)

/-- An operation of an engine has been issued by the thread (R206, R223, R228, R413): it stands in its queue under the next
identity, unreported, and its group's counter of its class has risen by one. -/
def Queued (s t : State) (u tid : Nat) (cls : EClass) (kind : OpKind) (off : Nat) : Prop :=
  State.counterOf (t.grp u (groupOf tid)) cls = State.counterOf (s.grp u (groupOf tid)) cls + 1 ∧
    ∃ o ∈ t.ops, o.uid = s.nextUid ∧ o.cls = cls ∧ o.kind = kind ∧ o.team = u ∧ o.group = groupOf tid ∧ o.thread = tid ∧
      o.core = (s.team u).core ∧ o.blockOff = off ∧ o.complete = false ∧ o.fault = none

/-- A parameter block of an engine instruction can be read (R206, R228, R413): aligned to 16, within SCRATCH, and free. -/
def Block (s : State) (u off n : Nat) : Prop := off % 16 = 0 ∧ off + n ≤ (s.team u).var.scratch ∧ FreeScr s u u off n

/-- An irrevocable instruction of the thread has completed between two closes of its team's interval (R257, R260): two intervals
have closed, nothing stands in the undo log, %work is 0, and the thread goes on after the instruction. -/
def Sealed (s t : State) (u tid : Nat) (i : Instr) : Prop :=
  (t.team u).interval = (s.team u).interval + 2 ∧ (t.team u).log = [] ∧ (t.team u).work = 0 ∧ (t.team u).irrevocable = true ∧
    (t.thr u tid).pc = nextPc i (s.thr u tid).pc

/-! ## Commands -/

/-- The state once a frame of a sender has been heard (R428): it has an endpoint number, and its last frame is noted. -/
def heard (s : State) (who : Sender) : State := (s.admitFrame who).2

/-- A command goes on to its own checks (R396, R419 to R424): the device has power and, for a master, a port that is up, its
sender has an endpoint number and no earlier command unanswered; its header stands; the state of the device refuses it not; its
payload has the length `n` of its layout, and its sender may issue it. -/
structure Accepted (s : State) (who : Sender) (msg : List Byte) (code : Nat) (issuer : Issuer) (n : Nat) : Prop where
  power : s.powered = true
  port : who ≠ .mgmt → s.anyPortUp = true
  number : (s.admitFrame who).1 = true
  turn : (heard s who).replyDue who = false
  header : headerOk msg = true
  bears : leAt msg 4 1 = code
  channel : who = .mgmt → 0x20 ≤ code ∧ code ≤ 0x26
  safe : (heard s who).refusedSafe code = false
  length : msg.length = 32 + n
  issuer : (heard s who).mayCommand who issuer = true

/-- The sequence number of a command, which its reply repeats (R423). -/
def seqOf (msg : List Byte) : Word := BitVec.ofNat 32 (leAt msg 8 4)

/-- A step replies to a command (R419, R423) and sends nothing else. -/
def Replies (s t : State) (who : Sender) (msg : List Byte) (code status field value : Nat) (payload : List Byte) : Prop :=
  t.endpoint.outbox = s.endpoint.outbox ++ [.reply who (State.replyBytes code status (seqOf msg) field value payload)]

/-- No engine operation is in flight (R315), no open interval has written a line of memory, and no core holds one (R259, R295). -/
def Idle (s : State) : Prop := s.ops = [] ∧ ∀ line, s.writers none (LogItem.isLine line) = [] ∧ s.holders line = []

/-- The lines of some bytes stand at their homes under a context's identifier (R288, R290). -/
def Resident (s : State) (d c pa n : Nat) : Prop :=
  ∀ i, i < n → ∃ h, SMap.find s.lines (lineOf (pa + i)) = some h ∧ h.ident = identOf d c

/-- An election's outcome (R428, R429): the claimant with the highest priority, the lower endpoint number at a tie, owns the
device; no claimant leaves it without an owner. -/
def Elected (masters : SMap Master) (t : State) : Prop :=
  (∀ k, t.endpoint.owner = some k → ∃ m p, (k, m) ∈ masters ∧ m.prio = some p ∧
    ∀ e ∈ masters, ∀ q, e.2.prio = some q → q < p ∨ (q = p ∧ k ≤ e.1)) ∧
  (t.endpoint.owner = none → ∀ e ∈ masters, e.2.prio = none)

/-! ## Steps -/

/-- A step that answers a next state. -/
def Steps (s : State) : Prop := ∃ t, step s = .next t

/-- The states that steps reach from a state. -/
inductive Reaches : State → State → Prop where
  | refl (s : State) : Reaches s s
  | tail (s t u : State) : Reaches s t → step t = .next u → Reaches s u

/-- A property that every step keeps. -/
def Kept (p : State → Prop) : Prop := ∀ s t, p s → step s = .next t → p t

/-- Memory and every team's scratchpad array are in their canonical form: addresses rising, no byte listed that reads as zero. -/
def Tidy (s : State) : Prop := Mem.wf s.mem = true ∧ ∀ e ∈ s.teams, Mem.wf e.2.scratch = true

end Sys2Proof.Safety
end

