-- ==== Sys2Proof/Certificates/Slice0/Obligations.lean ====
section
/-! DEFINITION. The statements for the provers: what the instructions, events and commands of the machine do, each with the
rules of spec/ that it formalises, and the machine's invariants. -/

section

open Sys2Proof
open Sys2Proof.Machine
open Sys2Proof.Safety

/-! ## Integer, logic and move instructions -/

/-- R92: IADD, ISUB, IMUL, IMIN, IMAX and IMAD write the exact result of their modified sources, kept in the type as SATC says. -/
def Obligations.IntegerArithmetic : Prop :=
  ∀ (h : Head) (ty : Ty) (d : BitVec 7) (a b c : Src),
    let x (s : State) (u tid : Nat) : Int := modInt h.mods.aa h.mods.na (s.readInt u tid 0 a ty)
    let y (s : State) (u tid : Nat) : Int := modInt h.mods.ab h.mods.nb (s.readInt u tid 1 b ty)
    let z (s : State) (u tid : Nat) : Int := modInt h.mods.ac h.mods.nc (s.readInt u tid 2 c ty)
    Gives (.iadd h ty d a b) d ty.words (fun s u tid => ty.keep h.mods.satc (x s u tid + y s u tid)) ∧
    Gives (.isub h ty d a b) d ty.words (fun s u tid => ty.keep h.mods.satc (x s u tid - y s u tid)) ∧
    Gives (.imul h ty d a b) d ty.words (fun s u tid => ty.keep h.mods.satc (x s u tid * y s u tid)) ∧
    Gives (.imin h ty d a b) d ty.words (fun s u tid => ty.keep h.mods.satc (min (x s u tid) (y s u tid))) ∧
    Gives (.imax h ty d a b) d ty.words (fun s u tid => ty.keep h.mods.satc (max (x s u tid) (y s u tid))) ∧
    Gives (.imad h ty d a b c) d ty.words (fun s u tid => ty.keep h.mods.satc (x s u tid * y s u tid + z s u tid))

/-- R93, R94, R95: IMULH writes the upper half of the exact product; IDIV and IREM truncate toward zero, and at division by zero
and at the overflowing quotient give the stated values, as outstanding results. -/
def Obligations.HighProductAndDivision : Prop :=
  ∀ (h : Head) (ty : Ty) (d : BitVec 7) (a b : Src),
    let x (s : State) (u tid : Nat) : Int := s.readInt u tid 0 a ty
    let y (s : State) (u tid : Nat) : Int := s.readInt u tid 1 b ty
    let extreme (s : State) (u tid : Nat) : Prop := ty.signed = true ∧ x s u tid = -(2 ^ (ty.width - 1)) ∧ y s u tid = -1
    Gives (.imulh h ty d a b) d ty.words (fun s u tid => wrap ty.width (x s u tid * y s u tid / 2 ^ ty.width)) ∧
    (∀ s u tid, Clear s u tid (.idiv h ty d a b) → ∃ t q, exec (.idiv h ty d a b) s = .next t ∧
      Owes t u tid .result (regPairs d.toNat (wordsOf ty.words q)) [] ∧
      q = (if y s u tid = 0 then 2 ^ ty.width - 1
        else if extreme s u tid then wrap ty.width (x s u tid) else wrap ty.width ((x s u tid).tdiv (y s u tid))) ∧
      Frame s t u tid {} ∧ WentOn s t u tid (.idiv h ty d a b)) ∧
    (∀ s u tid, Clear s u tid (.irem h ty d a b) → ∃ t q, exec (.irem h ty d a b) s = .next t ∧
      Owes t u tid .result (regPairs d.toNat (wordsOf ty.words q)) [] ∧
      q = (if y s u tid = 0 then wrap ty.width (x s u tid)
        else if extreme s u tid then 0 else wrap ty.width ((x s u tid).tmod (y s u tid))) ∧
      Frame s t u tid {} ∧ WentOn s t u tid (.irem h ty d a b))

/-- R96, R97: AND, OR, XOR, ANDN and NOT act on the Width(TY) bits of their sources; SHL, SHR, SAR and ROTL shift by an n32 count; from
the width on SHL and SHR give 0 and SAR copies of the sign. -/
def Obligations.LogicAndShifts : Prop :=
  ∀ (h : Head) (ty : Ty) (d : BitVec 7) (a b : Src),
    let w := ty.width
    let x (s : State) (u tid : Nat) : Nat := s.readSrc u tid 0 a ty
    let y (s : State) (u tid : Nat) : Nat := s.readSrc u tid 1 b ty
    let n (s : State) (u tid : Nat) : Nat := s.readSrc u tid 1 b .n32
    let v (s : State) (u tid : Nat) : Nat := s.readSrc u tid 0 a (Ty.asN ty)
    Gives (.and h ty d a b) d ty.words (fun s u tid => (x s u tid &&& y s u tid) % 2 ^ w) ∧
    Gives (.or h ty d a b) d ty.words (fun s u tid => (x s u tid ||| y s u tid) % 2 ^ w) ∧
    Gives (.xor h ty d a b) d ty.words (fun s u tid => (x s u tid ^^^ y s u tid) % 2 ^ w) ∧
    Gives (.andn h ty d a b) d ty.words (fun s u tid => (x s u tid &&& (2 ^ w - 1 - y s u tid)) % 2 ^ w) ∧
    Gives (.not h ty d a) d ty.words (fun s u tid => 2 ^ w - 1 - x s u tid) ∧
    Gives (.shl h ty d a b) d ty.words (fun s u tid => if n s u tid < w then v s u tid * 2 ^ n s u tid % 2 ^ w else 0) ∧
    Gives (.shr h ty d a b) d ty.words (fun s u tid => (if n s u tid < w then v s u tid / 2 ^ n s u tid else 0) % 2 ^ w) ∧
    Gives (.sar h ty d a b) d ty.words (fun s u tid =>
      wrap w ((if 2 ^ (w - 1) ≤ v s u tid then (v s u tid : Int) - 2 ^ w else (v s u tid : Int)) / 2 ^ (min (n s u tid) w))) ∧
    Gives (.rotl h ty d a b) d ty.words (fun s u tid =>
      (v s u tid * 2 ^ (n s u tid % w) + v s u tid / 2 ^ (w - n s u tid % w)) % 2 ^ w)

/-- R98 to R101: POPC and CLZ write one register; BREV reverses the bits; BFX, BFI and PERM extract, insert and select. -/
def Obligations.BitFields : Prop :=
  ∀ (h : Head) (ty : Ty) (d : BitVec 7) (a b c : Src),
    let w := ty.width
    let x (s : State) (u tid : Nat) : Nat := s.readSrc u tid 0 a ty
    Gives (.popc h ty d a) d 1 (fun s u tid => ((List.range w).filter (fun j => (x s u tid).testBit j)).length) ∧
    Gives (.clz h ty d a) d 1 (fun s u tid => if x s u tid = 0 then w else w - 1 - Nat.log2 (x s u tid)) ∧
    Gives (.brev h ty d a) d ty.words (fun s u tid =>
      ((List.range w).map (fun j => if (x s u tid).testBit j then 2 ^ (w - 1 - j) else 0)).sum) ∧
    Gives (.bfx h ty d a b) d ty.words (fun s u tid =>
      let k := s.readSrc u tid 1 b .n32
      let len := min (k / 256 % 256) w
      let f : Int := s.readInt u tid 0 a ty / 2 ^ (k % 256) % 2 ^ len
      wrap w (if ty.signed = true ∧ 0 < len ∧ 2 ^ (len - 1) ≤ f then f - 2 ^ len else f)) ∧
    Gives (.bfi h ty d a b c) d ty.words (fun s u tid =>
      let k := s.readSrc u tid 2 c .n32
      let y := s.readSrc u tid 1 b ty
      let mask := (2 ^ (k / 256 % 256) - 1) * 2 ^ (k % 256)
      ((y ^^^ (y &&& mask)) ||| (x s u tid * 2 ^ (k % 256) &&& mask)) % 2 ^ w) ∧
    Gives (.perm h d a b c) d 1 (fun s u tid =>
      let t := s.readSrc u tid 1 b .n32 * 4294967296 + s.readSrc u tid 0 a .n32
      let sel (j : Nat) : Nat := s.readSrc u tid 2 c .n32 / 16 ^ j % 16
      let v (j : Nat) : Nat := t / 256 ^ (sel j % 8) % 256
      let y (j : Nat) : Nat := if sel j < 8 then v j else if 128 ≤ v j then 255 else 0
      y 0 + 256 * y 1 + 65536 * y 2 + 16777216 * y 3)

/-- R102, R104, R105, R106, R110, R141, R292: LEA, IDP4, MOV, SEL; NOP changes nothing; PREF of an address past space G changes
nothing, and of a byte that only its home holds changes no memory and no register, `.l1` leaving the core a leased copy of the line. -/
def Obligations.MovesAndAddresses : Prop :=
  ∀ (h : Head) (e : LeaExt) (sa sb l2 : Bool) (ty : Ty) (p : Pred) (d : BitVec 7) (a b c : Src) (sh : BitVec 6),
    Gives (.lea h e ty d a b sh) d ty.words (fun s u tid =>
      wrap ty.width ((s.readSrc u tid 0 a ty : Int) +
        (Form.leaB e ty).int (s.readSrc u tid 1 b (Form.leaB e ty)) * 2 ^ sh.toNat)) ∧
    Gives (.idp4 h sa sb ty d a b c) d ty.words (fun s u tid =>
      let x := s.readSrc u tid 0 a .n32
      let y := s.readSrc u tid 1 b .n32
      ty.keep h.mods.satc (modInt h.mods.ac h.mods.nc (s.readInt u tid 2 c ty) + byteOf x 0 sa * byteOf y 0 sb +
        byteOf x 1 sa * byteOf y 1 sb + byteOf x 2 sa * byteOf y 2 sb + byteOf x 3 sa * byteOf y 3 sb)) ∧
    Gives (.mov h ty d a) d ty.words (fun s u tid => s.readSrc u tid 0 a ty) ∧
    Gives (.sel h ty p d a b) d ty.words (fun s u tid =>
      if s.readPred u tid 5 p.val then s.readSrc u tid 0 a ty else s.readSrc u tid 1 b ty) ∧
    GivesNothing (.nop h) ∧
    (∀ s u tid, Clear s u tid (.pref h l2 a b) → 9007199254740992 ≤ effective s u tid .g a b → ∃ t,
      exec (.pref h l2 a b) s = .next t ∧ Frame s t u tid {} ∧ WentOn s t u tid (.pref h l2 a b)) ∧
    (∀ s u tid pa, Clear s u tid (.pref h l2 a b) → AtHome s u tid (effective s u tid .g a b) 1 pa .read → ∃ t,
      exec (.pref h l2 a b) s = .next t ∧ Frame s t u tid {} ∧ WentOn s t u tid (.pref h l2 a b) ∧
        (∀ x, t.rootByte x = s.rootByte x) ∧ (l2 = false → ∃ k, SMap.find (t.cor (s.team u).core).l1 (lineOf pa) = some k ∧
          k.kind = .leased ∧ k.data = lineBytes s.mem (lineOf pa)))

/-- R103, R107, R108, R118, R185: ICMP and PLOP write their predicate in place; FCMP also raises NV as the condition says; MOVP's
register arrives late with bit i of p_i; MOVP.set sets the predicates of its mask; a fragment of one thread elects it. -/
def Obligations.Predicates : Prop :=
  ∀ (h : Head) (ci : ICond) (cf : FCond) (ty : Ty) (lut : BitVec 8) (q : Pred) (d : BitVec 7) (a b : Src) (i j k : PIn),
    GivesPred (.icmp h ci ty q a b) q (fun s u tid => intCond ci (s.readInt u tid 0 a ty) (s.readInt u tid 1 b ty)) ∧
    GivesPred (.plop h lut q i j k) q (fun s u tid => lut.getLsbD
      (4 * (s.readPIn u tid 0 i).toNat + 2 * (s.readPIn u tid 1 j).toNat + (s.readPIn u tid 2 k).toNat)) ∧
    (∀ s u tid, Clear s u tid (.fcmp h cf ty q a b) → ∃ t, exec (.fcmp h cf ty q a b) s = .next t ∧
      let r := floatCond cf (modNum s u tid 0 a ty h.mods.aa h.mods.na) (modNum s u tid 1 b ty h.mods.ab h.mods.nb)
      pred t u tid q.val = r.1 ∧ (t.thr u tid).fflags = (s.thr u tid).fflags ||| Flags.whenF r.2 Flags.nv ∧
      Frame s t u tid { preds := [q.val], flags := true } ∧ WentOn s t u tid (.fcmp h cf ty q a b)) ∧
    GivesLate (.movp h d) d 1 (fun s u tid => s.predRow u tid 0) ∧
    (∀ s u tid, Clear s u tid (.movpSet h a b) → ∃ t, exec (.movpSet h a b) s = .next t ∧
      (∀ p, p < 12 → pred t u tid p =
        if (s.readSrc u tid 1 b .n32).testBit p then (s.readSrc u tid 0 a .n32).testBit p else pred s u tid p) ∧
      Frame s t u tid { preds := List.range 12 } ∧ WentOn s t u tid (.movpSet h a b)) ∧
    (∀ s u tid, Clear s u tid (.elect h q a) → ∃ t, exec (.elect h q a) s = .next t ∧
      Owes t u tid .result [] [(q.val, true)] ∧ Frame s t u tid {} ∧ WentOn s t u tid (.elect h q a))

/-! ## Floating point and random numbers -/

/-- R116, R117, R119 to R123: the floating-point instructions and conversions write a result rounded once, saturated as SATC says,
and raise its flags; FCLASS raises none. -/
def Obligations.FloatingPoint : Prop :=
  ∀ (h : Head) (nan away : Bool) (ty sty : Ty) (d : BitVec 7) (a b c : Src),
    let m := h.mods
    let x (s : State) (u tid : Nat) : Sys2Proof.Num := modNum s u tid 0 a ty m.aa m.na
    let y (s : State) (u tid : Nat) : Sys2Proof.Num := modNum s u tid 1 b ty m.ab m.nb
    let z (s : State) (u tid : Nat) : Sys2Proof.Num := modNum s u tid 2 c ty m.ac m.nc
    let f (s : State) (u tid : Nat) : Sys2Proof.Num := modNum s u tid 0 a sty m.aa m.na
    GivesNum (.fadd h ty d a b) d ty.words (fun s u tid =>
      let r := sumNum m.rm.resolve [x s u tid, y s u tid]; finishNum ty m r.1 r.2) ∧
    GivesNum (.fsub h ty d a b) d ty.words (fun s u tid =>
      let r := sumNum m.rm.resolve [x s u tid, Machine.Num.flip (y s u tid)]; finishNum ty m r.1 r.2) ∧
    GivesNum (.fmul h ty d a b) d ty.words (fun s u tid => let r := (x s u tid).mul (y s u tid); finishNum ty m r.1 r.2) ∧
    GivesNum (.ffma h ty d a b c) d ty.words (fun s u tid =>
      let r := fmaNum m (x s u tid) (y s u tid) (z s u tid); finishNum ty m r.1 r.2) ∧
    GivesNum (.fmin h nan ty d a b) d ty.words (fun s u tid =>
      let r := selectNum false nan (x s u tid) (y s u tid); finishNum ty m r.1 r.2) ∧
    GivesNum (.fmax h nan ty d a b) d ty.words (fun s u tid =>
      let r := selectNum true nan (x s u tid) (y s u tid); finishNum ty m r.1 r.2) ∧
    Gives (.fclass h ty d a) d 1 (fun s u tid => 2 ^ classBit ty (s.readSrc u tid 0 a ty)) ∧
    GivesNum (.frnd h away ty d a) d ty.words (fun s u tid =>
      let r := integral (x s u tid) (if away then .away else m.rm.resolve)
      (ty.saturate m.satc (roundTo ty .near r.1).1, Flags.whenF r.2 Flags.nv)) ∧
    GivesNum (.fcvt h ty sty d a) d ty.words (fun s u tid => finishNum ty m (f s u tid) (f s u tid).isSig) ∧
    GivesNum (.f2i h ty sty d a) d ty.words (fun s u tid =>
      let r := toInteger ty m.rm.resolve (f s u tid); (wrap ty.width r.1, r.2)) ∧
    GivesNum (.i2f h ty sty d a) d ty.words (fun s u tid =>
      let n := modInt m.aa m.na (s.readInt u tid 0 a sty)
      finishNum ty m (.fin (decide (n < 0)) n.natAbs 0) false)

/-- R124, R125: the packed instructions act on both halves of a register and raise the union of their flags; PDOT2 rounds the sum
of two products and a binary32 addend once. -/
def Obligations.PackedFloatingPoint : Prop :=
  ∀ (h : Head) (ty : Ty) (d : BitVec 7) (a b c : Src),
    let m := h.mods
    let x (s : State) (u tid : Nat) : Sys2Proof.Num × Sys2Proof.Num := modPair s u tid 0 a ty m.aa m.na
    let y (s : State) (u tid : Nat) : Sys2Proof.Num × Sys2Proof.Num := modPair s u tid 1 b ty m.ab m.nb
    let z (s : State) (u tid : Nat) : Sys2Proof.Num × Sys2Proof.Num := modPair s u tid 2 c ty m.ac m.nc
    let pair (p q : Sys2Proof.Num × Bool) : Nat × Flags :=
      let lo := finishNum ty m p.1 p.2
      let hi := finishNum ty m q.1 q.2
      (lo.1 + 65536 * hi.1, lo.2 ||| hi.2)
    GivesNum (.padd h ty d a b) d 1 (fun s u tid =>
      pair (addNum m (x s u tid).1 (y s u tid).1) (addNum m (x s u tid).2 (y s u tid).2)) ∧
    GivesNum (.pmul h ty d a b) d 1 (fun s u tid => pair ((x s u tid).1.mul (y s u tid).1) ((x s u tid).2.mul (y s u tid).2)) ∧
    GivesNum (.pfma h ty d a b c) d 1 (fun s u tid => pair (fmaNum m (x s u tid).1 (y s u tid).1 (z s u tid).1)
      (fmaNum m (x s u tid).2 (y s u tid).2 (z s u tid).2)) ∧
    GivesNum (.pdot2 h ty d a b c) d 1 (fun s u tid =>
      let p := (x s u tid).1.mul (y s u tid).1
      let q := (x s u tid).2.mul (y s u tid).2
      let r := sumNum m.rm.resolve [p.1, q.1, modNum s u tid 2 c .f32 m.ac m.nc]
      finishNum .f32 m r.1 (p.2 || q.2 || r.2))

/-- R126: RNG writes the four words of Philox over the thread's counter and key, as they are or as binary32 fractions, and moves the
counting field of the counter by one, leaving its bits 95:32. -/
def Obligations.RandomNumbers : Prop :=
  ∀ (h : Head) (unif : Bool) (d : BitVec 7) (s : State) (u tid : Nat), Clear s u tid (.rng h unif d) →
    ∃ t, exec (.rng h unif d) s = .next t ∧
      Holds t u tid d.toNat ((philox (s.thr u tid).rngc (s.thr u tid).rngk).map
        (fun x => BitVec.ofNat 32 (if unif then unifBits x else x))) ∧
      (t.thr u tid).rngc = rngAdvance (s.thr u tid).rngc 1 ∧
      bitsOf (t.thr u tid).rngc.toNat 32 64 = bitsOf (s.thr u tid).rngc.toNat 32 64 ∧
      Frame s t u tid { lanes := span d.toNat 4, rng := true } ∧ WentOn s t u tid (.rng h unif d)

/-! ## Special registers -/

/-- R69, R109: RDSR writes the special register that its code names, in one, two or three registers. -/
def Obligations.SpecialRegisters : Prop :=
  ∀ (h : Head) (d : BitVec 7),
    Gives (.rdsr h .lane d) d 1 (fun _ _ tid => tid % 32) ∧
    Gives (.rdsr h .group d) d 1 (fun _ _ tid => tid / 32) ∧
    Gives (.rdsr h .team d) d 1 (fun s u _ => (s.team u).team) ∧
    Gives (.rdsr h .task d) d 1 (fun s u _ => (s.team u).task) ∧
    Gives (.rdsr h .core d) d 1 (fun s u _ => (s.team u).core) ∧
    Gives (.rdsr h .clus d) d 1 (fun s u _ => (s.team u).clus) ∧
    Gives (.rdsr h .rank d) d 1 (fun s u _ => (s.team u).rank) ∧
    Gives (.rdsr h .vdev d) d 1 (fun s u _ => (s.team u).vdev) ∧
    Gives (.rdsr h .ctx d) d 1 (fun s u _ => (s.team u).ctx) ∧
    Gives (.rdsr h .hyp d) d 1 (fun s u tid => s.hypNumber (s.thr u tid).hyp) ∧
    Gives (.rdsr h .cyc d) d 2 (fun s _ _ => s.cyc) ∧
    Gives (.rdsr h .ptp d) d 3 (fun s _ _ => s.ptpNs + 4294967296 * s.ptpSec) ∧
    Gives (.rdsr h .work d) d 2 (fun s u _ => (s.team u).work)

/-! ## The uniform set -/

/-- R150, R163, R165, R166: the uniform-set instructions write their result to the uniform registers of the fragment's group. -/
def Obligations.UniformArithmetic : Prop :=
  ∀ (h : Head) (e : LeaExt) (ty : Ty) (r : SReg) (d : BitVec 6) (a b c : Src) (sh : BitVec 6),
    let w := ty.width
    let x (s : State) (u tid : Nat) : Int := s.readInt u tid 0 a ty
    let y (s : State) (u tid : Nat) : Int := s.readInt u tid 1 b ty
    let p (s : State) (u tid : Nat) : Nat := s.readSrc u tid 0 a ty
    let q (s : State) (u tid : Nat) : Nat := s.readSrc u tid 1 b ty
    let n (s : State) (u tid : Nat) : Nat := s.readSrc u tid 1 b .n32
    let v (s : State) (u tid : Nat) : Nat := s.readSrc u tid 0 a (Ty.asN ty)
    GivesUni (.uadd h ty d a b) d ty.words (fun s u tid => wrap w (x s u tid + y s u tid)) ∧
    GivesUni (.usub h ty d a b) d ty.words (fun s u tid => wrap w (x s u tid - y s u tid)) ∧
    GivesUni (.umul h ty d a b) d ty.words (fun s u tid => wrap w (x s u tid * y s u tid)) ∧
    GivesUni (.umulh h ty d a b) d ty.words (fun s u tid => wrap w (x s u tid * y s u tid / 2 ^ w)) ∧
    GivesUni (.umad h ty d a b c) d ty.words (fun s u tid => wrap w (x s u tid * y s u tid + s.readInt u tid 2 c ty)) ∧
    GivesUni (.umin h ty d a b) d ty.words (fun s u tid => wrap w (min (x s u tid) (y s u tid))) ∧
    GivesUni (.umax h ty d a b) d ty.words (fun s u tid => wrap w (max (x s u tid) (y s u tid))) ∧
    GivesUni (.uand h ty d a b) d ty.words (fun s u tid => (p s u tid &&& q s u tid) % 2 ^ w) ∧
    GivesUni (.uor h ty d a b) d ty.words (fun s u tid => (p s u tid ||| q s u tid) % 2 ^ w) ∧
    GivesUni (.uxor h ty d a b) d ty.words (fun s u tid => (p s u tid ^^^ q s u tid) % 2 ^ w) ∧
    GivesUni (.ushl h ty d a b) d ty.words (fun s u tid => if n s u tid < w then v s u tid * 2 ^ n s u tid % 2 ^ w else 0) ∧
    GivesUni (.ushr h ty d a b) d ty.words (fun s u tid => (if n s u tid < w then v s u tid / 2 ^ n s u tid else 0) % 2 ^ w) ∧
    GivesUni (.usar h ty d a b) d ty.words (fun s u tid =>
      wrap w ((if 2 ^ (w - 1) ≤ v s u tid then (v s u tid : Int) - 2 ^ w else (v s u tid : Int)) / 2 ^ (min (n s u tid) w))) ∧
    GivesUni (.ulea h e ty d a b sh) d ty.words (fun s u tid =>
      wrap w ((p s u tid : Int) + (Form.leaB e ty).int (s.readSrc u tid 1 b (Form.leaB e ty)) * 2 ^ sh.toNat)) ∧
    GivesUni (.umov h ty d a) d ty.words p ∧
    GivesUni (.urdsr h r d) d (Form.sregWords r).1 (fun s u tid => s.special u tid r)

/-- R150, R163, R165, R168: a uniform-set instruction executes once for a fragment of one group: UMOV writes the group's register
from the lowest lane's operand, UCMP writes the predicate of every thread of the fragment, UBRA moves every thread of it to the
target; every thread of the fragment goes on and counts in %work. -/
def Obligations.UniformFragments : Prop :=
  ∀ (h : Head) (k : ICond) (ty : Ty) (d : BitVec 6) (q : Pred) (a b : Src) (off : Word) (s : State) (u lead : Nat)
    (rest : List Nat), Quiet s u (rest.length + 1) →
    (RunsFragment s u lead rest (.umov h ty d a) → ∃ t, exec (.umov h ty d a) s = .next t ∧
      UHolds t u (groupOf lead) d.toNat (wordsOf ty.words (s.readSrc u lead 0 a ty)) ∧
      (∀ tid ∈ lead :: rest, (t.thr u tid).pc = nextPc (.umov h ty d a) (s.thr u lead).pc) ∧
      (t.team u).work = (s.team u).work + (rest.length + 1)) ∧
    (RunsFragment s u lead rest (.ucmp h k ty q a b) → ∃ t, exec (.ucmp h k ty q a b) s = .next t ∧
      (∀ tid ∈ lead :: rest, pred t u tid q.val = intCond k (s.readInt u lead 0 a ty) (s.readInt u lead 1 b ty) ∧
        (t.thr u tid).pc = nextPc (.ucmp h k ty q a b) (s.thr u lead).pc) ∧
      (t.team u).work = (s.team u).work + (rest.length + 1)) ∧
    (RunsFragment s u lead rest (.ubra h off) → ∃ t, exec (.ubra h off) s = .next t ∧
      (∀ tid ∈ lead :: rest, (t.thr u tid).pc = (s.thr u lead).pc + off.signExtend 64) ∧
      (∀ v g r, ureg t v g r = ureg s v g r) ∧ (t.team u).work = (s.team u).work + (rest.length + 1))

/-! ## Control flow -/

/-- R143, R144, R145, R146, R168: BRA and UBRA go to their own address plus the offset; BRX and RET to the address in their pair;
CALL and CALL.x write the address of the next instruction to their destination, CALL.x from the pair as it read before. EXIT,
where no barrier and no collective of its group has an arrival, ends the thread: it is exited, its outstanding results and its
reservation are gone, and everything else stands. -/
def Obligations.ControlFlow : Prop :=
  ∀ (h : Head) (d : BitVec 7) (off : Word) (a : Src),
    JumpsTo (.bra h off) (fun s u tid => (s.thr u tid).pc + off.signExtend 64) ∧
    JumpsTo (.ubra h off) (fun s u tid => (s.thr u tid).pc + off.signExtend 64) ∧
    JumpsTo (.brx h a) (fun s u tid => BitVec.ofNat 64 (s.readPair u tid 0 a)) ∧
    JumpsTo (.ret h a) (fun s u tid => BitVec.ofNat 64 (s.readPair u tid 0 a)) ∧
    (∀ s u tid, Clear s u tid (.call h d off) → ∃ t, exec (.call h d off) s = .next t ∧
      Holds t u tid d.toNat (wordsOf 2 (nextPc (.call h d off) (s.thr u tid).pc).toNat) ∧
      Frame s t u tid { lanes := span d.toNat 2 } ∧ (t.thr u tid).pc = (s.thr u tid).pc + off.signExtend 64 ∧
      (t.team u).work = (s.team u).work + 1) ∧
    (∀ s u tid, Clear s u tid (.callX h d a) → ∃ t, exec (.callX h d a) s = .next t ∧
      Holds t u tid d.toNat (wordsOf 2 (nextPc (.callX h d a) (s.thr u tid).pc).toNat) ∧
      Frame s t u tid { lanes := span d.toNat 2 } ∧ (t.thr u tid).pc = BitVec.ofNat 64 (s.readPair u tid 0 a) ∧
      (t.team u).work = (s.team u).work + 1) ∧
    (∀ s u tid, Clear s u tid (.exit h) → (s.grp u (groupOf tid)).colls = [] → (∀ b, (s.bar u b).count = 0) →
      ((s.lau (s.team u).launch).det = true ∨ ∀ b, (s.cbarOf (s.team u).cluster b).count = 0) →
      ∃ t, exec (.exit h) s = .next t ∧ (t.thr u tid).st = .exited ∧ (t.thr u tid).pend = [] ∧ (t.thr u tid).wait = none ∧
        (∀ r ∈ t.resv, ¬(r.team = u ∧ r.thread = tid)) ∧ Frame s t u tid {} ∧ (t.team u).work = (s.team u).work + 1)

/-! ## Memory -/

/-- R131, R132, R134, R167: a load from the thread's scratchpad, from a rank's scratchpad in its cluster or from its parameters
owes the little-endian value at its effective address, extended as its type says; ULD owes it to the group. Nothing is stored. -/
def Obligations.ScratchpadLoads : Prop :=
  ∀ (h : Head) (hint : Hint) (ty : Ty) (d : BitVec 7) (g : BitVec 6) (a b : Src) (s : State) (u tid : Nat),
    let n := accessSize ty
    let words (bs : List Byte) : List Word := wordsOf (destTy ty).words (loaded ty bs)
    let l := effective s u tid .l a b
    let c := effective s u tid .c a b
    let k := effective s u tid .k a b
    (Clear s u tid (.ld h .l hint ty d a b) → l % n = 0 → l + n ≤ (s.team u).var.scratch → FreeScr s u u l n →
      ∃ t, exec (.ld h .l hint ty d a b) s = .next t ∧
        Owes t u tid .result (regPairs d.toNat (words (scrBytes s u l n))) [] ∧ Frame s t u tid {} ∧
        WentOn s t u tid (.ld h .l hint ty d a b)) ∧
    (∀ v, Clear s u tid (.ld h .c hint ty d a b) → c % n = 0 → bitsOf c 28 4 = 0 → bitsOf c 24 4 < s.clusterTeams u →
      s.rankTeam u (bitsOf c 24 4) = some v → s.defersRank u (bitsOf c 24 4) = false →
      bitsOf c 0 24 + n ≤ (s.team v).var.scratch → FreeScr s u v (bitsOf c 0 24) n →
      ∃ t, exec (.ld h .c hint ty d a b) s = .next t ∧
        Owes t u tid .result (regPairs d.toNat (words (scrBytes s v (bitsOf c 0 24) n))) [] ∧ Frame s t u tid {} ∧
        WentOn s t u tid (.ld h .c hint ty d a b)) ∧
    (Clear s u tid (.ld h .k hint ty d a b) → k % n = 0 → k + n ≤ (s.team u).params.length →
      ∃ t, exec (.ld h .k hint ty d a b) s = .next t ∧
        Owes t u tid .result (regPairs d.toNat (words (((s.team u).params.drop k).take n))) [] ∧ Frame s t u tid {} ∧
        WentOn s t u tid (.ld h .k hint ty d a b)) ∧
    (Clear s u tid (.uld h .l hint ty g a b) → l % n = 0 → l + n ≤ (s.team u).var.scratch → FreeScr s u u l n →
      ∃ t, exec (.uld h .l hint ty g a b) s = .next t ∧
        (∃ p ∈ (t.grp u (groupOf tid)).upend, p.regs = regPairs g.toNat (words (scrBytes s u l n)) ∧ p.lanes = [laneOf tid] ∧
          p.written = false) ∧
        Frame s t u tid {} ∧ WentOn s t u tid (.uld h .l hint ty g a b))

/-- R131, R135, R167: a store to the thread's scratchpad or to a rank's scratchpad in its cluster puts the low bytes of its operand at
its effective address, little-endian; every other byte of every scratchpad and of memory stands. -/
def Obligations.ScratchpadStores : Prop :=
  ∀ (h : Head) (hint : Hint) (ty : Ty) (a b c : Src) (s : State) (u tid : Nat),
    let n := accessSize ty
    let data := toBytes n (s.readSrc u tid 2 c ty)
    let l := effective s u tid .l a b
    let x := effective s u tid .c a b
    (Clear s u tid (.st h .l hint ty a b c) → l % n = 0 → l + n ≤ (s.team u).var.scratch → FreeScr s u u l n →
      ∃ t, exec (.st h .l hint ty a b c) s = .next t ∧ scrBytes t u l n = data ∧
        Frame s t u tid { stores := (span l n).map (fun o => (u, o)) } ∧ WentOn s t u tid (.st h .l hint ty a b c)) ∧
    (∀ v, Clear s u tid (.st h .c hint ty a b c) → x % n = 0 → bitsOf x 28 4 = 0 → bitsOf x 24 4 < s.clusterTeams u →
      s.rankTeam u (bitsOf x 24 4) = some v → s.defersRank u (bitsOf x 24 4) = false →
      bitsOf x 0 24 + n ≤ (s.team v).var.scratch → FreeScr s u v (bitsOf x 0 24) n →
      ∃ t, exec (.st h .c hint ty a b c) s = .next t ∧ scrBytes t v (bitsOf x 0 24) n = data ∧
        Frame s t u tid { stores := (span (bitsOf x 0 24) n).map (fun o => (v, o)) } ∧
        WentOn s t u tid (.st h .c hint ty a b c)) ∧
    (Clear s u tid (.ust h .l hint ty a b c) → l % n = 0 → l + n ≤ (s.team u).var.scratch → FreeScr s u u l n →
      ∃ t, exec (.ust h .l hint ty a b c) s = .next t ∧ scrBytes t u l n = data ∧
        Frame s t u tid { stores := (span l n).map (fun o => (u, o)) } ∧ WentOn s t u tid (.ust h .l hint ty a b c))

/-- R131, R134, R138, R167, R292, R298: a load from global memory of bytes that only the home holds owes their value and stores
nothing; LR also leaves its thread one reservation, on the granule it read. -/
def Obligations.GlobalLoads : Prop :=
  ∀ (h : Head) (hint : Hint) (ty : Ty) (d : BitVec 7) (g : BitVec 6) (a b : Src) (s : State) (u tid pa : Nat),
    let n := accessSize ty
    let va := effective s u tid .g a b
    let words : List Word := wordsOf (destTy ty).words (loaded ty (hbmBytes s pa n))
    va % n = 0 →
    (Clear s u tid (.ld h .g hint ty d a b) → AtHome s u tid va n pa .read → ∃ t, exec (.ld h .g hint ty d a b) s = .next t ∧
      Owes t u tid .result (regPairs d.toNat words) [] ∧ Frame s t u tid {} ∧ WentOn s t u tid (.ld h .g hint ty d a b)) ∧
    (Clear s u tid (.uld h .g hint ty g a b) → AtHome s u tid va n pa .read → ∃ t, exec (.uld h .g hint ty g a b) s = .next t ∧
      (∃ p ∈ (t.grp u (groupOf tid)).upend, p.regs = regPairs g.toNat words ∧ p.lanes = [laneOf tid] ∧ p.written = false) ∧
      Frame s t u tid {} ∧ WentOn s t u tid (.uld h .g hint ty g a b)) ∧
    (Clear s u tid (.lr h hint ty d a b) → AtHome s u tid va n pa .readOther → ∃ t, exec (.lr h hint ty d a b) s = .next t ∧
      Owes t u tid .result (regPairs d.toNat (wordsOf ty.words (leNat (hbmBytes s pa n)))) [] ∧
      (⟨u, tid, pa / 8, s.cyc⟩ : Resv) ∈ t.resv ∧ (∀ r ∈ t.resv, r.team = u → r.thread = tid → r.granule = pa / 8) ∧
      Frame s t u tid {} ∧ WentOn s t u tid (.lr h hint ty d a b))

/-- R131, R135, R139, R167, R293, R296: a store to global memory of bytes that only the home holds makes them the coherent root value
at its address and leaves every other byte's; SC stores and owes true where its thread holds the granule's reservation, else owes
false and stores nothing, and drops the reservation either way. -/
def Obligations.GlobalStores : Prop :=
  ∀ (h : Head) (hint : Hint) (ty : Ty) (q : Pred) (a b c : Src) (s : State) (u tid pa : Nat),
    let n := accessSize ty
    let va := effective s u tid .g a b
    let data := toBytes n (s.readSrc u tid 2 c ty)
    let stored (t : State) : Prop :=
      t.rootBytes pa n = data ∧ (∀ x, x ∉ span pa n → t.rootByte x = s.rootByte x) ∧ Frame s t u tid { bytes := span pa n }
    va % n = 0 → AtHome s u tid va n pa .write →
    (Clear s u tid (.st h .g hint ty a b c) → ∃ t, exec (.st h .g hint ty a b c) s = .next t ∧ stored t ∧
      WentOn s t u tid (.st h .g hint ty a b c)) ∧
    (Clear s u tid (.ust h .g hint ty a b c) → ∃ t, exec (.ust h .g hint ty a b c) s = .next t ∧ stored t ∧
      WentOn s t u tid (.ust h .g hint ty a b c)) ∧
    (Clear s u tid (.sc h hint ty q a b c) → s.holdsResv u tid pa = true → ∃ t, exec (.sc h hint ty q a b c) s = .next t ∧
      stored t ∧ Owes t u tid .result [] [(q.val, true)] ∧ (∀ r ∈ t.resv, ¬(r.team = u ∧ r.thread = tid)) ∧
      WentOn s t u tid (.sc h hint ty q a b c)) ∧
    (Clear s u tid (.sc h hint ty q a b c) → s.holdsResv u tid pa = false → ∃ t, exec (.sc h hint ty q a b c) s = .next t ∧
      (∀ x, t.rootByte x = s.rootByte x) ∧ Frame s t u tid {} ∧ Owes t u tid .result [] [(q.val, false)] ∧
      (∀ r ∈ t.resv, ¬(r.team = u ∧ r.thread = tid)) ∧ WentOn s t u tid (.sc h hint ty q a b c))

/-- R131, R136, R137, R301: ATOM, on bytes that only the home holds, replaces the old value by the operation's, once and at the home,
and owes the old value unless NR; a `.cas` whose expected value differs stores nothing. -/
def Obligations.Atomics : Prop :=
  ∀ (h : Head) (op : AtomOp) (nr : Bool) (hint : Hint) (ty : Ty) (d : BitVec 7) (a b c : Src) (s : State) (u tid pa : Nat),
    let i : Instr := .atom h op nr hint ty d a b c
    let n := accessSize ty
    let va := effective s u tid .g a b
    let old := leNat (hbmBytes s pa n)
    let operand := s.readSrc u tid 2 c ty
    let expected := wordsVal (s.laneWords u tid 3 d.toNat ty.words)
    va % n = 0 → AtHome s u tid va n pa .readwrite → Clear s u tid i →
    ∃ t, exec i s = .next t ∧
      (if op = .cas ∧ old ≠ expected then Frame s t u tid {}
        else hbmBytes t pa n = toBytes n (atomNew op ty old operand) ∧ Frame s t u tid { bytes := span pa n }) ∧
      (nr = false → Owes t u tid .result (regPairs d.toNat (wordsOf ty.words old)) []) ∧ WentOn s t u tid i

/-- R131: the checks of an access's address, in their order: a misaligned one takes ALIGN, then one past the end of its space XLATE,
SCRATCH_BOUNDS or PERM, each with the access's first and last byte, its space and its direction. -/
def Obligations.AddressTraps : Prop :=
  ∀ (h : Head) (sp : Space) (hint : Hint) (ty : Ty) (d : BitVec 7) (a b c : Src) (s : State) (u tid : Nat),
    let n := accessSize ty
    let ea := effective s u tid sp a b
    let last := BitVec.ofNat 64 (ea + n - 1)
    let beyond : Prop := match sp with
      | .g => 9007199254740992 ≤ ea
      | .l => (s.team u).var.scratch < ea + n
      | .c => bitsOf ea 28 4 ≠ 0 ∨ s.clusterTeams u ≤ bitsOf ea 24 4 ∨ s.scratchSizeOf u (bitsOf ea 24 4) < bitsOf ea 0 24 + n
      | .k => (s.team u).params.length < ea + n
    let cause : Cause := match sp with | .g => .xlate | .l => .scratchBounds | .c => .scratchBounds | .k => .perm
    let trap (c : Cause) (wr : Bool) : TrapInfo :=
      { cause := c, va := BitVec.ofNat 64 ea, vb := last, space := (Form.space sp).toNat, wr := wr }
    (Runs s u tid (.ld h sp hint ty d a b) → ea % n ≠ 0 →
      exec (.ld h sp hint ty d a b) s = .next (trapped s s u tid (.ld h sp hint ty d a b) (trap .align false))) ∧
    (Runs s u tid (.ld h sp hint ty d a b) → ea % n = 0 → beyond →
      exec (.ld h sp hint ty d a b) s = .next (trapped s s u tid (.ld h sp hint ty d a b) (trap cause false))) ∧
    (Runs s u tid (.st h sp hint ty a b c) → ea % n ≠ 0 →
      exec (.st h sp hint ty a b c) s = .next (trapped s s u tid (.st h sp hint ty a b c) (trap .align true))) ∧
    (Runs s u tid (.st h sp hint ty a b c) → ea % n = 0 → beyond →
      exec (.st h sp hint ty a b c) s = .next (trapped s s u tid (.st h sp hint ty a b c) (trap cause true)))

/-! ## Waiting -/

/-- R140, R224, R225: FENCE.e and WAITC wait for the operations of their group, FENCE.n for its thread's network operations to be
acknowledged; where nothing is left to wait for they pass, and an engine's fault that they find is their thread's trap. -/
def Obligations.EngineWaits : Prop :=
  ∀ (h : Head) (cls : EClass) (n : BitVec 6),
    let faults (s : State) (u tid : Nat) : List FaultRec := (s.grp u (groupOf tid)).faults
    let mine (o : EngineOp) (u tid : Nat) : Prop := o.team = u ∧ o.group = groupOf tid
    let sent (o : EngineOp) (u tid : Nat) : Prop := o.team = u ∧ o.thread = tid ∧ o.cls = .net
    let left (s : State) (u tid : Nat) : Nat := State.counterOf (s.grp u (groupOf tid)) cls
    PassesWhen (.fenceE h) (fun s u tid => (∀ o ∈ s.ops, ¬mine o u tid) ∧ faults s u tid = []) ∧
    WaitsWhen (.fenceE h) (fun s u tid => .fenceE ((s.ops.filter (fun o => o.team == u && o.group == groupOf tid)).map EngineOp.uid ++
      (faults s u tid).map FaultRec.op)) (fun s u tid => ∃ o ∈ s.ops, mine o u tid) ∧
    PassesWhen (.fenceN h) (fun s u tid => ∀ o ∈ s.ops, ∀ x ∈ s.ops, sent x u tid → o.uid = x.uid → o.acked = true) ∧
    WaitsWhen (.fenceN h) (fun s u tid => .fenceN ((s.ops.filter (fun o => o.team == u && o.thread == tid && o.cls == .net)).map
      EngineOp.uid)) (fun s u tid => ∃ o ∈ s.ops, sent o u tid ∧ o.acked = false) ∧
    PassesWhen (.waitc h cls n) (fun s u tid => left s u tid ≤ n.toNat ∧ ∀ f ∈ faults s u tid, f.cls ≠ cls) ∧
    WaitsWhen (.waitc h cls n) (fun _ _ _ => .waitc cls n.toNat) (fun s u tid => n.toNat < left s u tid) ∧
    (∀ s u tid f, Runs s u tid (.waitc h cls n) → left s u tid ≤ n.toNat →
      (faults s u tid).find? (fun f => f.cls == cls) = some f →
      exec (.waitc h cls n) s = .next (trapped s (s.updGrp u (groupOf tid) (fun g => { g with faults := g.faults.erase f })) u tid
        (.waitc h cls n) ⟨.engineFault, f.tva, f.tvb, 0, eclassCode f.cls, (Form.space f.space).toNat, f.wr, 0⟩))

/-- R236, R241: WAITT waits while a token of its mask's low sixteen bits is busy; SLEEPT sleeps to its stamp, and passes at or after it
where no Ferry operation with a promise by then is left, else takes PROMISE_MISSED with the earliest such promise. -/
def Obligations.TokenAndSleepWaits : Prop :=
  ∀ (h : Head) (a : Src),
    let mask (s : State) (u tid : Nat) : Word := BitVec.ofNat 32 (s.readSrc u tid 0 a .n32)
    let busy (s : State) (u tid : Nat) (k : Token) : Prop :=
      k ∈ (s.grp u (groupOf tid)).tokens ∧ k.num < 16 ∧ (mask s u tid).getLsbD k.num = true
    let stamp (s : State) (u tid : Nat) : Addr := BitVec.ofNat 64 (s.readSrc u tid 0 a .n64)
    let due (s : State) (u tid : Nat) (o : EngineOp) : Prop := o ∈ s.ops ∧ o.team = u ∧ o.group = groupOf tid ∧ o.cls = .ferry ∧
      o.uid < s.nextUid ∧ o.promise ≤ (stamp s u tid).toNat
    let free (s : State) (u : Nat) : Prop := (s.lau (s.team u).launch).det = false
    PassesWhen (.waitt h a) (fun s u tid => ∀ k, ¬busy s u tid k) ∧
    WaitsWhen (.waitt h a) (fun s u tid => .waitt (mask s u tid)) (fun s u tid => ∃ k, busy s u tid k) ∧
    PassesWhen (.sleept h a) (fun s u tid => free s u ∧ (stamp s u tid).toNat ≤ s.cyc ∧ ∀ o, ¬due s u tid o) ∧
    WaitsWhen (.sleept h a) (fun s u tid => .sleept (stamp s u tid) s.nextUid) (fun s u tid =>
      free s u ∧ s.cyc < (stamp s u tid).toNat) ∧
    (∀ s u tid, Runs s u tid (.sleept h a) → free s u → (stamp s u tid).toNat ≤ s.cyc → (∃ o, due s u tid o) →
      ∃ o, due s u tid o ∧ (∀ x, due s u tid x → o.promise ≤ x.promise) ∧
        exec (.sleept h a) s = .next (trapped s s u tid (.sleept h a)
          { cause := .promiseMissed, va := stamp s u tid, vb := BitVec.ofNat 64 o.promise }))

/-- R233, R235: LWAIT on a landing barrier without NET passes where REMAIN is at most its number, counting one more LWAIT of its
thread, and waits where it is greater; it traps on a barrier with FAULT, on a misaligned one and on one past SCRATCH; and one on a
barrier with NET waits for the close that precedes it. The class and space in the status of the barrier's fault are the model's
reading (log entry 6). -/
def Obligations.LandingWaits : Prop :=
  ∀ (h : Head) (a b : Src) (s : State) (u tid : Nat),
    let i : Instr := .lwait h a b
    let off := s.readSrc u tid 0 a .n32
    let n := s.readSrc u tid 1 b .n32
    let remain := leNat (scrBytes s u off 8)
    let flags := leNat (scrBytes s u (off + 12) 4)
    let trap (c : Cause) : TrapInfo :=
      { cause := c, va := BitVec.ofNat 64 off, vb := BitVec.ofNat 64 (off + 15), space := (Form.space .l).toNat }
    let ready : Prop := off % 16 = 0 ∧ off + 16 ≤ (s.team u).var.scratch ∧ flags.testBit 2 = false ∧
      s.writers (some u) (LogItem.isScratch u (scratchRowOf off)) = [] ∧ s.ephOf (s.team u).launch = none ∧
      ∀ k, k < 16 → s.collides (.scr u (off + k)) = false
    (Runs s u tid i → off % 16 ≠ 0 → exec i s = .next (trapped s s u tid i (trap .align))) ∧
    (Runs s u tid i → off % 16 = 0 → (s.team u).var.scratch < off + 16 →
      exec i s = .next (trapped s s u tid i (trap .scratchBounds))) ∧
    (Runs s u tid i → ready → flags.testBit 1 = true → exec i s = .next (trapped s s u tid i
      { cause := .engineFault, va := BitVec.ofNat 64 off, vb := BitVec.ofNat 64 off, space := (Form.space .l).toNat })) ∧
    (Clear s u tid i → ready → flags.testBit 1 = false → remain ≤ n → ∃ t, exec i s = .next t ∧
      (t.thr u tid).lwaits = (s.thr u tid).lwaits + 1 ∧ Frame s t u tid {} ∧ WentOn s t u tid i) ∧
    (Clear s u tid i → ready → flags.testBit 1 = false → n < remain → ∃ t, exec i s = .next t ∧
      Frame s t u tid {} ∧ Waits s t u tid i (.lwait off n)) ∧
    (Clear s u tid i → off % 16 = 0 → off + 16 ≤ (s.team u).var.scratch → flags.testBit 2 = true →
      (∀ k, k < 16 → s.collides (.scr u (off + k)) = false) → ∃ t, exec i s = .next t ∧
      Frame s t u tid {} ∧ Waits s t u tid i (.lwait off n))

/-! ## Barriers -/

/-- R195, R196, R281: a thread whose results are written arrives at a team barrier that still misses a live thread: the barrier
counts it; BAR waits there, BAR.arv goes on. A thread that has arrived in the phase already waits for the phase's end, and one
with a result outstanding waits for its results first; neither counts. The last live thread to arrive completes the barrier: its
phase advances by one, its arrivals are none, and the thread goes on. CBAR and CBAR.arv arrive at a cluster barrier that misses a
live thread alike. Which threads complete a barrier is read as log entry 11 says. -/
def Obligations.Barriers : Prop :=
  ∀ (h : Head) (b : BitVec 4) (e : BitVec 2) (s : State) (u tid : Nat),
    let x := s.bar u b.toNat
    let live := (s.team u).body.live
    let bar : Instr := .bar h b
    let arrived (t : State) : Prop := (t.bar u b.toNat).count = x.count + 1 ∧ (t.bar u b.toNat).phase = x.phase ∧
      (t.bar u b.toNat).last = s.cyc ∧ ∀ j, j ∈ (t.bar u b.toNat).arrived ↔ j = tid ∨ j ∈ x.arrived
    let missing : Prop := ∃ j ∈ live, j ≠ tid ∧ j ∉ x.arrived
    let c := (s.team u).cluster
    let key := 1024 * u + tid
    let y := s.cbarOf c e.toNat
    let met (t : State) : Prop := (t.cbarOf c e.toNat).count = y.count + 1 ∧ (t.cbarOf c e.toNat).phase = y.phase ∧
      ∀ j, j ∈ (t.cbarOf c e.toNat).arrived ↔ j = key ∨ j ∈ y.arrived
    let lacking : Prop := ∃ j ∈ s.cluLive c, j ≠ key ∧ j ∉ y.arrived
    (Clear s u tid bar → s.settled u tid = true → tid ∉ x.arrived → missing → ∃ t, exec bar s = .next t ∧ arrived t ∧
      Frame s t u tid { bars := true } ∧ Waits s t u tid bar (.bar b.toNat)) ∧
    (Clear s u tid (.barArv h b) → s.settled u tid = true → tid ∉ x.arrived → missing → ∃ t, exec (.barArv h b) s = .next t ∧
      arrived t ∧ Frame s t u tid { bars := true } ∧ WentOn s t u tid (.barArv h b)) ∧
    (Clear s u tid bar → s.settled u tid = true → tid ∈ x.arrived → ∃ t, exec bar s = .next t ∧
      Frame s t u tid {} ∧ Waits s t u tid bar (.barAgain b.toNat false)) ∧
    (Clear s u tid bar → s.settled u tid = false → ∃ t, exec bar s = .next t ∧
      Frame s t u tid {} ∧ Waits s t u tid bar (.barDrain b.toNat false)) ∧
    (Clear s u tid bar → h.k = false → s.settled u tid = true → tid ∉ x.arrived → (∀ j ∈ live, j = tid ∨ j ∈ x.arrived) →
      (s.team u).body.csr.dbg.getLsbD 1 = false →
      (∀ k, s.waiting u (fun w => w == .barAgain k true || w == .barAgain k false) = []) →
      ∃ t, exec bar s = .next t ∧ t.bar u b.toNat = ⟨x.phase + 1, 0, [], s.cyc, []⟩ ∧
        (t.thr u tid).st = (s.thr u tid).resumeState ∧ (t.thr u tid).wait = none ∧ WentOn s t u tid bar) ∧
    (Clear s u tid (.cbar h e) → s.settled u tid = true → key ∉ y.arrived → lacking → ∃ t, exec (.cbar h e) s = .next t ∧
      met t ∧ Frame s t u tid {} ∧ Waits s t u tid (.cbar h e) (.cbar e.toNat)) ∧
    (Clear s u tid (.cbarArv h e) → s.settled u tid = true → key ∉ y.arrived → lacking → ∃ t, exec (.cbarArv h e) s = .next t ∧
      met t ∧ Frame s t u tid {} ∧ WentOn s t u tid (.cbarArv h e))

/-! ## Traps -/

/-- R53, R51, R57, R64, R158, R198, R251: what a lane-set instruction's thread meets before it executes, in order: ILL_FORM, REG_RANGE,
PRIV, HAZARD on its guard; a false guard goes on with no effect; HAZARD on an operand. A trap leaves the instruction unretired. -/
def Obligations.EntryChecks : Prop :=
  ∀ (i : Instr) (s : State) (u tid : Nat), laneSet i = true → s.issue = ⟨u, [tid]⟩ → (s.team u).phase.issues = true →
    ((s.thr u tid).st = .ready ∨ (s.thr u tid).st = .inHandler) →
    let pc := (s.thr u tid).pc
    let traps (c : Cause) : Prop := exec i s = .next (s.bundleDone (0, s.takeTrap u tid pc ⟨c, pc, pc, 0, 0, 0, false, 0⟩) true)
    let ranged : Prop := s.formBad u tid i = false ∧ (regUse i).beyond (s.team u).var = false
    let level : Prop := needsSupervisor i = false ∨ (s.thr u tid).priv = .supervisor
    let guardEarly := s.earlyGuard u tid (headOf i)
    let operandEarly := s.earlyRead u tid (regUse i) || s.captureConflict u tid i (regUse i)
    (s.formBad u tid i = true → traps .illForm) ∧
    (s.formBad u tid i = false → (regUse i).beyond (s.team u).var = true → traps .regRange) ∧
    (ranged → ¬level → traps .priv) ∧
    (ranged → level → guardEarly = true → s.hazardOn u = true → traps .hazard) ∧
    (ranged → level → (guardEarly = false ∨ s.hazardOn u = false) → s.guard u tid (headOf i) = false → exec i s = .next
      (s.bundleDone (1, if guardEarly then (s.goOn u tid (nextPc i pc) (headOf i).k).draw
        else s.goOn u tid (nextPc i pc) (headOf i).k) true)) ∧
    (ranged → level → guardEarly = false → s.guard u tid (headOf i) = true → operandEarly = true → s.hazardOn u = true →
      traps .hazard)

/-- R133, R150: a lane-set instruction of a bundle is what each of its threads does alone, one after the other in (group, lane) order,
and what they retire together; a bundle that must wait is put off whole (R256, R259). -/
def Obligations.BundleOrder : Prop :=
  ∀ i : Instr, laneSet i = true → ∃ one : State → Nat → Nat → Nat × State,
    (∀ s u tid, s.issue = ⟨u, [tid]⟩ → exec i s = .next (s.bundleDone (one s u tid) true)) ∧
    ∀ s u ts, ts ≠ [] → s.issue = ⟨u, ts⟩ →
      let all := ts.foldl (fun (r : Nat × State) tid => (r.1 + (one r.2 u tid).1, (one r.2 u tid).2)) (0, s)
      exec i s = .next (s.bundleDone all true)

/-- R156, R159, R244 to R247: a thread with results outstanding is parked by a trap; taking a trap below level 2 with none
outstanding: the thread's level rises by one, its slot keeps the status, the cause's code, the instruction's address and the
trap's two addresses, its PC is the handler's, its privilege the handler's, its reservation is gone; its registers, predicates and
flags stand, and so does everything of the other threads and all of memory. -/
def Obligations.TakeTrap : Prop :=
  ∀ (s : State) (u tid : Nat) (pc : Addr) (x : TrapInfo), (s.thr u tid).st ≠ .exited → (s.thr u tid).st ≠ .parked →
    let old := s.thr u tid
    let t := s.takeTrap u tid pc x
    let new := t.thr u tid
    (s.settled u tid = false → new.st = .parked ∧ new.park = some ⟨x, pc⟩ ∧ new.wait = none ∧ new.level = old.level ∧
      new.regs = old.regs ∧ new.pend = old.pend) ∧
    (old.pend = [] → old.level < 2 →
    let slot := if old.level = 0 then new.slot1 else new.slot2
    let toTeam : Bool := old.level == 0 && routedToTeam x.cause
    let handler := (s.team u).var.handler
    let base := (s.vd (s.team u).vdev).sbase
    new.level = old.level + 1 ∧ new.wait = none ∧ new.regs = old.regs ∧ new.preds = old.preds ∧ new.fflags = old.fflags ∧
    new.st = (if new.orphanOf.isSome then .orphaned else .inHandler) ∧
    slot.tsw = BitVec.ofNat 32 (x.unit * 65536 + x.ecls * 16384 + x.space * 4096 + x.wr.toNat * 2048 + old.level * 256 + x.fk * 64 +
      (if old.priv = .supervisor then 1 else 0)) ∧
    slot.tca = BitVec.ofNat 32 (causeCode x.cause) ∧ slot.tpc = pc ∧ slot.tva = x.va ∧ slot.tvb = x.vb ∧
    (toTeam = true → new.priv = .task ∧ new.fw1 = decide (handler = 0xFFFFFFFF) ∧
      new.pc = BitVec.ofNat 64 (if handler = 0xFFFFFFFF then Config.fwTeam else (s.team u).img.addr + (s.team u).img.codeOff + handler)) ∧
    (toTeam = false → new.priv = .supervisor ∧ new.pc = (if base = 0 then BitVec.ofNat 64 Config.fwSupervisor else base)) ∧
    (∀ r ∈ t.resv, ¬(r.team = u ∧ r.thread = tid)) ∧ (∀ v j, ¬(v = u ∧ j = tid) → t.thr v j = s.thr v j) ∧
    (∀ v off, scr t v off = scr s v off) ∧ ∀ a, byte t a = byte s a)

/-- R245, R248: a trap at level 2 is a team reset: the team has ended and failed, its threads are exited, its undo log is empty,
it holds no permits, no reservation and no engine operation, and its launch's completion record has an entry with the task, the
cause, the trapping instruction's address and the trap's two addresses. -/
def Obligations.TeamReset : Prop :=
  ∀ (s : State) (u tid : Nat) (pc : Addr) (x : TrapInfo), (s.thr u tid).st ≠ .exited → (s.thr u tid).st ≠ .parked →
    (s.thr u tid).pend = [] → (s.thr u tid).level = 2 →
    let t := s.takeTrap u tid pc x
    let l := (s.team u).launch
    (t.team u).phase = .ended ∧ (t.team u).failed = true ∧ (t.team u).body.live = [] ∧ (t.team u).body.permits = 0 ∧
      (t.team u).log = [] ∧ (∀ r ∈ t.resv, r.team ≠ u) ∧ (∀ o ∈ t.ops, o.team ≠ u) ∧
      ((SMap.find s.launches l).isSome = true → (s.lau l).complete = false →
        (⟨(s.team u).task, causeCode x.cause, false, pc, x.va, x.vb⟩ : CEntry) ∈ (t.lau l).entries)

/-- R249, R250: TRAP takes the trap TRAP with its operand and the address of the next instruction, and does not retire; at level 0 the
team's handler, at level 1 the supervisor's is entered. TRET in a handler with a good status word returns to the saved PC, one level
down, at the privilege it names; a bad status word takes BAD_STATUS; outside a handler it takes TRET_OUTSIDE. -/
def Obligations.TrapAndReturn : Prop :=
  ∀ (h : Head) (a : Src) (s : State) (u tid : Nat),
    let x := s.thr u tid
    let w := x.slot.tsw.toNat
    let good : Prop := bitsOf w 20 12 = 0 ∧ bitsOf w 9 2 = 0 ∧ bitsOf w 1 5 = 0 ∧ bitsOf w 8 1 = x.level - 1 ∧
      ¬(w % 2 = 1 ∧ x.priv = .task)
    (Runs s u tid (.trap h a) → Quiet s u 0 → x.pend = [] → x.level < 2 → ∃ t, exec (.trap h a) s = .next t ∧
      let new := t.thr u tid
      let slot := if x.level = 0 then new.slot1 else new.slot2
      new.level = x.level + 1 ∧ slot.tca = 0x11 ∧ slot.tpc = x.pc ∧ slot.tva = BitVec.ofNat 64 (s.readSrc u tid 0 a .n32) ∧
      slot.tvb = nextPc (.trap h a) x.pc ∧ new.priv = (if x.level = 0 then .task else .supervisor) ∧ new.regs = x.regs ∧
      (∀ v j, ¬(v = u ∧ j = tid) → t.thr v j = s.thr v j) ∧ (∀ a, byte t a = byte s a) ∧ (t.team u).work = (s.team u).work) ∧
    (Clear s u tid (.tret h) → 0 < x.level → good → ∃ t, exec (.tret h) s = .next t ∧ (t.thr u tid).pc = x.slot.tpc ∧
      (t.thr u tid).level = x.level - 1 ∧ (t.thr u tid).priv = (if w % 2 = 1 then .supervisor else .task) ∧
      (t.thr u tid).regs = x.regs ∧ (t.thr u tid).preds = x.preds ∧ (t.thr u tid).slot1 = x.slot1 ∧
      (t.thr u tid).slot2 = x.slot2 ∧ (∀ v j, ¬(v = u ∧ j = tid) → t.thr v j = s.thr v j) ∧ (∀ a, byte t a = byte s a) ∧
      (t.team u).work = (s.team u).work + 1) ∧
    (Runs s u tid (.tret h) → 0 < x.level → ¬good → exec (.tret h) s = .next (trapped s s u tid (.tret h)
      ⟨.badStatus, x.pc, x.slot.tsw.setWidth 64, 0, 0, 0, false, 0⟩)) ∧
    (Runs s u tid (.tret h) → x.level = 0 → exec (.tret h) s = .next (trapped s s u tid (.tret h)
      ⟨.tretOutside, x.pc, x.pc, 0, 0, 0, false, 0⟩))

/-! ## Control and status registers -/

/-- R8, R246, R251, R253: CSRR writes the control or status register that its code names: the slot of the thread's level (zero at
level 0), its status word without the bits that read as zero (R8, R246), the thread's flags, key and counter, its team's four, the
hypothesis capacity and handler base of its virtual device. -/
def Obligations.CsrReads : Prop :=
  ∀ (h : Head) (d : BitVec 7),
    Gives (.csrr h .tsw d) d 1 (fun s u tid => ((s.thr u tid).slot.tsw &&& 0x000FF9C1).toNat) ∧
    Gives (.csrr h .tpc d) d 2 (fun s u tid => (s.thr u tid).slot.tpc.toNat) ∧
    Gives (.csrr h .tca d) d 1 (fun s u tid => (s.thr u tid).slot.tca.toNat) ∧
    Gives (.csrr h .tva d) d 2 (fun s u tid => (s.thr u tid).slot.tva.toNat) ∧
    Gives (.csrr h .tvb d) d 2 (fun s u tid => (s.thr u tid).slot.tvb.toNat) ∧
    Gives (.csrr h .fflags d) d 1 (fun s u tid => (s.thr u tid).fflags.toNat) ∧
    Gives (.csrr h .rngk d) d 2 (fun s u tid => (s.thr u tid).rngk.toNat) ∧
    Gives (.csrr h .fair d) d 1 (fun s u _ => (s.team u).body.csr.fair) ∧
    Gives (.csrr h .lease d) d 1 (fun s u _ => (s.team u).body.csr.lease) ∧
    Gives (.csrr h .ckint d) d 1 (fun s u _ => (s.team u).body.csr.ckint) ∧
    Gives (.csrr h .dbg d) d 1 (fun s u _ => (s.team u).body.csr.dbg.toNat) ∧
    Gives (.csrr h .sbase d) d 2 (fun s u _ => (s.vd (s.team u).vdev).sbase.toNat) ∧
    Gives (.csrr h .hypcap d) d 1 (fun s u _ => (s.liveHyps (s.team u).vdev).length * 262144 +
      min 65535 ((s.versionLines (s.team u).vdev + 63) / 64)) ∧
    (∀ s u tid, Clear s u tid (.csrr h .rngc d) → s.rngOut u tid = 0 → ∃ t, exec (.csrr h .rngc d) s = .next t ∧
      Holds t u tid d.toNat (wordsOf 4 (s.thr u tid).rngc.toNat) ∧ Frame s t u tid { lanes := span d.toNat 4 } ∧
      WentOn s t u tid (.csrr h .rngc d))

/-- R251, R252, R253: CSRW changes the register that its code names and nothing else: fair is held to 256 to 65,535, lease to 1 to
1,023, ckint to at least 4,096, dbg to its two bits; a slot's status and PC in a handler alone. -/
def Obligations.CsrWrites : Prop :=
  ∀ (h : Head) (a : Src) (s : State) (u tid : Nat),
    let w := s.readSrc u tid 0 a .n32
    let x := s.readSrc u tid 0 a .n64
    let csr := (s.team u).body.csr
    let sets (c : Csr) (touch : Touch) (p : State → Prop) : Prop := Clear s u tid (.csrw h c a) →
      ∃ t, exec (.csrw h c a) s = .next t ∧ p t ∧ Frame s t u tid touch ∧ WentOn s t u tid (.csrw h c a)
    let one := (s.thr u tid).slot1
    let two := (s.thr u tid).slot2
    ((s.thr u tid).level = 1 → sets .tsw { slots := true } (fun t =>
      (t.thr u tid).slot1 = { one with tsw := BitVec.ofNat 32 w } ∧ (t.thr u tid).slot2 = two)) ∧
    ((s.thr u tid).level = 2 → sets .tsw { slots := true } (fun t =>
      (t.thr u tid).slot2 = { two with tsw := BitVec.ofNat 32 w } ∧ (t.thr u tid).slot1 = one)) ∧
    ((s.thr u tid).level = 1 → sets .tpc { slots := true } (fun t =>
      (t.thr u tid).slot1 = { one with tpc := BitVec.ofNat 64 x } ∧ (t.thr u tid).slot2 = two)) ∧
    ((s.thr u tid).level = 2 → sets .tpc { slots := true } (fun t =>
      (t.thr u tid).slot2 = { two with tpc := BitVec.ofNat 64 x } ∧ (t.thr u tid).slot1 = one)) ∧
    sets .fflags { flags := true } (fun t => (t.thr u tid).fflags = BitVec.ofNat 4 w) ∧
    sets .rngk { key := true } (fun t => (t.thr u tid).rngk = BitVec.ofNat 64 x) ∧
    (s.rngOut u tid = 0 → sets .rngc { rng := true } (fun t =>
      (t.thr u tid).rngc = BitVec.ofNat 128 (s.readSrc u tid 0 a .b128))) ∧
    sets .fair { csr := true } (fun t => (t.team u).body.csr = { csr with fair := max 256 (min 65535 w) }) ∧
    sets .lease { csr := true } (fun t => (t.team u).body.csr = { csr with lease := max 1 (min 1023 w) }) ∧
    ((s.team u).work + 1 < max 4096 w → sets .ckint { csr := true } (fun t =>
      (t.team u).body.csr = { csr with ckint := max 4096 w })) ∧
    sets .dbg { csr := true } (fun t => (t.team u).body.csr = { csr with dbg := BitVec.ofNat 32 (w % 4) }) ∧
    sets .sbase { sbase := true } (fun t => (t.vd (s.team u).vdev).sbase = BitVec.ofNat 64 x)

/-! ## Permits, closes and invalidation -/

/-- R201, R202: PERMIT.acq takes its permits where the queue is empty and the pool holds them, and else waits at the queue's end;
PERMIT.rel gives them back; PERMIT.try says whether it took them; a count above 8, above the variant's permits or above what is
held takes PERM with the count and the permits held. -/
def Obligations.Permits : Prop :=
  ∀ (h : Head) (q : Pred) (a : Src) (s : State) (u tid : Nat),
    let n := s.readSrc u tid 0 a .n32
    let x := (s.team u).body.permits
    let c := (s.team u).core
    let fits : Prop := n ≤ 8 ∧ x + n ≤ (s.team u).var.permits
    let free : Bool := (s.cor c).permitQ.isEmpty && decide (n ≤ s.freePermits c)
    let refused (i : Instr) : Prop := exec i s = .next (trapped s s u tid i
      ⟨.perm, BitVec.ofNat 64 n, BitVec.ofNat 64 x, 0, 0, 0, false, 0⟩)
    (Clear s u tid (.permitAcq h a) → fits → (n = 0 ∨ free = true) → ∃ t, exec (.permitAcq h a) s = .next t ∧
      (t.team u).body.permits = x + n ∧ Frame s t u tid { permits := true } ∧ WentOn s t u tid (.permitAcq h a)) ∧
    (Clear s u tid (.permitAcq h a) → fits → 0 < n → free = false → ∃ t, exec (.permitAcq h a) s = .next t ∧
      (t.cor c).permitQ = (s.cor c).permitQ ++ [⟨u, some tid, n⟩] ∧ Frame s t u tid {} ∧
      Waits s t u tid (.permitAcq h a) (.permit n)) ∧
    (Clear s u tid (.permitRel h a) → n ≤ 8 → n ≤ x → ∃ t, exec (.permitRel h a) s = .next t ∧
      (t.team u).body.permits = x - n ∧ Frame s t u tid { permits := true } ∧ WentOn s t u tid (.permitRel h a)) ∧
    (Clear s u tid (.permitTry h q a) → fits → ∃ t, exec (.permitTry h q a) s = .next t ∧
      pred t u tid q.val = (decide (n = 0) || free) ∧ (t.team u).body.permits = (if free then x + n else x) ∧
      Frame s t u tid { preds := [q.val], permits := true } ∧ WentOn s t u tid (.permitTry h q a)) ∧
    (Runs s u tid (.permitAcq h a) → ¬fits → refused (.permitAcq h a)) ∧
    (Runs s u tid (.permitTry h q a) → ¬fits → refused (.permitTry h q a)) ∧
    (Runs s u tid (.permitRel h a) → (8 < n ∨ x < n) → refused (.permitRel h a))

/-- R198, R203, R257, R261, R369: DPH waits in a deterministic launch alone; YIELD waits its count of cycles or selections; SWPT waits
where a posted request has a map for its point and names no other; CKPT closes the interval, or waits for the close. -/
def Obligations.PointsAndCloses : Prop :=
  ∀ (h : Head) (p : BitVec 8) (a : Src),
    PassesWhen (.dph h) (fun s u _ => (s.lau (s.team u).launch).det = false) ∧
    WaitsWhen (.dph h) (fun _ _ _ => .dph) (fun s u _ => (s.lau (s.team u).launch).det = true) ∧
    PassesWhen (.yield h a) (fun s u tid => s.readSrc u tid 0 a .n32 = 0) ∧
    WaitsWhen (.yield h a) (fun s u tid => .yield (s.yieldClock u + s.readSrc u tid 0 a .n32))
      (fun s u tid => 0 < s.readSrc u tid 0 a .n32) ∧
    PassesWhen (.swpt h p) (fun s u _ => ∀ w, (s.team u).sw = some w →
      State.mapOf (s.team u).img p.toNat (s.team u).variant w.target = none ∨ (∃ q, w.point = some q ∧ q ≠ p.toNat) ∨ ∃ q, w.only = some q ∧ q ≠ p.toNat) ∧
    WaitsWhen (.swpt h p) (fun _ _ _ => .swpt p.toNat) (fun s u _ => ∃ w, (s.team u).sw = some w ∧
      (State.mapOf (s.team u).img p.toNat (s.team u).variant w.target).isSome = true ∧
      (∀ q, w.point = some q → q = p.toNat) ∧ ∀ q, w.only = some q → q = p.toNat) ∧
    ∀ s u tid, Clear s u tid (.ckpt h) →
      (s.closable u = true → ∃ t, exec (.ckpt h) s = .next t ∧ (t.team u).interval = (s.team u).interval + 1 ∧
        (t.team u).log = [] ∧ (t.team u).work = 0 ∧ (t.team u).snap = (t.team u).body ∧
        (t.thr u tid).pc = nextPc (.ckpt h) (s.thr u tid).pc ∧ (t.thr u tid).wait = none ∧ (∀ a, byte t a = byte s a) ∧
        ∀ v off, scr t v off = scr s v off) ∧
      (s.closable u = false → ∃ t, exec (.ckpt h) s = .next t ∧ (t.team u).closing = true ∧ Frame s t u tid {} ∧
        Waits s t u tid (.ckpt h) .ckpt)

/-- R392, R393: the TLBIs remove the translations of a page, of a context or of a virtual device from every core's TLB and every die's
cache, and wait for the operations of their scope; CFLUSH of bytes of one line returns its holder's bytes to its home and removes
it from the instruction caches; more than 64 MiB takes PERM. -/
def Obligations.Invalidation : Prop :=
  ∀ (h : Head) (a b : Src) (s : State) (u tid : Nat),
    let d := (s.team u).vdev
    let x := (s.team u).ctx
    let va := s.readPair u tid 0 a
    let n := s.readSrc u tid 1 b .n32
    let keeps (t : State) (gone : TlbEntry → Prop) : Prop :=
      (∀ c e, e ∈ (t.cor c).tlb ↔ e ∈ (s.cor c).tlb ∧ ¬gone e) ∧ ∀ c e, e ∈ (t.die c).tlb ↔ e ∈ (s.die c).tlb ∧ ¬gone e
    let removes (i : Instr) (gone : TlbEntry → Prop) (scope : EngineOp → Bool) : Prop := Clear s u tid i →
      ∃ t, exec i s = .next t ∧ keeps t gone ∧ Frame s t u tid {} ∧
        (s.ops.filter scope = [] → WentOn s t u tid i) ∧
        (s.ops.filter scope ≠ [] → Waits s t u tid i (.tlbi ((s.ops.filter scope).map EngineOp.uid)))
    let page : Instr := .tlbiPage h a
    let flush : Instr := .cflush h a b
    removes (.tlbiCtx h) (fun e => e.ident = identOf d x)
      (fun o => (s.team o.team).vdev == d && (s.team o.team).ctx == x) ∧
    removes (.tlbiVdev h) (fun e => e.ident / 16 = d) (fun o => (s.team o.team).vdev == d) ∧
    (Clear s u tid page → s.ops = [] → ∃ t, exec page s = .next t ∧
      keeps t (fun e => e.ident = identOf d x ∧ e.vbase ≤ va ∧ va < e.vbase + e.size) ∧ Frame s t u tid {} ∧
      WentOn s t u tid page) ∧
    (Clear s u tid flush → n = 0 → ∃ t, exec flush s = .next t ∧ Frame s t u tid {} ∧ WentOn s t u tid flush) ∧
    (Runs s u tid flush → 67108864 < n → exec flush s = .next (trapped s s u tid flush
      ⟨.perm, BitVec.ofNat 64 va, BitVec.ofNat 64 n, 0, 0, 0, false, 0⟩)) ∧
    ∀ pa, Clear s u tid flush → 0 < n → va % 128 + n ≤ 128 → s.mapsTo (s.team u).core d x (va / 128 * 128) = some pa →
      inHbm pa = true → (s.holders (lineOf pa)).length ≤ 1 → s.writers (some u) (LogItem.isLine (lineOf pa)) = [] →
      ∃ t, exec flush s = .next t ∧ t.holders (lineOf pa) = [] ∧ (∀ a, t.rootByte a = s.rootByte a) ∧
        (∀ c k, k ∈ (t.cor c).icache → ¬(k.ident = identOf d x ∧ k.line = lineOf pa)) ∧
        Frame s t u tid { bytes := span (lineOf pa * 128) 128 } ∧ WentOn s t u tid flush

/-! ## Cross-lane instructions and special functions -/

/-- R172 to R174, R178 to R184: a thread that arrives at a collective and names its lane alone completes it with its own part as an
outstanding result; one that names another lane that has not arrived waits, its arrival in the collective's instance. -/
def Obligations.Collectives : Prop :=
  ∀ (h : Head) (m : ShflMode) (f : VoteFn) (op : RedOp) (ex : Bool) (ty : Ty) (p : Option Pred) (q : Pred) (k : PIn) (d : BitVec 7)
    (a b c : Src) (s : State) (u tid : Nat),
    let v := BitVec.ofNat 64 (s.readSrc u tid 0 a ty)
    let w := BitVec.ofNat 32 (s.readSrc u tid 1 b .n32)
    let bit : BitVec 64 := if s.readPIn u tid 0 k then 1 else 0
    let mask := BitVec.ofNat 32 (s.readSrc u tid 2 c .n32)
    let g := groupOf tid
    let meets (i : Instr) (x : BitVec 64) (y : Word) : Prop :=
      let mine : Arrival := ⟨laneOf tid, i, x, y, mask, false⟩
      let r := collResult mine [mine]
      Clear s u tid i → (s.grp u g).colls = [] →
      (mask = BitVec.ofNat 32 (2 ^ laneOf tid) → ∃ t, exec i s = .next t ∧ Owes t u tid .result r.regs r.preds ∧
        (t.thr u tid).fflags = (s.thr u tid).fflags ||| r.flags ∧ (t.grp u g).colls = [] ∧
        Frame s t u tid { flags := true } ∧ WentOn s t u tid i) ∧
      ∀ j, j < 32 → j ≠ laneOf tid → mask.getLsbD j = true → (s.thr u (32 * g + j)).st ≠ .exited → ∃ t, exec i s = .next t ∧
        (t.grp u g).colls = [⟨(s.thr u tid).pc, [mine], [], [], []⟩] ∧ Frame s t u tid {} ∧ Waits s t u tid i .collective
    meets (.shfl h m ty p d a b c) v w ∧
    meets (.vote h f q k b c) bit (if f = .atleast ∨ f = .fewer then w else 0) ∧
    meets (.ballot h d k c) bit 0 ∧
    meets (.matchLanes h ty p d a c) v 0 ∧
    meets (.redux h op ty p d a b c) v (if Form.redIndexed op then w else 0) ∧
    meets (.scan h op ex ty p d a c) v 0

/-- R237, R240: SFQ with a free token and room in its quad's queue makes the token busy with the lane's result and goes on; with
its token busy or the queue full the thread waits at it; the token's delivery writes the register and frees the token. The
function's value is the model's evaluation (log entry 25). -/
def Obligations.SpecialFunctions : Prop :=
  ∀ (h : Head) (f : SfqFn) (k : BitVec 4) (d : BitVec 7) (a : Src) (s : State) (u tid : Nat),
    let i : Instr := .sfq h f k d a
    let g := groupOf tid
    let busy : Bool := (s.grp u g).tokens.any (fun x => x.num == k.toNat)
    let x := s.readSrc u tid 0 a .f32
    (Clear s u tid i → busy = false → s.queued u g < 8 → ∃ t, exec i s = .next t ∧
      (∃ e ∈ (t.grp u g).tokens, e.num = k.toNat ∧ e.writes = [(laneOf tid, d.toNat, sfqEval f x)]) ∧
      Frame s t u tid {} ∧ WentOn s t u tid i) ∧
    (Clear s u tid i → (busy = true ∨ 8 ≤ s.queued u g) → ∃ t, exec i s = .next t ∧ (t.thr u tid).st = .waiting ∧
      (t.thr u tid).wait = some ⟨.room (.token k.toNat), (s.thr u tid).pc, false, s.cyc, (s.team u).interval⟩ ∧ (t.thr u tid).pc = (s.thr u tid).pc ∧
      (t.team u).work = (s.team u).work ∧ (t.grp u g).tokens = (s.grp u g).tokens ∧ Frame s t u tid {}) ∧
    ∀ e r v, (s.grp u g).tokens.find? (fun x => x.num == k.toNat) = some e → e.writes = [(laneOf tid, r, v)] → Quiet s u 0 →
      (s.hazardOn u = false ∨ s.captured u tid r = false) →
      (s.thr u tid).st ≠ .exited → ∃ t, exec (.sfqResult u g k.toNat) s = .next t ∧ reg t u tid r = v ∧
        (∀ e ∈ (t.grp u g).tokens, e.num ≠ k.toNat) ∧ Frame s t u tid { lanes := [r] } ∧ (t.thr u tid).pc = (s.thr u tid).pc

/-! ## Engines and the network -/

/-- R206, R208, R210, R211, R215, R218, R223, R228, R230: CPY, MMA, MDRAIN and MZERO with a block that passes its checks and room in
the queue enter their engine's queue; CPY writes its promise; MMA owes its capture and opens its accumulator's chain, which a retiring
MDRAIN ends; MZERO sets the mode for later issues. -/
def Obligations.EngineIssue : Prop :=
  ∀ (h : Head) (d : BitVec 7) (a : Src) (s : State) (u tid : Nat),
    let off := s.readSrc u tid 0 a .n32
    let b := scrBytes s u off 32
    let accs := (s.team u).body.acc
    let held := (s.team u).var.scratch
    let only (t : State) (x : Nat) : Prop := ∀ y, y ≠ x → (t.team u).body.acc y = accs y
    let copy := parseCpy (scrBytes s u off 48)
    let m := parseMma b
    let n := mmaRegs m.fmt
    let r := parseDrain b
    (Clear s u tid (.cpy h d a) → Block s u off 48 → firstBad (cpyFields (scrBytes s u off 48) copy) = none →
      s.cpyExtentTrap u copy = none → s.hasRoom u tid .ferry = true → (s.ctx (s.team u).vdev (s.team u).ctx).regions = [] →
      ∃ t, exec (.cpy h d a) s = .next t ∧ Queued s t u tid .ferry (.cpy copy) off ∧
        Holds t u tid d.toNat (wordsOf 2 (s.promiseOf u copy)) ∧ Frame s t u tid { lanes := span d.toNat 2 } ∧
        WentOn s t u tid (.cpy h d a)) ∧
    (Clear s u tid (.mma h a) → Block s u off 32 → firstBad (s.mmaFields u b m) = none → m.breg + n ≤ (s.team u).var.lregs →
      extentTrap held m.extents = none → ((accs m.acc).chainOpen = true ∨ s.openChains u < (s.team u).body.permits) →
      s.hasRoom u tid .matrix = true → s.captureEarly u tid m.breg n = false →
      (s.tile? u m.tile).all (fun x => !State.tileHas x .drne) = true → ∃ t, exec (.mma h a) s = .next t ∧
        Queued s t u tid .matrix (.mma m (s.captureB u tid m.breg n) false) off ∧ Owes t u tid (.capture s.nextUid) [] [] ∧
        ((t.team u).body.acc m.acc).chainOpen = true ∧ only t m.acc ∧ Frame s t u tid { accs := true } ∧
        WentOn s t u tid (.mma h a)) ∧
    (Clear s u tid (.mdrain h a) → Block s u off 32 → firstBad (s.drainFields u b r) = none → extentTrap held r.extents = none →
      s.hasRoom u tid .matrix = true → ∃ t, exec (.mdrain h a) s = .next t ∧ Queued s t u tid .matrix (.mdrain r) off ∧
        (t.team u).body.acc r.acc = { accs r.acc with chainOpen := (accs r.acc).chainOpen && !r.retire } ∧ only t r.acc ∧
        Frame s t u tid { accs := true } ∧ WentOn s t u tid (.mdrain h a)) ∧
    (Clear s u tid (.mzero h a) → Block s u off 16 → firstBad (s.mzeroFields u (scrBytes s u off 16)) = none →
      s.hasRoom u tid .matrix = true → ∃ t, exec (.mzero h a) s = .next t ∧
        let x := leAt (scrBytes s u off 16) 1 1
        let mode : AccMode := if leAt (scrBytes s u off 16) 2 1 = 1 then .s32 else .f32
        Queued s t u tid .matrix (.mzero x mode) off ∧ (t.team u).body.acc x = { accs x with issueMode := mode } ∧ only t x ∧
        Frame s t u tid { accs := true } ∧ WentOn s t u tid (.mzero h a))

/-- R260, R409, R411 to R414: NGET, NPUT and NSEND with a block that passes its checks enter the queue and send their frames; NPUT
and NSEND are irrevocable, in state `z` after the close that comes first. That the frames leave at issue, where
the peer's port is up and the tokens cover them, is the model's (log entries 22, 53, 94). -/
def Obligations.NetworkIssue : Prop :=
  ∀ (h : Head) (a : Src) (s : State) (u tid pa : Nat),
    let z := s.doClose u
    let here (s : State) : Nat := s.readSrc u tid 0 a .n32
    let blk (s : State) : NetBlk := parseNet (scrBytes s u (here s) 32)
    let ready (s : State) (op : NetOp) : Prop := Block s u (here s) 32 ∧
      firstBad (netFields op (scrBytes s u (here s) 32) (blk s)) = none ∧ s.hasRoom u tid .net = true ∧
      (s.vd (s.team u).vdev).resetting = none
    let page (s : State) (k : XKind) : Prop := (blk s).raddr % 65536 + (blk s).len ≤ 65536 ∧ Cached s u tid (blk s).raddr pa k
    let inScratch (s : State) : Prop := (blk s).local_ = .l ∧ (blk s).lbase + (blk s).len ≤ (s.team u).var.scratch
    let bytes := scrBytes z u (blk z).lbase (blk z).len
    let memory (t : State) : Prop := (∀ a, byte t a = byte s a) ∧ ∀ v x, scr t v x = scr s v x
    let vd := (s.team u).vdev
    let open_ (s : State) (peer n : Nat) : Prop := ∀ e, SMap.find (s.vd vd).peers peer = some e →
      s.portUp e.port = true ∧ n * 65536 ≤ (s.bucket (.network e.port) vd).tokens
    (Clear s u tid (.nget h a) → ready s .get → page s .remoteRead → inScratch s → (∀ o ∈ s.ops, o.uid < s.nextUid) →
      open_ s (State.peerOf pa) 0 →
      ∃ t, exec (.nget h a) s = .next t ∧ Queued s t u tid .net (.nget (blk s)) (here s) ∧
        t.endpoint.outbox = s.endpoint.outbox ++ [.nget s.nextUid (State.peerOf pa) (State.windowByte pa) (blk s).len] ∧
        Frame s t u tid {} ∧ WentOn s t u tid (.nget h a)) ∧
    (Clear s u tid (.nput h a) → s.ops = [] → (s.thr u tid).hyp = 0 → ready z .put → page z .remoteWrite → inScratch z →
      open_ z (State.peerOf pa) (blk z).len → FreeScr z u u (blk z).lbase (blk z).len → ∃ t, exec (.nput h a) s = .next t ∧
        Queued s t u tid .net (.nput (blk z)) (here z) ∧
        t.endpoint.outbox = s.endpoint.outbox ++ [.nput s.nextUid (State.peerOf pa) (State.windowByte pa) bytes] ∧
        Sealed s t u tid (.nput h a) ∧ memory t) ∧
    (Clear s u tid (.nsend h a) → s.ops = [] → (s.thr u tid).hyp = 0 → ready z .send → inScratch z →
      (SMap.find (z.vd (z.team u).vdev).peers (blk z).peer).isSome = true → open_ z (blk z).peer (blk z).len →
      FreeScr z u u (blk z).lbase (blk z).len →
      ∃ t, exec (.nsend h a) s = .next t ∧ Queued s t u tid .net (.nsend (blk z)) (here z) ∧
        t.endpoint.outbox = s.endpoint.outbox ++
          [.nsend s.nextUid (blk z).peer (blk z).rctx (blk z).tag (blk z).moff bytes] ∧
        Sealed s t u tid (.nsend h a) ∧ memory t) ∧
    (Runs s u tid (.nput h a) → s.closable u = true → (s.thr u tid).hyp ≠ 0 → exec (.nput h a) s = .next
      ((drawn s (z.takeTrap u tid (s.thr u tid).pc ⟨.perm, (s.thr u tid).pc, (s.thr u tid).pc, 0, 0, 0, false, 0⟩) u tid
        (.nput h a)).endBundle u 0 false))

/-! ## Tasks and hypotheses -/

/-- R260, R339 to R341, R349: SPAWN of a task of an untraced launch puts it in the launch's queue under the next number; MODREG
enters a region at the lowest free number, and MODREL takes one out, or they trap; PROP starts the propagation of a manifest that
neither records nor propagates. How a propagation's launch is made is the model's reading (log entry 43). -/
def Obligations.Tasks : Prop :=
  ∀ (h : Head) (lg : BitVec 6) (d : BitVec 7) (q : Pred) (a b : Src) (s y : State) (u tid : Nat),
    let z := s.doClose u
    let off := z.readSrc u tid 0 a .n32
    let blk := scrBytes z u off 32
    let vd := (s.team u).vdev
    let cx := (s.team u).ctx
    let regions (t : State) : SMap Region := (t.ctx vd cx).regions
    let base := s.readPair u tid 0 a
    let n := s.readSrc u tid 1 b .n32
    let g := 2 ^ lg.toNat
    let top := BitVec.ofNat 64 (base + n * g + 18446744073709551615)
    let reg_ : Instr := .modreg h lg d a b
    let refused (c : Cause) (vb : Addr) : Prop := exec reg_ s = .next (trapped s s u tid reg_
      ⟨c, BitVec.ofNat 64 base, vb, 0, 0, 0, false, 0⟩)
    let k := s.readSrc u tid 0 a .n32
    let handle := z.readPair u tid 0 a
    (∀ img params, Clear s u tid (.spawn h d a) → s.closable u = true → Block z u off 32 → 1 ≤ leAt blk 24 2 → leAt blk 24 2 ≤ 32 →
      leAt blk 26 6 = 0 → z.imageAt vd cx (leAt blk 0 8) = .ok img → (z.team u).reexec = none →
      z.reachImage (some u) vd cx (leAt blk 0 8) = .ok () z →
      ((z.lau (z.team u).launch).traced = true → img.modular = true) →
      img.variants.any (fun v => decide (v.scratch ≤ (z.lau (z.team u).launch).carve)) = true → (z.team u).depth < 4 →
      (z.childCounts u).1 < 1023 → (z.childCounts u).2 < 1023 →
      z.spawnParams u tid (leAt blk 8 8) (List.range (img.psize / 8)) = .ok params y → y.closable u = true →
      y.launchMan (y.team u).launch = none → (SMap.find y.launches (y.team u).launch).isSome = true →
      ∃ t, exec (.spawn h d a) s = .next t ∧
        let e := y.team u
        let l := y.lau e.launch
        let m := t.lau e.launch
        Holds t u tid d.toNat (wordsOf 1 l.nextTask) ∧ m.nextTask = l.nextTask + 1 ∧ m.spawned = l.spawned ++
          [⟨l.nextTask, img, params, leAt blk 16 8, leAt blk 24 2, e.depth + 1, State.childOrd e.ordinal (e.depth + 1) e.children,
            some e.task, (y.thr u tid).hyp, none, none, false⟩] ∧
        (t.team u).children = e.children + 1 ∧ (t.team u).interval = e.interval + 1 ∧ (t.team u).log = [] ∧
        (t.team u).work = 0 ∧ (t.team u).irrevocable = true ∧ (t.thr u tid).pc = nextPc (.spawn h d a) (s.thr u tid).pc) ∧
    (∀ j, Clear s u tid reg_ → (s.thr u tid).hyp = 0 → base % g = 0 → base + n * g ≤ 9007199254740992 → 0 < n →
      s.meetsRegion vd cx base (n * g) = false → j < 256 → SMap.find (regions s) j = none →
      (∀ i, i < j → (SMap.find (regions s) i).isSome = true) → ∃ t, exec reg_ s = .next t ∧
        Holds t u tid d.toNat (wordsOf 1 j) ∧ SMap.find (regions t) j = some ⟨base, lg.toNat, n⟩ ∧
        (∀ i, i ≠ j → SMap.find (regions t) i = SMap.find (regions s) i) ∧ Frame s t u tid { lanes := span d.toNat 1 } ∧
        WentOn s t u tid reg_) ∧
    (Runs s u tid reg_ → (s.thr u tid).hyp = 0 → base % g ≠ 0 → refused .align (BitVec.ofNat 64 (base + g - 1))) ∧
    (Runs s u tid reg_ → (s.thr u tid).hyp = 0 → base % g = 0 → 9007199254740992 < base + n * g → refused .xlate top) ∧
    (Runs s u tid reg_ → (s.thr u tid).hyp = 0 → base % g = 0 → base + n * g ≤ 9007199254740992 →
      (n = 0 ∨ s.meetsRegion vd cx base (n * g) = true ∨ ∀ j, j < 256 → (SMap.find (regions s) j).isSome = true) →
      refused .perm top) ∧
    (Clear s u tid (.modrel h a) → (s.thr u tid).hyp = 0 → k ≤ 255 → (SMap.find (regions s) k).isSome = true →
      (∀ m ∈ s.manifests, ¬(m.vdev = vd ∧ m.ctx = cx)) → ∃ t, exec (.modrel h a) s = .next t ∧
        SMap.find (regions t) k = none ∧ (∀ i, i ≠ k → SMap.find (regions t) i = SMap.find (regions s) i) ∧
        Frame s t u tid {} ∧ WentOn s t u tid (.modrel h a)) ∧
    (Runs s u tid (.modrel h a) → (s.thr u tid).hyp = 0 →
      (255 < k ∨ SMap.find (regions s) k = none ∨ s.recording vd cx = true) → exec (.modrel h a) s = .next
        (trapped s s u tid (.modrel h a) ⟨.perm, BitVec.ofNat 64 k, BitVec.ofNat 64 k, 0, 0, 0, false, 0⟩)) ∧
    (∀ m, Clear s u tid (.prop h q a) → s.closable u = true → (s.thr u tid).hyp = 0 → z.man? vd cx handle = some m →
      (m.state = 0 ∨ m.state = 1 ∨ m.state = 4) → ∃ t, exec (.prop h q a) s = .next t ∧ pred t u tid q.val = false ∧
        Sealed s t u tid (.prop h q a)) ∧
    (∀ m, Clear s u tid (.prop h q a) → s.closable u = true → (s.thr u tid).hyp = 0 → z.man? vd cx handle = some m →
      m.state ≠ 0 → m.state ≠ 1 → m.state ≠ 4 → ∃ t, exec (.prop h q a) s = .next t ∧ pred t u tid q.val = true ∧
        (t.man? vd cx handle).map Manifest.state = some 4 ∧ (t.team u).irrevocable = true ∧
        (t.thr u tid).pc = nextPc (.prop h q a) (s.thr u tid).pc)

/-- R260, R350, R356 to R360: HNEW writes the lowest free number of a new child, or 0; HENT puts the thread under a live number, its
reservation gone; HRES of an unknown number writes false, and of a live one resolves it and writes true. -/
def Obligations.Hypotheses : Prop :=
  ∀ (h : Head) (d : BitVec 7) (q : Pred) (a : Src) (s : State) (u tid : Nat),
    let z := s.doClose u
    let vd := (s.team u).vdev
    let own := (s.thr u tid).hyp
    let k := s.readSrc u tid 0 a .n32
    let kz := z.readSrc u tid 0 a .n32
    let new : Instr := .hnew h d
    let ent : Instr := .hent h a
    let used := (s.liveHyps vd).map s.hypNumber
    let resolves (i : Instr) (ref : Bool) : Prop :=
      (Clear s u tid i → s.closable u = true → 1 ≤ kz → kz ≤ 63 → s.hypByNumber vd kz = none → ∃ t, exec i s = .next t ∧
        pred t u tid q.val = false ∧ Sealed s t u tid i) ∧
      (Runs s u tid i → s.closable u = true → (kz = 0 ∨ 63 < kz) → exec i s = .next ((drawn s (z.takeTrap u tid (s.thr u tid).pc
        ⟨.perm, BitVec.ofNat 64 kz, BitVec.ofNat 64 kz, 0, 0, 0, false, 0⟩) u tid i).endBundle u 0 false)) ∧
      ∀ n, n ≠ 0 → Clear s u tid i → s.closable u = true → 1 ≤ kz → kz ≤ 63 → s.hypByNumber vd kz = some n →
        (ref = true ∨ ∀ v ∈ s.vlines, v.hyp ≠ n) → (∀ v ∈ z.affected vd n, z.closable v = true) → ∃ t, exec i s = .next t ∧
          pred t u tid q.val = true ∧ (t.thr u tid).pc = nextPc i (s.thr u tid).pc ∧ (t.team u).irrevocable = true ∧
          (t.hypNode n).status = if ref then .refuted (s.hypNumber n) (s.hypNode n).parent else .confirmed (s.hypNode n).parent
    (Clear s u tid new → s.closable u = true → (63 ≤ (s.liveHyps vd).length ∨ 8 ≤ s.hypDepth own) → ∃ t, exec new s = .next t ∧
      Holds t u tid d.toNat (wordsOf 1 0) ∧ t.hyps = s.hyps ∧ Sealed s t u tid new) ∧
    (∀ j, Clear s u tid new → s.closable u = true → (s.liveHyps vd).length < 63 → s.hypDepth own < 8 → 1 ≤ j → j ≤ 63 → j ∉ used →
      (∀ i, 1 ≤ i → i < j → i ∈ used) → ∃ t, exec new s = .next t ∧ Holds t u tid d.toNat (wordsOf 1 j) ∧
        t.hyps = SMap.set s.hyps s.nextUid ⟨vd, j, own, .live⟩ ∧ Sealed s t u tid new) ∧
    (∀ n, Clear s u tid ent → k ≤ 63 → s.hypByNumber vd k = some n → n ≠ own → ∃ t, exec ent s = .next t ∧
      (t.thr u tid).hyp = n ∧ (∀ r ∈ t.resv, ¬(r.team = u ∧ r.thread = tid)) ∧ Frame s t u tid { hyp := true } ∧
      WentOn s t u tid ent) ∧
    (Clear s u tid ent → k ≤ 63 → s.hypByNumber vd k = some own → ∃ t, exec ent s = .next t ∧ Frame s t u tid {} ∧
      WentOn s t u tid ent) ∧
    (Runs s u tid ent → (63 < k ∨ s.hypByNumber vd k = none) → exec ent s = .next (trapped s s u tid ent
      ⟨.perm, BitVec.ofNat 64 k, BitVec.ofNat 64 k, 0, 0, 0, false, 0⟩)) ∧
    resolves (.hresConf h q a) false ∧ resolves (.hresRef h q a) true

/-! ## Events of threads, engines and teams -/

/-- R154, R156, R157, R202, R203, R236: a promotion, the end of a sleep or a yield, a granted acquire and a result's writeback let the
thread go on with what was due to it; a sleep whose promise is missed takes PROMISE_MISSED. -/
def Obligations.ThreadEvents : Prop :=
  ∀ (s : State) (u tid : Nat),
    let old := s.thr u tid
    let resumes (i : Instr) : Prop := ∃ t, exec i s = .next t ∧ (t.thr u tid).st = old.resumeState ∧
      (t.thr u tid).wait = none ∧ (t.thr u tid).pc = old.pc ∧ (t.thr u tid).regs = old.regs ∧
      (∀ v j, ¬(v = u ∧ j = tid) → t.thr v j = s.thr v j) ∧ (∀ a, byte t a = byte s a) ∧ ∀ v x, scr t v x = scr s v x
    let waits (w : Wait) : Prop := old.st = .waiting ∧ old.wait = some w ∧ w.k = false
    (old.st.candidate = true → (s.team u).body.csr.fair ≤ old.fair → ∃ t, exec (.fairnessPromotion u tid) s = .next t ∧
      (t.thr u tid).promoted = true ∧ Frame s t u tid {} ∧ (t.thr u tid).pc = old.pc) ∧
    (∀ w stamp lim, waits w → w.kind = .sleept stamp lim → stamp.toNat ≤ s.cyc → (s.lau (s.team u).launch).det = false →
      s.promised u tid stamp lim = [] → Quiet s u 0 → resumes (.sleepExpiry u tid)) ∧
    (∀ w stamp lim o rest, waits w → w.kind = .sleept stamp lim → stamp.toNat ≤ s.cyc → (s.lau (s.team u).launch).det = false →
      sortBy EngineOp.promise (s.promised u tid stamp lim) = o :: rest → exec (.sleepExpiry u tid) s = .next
        ((s.takeTrap u tid w.pc ⟨.promiseMissed, stamp, BitVec.ofNat 64 o.promise, 0, 0, 0, false, 0⟩).settle u)) ∧
    (∀ w n, waits w → w.kind = .yield n → n ≤ s.yieldClock u → resumes (.yieldExpiry u tid)) ∧
    (∀ w n c, waits w → w.kind = .permit n → (s.cor c).permitQ = [⟨u, some tid, n⟩] → n ≤ s.freePermits c →
      (s.team u).body.permits + n ≤ (s.team u).var.permits → resumes (.permitGrant c) ∧ ∃ t, exec (.permitGrant c) s = .next t ∧ (t.cor c).permitQ = [] ∧
        (t.team u).body.permits = (s.team u).body.permits + n) ∧
    ∀ p r v q b, old.st.candidate = true → old.pend.find? (fun x => x.seq == p.seq) = some p → p.tag ≠ .uld → p.regs = [(r, v)] →
      p.preds = [(q, b)] → q < 12 → Quiet s u 0 → (s.hazardOn u = false ∨ s.captured u tid r = false) → ∃ t, exec (.resultWriteback u tid p.seq) s = .next t ∧ reg t u tid r = v ∧
        pred t u tid q = b ∧ (t.thr u tid).pend = old.pend.filter (fun x => x.seq != p.seq) ∧
        Frame s t u tid { lanes := [r], preds := [q] } ∧ (t.thr u tid).pc = old.pc

/-- R56, R156, R160, R175, R245: a trap that an event brings is taken at the instruction the thread waits in, or its next one: a
stalled collective's arrival and an unanswered barrier arrival are withdrawn by it; a fill puts the home's bytes into an instruction
cache. -/
def Obligations.TrapEvents : Prop :=
  ∀ (s : State) (u tid : Nat),
    let old := s.thr u tid
    let takes (t : State) (c : Nat) (at_ : Addr) : Prop :=
      let new := t.thr u tid
      let slot := if old.level = 0 then new.slot1 else new.slot2
      new.level = old.level + 1 ∧ slot.tca = BitVec.ofNat 32 c ∧ slot.tpc = at_ ∧ new.wait = none ∧ new.regs = old.regs ∧
        (∀ v j, ¬(v = u ∧ j = tid) → t.thr v j = s.thr v j) ∧ (∀ a, byte t a = byte s a) ∧ ∀ v x, scr t v x = scr s v x
    let may : Prop := old.st ≠ .exited ∧ old.st ≠ .parked ∧ old.pend = [] ∧ old.level < 2 ∧ Quiet s u 0
    let waits (w : Wait) : Prop := old.st = .waiting ∧ old.wait = some w
    (∀ c va vb, may → old.st ≠ .waiting → ∃ t, exec (.takeTrap u tid c va vb) s = .next t ∧ takes t (causeCode c) old.pc) ∧
    (∀ c va vb w, may → waits w → (∀ k ∈ (s.grp u (groupOf tid)).colls, k.nextArrivals = []) → ∃ t, exec (.takeTrap u tid c va vb) s = .next t ∧ takes t (causeCode c) w.pc) ∧
    (∀ a w, may → waits w → w.kind = .collective → tid = 32 * groupOf tid + a.lane →
      (s.grp u (groupOf tid)).colls = [⟨w.pc, [a], [], [], []⟩] → a.done = false →
      s.collReady u (groupOf tid) ⟨w.pc, [a], [], [], []⟩ a = false → w.since + 4 * (s.team u).body.csr.fair ≤ s.cyc →
      ∃ t, exec (.collectiveStall u (groupOf tid) w.pc) s = .next t ∧ takes t 0x0B w.pc ∧ (t.grp u (groupOf tid)).colls = []) ∧
    (∀ b w, may → waits w → s.waiting u (atTeamBar b) = [tid] → (s.bar u b).last + 1048576 ≤ s.cyc → ∃ t,
      exec (.barrierWatchdog false u b) s = .next t ∧ takes t 0x0C w.pc ∧ (t.bar u b).count = (s.bar u b).count - 1 ∧
        tid ∉ (t.bar u b).arrived ∧ (t.bar u b).phase = (s.bar u b).phase) ∧
    (∀ b c w, may → waits w → (s.team u).cluster = c → (s.clu c).members = [u] → s.waiting u (atClusterBar b) = [tid] →
      (s.cbarOf c b).last + 1048576 ≤ s.cyc → ∃ t, exec (.barrierWatchdog true c b) s = .next t ∧ takes t 0x0C w.pc ∧
        (t.cbarOf c b).count = (s.cbarOf c b).count - 1 ∧ 1024 * u + tid ∉ (t.cbarOf c b).arrived) ∧
    ∀ c ident line, s.writers none (LogItem.isLine line) = [] → s.holders line = [] → s.damaged.contains line = false → ∃ t,
      exec (.icacheFill c ident line) s = .next t ∧ t.iline c ident line = some ⟨ident, line, lineBytes s.mem line⟩ ∧
        t.teams = s.teams ∧ ∀ a, byte t a = byte s a

/-- R207, R210, R215 to R219, R223, R225, R229: the engines' steps on the one operation in flight: the end of a capture, MZERO,
MMA with the elements that R216 and R217 give, an MDRAIN without scales or status, a row of a copy within a scratchpad, and the
report. That a row that nothing makes wait moves in one turn is the model's (log entry 24). -/
def Obligations.EngineEvents : Prop :=
  ∀ (s : State) (u : Nat) (o : EngineOp),
    let alone : Prop := s.ops = [o] ∧ o.team = u ∧ o.touched = [] ∧ (SMap.find s.teams u).isSome = true ∧
      ∀ row, s.writers (some u) (LogItem.isScratch u row) = []
    let turn : Prop := alone ∧ s.matrixTurnOf o.core = some u ∧ s.nextMatrix o.core u = some o ∧ s.capturing o = false
    let runs (t : State) : Prop := exec (.matrixOperation o.core) s = .next t ∧ (∃ p ∈ t.ops, p.uid = o.uid ∧ p.complete = true ∧
      p.fault = none) ∧ ∀ a, byte t a = byte s a
    let acc := (s.team u).body.acc
    let only (t : State) (x : Nat) : Prop := ∀ y, y ≠ x → (t.team u).body.acc y = acc y
    let d := (s.team u).vdev
    (alone → (∀ j ∈ (s.team u).body.live, (s.thr u j).st ≠ .waiting ∧ (s.thr u j).st ≠ .parked) → Quiet s u 0 → ∃ t,
      exec (.bCaptureComplete o.uid) s = .next t ∧
      (t.thr u o.thread).pend = (s.thr u o.thread).pend.filter (fun p => p.tag != .capture o.uid) ∧
      Frame s t u o.thread {} ∧ (t.thr u o.thread).pc = (s.thr u o.thread).pc) ∧
    (∀ x mode, turn → o.kind = .mzero x mode → ∃ t, runs t ∧ only t x ∧
      (t.team u).body.acc x = { acc x with elems := [], astat := 0, mode := mode } ∧ ∀ v k, scr t v k = scr s v k) ∧
    (∀ k b, turn → o.kind = .mma k b false → ∃ t, runs t ∧ only t k.acc ∧
      (t.team u).body.acc k.acc = mmaRows k (b.map (fun c => (c.1, wordsVal c.2))) 0 (acc k.acc)
        ((List.range k.arows).map (fun i => leNat (scrBytes s u (k.abase + i * k.astride) (elemBytes k.fmt k.aelems)))) ∧
      ∀ v k, scr t v k = scr s v k) ∧
    (∀ k, turn → o.kind = .mdrain k → k.rowsc = false → k.colsc = false → k.stoff = 0xFFFFFFFF →
      elemBytes k.ofmt k.ocols ≤ k.ostride → ∃ t, runs t ∧ only t k.acc ∧
        (∀ i, i < k.orows → scrBytes t u (k.obase + i * k.ostride) (elemBytes k.ofmt k.ocols) =
          packRow k.ofmt ((List.range k.ocols).map (fun j => (drainElem k.ofmt ((acc k.acc).num i j) none none).1))) ∧
        ((t.team u).body.acc k.acc).elems = (if k.clear then [] else (acc k.acc).elems) ∧
        ∀ v x, (v = u → ∀ i, i < k.orows → x < k.obase + i * k.ostride ∨
          k.obase + i * k.ostride + elemBytes k.ofmt k.ocols ≤ x) → scr t v x = scr s v x) ∧
    (∀ k row, alone → o.kind = .cpy k → o.complete = false → k.sspace = .l → k.dspace = .l → k.mcast = false → k.lbar = false →
      row < k.rows → row ∉ o.rowsDone → (s.vd d).resetting = none → o.fault = none → SMap.find o.rowBuf row = none →
      (∀ p ∈ o.parts, p.1 ≠ row) → (k.rowBytes - o.paid) * 65536 ≤ (s.bucket (.ferry o.core) d).tokens →
      (∀ i, i < k.rowBytes → s.opReads o (.scr u (k.dbase + row * k.dstride + i)) = false) → ∃ t,
        exec (.ferryTransfer o.uid row) s = .next t ∧
        scrBytes t u (k.dbase + row * k.dstride) k.rowBytes = scrBytes s u (k.sbase + row * k.sstride) k.rowBytes ∧
        (∀ x, x < k.dbase + row * k.dstride ∨ k.dbase + row * k.dstride + k.rowBytes ≤ x → scr t u x = scr s u x) ∧
        ∃ p ∈ t.ops, p.uid = o.uid ∧ p.rowsDone = insertNat row o.rowsDone ∧
          p.complete = decide (k.rows ≤ (insertNat row o.rowsDone).length)) ∧
    (alone → o.complete = true → o.clash = [] → o.held = [] → Quiet s u 0 → ∃ t,
      exec (.engineCompletionReport o.uid) s = .next t ∧ t.ops = [] ∧
      State.counterOf (t.grp u o.group) o.cls = State.counterOf (s.grp u o.group) o.cls - 1 ∧
      (t.grp u o.group).faults = (s.grp u o.group).faults ++
        (o.fault.map (fun f => { f with past := o.interval.isNone })).toList ∧ ∀ a, byte t a = byte s a)

/-- R34, R68, R147, R193, R197 to R200: the dispatcher's request, the switch of a team whose threads all wait at the point, and its
withdrawal; the start of an admitted team, its threads as R68 says and its scratchpad zero; and a team's completion. -/
def Obligations.TeamEvents : Prop :=
  ∀ (s : State) (u : Nat),
    let x := s.team u
    let points := s.waiting u State.isSwpt
    (∀ n, x.phase.issues = true → x.sw = none → n ≠ x.variant → n < x.img.variants.length →
      x.img.maps.any (fun m => m.src == x.variant && m.dst == n) = true →
      s.switchFits u (x.img.variants.getD n Variant.none) = true →
      x.body.permits ≤ (x.img.variants.getD n Variant.none).permits → s.endpoint.landings = [] → s.ephSwitch u = none →
      (x.variant < n → s.switchHelps u n = true) →
      (n < x.variant → ∀ v, x.variant < v → v < x.img.variants.length → s.switchHelps u v = false) → ∃ t,
        exec (.switchRequest u n) s = .next t ∧ (t.team u).sw = some ⟨n, none, none, none⟩ ∧ t.thr = s.thr ∧ t.mem = s.mem) ∧
    (∀ p m w tid r j, x.sw = some w → w.point = some p → State.mapOf x.img p x.variant w.target = some m → x.body.live ≠ [] →
      (∀ i ∈ x.body.live, i ∈ points) → s.ops = [] → (∀ row, s.writers (some u) (LogItem.isScratch u row) = []) →
      (s.lau x.launch).det = false → Quiet s u 0 → (s.thr u tid).st ≠ .exited → (s.thr u tid).pend = [] →
      (s.grp u (groupOf tid)).tokens = [] →
      let v := x.img.variants.getD w.target Variant.none
      r < v.lregs → State.mapSource m.items 0 r = some j → ∃ t, exec (.variantSwitch u) s = .next t ∧
        (t.team u).variant = w.target ∧ (t.team u).sw = none ∧ (t.team u).interval = x.interval + 1 ∧ (t.team u).log = [] ∧
        (t.thr u tid).pc = BitVec.ofNat 64 (x.img.addr + x.img.codeOff + v.points.getD p 0 + 4) ∧
        (t.thr u tid).wait = none ∧ reg t u tid r = reg s u tid j) ∧
    (∀ w tid y, x.sw = some w → s.withdrawable u = true → Quiet s u 0 → tid ∈ points → (s.thr u tid).wait = some y → y.k = false → ∃ t,
      exec (.switchWithdrawal u) s = .next t ∧ (t.team u).sw = none ∧ (t.team u).variant = x.variant ∧
        (t.thr u tid).wait = none ∧ (t.thr u tid).pc = (s.thr u tid).pc) ∧
    (∀ tid, x.phase = .admitted → x.reexec = none → s.endpoint.landings = [] → x.startHyp = 0 → x.startOrphan = none →
      tid < 32 * x.gcount → ∃ t, exec (.teamStart u) s = .next t ∧ (t.team u).phase = .running ∧
        (t.team u).interval = 0 ∧ (t.team u).work = 0 ∧ (∀ k, scr t u k = 0) ∧ (t.team u).body.csr = (s.vd x.vdev).defaults ∧
        let y := t.thr u tid
        y.pc = BitVec.ofNat 64 (x.img.addr + x.img.codeOff + x.var.entry) ∧ (∀ r, reg t u tid r = 0) ∧ y.preds = 0 ∧
          y.st = .ready ∧ y.level = 0 ∧ y.priv = .task ∧ y.fflags = 0 ∧ y.hyp = 0 ∧ y.rngk = (s.lau x.launch).rngk ∧
          y.rngc = BitVec.ofNat 128 (x.team * 18446744073709551616 + tid * 4294967296)) ∧
    (s.completable u = true → ∃ t, exec (.teamCompletion u) s = .next t ∧ (t.team u).phase = .ended ∧ (t.team u).quads = [] ∧
      (t.team u).body.permits = 0 ∧ (t.team u).body.accs = [] ∧ (t.team u).log = [] ∧ ∀ r ∈ t.resv, r.team ≠ u)

/-! ## Admission, removal and errors -/

/-- R189 to R191, R272, R277, R278, R284, R327, R339: what waits in a launch's queue is admitted where it fits: a task, a grid cluster
with all its ranks at once, and a saved team with its record. -/
def Obligations.Admissions : Prop :=
  ∀ (s : State) (l : Nat),
    let x := s.lau l
    let c := s.nextUid
    let ready (it : Item) : Prop := (SMap.find s.launches l).isSome = true ∧ x.complete = false ∧ x.det = false ∧
      s.itemsOf l = [it] ∧ s.outranked l it false = false ∧ s.launchMan l = none
    let placed (t : State) (u r task clus : Nat) (p : Spot) : Prop :=
      let y := t.team u
      y.phase = .admitted ∧ y.core = p.core ∧ y.variant = p.variant ∧ y.quads = p.slots ∧ y.lender = p.lender ∧ y.rank = r ∧
        y.team = task ∧ y.task = task ∧ y.clus = clus ∧ y.cluster = c ∧ y.launch = l ∧ y.vdev = x.vdev ∧ y.ctx = x.ctx ∧
        Turn.event (.teamStart u) ∈ t.agenda
    (∀ ps : List Spot, ready .grid → s.itemSpots l .grid = some (ps.map some) → ps.length = x.ch * x.cw →
      ∃ t, exec (.clusterAdmission l) s = .next t ∧ (t.lau l).nextClus = x.nextClus + 1 ∧
        (t.clu c).members = (List.range ps.length).map (fun r => c + 1 + r) ∧
        ∀ r p, ps[r]? = some p → placed t (c + 1 + r) r (x.nextClus * (x.ch * x.cw) + r) x.nextClus p) ∧
    (∀ p, ready .grid → x.ch = 1 → x.cw = 1 → s.itemSpots l .grid = some [some p] →
      ∃ t, exec (.teamAdmission l x.nextClus p.core) s = .next t ∧ (t.lau l).nextClus = x.nextClus + 1 ∧
        (t.clu c).members = [c + 1] ∧ placed t (c + 1) 0 x.nextClus x.nextClus p) ∧
    (∀ q p, ready (.spawned q) → s.itemSpots l (.spawned q) = some [some p] →
      ∃ t, exec (.teamAdmission l q.task p.core) s = .next t ∧ (t.lau l).spawned = x.spawned.filter (fun y => y != q) ∧
        (t.clu c).members = [c + 1] ∧ placed t (c + 1) 0 q.task q.task p ∧
        let y := t.team (c + 1)
        y.gcount = q.groups ∧ y.params = q.params ∧ y.key = q.key ∧ y.depth = q.depth ∧ y.parent = q.parent ∧
          y.startHyp = q.hyp) ∧
    ∀ u p, (s.team u).phase = .saved → (s.team u).launch = l → (s.clu (s.team u).cluster).members = [u] →
      (SMap.find s.launches l).isSome = true → (∀ j ∈ (s.team u).body.live, (s.thr u j).st ≠ .waiting ∧ (s.thr u j).st ≠ .parked) →
      s.behind l (.back (s.team u).cluster) = false → s.itemSpots l (.back (s.team u).cluster) = some [some p] → s.outranked l (.back (s.team u).cluster) true = false →
      ∃ t, exec (.resumption u p.core) s = .next t ∧ (t.team u).phase = .running ∧ (t.team u).core = p.core ∧
        (t.team u).quads = p.slots ∧ (t.team u).saveRec = none ∧ (t.team u).log = [] ∧ (t.team u).work = 0 ∧
        (t.lau l).requeue = x.requeue.filter (fun v => v != u)

/-- R264 to R268, R273, R284, R384, R385: a team chosen alone leaves by ROLLBACK for a deadline or a reclaim, else by DRAIN within
its budget, by RESTART where its image is idempotent and it has done nothing irrevocable, else by SAVE; a drain that runs out ends
by ROLLBACK; a function-level reset ends every team of its virtual device. The INTERVAL of a record of MODE 2 is the model's
reading (log entry 36), and the estimate that a choice rests on is an argument (log entry 40). -/
def Obligations.Removals : Prop :=
  ∀ (s : State) (u : Nat),
    let x := s.team u
    let d := (s.vd x.vdev).drainUs
    let alone : Prop := x.phase = .running ∧ s.together u = [u] ∧ x.sw = none ∧ x.logBad = none ∧
      (SMap.find s.launches x.launch).isSome = true ∧ s.removalWaits [u] = false ∧
      ∀ j ∈ x.body.live, (s.thr u j).st ≠ .waiting ∧ (s.thr u j).st ≠ .parked
    let away (t : State) (mode interval : Nat) : Prop := (t.team u).phase = .saved ∧ (t.team u).quads = [] ∧ (t.team u).log = [] ∧
      u ∈ (t.lau x.launch).requeue ∧ (∀ r ∈ t.resv, r.team ≠ u) ∧
      ∃ r, (t.team u).saveRec = some r ∧ r.mode = mode ∧ r.interval = interval ∧ r.task = x.task ∧ r.variant = x.variant
    (∀ need n, alone → need ≠ .other → ∃ t, exec (.preemption u need n) s = .next t ∧ away t 2 (x.interval - 1)) ∧
    (∀ n, alone → n ≤ d → ∃ t, exec (.preemption u .other n) s = .next t ∧ (t.team u).phase = .draining ∧
      (t.team u).drainBy = some (s.cyc + 2 * d * Config.cyclesPerUs) ∧ (t.team u).body = x.body ∧ ∀ a, byte t a = byte s a) ∧
    (∀ n, alone → d < n → x.img.idempotent = true → x.irrevocable = false → ∃ t, exec (.preemption u .other n) s = .next t ∧
      (t.team u).phase = .restarting ∧ u ∈ (t.lau x.launch).requeue ∧ (∀ o ∈ t.ops, o.team ≠ u) ∧ (∀ k, scr t u k = 0) ∧
      ∀ a, byte t a = byte s a) ∧
    (∀ n, alone → d < n → ¬(x.img.idempotent = true ∧ x.irrevocable = false) →
      ∃ t, exec (.preemption u .other n) s = .next t ∧ (t.team u).phase = .saving) ∧
    (x.phase = .draining → s.together u = [u] → x.sw = none → x.logBad = none → s.removalWaits [u] = false → (SMap.find s.launches x.launch).isSome = true →
      (∃ n, x.drainBy = some n ∧ n ≤ s.cyc) → ∃ t, exec (.drainTimeout u) s = .next t ∧ away t 2 (x.interval - 1)) ∧
    (x.phase = .saving → s.together u = [u] → s.saveReady u = true → x.saveRolled = false →
      (SMap.find s.launches x.launch).isSome = true → ∃ t, exec (.save u) s = .next t ∧ away t 1 x.interval ∧
        (t.team u).interval = x.interval + 1 ∧ (t.team u).work = 0) ∧
    (∀ v, alone → s.resident.filter (s.borrows v x.core) = [u] →
      (s.waitingTeams v).any (fun w => !s.couldAdmit x.core w) = true →
      ∃ t, exec (.coreRangeReclaim v x.core) s = .next t ∧ away t 2 (x.interval - 1) ∧
        (t.team u).reclaimBy = some (s.cyc + 64 * Config.cyclesPerUs)) ∧
    (∀ v, alone → (s.team v).phase = .saved → (∃ n, (s.team v).reclaimBy = some n ∧ n ≤ s.cyc) →
      s.itemSpots (s.team v).launch (.back (s.team v).cluster) = none →
      (sortBy (fun w => (s.team w).admittedAt) (s.resident.filter (fun w => (s.team w).vdev == (s.team v).vdev))).getLast? = some u → ∃ t, exec (.reclaimTimeout v) s = .next t ∧ (t.team u).phase ≠ .running) ∧
    ∀ v, v < 16 →
      ((s.vd v).resetting = none → ∃ t, exec (.functionLevelReset v) s = .next t ∧ (t.vd v).resetting = some s.cyc ∧
        t.teams = s.teams ∧ t.mem = s.mem) ∧
      ∀ n, (s.vd v).resetting = some n → (s.drained v = true ∨ n + 50 * Config.cyclesPerUs ≤ s.cyc) →
        ∃ t, exec (.functionLevelReset v) s = .next t ∧ (t.vd v).resetting = none ∧
          (∀ w, (s.team w).vdev = v → (t.team w).phase = .ended) ∧ (∀ c, (t.ctx v c).regions = []) ∧
          (∀ k e, SMap.find (t.vd v).counters k = some e → e.value = 0) ∧ (∀ e ∈ t.endpoint.landings, e.2.vdev ≠ v) ∧
          (∀ y, y.vdev = v → ∀ k, SMap.find s.launches k = some y → (t.lau k).complete = true)

/-- R257, R262, R263, R306: an interval that is due closes, or asks for its close; a rollback gives back the start of the
interval; an error in a row with a clean copy rolls its team back, at most twice, and else takes UNCORRECTABLE; a damaged line is
marked; a tag parity error drops its entry. What lost bytes become and how units are counted are the model's (log entries 34, 35,
58). -/
def Obligations.Errors : Prop :=
  ∀ (s : State) (u : Nat),
    let x := s.team u
    let due : Prop := x.phase.resident = true ∧
      (x.closing = true ∨ x.body.csr.ckint ≤ x.work ∨ Config.undoLogBytes < logBytes x)
    let calm (b : TeamBody) : Prop := b.bars = [] ∧ (s.clu x.cluster).bars = []
    let back (t : State) : Prop := (t.team u).log = [] ∧ (t.team u).work = 0 ∧ (t.team u).interval = x.interval ∧
      (t.team u).body.csr = x.snap.csr ∧
      ∀ tid r, reg t u tid r = SMap.get (SMap.get x.snap.threads tid Thread.none).regs r 0
    (due → calm x.body → s.closable u = true → ∃ t, exec (.intervalClose u) s = .next t ∧ (t.team u).interval = x.interval + 1 ∧
      (t.team u).log = [] ∧ (t.team u).work = 0 ∧ (t.team u).closing = false ∧ ∀ v k, scr t v k = scr s v k) ∧
    (due → s.closable u = false → ∃ t, exec (.intervalClose u) s = .next t ∧ (t.team u).closing = true ∧
      (t.team u).interval = x.interval ∧ (t.team u).log = x.log) ∧
    (x.phase.resident = true → calm x.snap → x.logBad = none → ∃ t, exec (.rollback u) s = .next t ∧ back t ∧
      ∀ row prior, x.log = [.scratchRow u row prior] → Mem.wf prior = true → ∀ k, k / 2048 = row → scr t u k = Mem.get prior k) ∧
    (∀ g row tid, x.phase.resident = true → calm x.snap → x.logBad = none → row < 128 → LogItem.regRow g row ∈ x.log → x.errRollbacks < 2 →
      ∃ t, exec (.uncorrectableError (.regRow u g row) tid) s = .next t ∧ back t ∧
        (t.team u).errRollbacks = x.errRollbacks + 1) ∧
    (∀ g row tid, x.phase.resident = true → row < 128 → (LogItem.regRow g row ∉ x.log ∨ 2 ≤ x.errRollbacks) → tid < 1024 →
      Quiet s u 0 → (s.thr u tid).st.candidate = true → (s.thr u tid).pend = [] → (s.thr u tid).level < 2 →
      ∃ t, exec (.uncorrectableError (.regRow u g row) (some (1024 * u + tid))) s = .next t ∧
        let new := t.thr u tid
        let slot := if (s.thr u tid).level = 0 then new.slot1 else new.slot2
        new.level = (s.thr u tid).level + 1 ∧ slot.tca = 0x13 ∧ slot.tpc = (s.thr u tid).pc ∧
          slot.tva = BitVec.ofNat 64 (256 * g + row)) ∧
    (∀ line, (∀ v ∈ s.resident, s.logsLine v line = false) → ∃ t, exec (.uncorrectableError (.memLine line) none) s = .next t ∧
      (∀ k, k ∈ t.damaged ↔ k = line ∨ k ∈ s.damaged) ∧ t.mem = s.mem ∧ t.teams = s.teams) ∧
    (∀ d n, d < Config.dies → ∃ t, exec (.tagParityError (.dieTlb d) n) s = .next t ∧ (t.die d).tlb = (s.die d).tlb.eraseIdx n ∧
      t.mem = s.mem ∧ t.teams = s.teams) ∧
    ∀ c n line y, c < Config.cores → (s.cor c).l1[n]? = some (line, y) → ∃ t, exec (.tagParityError (.l1 c) n) s = .next t ∧
      SMap.find (t.cor c).l1 line = none ∧ (y.kind = .leased → t.agenda = s.agenda) ∧
      (y.kind ≠ .leased → ∀ v ∈ s.coreTeams c, Turn.event (.functionLevelReset (s.team v).vdev) ∈ t.agenda)

/-! ## Homes, stamps and caches -/

/-- R292 to R297, R299 to R301: the requests a core makes of a home whose line no other core holds, and the recall, merge and eviction
of its copies: the bytes a core wrote reach the home, and the home's stamps move as stated. -/
def Obligations.HomeEvents : Prop :=
  ∀ (s : State) (c d x pa n : Nat) (h : HomeLine) (data : List Byte) (a b : BitVec 128) (op : AtomOp) (ty : Ty),
    let line := lineOf pa
    let id := identOf d x
    let lone : Prop := s.writers none (LogItem.isLine line) = []
    let asked : Prop := c < Config.cores ∧ d < Config.vdevs ∧ x < Config.ctxs ∧ inHbm pa = true ∧ lone ∧
      SMap.find s.lines line = some h ∧ h.ident = id ∧ h.holders = [] ∧ (s.cor c).l1.length < s.l1Cap c
    let copy := SMap.find (s.cor c).l1 line
    let lease := BitVec.ofNat 32 n
    let p := (s.cor c).pts
    let r := serialMax h.rts (serialMax (h.wts + lease) (p + lease))
    let granted (t : State) : Prop := SMap.find (t.cor c).l1 line = some ⟨id, .leased, h.wts, r, lineBytes s.mem line, 0, 0⟩ ∧
      (∃ e, SMap.find t.lines line = some e ∧ e.wts = h.wts ∧ e.rts = r ∧ e.holders = []) ∧
      (t.cor c).pts = serialMax p h.wts ∧ t.mem = s.mem
    let w := serialMax p (h.rts + 1)
    let written (t : State) (bs : List Byte) : Prop := (∀ i, i < bs.length → some (byte t (pa + i)) = bs[i]?) ∧
      (∀ k, k < pa ∨ pa + bs.length ≤ k → byte t k = byte s k) ∧
      (∃ e, SMap.find t.lines line = some e ∧ e.wts = w ∧ e.rts = w) ∧
      ∀ e ∈ t.resv, e.granule < pa / 8 ∨ (pa + bs.length - 1) / 8 < e.granule
    let returned (t : State) : Prop := (∀ k, byte t k = s.rootByte k) ∧ t.holders line = [] ∧
      ∀ k, t.rootByte k = s.rootByte k
    (asked → (∀ y, copy = some y → y.kind = .leased) → ∃ t, exec (.homeRead c d x pa n) s = .next t ∧ granted t) ∧
    (∀ y, asked → copy = some y → y.kind = .leased → y.ident = id → serialLess y.rts p = true →
      ∃ t, exec (.homeRenewal c d x pa n) s = .next t ∧ granted t) ∧
    (asked → (∀ y, copy = some y → y.kind ≠ .owned) → 0 < n → pa % 128 + n ≤ 128 → s.pinned line = false →
      ∃ t, exec (.homeOwnership c d x pa n) s = .next t ∧
        SMap.find (t.cor c).l1 line = some ⟨id, .owned, h.wts, h.rts, [], 0, 0⟩ ∧ t.holders line = [c] ∧ t.mem = s.mem) ∧
    (asked → data ≠ [] → pa % 128 + data.length ≤ 128 → ∃ t, exec (.homeWriteThrough c d x pa data) s = .next t ∧ written t data ∧
      (t.cor c).pts = w) ∧
    (∀ bs, asked → Form.atomTy op ty = true → pa % accessSize ty = 0 →
      atomBytes op ty a.toNat b.toNat (Mem.read s.mem pa (accessSize ty)) = some bs → bs ≠ [] →
      ∃ t, exec (.homeAtomic c d x pa op ty a b) s = .next t ∧ written t bs) ∧
    (lone → h.holders = [c] → SMap.find s.lines line = some h → (∀ l, l ≠ line → s.holders l = []) →
      ∃ t, exec (.recall pa false) s = .next t ∧ returned t ∧ SMap.find (t.cor c).l1 line = none) ∧
    (∀ k y z, lone → k ≠ c → h.holders = [c, k] → SMap.find s.lines line = some h → copy = some y →
      SMap.find (s.cor k).l1 line = some z → y.mask &&& z.mask = 0 → (∀ l, l ≠ line → s.holders l = []) →
      ∃ t, exec (.merge pa) s = .next t ∧ returned t ∧ SMap.find (t.cor c).l1 line = none ∧ SMap.find (t.cor k).l1 line = none) ∧
    (∀ y, lone → copy = some y → y.kind ≠ .leased → h.holders = [c] → SMap.find s.lines line = some h →
      (∀ l, l ≠ line → s.holders l = []) → ∃ t, exec (.l1Eviction c pa) s = .next t ∧ returned t ∧
        SMap.find (t.cor c).l1 line = none)

/-- R288, R300, R302, R305, R326, R382, R384, R389, R390: the stamps' advance and sweep, the end of a reservation, retention sleep
and waking, a walk whose success both caches then hold, the refill of the buckets, and a lent way given back. When the device
looks at the base is the model's (log entries 55, 74). -/
def Obligations.StampsAndCaches : Prop :=
  ∀ s : State,
    let b := s.stampBase
    (s.cyc % 1024 = 0 → ∃ t, exec .ptsAdvance s = .next t ∧ ∀ c, c < 480 → (t.cor c).pts = (s.cor c).pts + 1) ∧
    (∀ u tid, ∃ t, exec (.reservationExpiry u tid) s = .next t ∧ (∀ r, r ∈ t.resv ↔
      r ∈ s.resv ∧ ¬(r.team = u ∧ r.thread = tid ∧ r.placed + 65536 ≤ s.cyc)) ∧ t.mem = s.mem ∧ t.teams = s.teams) ∧
    (∀ d, d < 4 → ∃ t, exec (.sweep d) s = .next t ∧ (t.die d).base = b ∧
      (State.crossed (s.die d).base b = false → t.cores = s.cores ∧ t.lines = s.lines ∧ (t.die d).epoch = (s.die d).epoch) ∧
      (State.crossed (s.die d).base b = true → (t.die d).epoch = (s.die d).epoch + 1 ∧
        ∀ c, c / 120 = d → (t.cor c).pts = State.swept b (s.cor c).pts)) ∧
    (∀ e, State.cacheExists e = true → s.henip.sleepPolicy = 1 → s.idleCache e = true → (∀ y ∈ s.sleeping, y.1 ≠ e) →
      ∃ t, exec (.retentionSleep e) s = .next t ∧ t.sleeping = s.sleeping ++ [(e, (s.die (State.cacheDie e)).epoch)]) ∧
    (∀ c n, s.sleeping = [(.l1 c, n)] → ∃ t, exec (.retentionWake (.l1 c)) s = .next t ∧ t.sleeping = [] ∧
      (t.cor c).l1 = (if (s.die (c / 120)).epoch = n then (s.cor c).l1 else (s.cor c).l1.filter (fun e => e.2.kind != .leased))) ∧
    (∀ c d x va k sup reads e, c < Config.cores → d < Config.vdevs → x < Config.ctxs → va.toNat < 9007199254740992 →
      ¬(Config.fwBase ≤ va.toNat ∧ va.toNat ≤ Config.fwLast) → State.tlbHit (s.cor c).tlb (identOf d x) va.toNat = none →
      State.tlbHit (s.die (c / 120)).tlb (identOf d x) va.toNat = none → s.peekWalk d x va.toNat = (reads, .ok e) →
      (∀ r ∈ reads, s.writers none (LogItem.isLine (lineOf r)) = [] ∧ s.holders (lineOf r) = []) →
      ∃ t, exec (.translationWalk c d x va k sup) s = .next t ∧ (t.cor c).tlb = State.tlbAdd (s.cor c).tlb e 128 ∧
        (t.die (c / 120)).tlb = State.tlbAdd (s.die (c / 120)).tlb e 65536 ∧ t.mem = s.mem) ∧
    (∀ key v, (s.buckets.map Prod.fst).Nodup → (key, v) ∈ s.buckets → (s.vd (key % 16)).resetting = none → s.memReqs = [] →
      ∃ t, exec .bucketRefill s = .next t ∧
        SMap.find t.buckets key = some { v with tokens := min (v.tokens + v.rate) (v.depth * 65536) }) ∧
    ∀ d i way line h, SMap.find s.lines line = some h → sliceOf line = 160 * d + i → h.way = way → h.holders = [] →
      s.lines = [(line, h)] → s.pinned line = false →
      (∀ w, SMap.find (s.vd (h.ident / 16)).ways (160 * d + i) = some w → ¬(w.first ≤ way ∧ way < w.first + w.count)) →
      ∃ t, exec (.wayReclaim d i way) s = .next t ∧ SMap.find t.lines line = none ∧
        t.estOf (160 * d + i) = serialMax (s.estOf (160 * d + i)) h.rts ∧ t.mem = s.mem

/-! ## Deterministic launches and propagation -/

/-- R342, R344, R365, R367, R368: a quantum's end lets the serial phase begin once every team has ended its own; the phase
performs a buffered store, counts, closes the interval and lets the waiting threads go on; a walk starts a stale record's task,
and the completion step of a re-executed task moves the walk on. When a quantum ends is read as log entry 49 says. -/
def Obligations.PhasesAndWalks : Prop :=
  ∀ (s : State) (l u : Nat),
    let x := s.team u
    let due : Prop := s.phaseDue l = true ∧ s.launchTeams l = [u] ∧ x.launch = l ∧ (SMap.find s.launches l).isSome = true ∧
      s.itemsOf l = [] ∧ s.ephOf l = none ∧ (s.clu x.cluster).bars = [] ∧
      (∀ j ∈ x.body.live, (s.thr u j).st = .waiting ∧ ∃ w, (s.thr u j).wait = some w ∧ w.kind = .dph ∧ w.k = false) ∧
      ∀ b, State.Bar.full (s.bar u b) x.body.live = false
    let after (t : State) : Prop := (t.lau l).phases = (s.lau l).phases + 1 ∧ (t.team u).interval = x.interval + 1 ∧
      (t.team u).log = [] ∧ (t.team u).work = 0 ∧ (t.team u).body.quantumWork = 0 ∧ (t.team u).body.buf = [] ∧
      ∀ j ∈ x.body.live, (t.thr u j).st = (s.thr u j).resumeState ∧ (t.thr u j).wait = none ∧ (t.thr u j).pc = (s.thr u j).pc
    (x.launch = l → (s.lau l).det = true → (s.lau l).quantum ≤ x.body.quantumWork → s.phaseDue l = true →
      ∃ t, exec (.quantumExpiry u) s = .next t ∧ Turn.event (.serialPhase l) ∈ t.agenda ∧ t.teams = s.teams) ∧
    (due → x.body.buf = [] → ∃ t, exec (.serialPhase l) s = .next t ∧ after t ∧ ∀ a, byte t a = byte s a) ∧
    (∀ va pa data h, due → x.body.buf = [⟨none, 0, .store va pa data⟩] → s.writers (some u) (LogItem.isLine (lineOf pa)) = [] →
      SMap.find s.lines (lineOf pa) = some h → h.ident = identOf x.vdev x.ctx → h.holders = [] → ∃ t,
        exec (.serialPhase l) s = .next t ∧ after t ∧ (∀ i, i < data.length → some (byte t (pa + i)) = data[i]?) ∧
        ∀ a, a < pa ∨ pa + data.length ≤ a → byte t a = byte s a) ∧
    (∀ i m w k r img, s.manifests[i]? = some m → m.walk = some w → w.waiting = false → w.full = false → w.at_ = some k →
      m.rec? k = some r → ¬(r.live = true ∧ r.done = false) → r.stale = true → m.launch = some l →
      (SMap.find s.launches l).isSome = true → s.imageAt m.vdev m.ctx r.image = .ok img → ∃ t,
        exec (.propagateWalk i) s = .next t ∧ (t.lau l).spawned = (s.lau l).spawned ++
          [⟨k, img, r.params, r.key, r.groups, m.depth k, r.ord, r.parent, r.hyp, none, some k, false⟩] ∧
        ((t.man? m.vdev m.ctx m.handle).bind Manifest.walk) = some { w with at_ := some k, waiting := true }) ∧
    ∀ m w r, s.launchMan x.launch = some m → m.walk = some w → w.waiting = true → x.reexec = some r.task → m.rec? r.task = some r →
      w.at_ = some r.task → r.done = true → r.oldWrites = [] → r.oldChildren = [] → r.dropped = [] →
      (∀ y ∈ m.recs, y.writes = []) → s.man? m.vdev m.ctx m.handle = some m → ∃ t v, exec (.reexecutionCompletion u) s = .next t ∧
        ((t.man? m.vdev m.ctx m.handle).bind Manifest.walk) = some v ∧ v.waiting = false

/-! ## Power, health and the clock -/

/-- R395 to R398, R400, R402 to R406, R430: bring-up and the ends of power, with what flash keeps; the update of the health records;
the security alarm by its level; droops, throttling and the thermal trip; link retraining; and the servo's corrections of %ptp.
The temperatures, what a thermal trip locks, the objects' layout, the key's correction and clockClass are the model's (log
entries 62 to 66, 71, 73). -/
def Obligations.PowerAndHealth : Prop :=
  ∀ (s : State) (d : Nat),
    let h := s.henip
    let on : Prop := s.powered = true
    let empty (t : State) : Prop := (∀ a, byte t a = 0) ∧ t.teams = [] ∧ t.launches = [] ∧ t.lines = [] ∧ t.manifests = [] ∧
      t.endpoint.masters = [] ∧ t.endpoint.owner = none ∧ t.cyc = 0
    let flash (t : State) : Prop := t.henip.minVersion = h.minVersion ∧ t.henip.attIndex = h.attIndex ∧
      t.henip.erased = h.erased ∧ t.henip.flash = h.flash
    let still (t : State) : Prop := t.teams = s.teams ∧ t.mem = s.mem ∧ t.cyc = s.cyc ∧ t.ptpNs = s.ptpNs ∧ t.ptpSec = s.ptpSec
    let updated (t : State) : Prop :=
      t.henip.health.errRollbacks = h.health.errRollbacks + h.pendingHealth.errRollbacks ∧
      t.henip.health.promiseMisses = h.health.promiseMisses + h.pendingHealth.promiseMisses ∧
      ((h.pendingHealth.droops.map Prod.fst).Nodup → ∀ k, SMap.get t.henip.health.droops k 0 =
        SMap.get h.health.droops k 0 + SMap.get h.pendingHealth.droops k 0) ∧ t.henip.pendingHealth = Health.zero
    let locked (t : State) : Prop := t.henip.power = .safe ∧ t.henip.fwLocked = true ∧
      ∀ u, (s.team u).vdev < 16 → (t.team u).phase = .ended
    let time (x : State) : Int := (x.ptpSec : Int) * 1000000000 + x.ptpNs
    let sound (ty : Nat) : Prop := State.boots h ty = true
    let key : Prop := h.erased = false ∧ Config.correctable (Config.sramPowerUp s.draws)
      (Config.recordHelper (State.bootObject h Config.typeRecord).body) = true
    (∀ x, h.power = .off → ∃ t, exec (.powerOn x) s = .next t ∧ empty t ∧ flash t ∧ t.henip.health = h.health ∧
      t.henip.alarms = 0 ∧
      let fails (c : BitVec 8) : Prop := t.henip.power = .safe ∧ t.henip.failCode = c
      (¬sound Config.typeHenip ∨ x = some 1 → fails 1) ∧
      (sound Config.typeHenip → (x = some 2 → fails 2) ∧ (x = some 3 ∨ (x = none ∧ ¬key) → fails 3) ∧
        (key → (x = none → ¬sound Config.typeRecord → fails 4) ∧
          (sound Config.typeRecord → (∀ c, x = some c → 0x10 ≤ c.toNat → fails c) ∧
            (x = none → ¬sound Config.typeDevice → fails 5) ∧
            (x = none → sound Config.typeDevice → t.henip.power = .up ∧ t.henip.failCode = 0))))) ∧
    (on → ∃ t, exec .powerDown s = .next t ∧ t.henip.power = .off ∧ empty t ∧ flash t ∧ updated t) ∧
    (on → ∃ t, exec .powerLoss s = .next t ∧ t.henip.power = .off ∧ empty t ∧ flash t ∧ t.henip.health = h.health ∧ t.henip.staged = []) ∧
    (on → ∃ t, exec .healthUpdate s = .next t ∧ updated t ∧ still t ∧ t.henip.power = h.power) ∧
    (∀ x, on → ∃ t, exec (.securityAlarm x) s = .next t ∧ t.henip.alarms = h.alarms + 1 ∧
      (∃ e, t.henip.log = h.log ++ [e] ∧ e.ptpNs = s.ptpNs ∧ e.ptpSec = s.ptpSec) ∧
      (h.alarmLevel = 0 → still t ∧ t.henip.power = h.power) ∧ (0 < h.alarmLevel → locked t) ∧
      (h.alarmLevel = 1 → t.henip.erased = h.erased ∧ t.henip.staged = h.staged) ∧
      (1 < h.alarmLevel → t.henip.erased = true ∧ t.henip.staged = [] ∧ t.henip.deviceKey = none)) ∧
    (on → d < 4 → (∃ t, exec (.droopEvent d) s = .next t ∧ (t.die d).stretched = true ∧ still t ∧
        SMap.get t.henip.pendingHealth.droops d 0 = SMap.get h.pendingHealth.droops d 0 + 1) ∧
      (∃ t, exec (.droopRecovery d) s = .next t ∧ (t.die d).stretched = false ∧ still t ∧ t.henip = h) ∧
      (∃ t, exec (.throttling d) s = .next t ∧ (t.die d).throttled = true ∧ (t.die d).temp = 105 ∧ still t) ∧
      (∃ t, exec (.throttlingEnd d) s = .next t ∧ (t.die d).throttled = false ∧ (t.die d).temp < 105 ∧ still t) ∧
      ∃ t, exec (.thermalTrip d) s = .next t ∧ (t.die d).temp = 115 ∧ locked t) ∧
    (∀ k, on → k < 8 → ∃ t, exec (.linkRetrain k) s = .next t ∧ still t ∧
      SMap.get t.henip.pendingHealth.retrains k 0 = SMap.get h.pendingHealth.retrains k 0 + 1) ∧
    (∀ n : Int, h.power = .up → -1000 < n → n < 1000 → ∃ t, exec (.ptpMessage n) s = .next t ∧ t.ptpAdjust = n ∧ still t ∧
      t.henip.log = h.log) ∧
    (∀ n : Int, h.power = .up → (n ≤ -1000 ∨ 1000 ≤ n) → 0 ≤ time s + n → ∃ t, exec (.ptpMessage n) s = .next t ∧
      time t = time s + n ∧ t.ptpNs < 1000000000 ∧ t.ptpAdjust = 0 ∧ t.cyc = s.cyc ∧ t.teams = s.teams ∧ t.mem = s.mem ∧
      ∃ e, t.henip.log = h.log ++ [e] ∧ e.ptpNs = t.ptpNs ∧ e.ptpSec = t.ptpSec) ∧
    (on → ∃ t, exec .ptpMasterLost s = .next t ∧ t.henip.ptpClass = 248 ∧ t.ptpAdjust = 0 ∧ still t)

/-! ## Masters and management -/

/-- R419, R420, R423, R428, R429: CLAIM, HANDOVER and the elections; the owner's silence and a master's going; the refusals of a
command in the order of the checks, shown on HANDOVER; a command after an unanswered one of its sender waits. The order of the
checks, FIELD for two of them, and the end of an owner are the model's reading (log entries 67, 68, 79). -/
def Obligations.Masters : Prop :=
  ∀ (s : State) (who : Sender) (msg : List Byte),
    let h := heard s who
    let x := leAt msg 32 1
    let ms := s.endpoint.masters
    let hand : Instr := .handover who msg
    let refused (status field value : Nat) : Prop := exec hand s = .next (h.reply who 6 status (seqOf msg) field value [])
    let same (t : State) : Prop := t.teams = s.teams ∧ t.mem = s.mem ∧ t.launches = s.launches ∧ t.henip = s.henip
    (Accepted s who msg 5 .anyMaster 8 → ∃ t n m, exec (.claim who msg) s = .next t ∧ h.numberOf who = some n ∧
      Replies s t who msg 5 0 0xFFFFFFFF (n + if h.endpoint.owner = some n then 256 else 0) [] ∧
      SMap.find t.endpoint.masters n = some m ∧ m.prio = some x ∧ t.endpoint.owner = h.endpoint.owner ∧
      t.endpoint.electionAt = (if h.endpoint.owner = none ∧ h.endpoint.electionAt = none then some (s.cyc + 27000000)
        else h.endpoint.electionAt) ∧ same t) ∧
    (∀ m, Accepted s who msg 6 .owner 8 → x ≠ 255 → SMap.find h.endpoint.masters x = some m → m.prio.isSome = true →
      ∃ t, exec hand s = .next t ∧ Replies s t who msg 6 0 0xFFFFFFFF x [] ∧ t.endpoint.owner = some x ∧
        t.endpoint.masters = h.endpoint.masters ∧ same t) ∧
    (Accepted s who msg 6 .owner 8 → x = 255 → ∃ t, exec hand s = .next t ∧ Elected h.endpoint.masters t ∧
      Replies s t who msg 6 0 0xFFFFFFFF (t.endpoint.owner.getD 255) [] ∧ same t) ∧
    (Accepted s who msg 6 .owner 8 → x ≠ 255 → (∀ m, SMap.find h.endpoint.masters x = some m → m.prio = none) →
      refused 1 0 0) ∧
    (State.bears msg 6 = true → s.powered = true → who ≠ .mgmt → s.anyPortUp = false → exec hand s = .next s) ∧
    (State.bears msg 6 = true → s.powered = true → s.anyPortUp = true → (s.admitFrame who).1 = false → refused 1 0xFFFFFFFF 255) ∧
    (State.bears msg 6 = true → s.powered = true → (who ≠ .mgmt → s.anyPortUp = true) → (s.admitFrame who).1 = true →
      (h.replyDue who = true → ∃ t, exec hand s = .next t ∧ t.later = s.later ++ [hand] ∧ same t ∧
        t.endpoint.outbox = s.endpoint.outbox) ∧
      (h.replyDue who = false → headerOk msg = false → refused 1 0xFFFFFFFE 0) ∧
      (h.replyDue who = false → headerOk msg = true → who ≠ .mgmt → h.henip.power = .safe → refused 4 0xFFFFFFFF 0) ∧
      (h.replyDue who = false → headerOk msg = true → who ≠ .mgmt → h.henip.power = .up → msg.length ≠ 40 →
        refused 1 (min (msg.length - 32) 8) 0) ∧
      (h.replyDue who = false → headerOk msg = true → who ≠ .mgmt → h.henip.power = .up → msg.length = 40 →
        h.isOwner who = false → refused 2 0xFFFFFFFF 0)) ∧
    (∀ n, s.endpoint.owner = none → s.endpoint.electionAt = some n → n ≤ s.cyc → ∃ t, exec .electionWindowEnd s = .next t ∧
      Elected ms t ∧ t.endpoint.electionAt = none ∧ same t) ∧
    (∀ k m, s.endpoint.owner = some k → SMap.find ms k = some m →
      (m.lastFrame + 2700000000 ≤ s.cyc → ∃ t, exec .ownerTimeout s = .next t ∧ Elected ms t ∧ same t) ∧
      (s.cyc < m.lastFrame + 2700000000 → exec .ownerTimeout s = .next s)) ∧
    ∀ i n, s.numberOf (.master i) = some n → ∃ t, exec (.masterGone i) s = .next t ∧ SMap.find t.endpoint.masters n = none ∧
      (∀ k, k ≠ n → SMap.find t.endpoint.masters k = SMap.find ms k) ∧ (∀ l ∈ t.endpoint.latches, l.master ≠ i) ∧
      t.endpoint.owner = (if s.endpoint.owner = some n then none else s.endpoint.owner) ∧ same t

/-- R379, R396 to R398, R401, R404, R422, R424: STATUS, LOG and HEALTH reply with what Henip holds; ATTEST commits its leaf index,
FWLOAD stages an object that verifies, COMMIT raises the minimum version, RESET restarts the device after its reply; CNTREAD reads
a counter whole or in halves with a latch. The layout of the health record and of what follows the times in a log entry, and who
is a claimant, are the model's (log entries 30, 62, 65, 67, 71). -/
def Obligations.Management : Prop :=
  ∀ (s : State) (who : Sender) (msg : List Byte),
    let h := heard s who
    let p := h.henip
    let pay := msg.drop 32
    let ok (t : State) (code value : Nat) (bs : List Byte) : Prop := Replies s t who msg code 0 0xFFFFFFFF value bs
    let same (t : State) : Prop := t.teams = s.teams ∧ t.mem = s.mem ∧ t.endpoint.masters = h.endpoint.masters
    let ty := Config.objType pay
    let known : Prop := ty = Config.typeHenip ∨ ty = Config.typeDevice ∨ ty = Config.typeRecord
    let signed : Prop := State.verified pay = true ∧ known ∧ SMap.get p.minVersion ty 0 ≤ Config.objVersion pay
    let d := leAt pay 0 1
    let i := leAt pay 1 1
    let half := leAt pay 2 1
    let v := (SMap.get (h.vd d).counters i (Counter.dflt i)).value.toNat
    (Accepted s who msg 0x20 .open_ 0 → ∃ t bs, exec (.status who msg) s = .next t ∧
      ok t 0x20 (h.endpoint.owner.getD 255) bs ∧ bs.length = 56 ∧ leAt bs 0 1 = p.failCode.toNat ∧
      leAt bs 1 1 = (if p.power = .safe then 1 else 0) ∧ leAt bs 2 1 = p.pclass % 256 ∧ leAt bs 3 1 = p.alarmLevel % 256 ∧
      (∀ k, k < 4 → leAt bs (8 + 8 * k) 8 = (h.die k).throttleCyc / 2700 % 2 ^ 64 ∧
        leAt bs (40 + 2 * k) 2 = wrap 16 (h.die k).temp) ∧ leAt bs 48 1 = p.ptpClass % 256 ∧ same t ∧ t.henip = s.henip) ∧
    (Accepted s who msg 0x21 .open_ 16 →
      let es := (p.log.drop (leAt pay 0 8)).take (leAt pay 8 4)
      ∃ t bs, exec (.log who msg) s = .next t ∧ ok t 0x21 es.length bs ∧ bs.length = 32 * es.length ∧
        (∀ k e, es[k]? = some e → leAt bs (32 * k) 4 = e.ptpNs % 2 ^ 32 ∧ leAt bs (32 * k + 4) 6 = e.ptpSec % 2 ^ 48) ∧
        same t ∧ t.henip = s.henip) ∧
    (Accepted s who msg 0x22 .open_ 0 → ∃ t bs, exec (.health who msg) s = .next t ∧ ok t 0x22 0 bs ∧ leAt bs 0 4 = 40 ∧
      (∀ k, k < 40 → leAt bs (4 + 8 * k) 8 = SMap.get p.health.hours k 0 / 9720000000000 % 2 ^ 64) ∧
      leAt bs 324 4 = 4 ∧ (∀ k, k < 4 → leAt bs (328 + 8 * k) 8 = SMap.get p.health.droops k 0 % 2 ^ 64) ∧ same t ∧
      t.henip = s.henip) ∧
    (Accepted s who msg 0x23 .claimant 32 → p.attIndex < 1048576 → ∃ t r, exec (.attest who msg) s = .next t ∧
      t.henip = { p with attIndex := p.attIndex + 1 } ∧ ok t 0x23 p.attIndex (r ++ Config.attestSign (p.deviceKey.getD 0) p.attIndex r) ∧ same t) ∧
    (Accepted s who msg 0x23 .claimant 32 → 1048576 ≤ p.attIndex →
      exec (.attest who msg) s = .next (h.reply who 0x23 5 (seqOf msg) 0xFFFFFFFF 0 [])) ∧
    (Accepted s who msg 0x24 .firmware (Config.objLength pay) → signed → (p.power = .safe → ty ≠ Config.typeRecord) →
      ∃ t, exec (.fwload who msg) s = .next t ∧ ok t 0x24 0 [] ∧
        (∀ o, o ∈ t.henip.staged ↔ o = ⟨ty, Config.objVersion pay, pay⟩ ∨ (o ∈ p.staged ∧ o.type_ ≠ ty)) ∧
        t.henip.minVersion = p.minVersion ∧ t.henip.loaded = p.loaded ∧ same t) ∧
    (Accepted s who msg 0x24 .firmware (Config.objLength pay) → ¬signed →
      exec (.fwload who msg) s = .next (h.reply who 0x24 1 (seqOf msg) 0 0 [])) ∧
    (∀ o, Accepted s who msg 0x25 .owner 8 →
      (d = Config.typeHenip ∨ d = Config.typeDevice ∨ d = Config.typeRecord ∨ ∃ y ∈ p.staged, y.type_ = d) →
      (p.staged.find? (fun o => o.type_ == d)).getD (State.bootObject p d) = o →
      let n := max (SMap.get p.minVersion d 0) o.version
      ∃ t, exec (.commit who msg) s = .next t ∧ ok t 0x25 n [] ∧ SMap.get t.henip.minVersion d 0 = n ∧
        (∀ k, k ≠ d → SMap.get t.henip.minVersion k 0 = SMap.get p.minVersion k 0) ∧ o ∈ t.henip.flash ∧ same t) ∧
    (Accepted s who msg 0x26 .firmware 0 → ∃ t, exec (.reset who msg) s = .next t ∧ ok t 0x26 0 [] ∧ (∀ a, byte t a = 0) ∧
      t.teams = [] ∧ t.launches = [] ∧ t.endpoint.masters = [] ∧ (t.henip.power = .up ∨ t.henip.power = .safe) ∧
      t.henip.minVersion = p.minVersion ∧ t.henip.health = p.health ∧ t.henip.attIndex = p.attIndex ∧ ∀ o ∈ p.staged, o ∈ t.henip.flash) ∧
    (Accepted s who msg 0x27 .claimant 8 → d < 16 → i < 64 →
      (half = 0 → exec (.cntread who msg) s = .next (h.reply who 0x27 0 (seqOf msg) 0xFFFFFFFF v [])) ∧
      (half = 1 → ∃ t l, exec (.cntread who msg) s = .next t ∧ ok t 0x27 (v % 4294967296) [] ∧ l ∈ t.endpoint.latches ∧
        l.vdev = d ∧ l.index = i ∧ l.high.toNat = v / 4294967296 ∧ same t ∧ t.vdevs = s.vdevs) ∧
      (∀ id l, half = 2 → who = .master id →
        h.endpoint.latches.find? (fun l => l.master == id && l.vdev == d && l.index == i) = some l →
        ∃ t, exec (.cntread who msg) s = .next t ∧ ok t 0x27 l.high.toNat [] ∧ same t) ∧
      (2 < half → exec (.cntread who msg) s = .next (h.reply who 0x27 1 (seqOf msg) 2 0 [])))

/-! ## Launches and memory from outside -/

/-- R341, R373, R415, R419, R420, R424, R426: LAUNCH queues the launch of its record and opens what it names; PROPAGATE starts a
propagation; STOP halts a team at once outside deterministic mode and at a point that it stands at, and sets a later point; RESUME
lets it go on; LANDBIND and LANDREL bind and end a landing, and set and clear BFLAGS.NET. FIELD where several fields are at fault,
and the course of STOP and LANDREL in cases that the spec does not name, are the model's reading (log entries 68 to 70). -/
def Obligations.WorkCommands : Prop :=
  ∀ (s : State) (who : Sender) (msg : List Byte),
    let h := heard s who
    let pay := msg.drop 32
    let f (o n : Nat) : Nat := leAt pay o n
    let ok (t : State) (code value : Nat) : Prop := Replies s t who msg code 0 0xFFFFFFFF value []
    let refused (i : Instr) (code status field : Nat) : Prop := exec i s = .next (h.reply who code status (seqOf msg) field 0 [])
    let launch : Instr := .launch who msg
    let params (n : Nat) : List Byte := h.devBytes (f 4 1) (f 5 1) (f 16 8) n
    let made (img : Image) : Launch := State.launchOf who (seqOf msg) pay img (params img.psize)
    let fits (img : Image) : Prop := Accepted s who msg 1 .owner 80 ∧ firstFail (State.recordChecks pay) = none ∧
      h.imageAt (f 4 1) (f 5 1) (f 8 8) = .ok img ∧ ((f 7 1).testBit 0 = true → img.modular = true) ∧
      h.mapped (f 4 1) (f 5 1) (f 16 8) img.psize (fun _ => true) = true ∧ firstFail (h.restChecks pay (made img)) = none ∧ Idle h
    let man := h.man? (f 0 1) (f 1 1) (f 8 8)
    let asked (code n : Nat) (l u : Nat) : Prop := Accepted s who msg code .owner n ∧ h.launchNamed (f 0 8) = some l ∧
      f 8 4 < (h.lau l).nextTask ∧ h.taskTeam? l (f 8 4) = some u
    let stop : Instr := .stop who msg
    let halts (u : Nat) : Prop := (h.team u).stop = none ∧ ((h.team u).phase.issues = true ∨ (h.team u).phase = .stopped)
    let calm (u : Nat) : Prop := ∀ row, h.writers none (LogItem.isScratch u row) = []
    let net (t : State) (u off : Nat) : Nat := leNat (scrBytes t u (off + 12) 4)
    let bind : Instr := .landbind who msg
    let x : Landing := ⟨f 0 1, f 1 1, f 2 2, BitVec.ofNat 32 (f 4 4), BitVec.ofNat 64 (f 8 8), f 16 4, f 20 4, f 24 4, f 28 4⟩
    (∀ img, fits img → h.launchBusy (made img) = false → ∃ t m, exec launch s = .next t ∧ ok t 1 0 ∧
      SMap.find t.launches h.nextUid = some m ∧ (∀ k, k ≠ h.nextUid → SMap.find t.launches k = SMap.find h.launches k) ∧
      m.id.toNat = f 64 8 ∧ m.who = who ∧ m.vdev = f 4 1 ∧ m.ctx = f 5 1 ∧ m.prio = f 6 1 ∧ m.img = img ∧
      m.params = params img.psize ∧ m.teams = f 24 4 ∧ m.groups = f 28 1 ∧ m.carve = f 32 4 ∧ m.complete = false ∧
      m.quantum = (if f 36 4 = 0 then 65536 else f 36 4) ∧ m.rngk.toNat = f 40 8 ∧
      (m.traced = false → m.det = false → t.teams = s.teams ∧ t.mem = s.mem) ∧
      (m.traced = true → (t.man? (f 4 1) (f 5 1) (f 48 8)).map Manifest.state = some 1) ∧
      (m.det = true → (t.eph (f 4 1) (f 5 1) (f 56 8)).map Ephem.state = some (if m.replay then 3 else 1))) ∧
    (∀ img, fits img → h.launchBusy (made img) = true → refused launch 1 3 0xFFFFFFFF) ∧
    (∀ k, Accepted s who msg 1 .owner 80 → firstFail (State.recordChecks pay) = some k → refused launch 1 1 k) ∧
    (∀ m, Accepted s who msg 2 .owner 16 → f 0 1 < 16 → f 1 1 < 16 → man = some m → m.state ≠ 0 → m.state ≠ 1 → m.state ≠ 4 →
      ∃ t, exec (.propagate who msg) s = .next t ∧ ok t 2 1 ∧
        (t.man? (f 0 1) (f 1 1) (f 8 8)).map Manifest.state = some 4) ∧
    (∀ m, Accepted s who msg 2 .owner 16 → f 0 1 < 16 → f 1 1 < 16 → man = some m → (m.state = 1 ∨ m.state = 4) →
      refused (.propagate who msg) 2 3 0xFFFFFFFF) ∧
    (∀ l u, asked 0x11 32 l u → (h.team u).phase = .ended → refused stop 0x11 7 0xFFFFFFFF) ∧
    (∀ l u, asked 0x11 32 l u → halts u →
      ((h.lau l).det = false → ∃ t, exec stop s = .next t ∧ ok t 0x11 ((h.team u).work + 9223372036854775808) ∧
        (t.team u).phase = .stopped ∧ (∀ v, v ≠ u → t.team v = s.team v) ∧ t.mem = s.mem) ∧
      ((h.lau l).det = true → f 16 8 < (h.team u).interval → refused stop 0x11 6 0xFFFFFFFF) ∧
      ((h.lau l).det = true → ((h.team u).interval < f 16 8 ∨ ((h.team u).interval = f 16 8 ∧ (h.team u).work < f 24 8)) →
        ∃ t, exec stop s = .next t ∧ t.endpoint.outbox = s.endpoint.outbox ∧
          (t.team u).stop = some ⟨who, seqOf msg, f 16 8, f 24 8⟩ ∧ (t.team u).work = (h.team u).work ∧ t.mem = s.mem) ∧
      ((h.lau l).det = true → (h.team u).interval = f 16 8 → (h.team u).work = f 24 8 → ∃ t, exec stop s = .next t ∧
        ok t 0x11 (h.team u).work ∧ (t.team u).phase = .stopped ∧ (t.team u).stop = none ∧ t.mem = s.mem)) ∧
    (∀ l u, asked 0x12 16 l u → (h.team u).phase = .stopped → Quiet h u 0 → ∃ t, exec (.resume who msg) s = .next t ∧
      ok t 0x12 0 ∧ (t.team u).phase = (if (h.team u).drainBy.isSome then .draining else .running) ∧ t.mem = s.mem) ∧
    (∀ l n k, Accepted s who msg 0x13 .owner 32 → x.vdev < 16 → x.ctx < 16 → x.rctx ≠ 0 →
      (∀ e ∈ h.endpoint.landings, ¬(e.2.rctx = x.rctx ∧ e.2.tag = x.tag)) → h.launchNamed (f 8 8) = some l →
      (h.lau l).vdev = x.vdev → (h.lau l).ctx = x.ctx → h.landingScratch l x.task = some n → x.roff + x.rlen ≤ n →
      x.boff % 16 = 0 → x.boff + 16 ≤ n → h.freeBinding = some k → (∀ u, calm u) → ∃ t, exec bind s = .next t ∧ ok t 0x13 k ∧
        SMap.find t.endpoint.landings k = some x ∧
        (∀ j, j ≠ k → SMap.find t.endpoint.landings j = SMap.find h.endpoint.landings j) ∧
        ∀ u, h.taskTeam? l x.task = some u → (h.team u).phase = .running → net t u x.boff = net s u x.boff ||| 4) ∧
    (Accepted s who msg 0x13 .owner 32 → x.vdev < 16 → x.ctx < 16 →
      (x.rctx = 0 → refused bind 0x13 1 2) ∧
      (x.rctx ≠ 0 → (∃ e ∈ h.endpoint.landings, e.2.rctx = x.rctx ∧ e.2.tag = x.tag) → refused bind 0x13 1 4)) ∧
    (∀ y, Accepted s who msg 0x14 .owner 8 → SMap.find h.endpoint.landings (f 0 4) = some y → (∀ u, calm u) → ∃ t,
      exec (.landrel who msg) s = .next t ∧ ok t 0x14 0 ∧ SMap.find t.endpoint.landings (f 0 4) = none ∧
      (∀ j, j ≠ f 0 4 → SMap.find t.endpoint.landings j = SMap.find h.endpoint.landings j) ∧
      ∀ l u, (∀ e ∈ h.endpoint.landings, e.1 ≠ f 0 4 → ¬(e.2.launchId = y.launchId ∧ e.2.task = y.task ∧ e.2.boff = y.boff)) →
        h.launchNamed y.launchId.toNat = some l → h.taskTeam? l y.task = some u → (h.team u).phase = .running →
        (net t u y.boff).testBit 2 = false) ∧
    (Accepted s who msg 0x14 .owner 8 → SMap.find h.endpoint.landings (f 0 4) = none → refused (.landrel who msg) 0x14 1 0)

/-- R234, R319, R410, R414 to R418, R421, R424: MEMREAD, MEMWRITE and LOADIMG, and the inbound NPUT and NGET, on bytes of one page
while memory is idle and the lines written stand at their homes; what comes by a port that is down is not heard; a message's
landing; and the answers, the timeout and the data that end an operation of this device's own. FIELD where several fields are at
fault, and the handling of an access by granules, are the model's reading (log entries 53, 54, 68, 69). -/
def Obligations.OutsideAccesses : Prop :=
  ∀ (s : State) (who : Sender) (msg data : List Byte) (pa qa : Nat),
    let h := heard s who
    let pay := msg.drop 32
    let f (o n : Nat) : Nat := leAt pay o n
    let onPage (p : Nat → Option Nat) (va n pa : Nat) : Prop := 0 < n ∧ va % 65536 + n ≤ 65536 ∧ pa % 65536 = va % 65536 ∧
      (p (va / 65536 * 65536)).isSome = true ∧ ∀ i, i < n → p (va + i) = some (pa + i)
    let stores (t : State) (bs : List Byte) : Prop := hbmBytes t pa bs.length = bs ∧
      ∀ a, a < pa ∨ pa + bs.length ≤ a → byte t a = byte s a
    let keeps (t : State) : Prop := (∀ a, byte t a = byte s a) ∧ t.teams = s.teams
    let untracked (d c : Nat) : Prop := (s.ctx d c).regions = []
    let n := f 4 4
    let mem : Prop := f 0 1 < 16 ∧ f 1 1 < 16 ∧ 1 ≤ n ∧ n ≤ 1048576 ∧ onPage (h.hostAddr (f 0 1) (f 1 1)) (f 8 8) n pa ∧ Idle h
    let load : Instr := .loadimg who msg
    let size := f 24 8
    let readable (va : Nat) : Option Nat := (h.hostAddr (f 0 1) (f 1 1) va).filter (fun _ =>
      match h.deviceWalk (f 0 1) (f 1 1) va with | some (_, e) => e.r | none => false)
    let image : List Byte := if f 2 1 = 0 then pay.drop 32 else hbmBytes s qa size
    let r : ImgRead := fun o n => leAt image o n
    let source : Prop := (f 2 1 = 0 ∧ f 16 8 = 0) ∨
      (f 2 1 = 1 ∧ (f 16 8 + size ≤ f 8 8 ∨ f 8 8 + size ≤ f 16 8) ∧ onPage readable (f 16 8) size qa)
    (Accepted s who msg 3 .claimant 16 → mem → ∃ t, exec (.memread who msg) s = .next t ∧
      Replies s t who msg 3 0 0xFFFFFFFF 0 (hbmBytes s pa n) ∧ keeps t) ∧
    (Accepted s who msg 3 .claimant 16 → f 0 1 < 16 → f 1 1 < 16 → (n = 0 ∨ 1048576 < n) →
      exec (.memread who msg) s = .next (h.reply who 3 1 (seqOf msg) 4 0 [])) ∧
    (Accepted s who msg 4 .owner (16 + n) → mem → untracked (f 0 1) (f 1 1) → Resident h (f 0 1) (f 1 1) pa n → ∃ t, exec (.memwrite who msg) s = .next t ∧
      Replies s t who msg 4 0 0xFFFFFFFF 0 [] ∧ stores t (pay.drop 16)) ∧
    (Accepted s who msg 7 .owner (32 + if f 2 1 = 0 then size else 0) → f 0 1 < 16 → f 1 1 < 16 → f 8 8 % 4096 = 0 →
      64 ≤ size → size ≤ 16777216 → source → Img.size r = size → Img.bad r size = none →
      onPage (h.hostAddr (f 0 1) (f 1 1)) (f 8 8) size pa →
      (State.pageBases (f 8 8 + Img.codeOff r) (Img.codeSize r)).all (h.pageX (f 0 1) (f 1 1)) = true → Idle h →
      untracked (f 0 1) (f 1 1) → Resident h (f 0 1) (f 1 1) pa size → ∃ t, exec load s = .next t ∧ Replies s t who msg 7 0 0xFFFFFFFF (f 8 8) [] ∧
        stores t (State.relocated image (f 8 8)) ∧ ∀ c k, k ∈ (t.cor c).icache → ∀ i, i < size → k.line ≠ lineOf (pa + i)) ∧
    (∀ d p k o m, s.hears d p = false → exec (.inboundNput d p k o data) s = .next s ∧ exec (.inboundNget d p k o m) s = .next s) ∧
    (∀ d p k o w, s.hears d p = true → SMap.find (s.vd d).windows k = some w → w.peer = p → o + data.length ≤ w.len → w.wr = true →
      onPage (fun va => s.outsideAddr d w.ctx va .write) (w.base + o) data.length pa → Idle s → untracked d w.ctx →
      Resident s d w.ctx pa data.length → ∃ t,
      exec (.inboundNput d p k o data) s = .next t ∧ t.endpoint.outbox = s.endpoint.outbox ++ [.ack true] ∧ stores t data) ∧
    (∀ d p k o, s.hears d p = true → (∀ w, SMap.find (s.vd d).windows k = some w → w.peer ≠ p ∨ w.len < o + data.length ∨ w.wr = false) →
      exec (.inboundNput d p k o data) s = .next (s.send (.ack false))) ∧
    (∀ d p k o m w, s.hears d p = true → SMap.find (s.vd d).windows k = some w → w.peer = p → o + m ≤ w.len → w.rd = true →
      onPage (fun va => s.outsideAddr d w.ctx va .readOther) (w.base + o) m pa → Idle s → ∃ t,
      exec (.inboundNget d p k o m) s = .next t ∧ t.endpoint.outbox = s.endpoint.outbox ++ [.data (hbmBytes s pa m)] ∧ keeps t) ∧
    (∀ d p k o m, s.hears d p = true → (∀ w, SMap.find (s.vd d).windows k = some w → w.peer ≠ p ∨ w.len < o + m ∨ w.rd = false) →
      exec (.inboundNget d p k o m) s = .next (s.send (.ack false))) ∧
    (∀ x tag off, s.anyPortUp = true →
      let message : Instr := .landingMessage x tag off data
      (s.landingOf x tag = none → exec message s = .next (s.send (.ack false))) ∧
      ∀ l, s.landingOf x tag = some l → (s.landingTeam l = none → exec message s = .next s) ∧
        ∀ u, s.landingTeam l = some u →
          (l.rlen < off + data.length → exec message s = .next (s.send (.ack false))) ∧
          (off + data.length ≤ l.rlen → (∀ row, s.writers none (LogItem.isScratch u row) = []) →
            (l.roff + off + data.length ≤ l.boff ∨ l.boff + 16 ≤ l.roff + off) →
            let remain := leNat (scrBytes s u l.boff 8)
            let phase := leNat (scrBytes s u (l.boff + 8) 4)
            let flags := leNat (scrBytes s u (l.boff + 12) 4)
            ∃ t, exec message s = .next t ∧ t.endpoint.outbox = s.endpoint.outbox ++ [.ack true] ∧
              scrBytes t u (l.roff + off) data.length = data ∧ leNat (scrBytes t u l.boff 8) = remain - data.length ∧
              leNat (scrBytes t u (l.boff + 8) 4) =
                (if 0 < remain ∧ remain ≤ data.length then phase + 1 else phase) % 2 ^ 32 ∧
              leNat (scrBytes t u (l.boff + 12) 4) = (if remain < data.length then flags ||| 1 else flags) ∧
              ∀ v a, (v = u → (a < l.roff + off ∨ l.roff + off + data.length ≤ a) ∧ (a < l.boff ∨ l.boff + 16 ≤ a)) →
                scr t v a = scr s v a)) ∧
    ∀ o op b, s.op? o.uid = some o → o.net = some (op, b) → o.started = true → o.complete = false →
      let ends (t : State) (fault : Option FaultRec) : Prop := ∃ p, t.op? o.uid = some p ∧ p.complete = true ∧ p.acked = true ∧
        p.fault = fault
      let bad : FaultRec := State.netFault o op b
      (s.anyPortUp = true → op ≠ .get → ∃ t, exec (.networkAcknowledgement o.uid false) s = .next t ∧ ends t none ∧ t.mem = s.mem ∧
        t.teams = s.teams) ∧
      (s.anyPortUp = true → ∃ t, exec (.networkAcknowledgement o.uid true) s = .next t ∧ ends t (some bad) ∧ t.mem = s.mem ∧ t.teams = s.teams) ∧
      (o.issuedAt + (s.vd (s.team o.team).vdev).timeoutUs * 2700 ≤ s.cyc → ∃ t, exec (.transportTimeout o.uid) s = .next t ∧
        ends t (some bad) ∧ t.mem = s.mem ∧ t.teams = s.teams) ∧
      (s.cyc < o.issuedAt + (s.vd (s.team o.team).vdev).timeoutUs * 2700 → exec (.transportTimeout o.uid) s = .next s) ∧
      (s.anyPortUp = true → op = .get → b.local_ = .l → data.length = b.len → o.cls = .net → (SMap.find s.teams o.team).isSome = true →
        (∀ row, s.writers (some o.team) (LogItem.isScratch o.team row) = []) → ∃ t,
        exec (.ngetResponse o.uid data) s = .next t ∧ ends t none ∧ scrBytes t o.team b.lbase data.length = data ∧
        (∀ v a, (v = o.team → a < b.lbase ∨ b.lbase + data.length ≤ a) → scr t v a = scr s v a) ∧
        ∀ a, byte t a = byte s a)

/-- R191, R201, R243, R251, R258, R269, R276, R329, R333, R340, R376 to R378, R381 to R384, R388, R405, R408 to R410, R425, R430:
the items of CONFIG from the owner: what each sets, and nothing else of the device; the first field that breaks a rule refuses the
command. The order of the checks and which items check a device or context are the model's reading (log entries 60, 61, 68). -/
def Obligations.ConfigItems : Prop :=
  ∀ (s : State) (who : Sender) (msg : List Byte),
    let h := heard s who
    let pay := msg.drop 32
    let f (o n : Nat) : Nat := leAt pay o n
    let d := f 2 1
    let c := f 3 1
    let v := h.vd d
    let asks (item n : Nat) : Prop := Accepted s who msg 0x10 .owner n ∧ f 0 2 = item
    let result (i : Instr) (t : State) (value : Nat) : Prop := exec i s = .next (t.reply who 0x10 0 (seqOf msg) 0xFFFFFFFF value [])
    let sets (i : Instr) (w : VDev) : Prop := result i (h.updVd d (fun _ => w)) 0
    let does (i : Instr) (value : Nat) (p : State → Prop) : Prop := ∃ t, exec i s = .next t ∧
      Replies s t who msg 0x10 0 0xFFFFFFFF value [] ∧ p t
    let refused (i : Instr) (status field : Nat) : Prop := exec i s = .next (h.reply who 0x10 status (seqOf msg) field 0 [])
    let here : Prop := d < 16 ∧ c < 16
    let still (t : State) : Prop := t.teams = s.teams ∧ t.mem = s.mem
    let regions (t : State) : SMap Region := (t.ctx d c).regions
    let quota : Instr := .configQuota who msg
    let bucket : Instr := .configBucket who msg
    let timeout : Instr := .configTimeout who msg
    let arena : Instr := .configArena who msg
    let kind := State.arbiterKind (f 8 1)
    let arbiters := (named (f 10 2) kind.2).map (fun k => kind.1 + k)
    (asks 1 36 → d < 16 → (f 8 2 < 480 ∨ f 8 2 = 0xFFFF) →
      (firstFail (h.quotaChecks d (named (f 8 2) 480) (State.readQuota pay)) = none → does quota 0 (fun t => still t ∧
        ∀ k, SMap.find (t.vd d).quotas k = if k ∈ named (f 8 2) 480 then some (State.readQuota pay) else SMap.find v.quotas k)) ∧
      (∀ k, firstFail (h.quotaChecks d (named (f 8 2) 480) (State.readQuota pay)) = some k →
        refused quota 1 k) ∧
      (f 10 1 % 4 ≠ 0 → refused quota 1 10)) ∧
    (asks 2 20 → d < 16 → f 8 1 ≤ 4 → (f 10 2 < kind.2 ∨ f 10 2 = 0xFFFF) → 1 ≤ f 16 4 → f 16 4 ≤ 16777216 →
      ((∀ n ∈ arbiters, f 12 4 + h.otherRates n d ≤ arbiterCapacity n) → does bucket 0 (fun t => still t ∧
        ∀ n ∈ arbiters, SMap.find t.buckets (bucketKey n d) =
          some ⟨f 12 4, f 16 4, min (SMap.get h.buckets (bucketKey n d) ⟨0, 0, 0⟩).tokens (f 16 4 * 65536)⟩)) ∧
      ((∃ n ∈ arbiters, arbiterCapacity n < f 12 4 + h.otherRates n d) → refused bucket 1 12)) ∧
    (asks 3 16 → d < 16 → (f 8 2 < 640 ∨ f 8 2 = 0xFFFF) → f 10 1 + f 11 1 ≤ 20 →
      (∀ o ∈ h.otherWays d (named (f 8 2) 640), f 10 1 + f 11 1 ≤ o.1 ∨ o.1 + o.2 ≤ f 10 1) → does (.configWays who msg) 0 (fun t =>
        still t ∧ ∀ k, SMap.find (t.vd d).ways k = if k ∈ named (f 8 2) 640 then some ⟨f 10 1, f 11 1, BitVec.ofNat 32 (f 12 4)⟩
          else SMap.find v.ways k)) ∧
    (asks 4 16 → d < 16 → f 8 1 ≤ 1 → f 9 1 ≤ 1 → f 10 1 < 16 → sets (.configLending who msg)
      { v with lend := f 8 1 == 1, borrow := f 9 1 == 1, coreLend := BitVec.ofNat 8 (f 10 1), drainUs := f 12 4 }) ∧
    (asks 5 28 → d < 16 → f 8 2 < 4096 → f 10 1 < 8 → sets (.configPeer who msg)
      { v with peers := SMap.set v.peers (f 8 2) ⟨f 10 1, (pay.drop 12).take 16⟩ }) ∧
    (asks 6 24 → here → f 9 1 ≤ 3 → f 10 2 < 4096 → f 16 8 + f 12 4 ≤ 9007199254740992 → sets (.configWindow who msg)
      { v with windows := SMap.set v.windows (f 8 1) ⟨c, f 10 2, f 16 8, f 12 4, (f 9 1).testBit 0, (f 9 1).testBit 1⟩ }) ∧
    (asks 7 12 → (d < 16 → 10 ≤ f 8 4 → f 8 4 ≤ 100000 → sets timeout { v with timeoutUs := f 8 4 }) ∧
      (d < 16 → (f 8 4 < 10 ∨ 100000 < f 8 4) → refused timeout 1 8) ∧ (16 ≤ d → refused timeout 1 2)) ∧
    (asks 8 16 → d < 16 → sets (.configSbase who msg) { v with sbase := BitVec.ofNat 64 (f 8 8) }) ∧
    (asks 9 24 → here → f 8 1 ≤ 1 → 4096 ≤ f 12 4 → f 12 4 ≤ 1073741824 → f 12 4 = 2 ^ Nat.log2 (f 12 4) → f 16 8 % f 12 4 = 0 →
      h.bindable d c (f 16 8) (f 12 4) true = true → Idle h →
      let r : Ring := ⟨f 12 4, h.bindPages d c (f 16 8) (f 12 4), f 16 8 % 65536⟩
      does (.configRing who msg) 0 (fun t => (if f 8 1 = 0 then (t.vd d).tileRing else (t.vd d).sumRing) = some r ∧
        (∀ i, i < 16 → byte t (boundPa r.pages r.off0 i) = 0) ∧ t.teams = s.teams)) ∧
    (asks 10 10 → d < 16 → f 8 1 < 64 → sets (.configCounter who msg)
      { v with counters := SMap.set v.counters (f 8 1) ⟨f 9 1, 0⟩ }) ∧
    (∀ k, asks 11 24 → here → f 8 1 = 0 → 2 ≤ f 9 1 → f 9 1 ≤ 8 → 1 ≤ f 12 4 → f 16 8 % 2 ^ f 9 1 = 0 →
      f 16 8 + f 12 4 * 2 ^ f 9 1 ≤ 9007199254740992 → h.meetsRegion d c (f 16 8) (f 12 4 * 2 ^ f 9 1) = false → k < 256 →
      SMap.find (regions h) k = none → (∀ i, i < k → (SMap.find (regions h) i).isSome = true) →
      does (.configRegionRegister who msg) k (fun t => still t ∧ SMap.find (regions t) k = some ⟨f 16 8, f 9 1, f 12 4⟩ ∧
        ∀ i, i ≠ k → SMap.find (regions t) i = SMap.find (regions h) i)) ∧
    (asks 11 24 → here → f 8 1 = 1 → f 16 8 < 256 → (SMap.find (regions h) (f 16 8)).isSome = true → s.manifests = [] →
      does (.configRegionRelease who msg) (f 16 8) (fun t => still t ∧ SMap.find (regions t) (f 16 8) = none ∧
        ∀ i, i ≠ f 16 8 → SMap.find (regions t) i = SMap.find (regions h) i)) ∧
    (asks 12 32 → here → f 8 1 ≤ 1 → 4096 ≤ f 16 8 → f 16 8 % 4096 = 0 → f 24 8 + f 16 8 ≤ 9007199254740992 →
      h.bindable d c (f 24 8) (f 16 8) false = true → h.meetsArena d c (f 24 8) (f 16 8) (f 8 1 == 0) = false →
      (h.arenaBusy d c (f 24 8) (f 8 1 == 0) = true → refused arena 3 0xFFFFFFFF) ∧
      (h.arenaBusy d c (f 24 8) (f 8 1 == 0) = false → does arena (f 24 8) (fun t =>
        (f 8 1 = 0 → ∃ m, t.man? d c (f 24 8) = some m ∧ m.state = 0 ∧ m.size = f 16 8 ∧ m.recs = []) ∧
        (f 8 1 = 1 → ∃ e, t.eph d c (f 24 8) = some e ∧ e.state = 0 ∧ e.size = f 16 8 ∧ e.entries = [])))) ∧
    (asks 13 32 → d < 16 → f 24 8 + f 16 8 ≤ Config.hbmEnd →
      (f 8 1 = 0 → sets (.configHbmarea who msg) { v with undoArea := some ⟨f 24 8, f 16 8⟩ }) ∧
      (f 8 1 = 1 → sets (.configHbmarea who msg) { v with saveArea := some ⟨f 24 8, f 16 8⟩ })) ∧
    (asks 14 12 → (f 8 2 < 480 ∨ f 8 2 = 0xFFFF) → f 10 1 ≤ poolOfClass h.henip.pclass → does (.configPermits who msg) 0 (fun t =>
      still t ∧ ∀ k, k < 480 → (t.cor k).pool = if k ∈ named (f 8 2) 480 then f 10 1 else (h.cor k).pool)) ∧
    (asks 15 16 → here → f 8 8 % 32768 = 0 → inHbm (f 8 8) = true →
      result (.configRoot who msg) (h.updCtx d c (fun x => { x with root := some (f 8 8) })) 0) ∧
    (asks 16 24 → d < 16 → sets (.configDefaults who msg) { v with defaults :=
      ⟨max 256 (min 65535 (f 8 4)), max 1 (min 1023 (f 12 4)), max 4096 (f 16 4), BitVec.ofNat 32 (f 20 4 % 4)⟩ }) ∧
    (asks 17 16 → here → f 8 8 % 65536 = 0 → f 8 8 < 9007199254740992 → result (.configCntpage who msg)
      (h.updCtx d c (fun x => { x with cntpage := if f 8 8 = 0 then none else some (f 8 8) })) 0) ∧
    (asks 18 40 → f 8 1 < 8 → f 9 1 ≤ 1 → does (.configPort who msg) 0 (fun t => still t ∧ SMap.find t.endpoint.ports (f 8 1) =
      some ⟨f 9 1 == 1, BitVec.ofNat 32 (f 12 4), (pay.drop 16).take 6, (pay.drop 24).take 16⟩)) ∧
    (asks 19 12 → f 8 1 ≤ 1 → (f 8 1 = 1 ∨ ∃ k, k < 8 ∧ ∀ i, i < 8 → (f 9 1).testBit i = decide (i = k)) → f 10 1 ≤ 1 →
      does (.configClock who msg) 0 (fun t => still t ∧ t.endpoint.clockMode = f 8 1 ∧ t.endpoint.clockPorts = f 9 1 ∧
        t.endpoint.clockPeerDelay = (f 10 1 == 1)))

/-! ## Encoding, steps, reset and the memory's form -/

/-- R42, R44 to R50, R52: words of each family, written out from the encoding's fields, and the instructions they are. -/
def Obligations.DecodeWords : Prop :=
  let h : Head := ⟨.always, false, false, none⟩
  let bare : Head := ⟨.always, false, true, none⟩
  let narrow : Modifier := ⟨.none, 0, true, false, false, false, false, false, .dflt⟩
  decode [0x100F0301, 0x02000000] = .ok (.iadd h .s32 3 (.lane 1) (.lane 2)) ∧
  decode [0x123F0301, 0x01C24000] = .ok (.ffma h .f32 3 (.lane 1) (.lane 1) (.konst .minusOne)) ∧
  decode [0x129F0504, 0x00006004] = .ok (.fcvt h .f16 .f32 5 (.lane 4)) ∧
  decode [0x1A0F0301, 0x02004000, 0x00800000] = .ok (.fadd ⟨.always, false, false, some narrow⟩ .f32 3 (.lane 1) (.lane 2)) ∧
  decode [0x11828201, 0x02000002] = .ok (.icmp ⟨.pred 2 true, false, false, none⟩ .lt .s32 2 (.lane 1) (.lane 2)) ∧
  decode [0x260F0402, 0xFF001000, 4] = .ok (.ld h .g .normal .n32 4 (.lane 2) (.imm 4)) ∧
  decode [0x161F0002, 0xC0031001] = .ok (.st h .l .normal .n32 (.lane 2) (.konst .zero) (.lane 3)) ∧
  decode [0x900F0182, 0x83001000] = .ok (.uadd h .n32 1 (.uni 2) (.uni 3)) ∧
  decode [0x270F00FF, 0, 8] = .ok (.bra h 8) ∧
  decode [0x046F0000] = .ok (.nop bare) ∧
  decode [0x074F0000] = .ok (.exit bare) ∧
  decode [0x17FF0400, 0x00000010] = .ok (.csrr h .fair 4) ∧
  decode [0x069F0007] = .ok (.mma bare (.lane 7)) ∧
  decode [0x01AF0000, 0] = .error .illOp ∧
  decode [0x304F0000] = .error .illForm

/-- R42 to R50, R52, R57, R65: decoding the words of a well-formed instruction, whatever words follow, gives it back; a decoded
instruction is well formed, and its words are those it was decoded from. -/
def Obligations.DecodeEncode : Prop :=
  (∀ (i : Instr) (rest : List Word), i.encoded = true → i.WellFormed = true → decode (encode i ++ rest) = .ok i) ∧
  ∀ (i : Instr) (ws : List Word), decode ws = .ok i → i.encoded = true ∧ i.WellFormed = true ∧
    encode i = ws.take (Raw.headLength (ws.headD 0)) ∧ i.bytes = 4 * Raw.headLength (ws.headD 0)

/-- R55, R57, R59, R149, R259: a step whose turn is an issue cycle, with one candidate whose words stand in its core's instruction
cache and decode to an instruction, executes that instruction for that thread, its registers and predicates as they were, all
memory as it was; the bundle is then done, or put off where it must wait (R256, R259). A step whose turn is an event executes it.
Without power and without a turn, nothing is defined. That a step is one turn, taken from the agenda first, is the model's (log
entry 1). -/
def Obligations.StepRunsDecoded : Prop :=
  ∀ (s : State) (r : List Turn),
    (∀ i, s.agenda = .event i :: r → ∃ t, exec i { s with agenda := r } = .next t ∧ step s = .next t) ∧
    (s.agenda = [] → s.powered = false → step s = .fault .poweredOff) ∧
    ∀ (u q tid pa n : Nat) (l : ILine) (i : Instr),
      let x := s.team u
      let pc := (s.thr u tid).pc.toNat
      let word (k : Nat) : Word := BitVec.ofNat 32 (leNat (Mem.read l.data (pa + 4 * k) 4))
      s.agenda = .issue u q :: r → (s.lau x.launch).det = false →
      (∀ j ∈ x.body.live, (s.thr u j).st ≠ .waiting ∧ (s.thr u j).st ≠ .parked) →
      Quiet s u 0 → s.mayIssue u q = true → x.stop = none → s.candidates u q = [tid] →
      ((s.thr u tid).st = .ready ∨ (s.thr u tid).st = .inHandler) → (s.thr u tid).inFirmware = false →
      s.granted (.issue x.core) x.vdev 1 (s.issueRivals u) = true → pc % 4 = 0 → n = Raw.headLength (word 0) → pa % 128 + 4 * n ≤ 128 →
      (∀ k, k < n → s.inCode u tid (pc + 4 * k) = true ∧ Cached s u tid (pc + 4 * k) (pa + 4 * k) .fetch) →
      s.iline x.core (identOf x.vdev x.ctx) (lineOf pa) = some l → decode ((List.range n).map word) = .ok i →
      (∀ k, k < n → ∀ y ∈ s.fetchable l x.launch (pa + 4 * k), y = word k) →
      ∃ t v, exec i t = .next v ∧ step s = .next (if v.issue.threads = [] then ({ s with agenda := r } : State).askCloses v
        else { v with issue := ⟨0, []⟩ }) ∧ t.issue = ⟨u, [tid]⟩ ∧
        (t.thr u tid).pc = (s.thr u tid).pc ∧ (t.thr u tid).regs = (s.thr u tid).regs ∧
        (t.thr u tid).preds = (s.thr u tid).preds ∧ (t.thr u tid).st = (s.thr u tid).st ∧
        (∀ v j, ¬(v = u ∧ j = tid) → t.thr v j = s.thr v j) ∧ (∀ a, byte t a = byte s a) ∧ ∀ v k, scr t v k = scr s v k

/-- R251, R289, R291, R377, R382, R388, R395, R399, R409, R428: what reset leaves, and that memory has its canonical form. -/
def Obligations.ResetValues : Prop :=
  let s := State.reset
  s.cyc = 0 ∧ (∀ a, byte s a = 0) ∧ s.teams = [] ∧ s.launches = [] ∧ Tidy s ∧
  s.henip.power = .up ∧ s.henip.failCode = 0 ∧ s.henip.pclass = 3 ∧ s.henip.portMask = 0xFF ∧ s.henip.alarmLevel = 1 ∧
  s.henip.sleepPolicy = 0 ∧ s.henip.nslot = 8 ∧ s.henip.alarms = 0 ∧ s.endpoint.masters = [] ∧ s.endpoint.owner = none ∧
  (∀ c, (s.cor c).pts = 0 ∧ (s.cor c).pool = 8 ∧ (s.cor c).l1 = [] ∧ (s.cor c).tlb = []) ∧ (∀ k, s.estOf k = 0) ∧
  ∀ d, (s.vd d).defaults = ⟨4096, 10, 16777216, 0⟩ ∧ (s.vd d).sbase = 0 ∧ (s.vd d).timeoutUs = 1000 ∧ (s.vd d).lend = false ∧
    (s.vd d).borrow = false ∧ (∀ k, SMap.find (s.vd d).ways k = none) ∧ (∀ c, (s.ctx d c).root = none ∧ (s.ctx d c).regions = []) ∧
    (∀ a, (s.bucket a d).rate = 0 ∧ (s.bucket a d).depth = 0) ∧
    ∀ k, SMap.get (s.vd d).counters k (Counter.dflt k) = ⟨if k < 16 then k else 0, 0⟩

/-- Every step keeps memory and every scratchpad array in their canonical form, so that equal memories are equal data. The form is
the model's (log entry 77). -/
def Obligations.TidyKept : Prop := Kept Tidy

end
end

