-- ==== Sys2Proof/Laws/Assembler.lean ====
section
/-! SUPPORT. What cvas's instructions keep: every instruction it makes of a line is well formed (R23). -/

namespace Sys2Proof.Machine.Asm

/-- The shortest words are those of a well-formed instruction. -/
theorem shortest_checks {mk : Head → Instr} {h : Head} {i : Instr} (e : shortest mk h = .ok i) : i.checks = true := by
  simp only [shortest] at e
  split at e
  · cases e; assumption
  · split at e
    · cases e; assumption
    · cases e

/-- No instruction that cvas makes has an encoding that traps with ILL_FORM (R23). -/
theorem build_checks {x : Written} {env : Env} {pos home : Nat} {i : Instr} {f : Option Fix}
    (e : x.build env pos home = .ok (i, f)) : i.checks = true := by
  simp only [Written.build, bind, Except.bind] at e
  repeat' split at e
  all_goals first
    | cases e; done
    | (cases e; exact shortest_checks ‹_›)

end Sys2Proof.Machine.Asm
end

