-- ==== Sys2Proof/Laws/Maps.lean ====
section
/-! SUPPORT. Lemmas on finite maps and memory: what a lookup gives after a write, and that every memory operation keeps the
canonical form. -/

namespace Sys2Proof.Machine

/-! ## Finite maps -/

@[simp] theorem SMap.find_nil {α : Type} (k : Nat) : SMap.find ([] : SMap α) k = none := rfl

@[simp] theorem SMap.get_nil {α : Type} (k : Nat) (d : α) : SMap.get ([] : SMap α) k d = d := rfl

theorem SMap.find_set_self {α : Type} (m : SMap α) (k : Nat) (v : α) : SMap.find (SMap.set m k v) k = some v := by
  induction m with
  | nil => simp [SMap.set, SMap.find]
  | cons e r ih =>
    simp only [SMap.set]
    split
    · simp [SMap.find]
    · split <;> simp_all [SMap.find]

theorem SMap.find_set_ne {α : Type} (m : SMap α) {k j : Nat} (v : α) (h : j ≠ k) :
    SMap.find (SMap.set m k v) j = SMap.find m j := by
  induction m with
  | nil => simp [SMap.set, SMap.find, Ne.symm h]
  | cons e r ih =>
    simp only [SMap.set]
    split
    · rename_i he
      simp [SMap.find, he, Ne.symm h]
    · split
      · simp [SMap.find, Ne.symm h]
      · simp [SMap.find, ih]

theorem SMap.find_set {α : Type} (m : SMap α) (k j : Nat) (v : α) :
    SMap.find (SMap.set m k v) j = if j = k then some v else SMap.find m j := by
  split
  · subst_vars; exact SMap.find_set_self m _ v
  · exact SMap.find_set_ne m v ‹_›

theorem SMap.get_set {α : Type} (m : SMap α) (k j : Nat) (v d : α) :
    SMap.get (SMap.set m k v) j d = if j = k then v else SMap.get m j d := by
  simp only [SMap.get, SMap.find_set]
  split <;> rfl

@[simp] theorem SMap.get_set_self {α : Type} (m : SMap α) (k : Nat) (v d : α) : SMap.get (SMap.set m k v) k d = v := by
  simp [SMap.get_set]

theorem SMap.get_set_ne {α : Type} (m : SMap α) {k j : Nat} (v d : α) (h : j ≠ k) :
    SMap.get (SMap.set m k v) j d = SMap.get m j d := by
  simp [SMap.get_set, h]

theorem SMap.find_erase {α : Type} (m : SMap α) (k j : Nat) :
    SMap.find (SMap.erase m k) j = if j = k then none else SMap.find m j := by
  induction m with
  | nil => simp [SMap.erase]
  | cons e r ih =>
    simp only [SMap.erase, List.filter_cons] at *
    by_cases he : e.1 = k
    · simp only [he, bne_self_eq_false, Bool.false_eq_true, if_false, ih, SMap.find]
      by_cases hj : j = k
      · simp [hj]
      · simp [hj, Ne.symm hj]
    · simp only [bne_iff_ne, ne_eq, he, not_false_eq_true, if_true, SMap.find, ih]
      by_cases hj : e.1 = j
      · simp [hj, show ¬ j = k from fun h => he (hj.trans h)]
      · simp [hj]

theorem SMap.get_put {α : Type} [DecidableEq α] (m : SMap α) (k j : Nat) (v d : α) :
    SMap.get (SMap.put m k v d) j d = if j = k then v else SMap.get m j d := by
  unfold SMap.put
  split
  · subst_vars
    simp only [SMap.get, SMap.find_erase]
    split <;> rfl
  · exact SMap.get_set m k j v d

@[simp] theorem SMap.get_put_self {α : Type} [DecidableEq α] (m : SMap α) (k : Nat) (v d : α) :
    SMap.get (SMap.put m k v d) k d = v := by simp [SMap.get_put]

theorem SMap.find_mapVal {α : Type} (m : SMap α) (f : Nat → α → α) (k : Nat) :
    SMap.find (SMap.mapVal m f) k = (SMap.find m k).map (f k) := by
  induction m with
  | nil => rfl
  | cons e r ih =>
    simp only [SMap.mapVal, List.map_cons, SMap.find] at *
    by_cases h : e.1 = k
    · simp [h]
    · simp [h, ih]

/-- A key that is found stands in the list. -/
theorem SMap.find_mem {α : Type} {m : SMap α} {k : Nat} {v : α} (h : SMap.find m k = some v) : (k, v) ∈ m := by
  induction m with
  | nil => cases h
  | cons e r ih =>
    simp only [SMap.find] at h
    split at h
    · cases e; simp_all
    · exact List.mem_cons_of_mem _ (ih h)

/-! ## Memory -/

/-- Reading after storing a byte. -/
theorem Mem.get_set (m : Mem) (a c : Nat) (b : Byte) : Mem.get (Mem.set m a b) c = if c = a then b else Mem.get m c :=
  SMap.get_put m a c b 0

@[simp] theorem Mem.get_nil (a : Nat) : Mem.get [] a = 0 := rfl

/-- Storing leaves every byte outside the stored run as it was. -/
theorem Mem.get_write_outside (bs : List Byte) : ∀ (m : Mem) (a c : Nat), c < a ∨ a + bs.length ≤ c →
    Mem.get (Mem.write m a bs) c = Mem.get m c := by
  induction bs with
  | nil => intros; rfl
  | cons b r ih =>
    intro m a c h
    simp only [List.length_cons] at h
    rw [Mem.write, ih _ _ _ (by omega), Mem.get_set, if_neg (by omega)]

/-- Reading inside a stored run gives the byte stored there. -/
theorem Mem.get_write_inside (bs : List Byte) : ∀ (m : Mem) (a i : Nat), i < bs.length →
    Mem.get (Mem.write m a bs) (a + i) = bs.getD i 0 := by
  induction bs with
  | nil => intro _ _ i h; simp at h
  | cons b r ih =>
    intro m a i h
    cases i with
    | zero =>
      rw [Mem.write, Mem.get_write_outside _ _ _ _ (by omega), Mem.get_set]
      simp
    | succ i =>
      simp only [List.length_cons] at h
      rw [Mem.write, show a + (i + 1) = a + 1 + i by omega, ih _ _ _ (by omega)]
      simp

/-- Reading back a stored run. -/
theorem Mem.read_write (bs : List Byte) : ∀ (m : Mem) (a : Nat), Mem.read (Mem.write m a bs) a bs.length = bs := by
  induction bs with
  | nil => intros; rfl
  | cons b r ih =>
    intro m a
    rw [List.length_cons, Mem.read, Mem.write, ih, Mem.get_write_outside _ _ _ _ (by omega), Mem.get_set]
    simp

/-- Storing bytes each at its own address leaves every other address as it was. -/
theorem Mem.get_writeAll_outside (l : List (Nat × Byte)) : ∀ (m : Mem) (c : Nat), (∀ e ∈ l, e.1 ≠ c) →
    Mem.get (Mem.writeAll m l) c = Mem.get m c := by
  induction l with
  | nil => intros; rfl
  | cons e r ih =>
    intro m c h
    rw [Mem.writeAll, ih _ _ (fun x hx => h x (List.mem_cons_of_mem _ hx)), Mem.get_set,
      if_neg (Ne.symm (h e List.mem_cons_self))]

/-! ## The canonical form -/

theorem Mem.wfFrom_mono (m : Mem) : ∀ {lo hi : Nat}, lo ≤ hi → Mem.wfFrom hi m = true → Mem.wfFrom lo m = true := by
  cases m with
  | nil => intros; rfl
  | cons e r =>
    intro lo hi h hw
    simp only [Mem.wfFrom, Bool.and_eq_true, decide_eq_true_eq] at *
    exact ⟨⟨by omega, hw.1.2⟩, hw.2⟩

theorem Mem.wfFrom_erase (m : Mem) (a : Nat) : ∀ (lo : Nat), Mem.wfFrom lo m = true → Mem.wfFrom lo (SMap.erase m a) = true := by
  induction m with
  | nil => intros; rfl
  | cons e r ih =>
    intro lo h
    simp only [Mem.wfFrom, Bool.and_eq_true, decide_eq_true_eq] at h
    simp only [SMap.erase, List.filter_cons] at *
    split
    · simp only [Mem.wfFrom, Bool.and_eq_true, decide_eq_true_eq]
      exact ⟨h.1, ih _ h.2⟩
    · exact Mem.wfFrom_mono _ (by omega) (ih _ h.2)

theorem Mem.wfFrom_set (m : Mem) (a : Nat) (b : Byte) (hb : b ≠ 0) : ∀ (lo : Nat), lo ≤ a → Mem.wfFrom lo m = true →
    Mem.wfFrom lo (SMap.set m a b) = true := by
  induction m with
  | nil => intro lo h _; simpa [SMap.set, Mem.wfFrom, h] using hb
  | cons e r ih =>
    intro lo hl h
    simp only [Mem.wfFrom, Bool.and_eq_true, decide_eq_true_eq] at h
    simp only [SMap.set]
    split
    · rename_i he
      simp only [Mem.wfFrom, Bool.and_eq_true, decide_eq_true_eq, bne_iff_ne]
      exact ⟨⟨hl, hb⟩, he ▸ h.2⟩
    · split
      · simp only [Mem.wfFrom, Bool.and_eq_true, decide_eq_true_eq, bne_iff_ne]
        exact ⟨⟨hl, hb⟩, ⟨by omega, by simpa using h.1.2⟩, h.2⟩
      · simp only [Mem.wfFrom, Bool.and_eq_true, decide_eq_true_eq]
        exact ⟨h.1, ih _ (by omega) h.2⟩

/-- Storing a byte keeps the canonical form. -/
theorem Mem.wf_set {m : Mem} (h : Mem.wf m = true) (a : Nat) (b : Byte) : Mem.wf (Mem.set m a b) = true := by
  unfold Mem.set SMap.put
  split
  · exact Mem.wfFrom_erase m a 0 h
  · exact Mem.wfFrom_set m a b ‹_› 0 (by omega) h

/-- Storing a run keeps the canonical form. -/
theorem Mem.wf_write (bs : List Byte) : ∀ {m : Mem}, Mem.wf m = true → ∀ a, Mem.wf (Mem.write m a bs) = true := by
  induction bs with
  | nil => intro m h _; exact h
  | cons b r ih => intro m h a; exact ih (Mem.wf_set h a b) (a + 1)

/-- Storing scattered bytes keeps the canonical form. -/
theorem Mem.wf_writeAll (l : List (Nat × Byte)) : ∀ {m : Mem}, Mem.wf m = true → Mem.wf (Mem.writeAll m l) = true := by
  induction l with
  | nil => intro m h; exact h
  | cons e r ih => intro m h; exact ih (Mem.wf_set h e.1 e.2)

/-- Dropping entries keeps the canonical form. -/
theorem Mem.wf_filter (p : Host.Cell → Bool) (m : Mem) : ∀ {lo : Nat}, Mem.wfFrom lo m = true → Mem.wfFrom lo (m.filter p) = true := by
  induction m with
  | nil => intro _ _; rfl
  | cons e r ih =>
    intro lo h
    simp only [Mem.wfFrom, Bool.and_eq_true, decide_eq_true_eq] at h
    simp only [List.filter_cons]
    split
    · simp only [Mem.wfFrom, Bool.and_eq_true, decide_eq_true_eq]
      exact ⟨h.1, ih h.2⟩
    · exact Mem.wfFrom_mono _ (by omega) (ih h.2)

/-- Two memories in canonical form that read alike everywhere are the same list. -/
theorem Mem.ext_of_wf : ∀ {m n : Mem} {lo : Nat}, Mem.wfFrom lo m = true → Mem.wfFrom lo n = true →
    (∀ a, Mem.get m a = Mem.get n a) → m = n := by
  have below : ∀ (m : Mem) (lo a : Nat), Mem.wfFrom lo m = true → a < lo → Mem.get m a = 0 := by
    intro m
    induction m with
    | nil => intros; rfl
    | cons e r ih =>
      intro lo a h ha
      simp only [Mem.wfFrom, Bool.and_eq_true, decide_eq_true_eq] at h
      have := ih (e.1 + 1) a h.2 (by omega)
      simpa [Mem.get, SMap.get, SMap.find, show e.1 ≠ a by omega] using this
  intro m
  induction m with
  | nil =>
    intro n lo _ hn h
    cases n with
    | nil => rfl
    | cons e r =>
      simp only [Mem.wfFrom, Bool.and_eq_true, bne_iff_ne] at hn
      have := h e.1
      simp [Mem.get, SMap.get, SMap.find] at this
      exact absurd this.symm hn.1.2
  | cons e r ih =>
    intro n lo hm hn h
    simp only [Mem.wfFrom, Bool.and_eq_true, decide_eq_true_eq, bne_iff_ne] at hm
    cases n with
    | nil =>
      have := h e.1
      simp [Mem.get, SMap.get, SMap.find] at this
      exact absurd this hm.1.2
    | cons f q =>
      simp only [Mem.wfFrom, Bool.and_eq_true, decide_eq_true_eq, bne_iff_ne] at hn
      have hef : e.1 = f.1 := by
        rcases Nat.lt_trichotomy e.1 f.1 with hlt | heq | hgt
        · have h1 := h e.1
          have h2 := below q (f.1 + 1) e.1 hn.2 (by omega)
          simp [Mem.get, SMap.get, SMap.find, show f.1 ≠ e.1 by omega] at h1 h2
          exact absurd (h1.trans h2) hm.1.2
        · exact heq
        · have h1 := h f.1
          have h2 := below r (e.1 + 1) f.1 hm.2 (by omega)
          simp [Mem.get, SMap.get, SMap.find, show e.1 ≠ f.1 by omega] at h1 h2
          exact absurd (h1.symm.trans h2) hn.1.2
      have hv : e.2 = f.2 := by
        have := h e.1
        simpa [Mem.get, SMap.get, SMap.find, hef] using this
      have ht : r = q := by
        refine ih hm.2 (hef ▸ hn.2) (fun a => ?_)
        by_cases ha : a ≤ e.1
        · rw [below r _ a hm.2 (by omega), below q _ a hn.2 (by omega)]
        · have := h a
          simpa [Mem.get, SMap.get, SMap.find, show e.1 ≠ a by omega, show f.1 ≠ a by omega] using this
      rw [ht, show e = f from Prod.ext hef hv]

end Sys2Proof.Machine
end

