-- ==== Sys2Proof/Laws/State.lean ====
section
/-! SUPPORT. Lemmas on updates of the state: what each update leaves as it was, one lemma per field, and what a part reads as
after an update of it. -/

namespace Sys2Proof.Machine

namespace State

/-! ## Fields that an update leaves alone -/

theorem updTeam_eq (s : State) (u : Nat) (f : Team → Team) : s.updTeam u f = { s with teams := (s.updTeam u f).teams } := by
  unfold updTeam
  split <;> rfl

theorem updLau_eq (s : State) (l : Nat) (f : Launch → Launch) : s.updLau l f = { s with launches := (s.updLau l f).launches } := by
  unfold updLau
  split <;> rfl

@[simp] theorem updTeam_cyc (s : State) (u : Nat) (g : Team → Team) : (s.updTeam u g).cyc = s.cyc := by rw [updTeam_eq]
@[simp] theorem updTeam_ptpNs (s : State) (u : Nat) (g : Team → Team) : (s.updTeam u g).ptpNs = s.ptpNs := by rw [updTeam_eq]
@[simp] theorem updTeam_ptpSec (s : State) (u : Nat) (g : Team → Team) : (s.updTeam u g).ptpSec = s.ptpSec := by rw [updTeam_eq]
@[simp] theorem updTeam_ptpAdjust (s : State) (u : Nat) (g : Team → Team) : (s.updTeam u g).ptpAdjust = s.ptpAdjust := by rw [updTeam_eq]
@[simp] theorem updTeam_mem (s : State) (u : Nat) (g : Team → Team) : (s.updTeam u g).mem = s.mem := by rw [updTeam_eq]
@[simp] theorem updTeam_damaged (s : State) (u : Nat) (g : Team → Team) : (s.updTeam u g).damaged = s.damaged := by rw [updTeam_eq]
@[simp] theorem updTeam_lines (s : State) (u : Nat) (g : Team → Team) : (s.updTeam u g).lines = s.lines := by rw [updTeam_eq]
@[simp] theorem updTeam_vlines (s : State) (u : Nat) (g : Team → Team) : (s.updTeam u g).vlines = s.vlines := by rw [updTeam_eq]
@[simp] theorem updTeam_est (s : State) (u : Nat) (g : Team → Team) : (s.updTeam u g).est = s.est := by rw [updTeam_eq]
@[simp] theorem updTeam_outStamp (s : State) (u : Nat) (g : Team → Team) : (s.updTeam u g).outStamp = s.outStamp := by rw [updTeam_eq]
@[simp] theorem updTeam_verStamp (s : State) (u : Nat) (g : Team → Team) : (s.updTeam u g).verStamp = s.verStamp := by rw [updTeam_eq]
@[simp] theorem updTeam_codeLog (s : State) (u : Nat) (g : Team → Team) : (s.updTeam u g).codeLog = s.codeLog := by rw [updTeam_eq]
@[simp] theorem updTeam_cacheUse (s : State) (u : Nat) (g : Team → Team) : (s.updTeam u g).cacheUse = s.cacheUse := by rw [updTeam_eq]
@[simp] theorem updTeam_poolTurns (s : State) (u : Nat) (g : Team → Team) : (s.updTeam u g).poolTurns = s.poolTurns := by rw [updTeam_eq]
@[simp] theorem updTeam_memReqs (s : State) (u : Nat) (g : Team → Team) : (s.updTeam u g).memReqs = s.memReqs := by rw [updTeam_eq]
@[simp] theorem updTeam_memGrants (s : State) (u : Nat) (g : Team → Team) : (s.updTeam u g).memGrants = s.memGrants := by rw [updTeam_eq]
@[simp] theorem updTeam_resv (s : State) (u : Nat) (g : Team → Team) : (s.updTeam u g).resv = s.resv := by rw [updTeam_eq]
@[simp] theorem updTeam_cores (s : State) (u : Nat) (g : Team → Team) : (s.updTeam u g).cores = s.cores := by rw [updTeam_eq]
@[simp] theorem updTeam_dies (s : State) (u : Nat) (g : Team → Team) : (s.updTeam u g).dies = s.dies := by rw [updTeam_eq]
@[simp] theorem updTeam_sleeping (s : State) (u : Nat) (g : Team → Team) : (s.updTeam u g).sleeping = s.sleeping := by rw [updTeam_eq]
@[simp] theorem updTeam_clusters (s : State) (u : Nat) (g : Team → Team) : (s.updTeam u g).clusters = s.clusters := by rw [updTeam_eq]
@[simp] theorem updTeam_ops (s : State) (u : Nat) (g : Team → Team) : (s.updTeam u g).ops = s.ops := by rw [updTeam_eq]
@[simp] theorem updTeam_tiles (s : State) (u : Nat) (g : Team → Team) : (s.updTeam u g).tiles = s.tiles := by rw [updTeam_eq]
@[simp] theorem updTeam_hyps (s : State) (u : Nat) (g : Team → Team) : (s.updTeam u g).hyps = s.hyps := by rw [updTeam_eq]
@[simp] theorem updTeam_vdevs (s : State) (u : Nat) (g : Team → Team) : (s.updTeam u g).vdevs = s.vdevs := by rw [updTeam_eq]
@[simp] theorem updTeam_buckets (s : State) (u : Nat) (g : Team → Team) : (s.updTeam u g).buckets = s.buckets := by rw [updTeam_eq]
@[simp] theorem updTeam_pools (s : State) (u : Nat) (g : Team → Team) : (s.updTeam u g).pools = s.pools := by rw [updTeam_eq]
@[simp] theorem updTeam_launches (s : State) (u : Nat) (g : Team → Team) : (s.updTeam u g).launches = s.launches := by rw [updTeam_eq]
@[simp] theorem updTeam_manifests (s : State) (u : Nat) (g : Team → Team) : (s.updTeam u g).manifests = s.manifests := by rw [updTeam_eq]
@[simp] theorem updTeam_ephems (s : State) (u : Nat) (g : Team → Team) : (s.updTeam u g).ephems = s.ephems := by rw [updTeam_eq]
@[simp] theorem updTeam_endpoint (s : State) (u : Nat) (g : Team → Team) : (s.updTeam u g).endpoint = s.endpoint := by rw [updTeam_eq]
@[simp] theorem updTeam_henip (s : State) (u : Nat) (g : Team → Team) : (s.updTeam u g).henip = s.henip := by rw [updTeam_eq]
@[simp] theorem updTeam_agenda (s : State) (u : Nat) (g : Team → Team) : (s.updTeam u g).agenda = s.agenda := by rw [updTeam_eq]
@[simp] theorem updTeam_later (s : State) (u : Nat) (g : Team → Team) : (s.updTeam u g).later = s.later := by rw [updTeam_eq]
@[simp] theorem updTeam_issue (s : State) (u : Nat) (g : Team → Team) : (s.updTeam u g).issue = s.issue := by rw [updTeam_eq]
@[simp] theorem updTeam_draws (s : State) (u : Nat) (g : Team → Team) : (s.updTeam u g).draws = s.draws := by rw [updTeam_eq]
@[simp] theorem updTeam_nextUid (s : State) (u : Nat) (g : Team → Team) : (s.updTeam u g).nextUid = s.nextUid := by rw [updTeam_eq]

@[simp] theorem updBody_cyc (s : State) (u : Nat) (g : TeamBody → TeamBody) : (s.updBody u g).cyc = s.cyc := by simp [updBody]
@[simp] theorem updBody_ptpNs (s : State) (u : Nat) (g : TeamBody → TeamBody) : (s.updBody u g).ptpNs = s.ptpNs := by simp [updBody]
@[simp] theorem updBody_ptpSec (s : State) (u : Nat) (g : TeamBody → TeamBody) : (s.updBody u g).ptpSec = s.ptpSec := by simp [updBody]
@[simp] theorem updBody_ptpAdjust (s : State) (u : Nat) (g : TeamBody → TeamBody) : (s.updBody u g).ptpAdjust = s.ptpAdjust := by simp [updBody]
@[simp] theorem updBody_mem (s : State) (u : Nat) (g : TeamBody → TeamBody) : (s.updBody u g).mem = s.mem := by simp [updBody]
@[simp] theorem updBody_damaged (s : State) (u : Nat) (g : TeamBody → TeamBody) : (s.updBody u g).damaged = s.damaged := by simp [updBody]
@[simp] theorem updBody_lines (s : State) (u : Nat) (g : TeamBody → TeamBody) : (s.updBody u g).lines = s.lines := by simp [updBody]
@[simp] theorem updBody_vlines (s : State) (u : Nat) (g : TeamBody → TeamBody) : (s.updBody u g).vlines = s.vlines := by simp [updBody]
@[simp] theorem updBody_est (s : State) (u : Nat) (g : TeamBody → TeamBody) : (s.updBody u g).est = s.est := by simp [updBody]
@[simp] theorem updBody_outStamp (s : State) (u : Nat) (g : TeamBody → TeamBody) : (s.updBody u g).outStamp = s.outStamp := by simp [updBody]
@[simp] theorem updBody_verStamp (s : State) (u : Nat) (g : TeamBody → TeamBody) : (s.updBody u g).verStamp = s.verStamp := by simp [updBody]
@[simp] theorem updBody_codeLog (s : State) (u : Nat) (g : TeamBody → TeamBody) : (s.updBody u g).codeLog = s.codeLog := by simp [updBody]
@[simp] theorem updBody_cacheUse (s : State) (u : Nat) (g : TeamBody → TeamBody) : (s.updBody u g).cacheUse = s.cacheUse := by simp [updBody]
@[simp] theorem updBody_poolTurns (s : State) (u : Nat) (g : TeamBody → TeamBody) : (s.updBody u g).poolTurns = s.poolTurns := by simp [updBody]
@[simp] theorem updBody_memReqs (s : State) (u : Nat) (g : TeamBody → TeamBody) : (s.updBody u g).memReqs = s.memReqs := by simp [updBody]
@[simp] theorem updBody_memGrants (s : State) (u : Nat) (g : TeamBody → TeamBody) : (s.updBody u g).memGrants = s.memGrants := by simp [updBody]
@[simp] theorem updBody_resv (s : State) (u : Nat) (g : TeamBody → TeamBody) : (s.updBody u g).resv = s.resv := by simp [updBody]
@[simp] theorem updBody_cores (s : State) (u : Nat) (g : TeamBody → TeamBody) : (s.updBody u g).cores = s.cores := by simp [updBody]
@[simp] theorem updBody_dies (s : State) (u : Nat) (g : TeamBody → TeamBody) : (s.updBody u g).dies = s.dies := by simp [updBody]
@[simp] theorem updBody_sleeping (s : State) (u : Nat) (g : TeamBody → TeamBody) : (s.updBody u g).sleeping = s.sleeping := by simp [updBody]
@[simp] theorem updBody_clusters (s : State) (u : Nat) (g : TeamBody → TeamBody) : (s.updBody u g).clusters = s.clusters := by simp [updBody]
@[simp] theorem updBody_ops (s : State) (u : Nat) (g : TeamBody → TeamBody) : (s.updBody u g).ops = s.ops := by simp [updBody]
@[simp] theorem updBody_tiles (s : State) (u : Nat) (g : TeamBody → TeamBody) : (s.updBody u g).tiles = s.tiles := by simp [updBody]
@[simp] theorem updBody_hyps (s : State) (u : Nat) (g : TeamBody → TeamBody) : (s.updBody u g).hyps = s.hyps := by simp [updBody]
@[simp] theorem updBody_vdevs (s : State) (u : Nat) (g : TeamBody → TeamBody) : (s.updBody u g).vdevs = s.vdevs := by simp [updBody]
@[simp] theorem updBody_buckets (s : State) (u : Nat) (g : TeamBody → TeamBody) : (s.updBody u g).buckets = s.buckets := by simp [updBody]
@[simp] theorem updBody_pools (s : State) (u : Nat) (g : TeamBody → TeamBody) : (s.updBody u g).pools = s.pools := by simp [updBody]
@[simp] theorem updBody_launches (s : State) (u : Nat) (g : TeamBody → TeamBody) : (s.updBody u g).launches = s.launches := by simp [updBody]
@[simp] theorem updBody_manifests (s : State) (u : Nat) (g : TeamBody → TeamBody) : (s.updBody u g).manifests = s.manifests := by simp [updBody]
@[simp] theorem updBody_ephems (s : State) (u : Nat) (g : TeamBody → TeamBody) : (s.updBody u g).ephems = s.ephems := by simp [updBody]
@[simp] theorem updBody_endpoint (s : State) (u : Nat) (g : TeamBody → TeamBody) : (s.updBody u g).endpoint = s.endpoint := by simp [updBody]
@[simp] theorem updBody_henip (s : State) (u : Nat) (g : TeamBody → TeamBody) : (s.updBody u g).henip = s.henip := by simp [updBody]
@[simp] theorem updBody_agenda (s : State) (u : Nat) (g : TeamBody → TeamBody) : (s.updBody u g).agenda = s.agenda := by simp [updBody]
@[simp] theorem updBody_later (s : State) (u : Nat) (g : TeamBody → TeamBody) : (s.updBody u g).later = s.later := by simp [updBody]
@[simp] theorem updBody_issue (s : State) (u : Nat) (g : TeamBody → TeamBody) : (s.updBody u g).issue = s.issue := by simp [updBody]
@[simp] theorem updBody_draws (s : State) (u : Nat) (g : TeamBody → TeamBody) : (s.updBody u g).draws = s.draws := by simp [updBody]
@[simp] theorem updBody_nextUid (s : State) (u : Nat) (g : TeamBody → TeamBody) : (s.updBody u g).nextUid = s.nextUid := by simp [updBody]

@[simp] theorem updThr_cyc (s : State) (u i : Nat) (g : Thread → Thread) : (s.updThr u i g).cyc = s.cyc := by simp [updThr]
@[simp] theorem updThr_ptpNs (s : State) (u i : Nat) (g : Thread → Thread) : (s.updThr u i g).ptpNs = s.ptpNs := by simp [updThr]
@[simp] theorem updThr_ptpSec (s : State) (u i : Nat) (g : Thread → Thread) : (s.updThr u i g).ptpSec = s.ptpSec := by simp [updThr]
@[simp] theorem updThr_ptpAdjust (s : State) (u i : Nat) (g : Thread → Thread) : (s.updThr u i g).ptpAdjust = s.ptpAdjust := by simp [updThr]
@[simp] theorem updThr_mem (s : State) (u i : Nat) (g : Thread → Thread) : (s.updThr u i g).mem = s.mem := by simp [updThr]
@[simp] theorem updThr_damaged (s : State) (u i : Nat) (g : Thread → Thread) : (s.updThr u i g).damaged = s.damaged := by simp [updThr]
@[simp] theorem updThr_lines (s : State) (u i : Nat) (g : Thread → Thread) : (s.updThr u i g).lines = s.lines := by simp [updThr]
@[simp] theorem updThr_vlines (s : State) (u i : Nat) (g : Thread → Thread) : (s.updThr u i g).vlines = s.vlines := by simp [updThr]
@[simp] theorem updThr_est (s : State) (u i : Nat) (g : Thread → Thread) : (s.updThr u i g).est = s.est := by simp [updThr]
@[simp] theorem updThr_outStamp (s : State) (u i : Nat) (g : Thread → Thread) : (s.updThr u i g).outStamp = s.outStamp := by simp [updThr]
@[simp] theorem updThr_verStamp (s : State) (u i : Nat) (g : Thread → Thread) : (s.updThr u i g).verStamp = s.verStamp := by simp [updThr]
@[simp] theorem updThr_codeLog (s : State) (u i : Nat) (g : Thread → Thread) : (s.updThr u i g).codeLog = s.codeLog := by simp [updThr]
@[simp] theorem updThr_cacheUse (s : State) (u i : Nat) (g : Thread → Thread) : (s.updThr u i g).cacheUse = s.cacheUse := by simp [updThr]
@[simp] theorem updThr_poolTurns (s : State) (u i : Nat) (g : Thread → Thread) : (s.updThr u i g).poolTurns = s.poolTurns := by simp [updThr]
@[simp] theorem updThr_memReqs (s : State) (u i : Nat) (g : Thread → Thread) : (s.updThr u i g).memReqs = s.memReqs := by simp [updThr]
@[simp] theorem updThr_memGrants (s : State) (u i : Nat) (g : Thread → Thread) : (s.updThr u i g).memGrants = s.memGrants := by simp [updThr]
@[simp] theorem updThr_resv (s : State) (u i : Nat) (g : Thread → Thread) : (s.updThr u i g).resv = s.resv := by simp [updThr]
@[simp] theorem updThr_cores (s : State) (u i : Nat) (g : Thread → Thread) : (s.updThr u i g).cores = s.cores := by simp [updThr]
@[simp] theorem updThr_dies (s : State) (u i : Nat) (g : Thread → Thread) : (s.updThr u i g).dies = s.dies := by simp [updThr]
@[simp] theorem updThr_sleeping (s : State) (u i : Nat) (g : Thread → Thread) : (s.updThr u i g).sleeping = s.sleeping := by simp [updThr]
@[simp] theorem updThr_clusters (s : State) (u i : Nat) (g : Thread → Thread) : (s.updThr u i g).clusters = s.clusters := by simp [updThr]
@[simp] theorem updThr_ops (s : State) (u i : Nat) (g : Thread → Thread) : (s.updThr u i g).ops = s.ops := by simp [updThr]
@[simp] theorem updThr_tiles (s : State) (u i : Nat) (g : Thread → Thread) : (s.updThr u i g).tiles = s.tiles := by simp [updThr]
@[simp] theorem updThr_hyps (s : State) (u i : Nat) (g : Thread → Thread) : (s.updThr u i g).hyps = s.hyps := by simp [updThr]
@[simp] theorem updThr_vdevs (s : State) (u i : Nat) (g : Thread → Thread) : (s.updThr u i g).vdevs = s.vdevs := by simp [updThr]
@[simp] theorem updThr_buckets (s : State) (u i : Nat) (g : Thread → Thread) : (s.updThr u i g).buckets = s.buckets := by simp [updThr]
@[simp] theorem updThr_pools (s : State) (u i : Nat) (g : Thread → Thread) : (s.updThr u i g).pools = s.pools := by simp [updThr]
@[simp] theorem updThr_launches (s : State) (u i : Nat) (g : Thread → Thread) : (s.updThr u i g).launches = s.launches := by simp [updThr]
@[simp] theorem updThr_manifests (s : State) (u i : Nat) (g : Thread → Thread) : (s.updThr u i g).manifests = s.manifests := by simp [updThr]
@[simp] theorem updThr_ephems (s : State) (u i : Nat) (g : Thread → Thread) : (s.updThr u i g).ephems = s.ephems := by simp [updThr]
@[simp] theorem updThr_endpoint (s : State) (u i : Nat) (g : Thread → Thread) : (s.updThr u i g).endpoint = s.endpoint := by simp [updThr]
@[simp] theorem updThr_henip (s : State) (u i : Nat) (g : Thread → Thread) : (s.updThr u i g).henip = s.henip := by simp [updThr]
@[simp] theorem updThr_agenda (s : State) (u i : Nat) (g : Thread → Thread) : (s.updThr u i g).agenda = s.agenda := by simp [updThr]
@[simp] theorem updThr_later (s : State) (u i : Nat) (g : Thread → Thread) : (s.updThr u i g).later = s.later := by simp [updThr]
@[simp] theorem updThr_issue (s : State) (u i : Nat) (g : Thread → Thread) : (s.updThr u i g).issue = s.issue := by simp [updThr]
@[simp] theorem updThr_draws (s : State) (u i : Nat) (g : Thread → Thread) : (s.updThr u i g).draws = s.draws := by simp [updThr]
@[simp] theorem updThr_nextUid (s : State) (u i : Nat) (g : Thread → Thread) : (s.updThr u i g).nextUid = s.nextUid := by simp [updThr]

@[simp] theorem updGrp_cyc (s : State) (u i : Nat) (g : Group → Group) : (s.updGrp u i g).cyc = s.cyc := by simp [updGrp]
@[simp] theorem updGrp_ptpNs (s : State) (u i : Nat) (g : Group → Group) : (s.updGrp u i g).ptpNs = s.ptpNs := by simp [updGrp]
@[simp] theorem updGrp_ptpSec (s : State) (u i : Nat) (g : Group → Group) : (s.updGrp u i g).ptpSec = s.ptpSec := by simp [updGrp]
@[simp] theorem updGrp_ptpAdjust (s : State) (u i : Nat) (g : Group → Group) : (s.updGrp u i g).ptpAdjust = s.ptpAdjust := by simp [updGrp]
@[simp] theorem updGrp_mem (s : State) (u i : Nat) (g : Group → Group) : (s.updGrp u i g).mem = s.mem := by simp [updGrp]
@[simp] theorem updGrp_damaged (s : State) (u i : Nat) (g : Group → Group) : (s.updGrp u i g).damaged = s.damaged := by simp [updGrp]
@[simp] theorem updGrp_lines (s : State) (u i : Nat) (g : Group → Group) : (s.updGrp u i g).lines = s.lines := by simp [updGrp]
@[simp] theorem updGrp_vlines (s : State) (u i : Nat) (g : Group → Group) : (s.updGrp u i g).vlines = s.vlines := by simp [updGrp]
@[simp] theorem updGrp_est (s : State) (u i : Nat) (g : Group → Group) : (s.updGrp u i g).est = s.est := by simp [updGrp]
@[simp] theorem updGrp_outStamp (s : State) (u i : Nat) (g : Group → Group) : (s.updGrp u i g).outStamp = s.outStamp := by simp [updGrp]
@[simp] theorem updGrp_verStamp (s : State) (u i : Nat) (g : Group → Group) : (s.updGrp u i g).verStamp = s.verStamp := by simp [updGrp]
@[simp] theorem updGrp_codeLog (s : State) (u i : Nat) (g : Group → Group) : (s.updGrp u i g).codeLog = s.codeLog := by simp [updGrp]
@[simp] theorem updGrp_cacheUse (s : State) (u i : Nat) (g : Group → Group) : (s.updGrp u i g).cacheUse = s.cacheUse := by simp [updGrp]
@[simp] theorem updGrp_poolTurns (s : State) (u i : Nat) (g : Group → Group) : (s.updGrp u i g).poolTurns = s.poolTurns := by simp [updGrp]
@[simp] theorem updGrp_memReqs (s : State) (u i : Nat) (g : Group → Group) : (s.updGrp u i g).memReqs = s.memReqs := by simp [updGrp]
@[simp] theorem updGrp_memGrants (s : State) (u i : Nat) (g : Group → Group) : (s.updGrp u i g).memGrants = s.memGrants := by simp [updGrp]
@[simp] theorem updGrp_resv (s : State) (u i : Nat) (g : Group → Group) : (s.updGrp u i g).resv = s.resv := by simp [updGrp]
@[simp] theorem updGrp_cores (s : State) (u i : Nat) (g : Group → Group) : (s.updGrp u i g).cores = s.cores := by simp [updGrp]
@[simp] theorem updGrp_dies (s : State) (u i : Nat) (g : Group → Group) : (s.updGrp u i g).dies = s.dies := by simp [updGrp]
@[simp] theorem updGrp_sleeping (s : State) (u i : Nat) (g : Group → Group) : (s.updGrp u i g).sleeping = s.sleeping := by simp [updGrp]
@[simp] theorem updGrp_clusters (s : State) (u i : Nat) (g : Group → Group) : (s.updGrp u i g).clusters = s.clusters := by simp [updGrp]
@[simp] theorem updGrp_ops (s : State) (u i : Nat) (g : Group → Group) : (s.updGrp u i g).ops = s.ops := by simp [updGrp]
@[simp] theorem updGrp_tiles (s : State) (u i : Nat) (g : Group → Group) : (s.updGrp u i g).tiles = s.tiles := by simp [updGrp]
@[simp] theorem updGrp_hyps (s : State) (u i : Nat) (g : Group → Group) : (s.updGrp u i g).hyps = s.hyps := by simp [updGrp]
@[simp] theorem updGrp_vdevs (s : State) (u i : Nat) (g : Group → Group) : (s.updGrp u i g).vdevs = s.vdevs := by simp [updGrp]
@[simp] theorem updGrp_buckets (s : State) (u i : Nat) (g : Group → Group) : (s.updGrp u i g).buckets = s.buckets := by simp [updGrp]
@[simp] theorem updGrp_pools (s : State) (u i : Nat) (g : Group → Group) : (s.updGrp u i g).pools = s.pools := by simp [updGrp]
@[simp] theorem updGrp_launches (s : State) (u i : Nat) (g : Group → Group) : (s.updGrp u i g).launches = s.launches := by simp [updGrp]
@[simp] theorem updGrp_manifests (s : State) (u i : Nat) (g : Group → Group) : (s.updGrp u i g).manifests = s.manifests := by simp [updGrp]
@[simp] theorem updGrp_ephems (s : State) (u i : Nat) (g : Group → Group) : (s.updGrp u i g).ephems = s.ephems := by simp [updGrp]
@[simp] theorem updGrp_endpoint (s : State) (u i : Nat) (g : Group → Group) : (s.updGrp u i g).endpoint = s.endpoint := by simp [updGrp]
@[simp] theorem updGrp_henip (s : State) (u i : Nat) (g : Group → Group) : (s.updGrp u i g).henip = s.henip := by simp [updGrp]
@[simp] theorem updGrp_agenda (s : State) (u i : Nat) (g : Group → Group) : (s.updGrp u i g).agenda = s.agenda := by simp [updGrp]
@[simp] theorem updGrp_later (s : State) (u i : Nat) (g : Group → Group) : (s.updGrp u i g).later = s.later := by simp [updGrp]
@[simp] theorem updGrp_issue (s : State) (u i : Nat) (g : Group → Group) : (s.updGrp u i g).issue = s.issue := by simp [updGrp]
@[simp] theorem updGrp_draws (s : State) (u i : Nat) (g : Group → Group) : (s.updGrp u i g).draws = s.draws := by simp [updGrp]
@[simp] theorem updGrp_nextUid (s : State) (u i : Nat) (g : Group → Group) : (s.updGrp u i g).nextUid = s.nextUid := by simp [updGrp]

@[simp] theorem updLau_cyc (s : State) (l : Nat) (g : Launch → Launch) : (s.updLau l g).cyc = s.cyc := by rw [updLau_eq]
@[simp] theorem updLau_ptpNs (s : State) (l : Nat) (g : Launch → Launch) : (s.updLau l g).ptpNs = s.ptpNs := by rw [updLau_eq]
@[simp] theorem updLau_ptpSec (s : State) (l : Nat) (g : Launch → Launch) : (s.updLau l g).ptpSec = s.ptpSec := by rw [updLau_eq]
@[simp] theorem updLau_ptpAdjust (s : State) (l : Nat) (g : Launch → Launch) : (s.updLau l g).ptpAdjust = s.ptpAdjust := by rw [updLau_eq]
@[simp] theorem updLau_mem (s : State) (l : Nat) (g : Launch → Launch) : (s.updLau l g).mem = s.mem := by rw [updLau_eq]
@[simp] theorem updLau_damaged (s : State) (l : Nat) (g : Launch → Launch) : (s.updLau l g).damaged = s.damaged := by rw [updLau_eq]
@[simp] theorem updLau_lines (s : State) (l : Nat) (g : Launch → Launch) : (s.updLau l g).lines = s.lines := by rw [updLau_eq]
@[simp] theorem updLau_vlines (s : State) (l : Nat) (g : Launch → Launch) : (s.updLau l g).vlines = s.vlines := by rw [updLau_eq]
@[simp] theorem updLau_est (s : State) (l : Nat) (g : Launch → Launch) : (s.updLau l g).est = s.est := by rw [updLau_eq]
@[simp] theorem updLau_outStamp (s : State) (l : Nat) (g : Launch → Launch) : (s.updLau l g).outStamp = s.outStamp := by rw [updLau_eq]
@[simp] theorem updLau_verStamp (s : State) (l : Nat) (g : Launch → Launch) : (s.updLau l g).verStamp = s.verStamp := by rw [updLau_eq]
@[simp] theorem updLau_codeLog (s : State) (l : Nat) (g : Launch → Launch) : (s.updLau l g).codeLog = s.codeLog := by rw [updLau_eq]
@[simp] theorem updLau_cacheUse (s : State) (l : Nat) (g : Launch → Launch) : (s.updLau l g).cacheUse = s.cacheUse := by rw [updLau_eq]
@[simp] theorem updLau_poolTurns (s : State) (l : Nat) (g : Launch → Launch) : (s.updLau l g).poolTurns = s.poolTurns := by rw [updLau_eq]
@[simp] theorem updLau_memReqs (s : State) (l : Nat) (g : Launch → Launch) : (s.updLau l g).memReqs = s.memReqs := by rw [updLau_eq]
@[simp] theorem updLau_memGrants (s : State) (l : Nat) (g : Launch → Launch) : (s.updLau l g).memGrants = s.memGrants := by rw [updLau_eq]
@[simp] theorem updLau_resv (s : State) (l : Nat) (g : Launch → Launch) : (s.updLau l g).resv = s.resv := by rw [updLau_eq]
@[simp] theorem updLau_cores (s : State) (l : Nat) (g : Launch → Launch) : (s.updLau l g).cores = s.cores := by rw [updLau_eq]
@[simp] theorem updLau_dies (s : State) (l : Nat) (g : Launch → Launch) : (s.updLau l g).dies = s.dies := by rw [updLau_eq]
@[simp] theorem updLau_sleeping (s : State) (l : Nat) (g : Launch → Launch) : (s.updLau l g).sleeping = s.sleeping := by rw [updLau_eq]
@[simp] theorem updLau_teams (s : State) (l : Nat) (g : Launch → Launch) : (s.updLau l g).teams = s.teams := by rw [updLau_eq]
@[simp] theorem updLau_clusters (s : State) (l : Nat) (g : Launch → Launch) : (s.updLau l g).clusters = s.clusters := by rw [updLau_eq]
@[simp] theorem updLau_ops (s : State) (l : Nat) (g : Launch → Launch) : (s.updLau l g).ops = s.ops := by rw [updLau_eq]
@[simp] theorem updLau_tiles (s : State) (l : Nat) (g : Launch → Launch) : (s.updLau l g).tiles = s.tiles := by rw [updLau_eq]
@[simp] theorem updLau_hyps (s : State) (l : Nat) (g : Launch → Launch) : (s.updLau l g).hyps = s.hyps := by rw [updLau_eq]
@[simp] theorem updLau_vdevs (s : State) (l : Nat) (g : Launch → Launch) : (s.updLau l g).vdevs = s.vdevs := by rw [updLau_eq]
@[simp] theorem updLau_buckets (s : State) (l : Nat) (g : Launch → Launch) : (s.updLau l g).buckets = s.buckets := by rw [updLau_eq]
@[simp] theorem updLau_pools (s : State) (l : Nat) (g : Launch → Launch) : (s.updLau l g).pools = s.pools := by rw [updLau_eq]
@[simp] theorem updLau_manifests (s : State) (l : Nat) (g : Launch → Launch) : (s.updLau l g).manifests = s.manifests := by rw [updLau_eq]
@[simp] theorem updLau_ephems (s : State) (l : Nat) (g : Launch → Launch) : (s.updLau l g).ephems = s.ephems := by rw [updLau_eq]
@[simp] theorem updLau_endpoint (s : State) (l : Nat) (g : Launch → Launch) : (s.updLau l g).endpoint = s.endpoint := by rw [updLau_eq]
@[simp] theorem updLau_henip (s : State) (l : Nat) (g : Launch → Launch) : (s.updLau l g).henip = s.henip := by rw [updLau_eq]
@[simp] theorem updLau_agenda (s : State) (l : Nat) (g : Launch → Launch) : (s.updLau l g).agenda = s.agenda := by rw [updLau_eq]
@[simp] theorem updLau_later (s : State) (l : Nat) (g : Launch → Launch) : (s.updLau l g).later = s.later := by rw [updLau_eq]
@[simp] theorem updLau_issue (s : State) (l : Nat) (g : Launch → Launch) : (s.updLau l g).issue = s.issue := by rw [updLau_eq]
@[simp] theorem updLau_draws (s : State) (l : Nat) (g : Launch → Launch) : (s.updLau l g).draws = s.draws := by rw [updLau_eq]
@[simp] theorem updLau_nextUid (s : State) (l : Nat) (g : Launch → Launch) : (s.updLau l g).nextUid = s.nextUid := by rw [updLau_eq]

@[simp] theorem updCore_cyc (s : State) (c : Nat) (g : Core → Core) : (s.updCore c g).cyc = s.cyc := rfl
@[simp] theorem updCore_ptpNs (s : State) (c : Nat) (g : Core → Core) : (s.updCore c g).ptpNs = s.ptpNs := rfl
@[simp] theorem updCore_ptpSec (s : State) (c : Nat) (g : Core → Core) : (s.updCore c g).ptpSec = s.ptpSec := rfl
@[simp] theorem updCore_ptpAdjust (s : State) (c : Nat) (g : Core → Core) : (s.updCore c g).ptpAdjust = s.ptpAdjust := rfl
@[simp] theorem updCore_mem (s : State) (c : Nat) (g : Core → Core) : (s.updCore c g).mem = s.mem := rfl
@[simp] theorem updCore_damaged (s : State) (c : Nat) (g : Core → Core) : (s.updCore c g).damaged = s.damaged := rfl
@[simp] theorem updCore_lines (s : State) (c : Nat) (g : Core → Core) : (s.updCore c g).lines = s.lines := rfl
@[simp] theorem updCore_vlines (s : State) (c : Nat) (g : Core → Core) : (s.updCore c g).vlines = s.vlines := rfl
@[simp] theorem updCore_est (s : State) (c : Nat) (g : Core → Core) : (s.updCore c g).est = s.est := rfl
@[simp] theorem updCore_outStamp (s : State) (c : Nat) (g : Core → Core) : (s.updCore c g).outStamp = s.outStamp := rfl
@[simp] theorem updCore_verStamp (s : State) (c : Nat) (g : Core → Core) : (s.updCore c g).verStamp = s.verStamp := rfl
@[simp] theorem updCore_codeLog (s : State) (c : Nat) (g : Core → Core) : (s.updCore c g).codeLog = s.codeLog := rfl
@[simp] theorem updCore_cacheUse (s : State) (c : Nat) (g : Core → Core) : (s.updCore c g).cacheUse = s.cacheUse := rfl
@[simp] theorem updCore_poolTurns (s : State) (c : Nat) (g : Core → Core) : (s.updCore c g).poolTurns = s.poolTurns := rfl
@[simp] theorem updCore_memReqs (s : State) (c : Nat) (g : Core → Core) : (s.updCore c g).memReqs = s.memReqs := rfl
@[simp] theorem updCore_memGrants (s : State) (c : Nat) (g : Core → Core) : (s.updCore c g).memGrants = s.memGrants := rfl
@[simp] theorem updCore_resv (s : State) (c : Nat) (g : Core → Core) : (s.updCore c g).resv = s.resv := rfl
@[simp] theorem updCore_dies (s : State) (c : Nat) (g : Core → Core) : (s.updCore c g).dies = s.dies := rfl
@[simp] theorem updCore_sleeping (s : State) (c : Nat) (g : Core → Core) : (s.updCore c g).sleeping = s.sleeping := rfl
@[simp] theorem updCore_teams (s : State) (c : Nat) (g : Core → Core) : (s.updCore c g).teams = s.teams := rfl
@[simp] theorem updCore_clusters (s : State) (c : Nat) (g : Core → Core) : (s.updCore c g).clusters = s.clusters := rfl
@[simp] theorem updCore_ops (s : State) (c : Nat) (g : Core → Core) : (s.updCore c g).ops = s.ops := rfl
@[simp] theorem updCore_tiles (s : State) (c : Nat) (g : Core → Core) : (s.updCore c g).tiles = s.tiles := rfl
@[simp] theorem updCore_hyps (s : State) (c : Nat) (g : Core → Core) : (s.updCore c g).hyps = s.hyps := rfl
@[simp] theorem updCore_vdevs (s : State) (c : Nat) (g : Core → Core) : (s.updCore c g).vdevs = s.vdevs := rfl
@[simp] theorem updCore_buckets (s : State) (c : Nat) (g : Core → Core) : (s.updCore c g).buckets = s.buckets := rfl
@[simp] theorem updCore_pools (s : State) (c : Nat) (g : Core → Core) : (s.updCore c g).pools = s.pools := rfl
@[simp] theorem updCore_launches (s : State) (c : Nat) (g : Core → Core) : (s.updCore c g).launches = s.launches := rfl
@[simp] theorem updCore_manifests (s : State) (c : Nat) (g : Core → Core) : (s.updCore c g).manifests = s.manifests := rfl
@[simp] theorem updCore_ephems (s : State) (c : Nat) (g : Core → Core) : (s.updCore c g).ephems = s.ephems := rfl
@[simp] theorem updCore_endpoint (s : State) (c : Nat) (g : Core → Core) : (s.updCore c g).endpoint = s.endpoint := rfl
@[simp] theorem updCore_henip (s : State) (c : Nat) (g : Core → Core) : (s.updCore c g).henip = s.henip := rfl
@[simp] theorem updCore_agenda (s : State) (c : Nat) (g : Core → Core) : (s.updCore c g).agenda = s.agenda := rfl
@[simp] theorem updCore_later (s : State) (c : Nat) (g : Core → Core) : (s.updCore c g).later = s.later := rfl
@[simp] theorem updCore_issue (s : State) (c : Nat) (g : Core → Core) : (s.updCore c g).issue = s.issue := rfl
@[simp] theorem updCore_draws (s : State) (c : Nat) (g : Core → Core) : (s.updCore c g).draws = s.draws := rfl
@[simp] theorem updCore_nextUid (s : State) (c : Nat) (g : Core → Core) : (s.updCore c g).nextUid = s.nextUid := rfl

@[simp] theorem updDie_cyc (s : State) (d : Nat) (g : Die → Die) : (s.updDie d g).cyc = s.cyc := rfl
@[simp] theorem updDie_ptpNs (s : State) (d : Nat) (g : Die → Die) : (s.updDie d g).ptpNs = s.ptpNs := rfl
@[simp] theorem updDie_ptpSec (s : State) (d : Nat) (g : Die → Die) : (s.updDie d g).ptpSec = s.ptpSec := rfl
@[simp] theorem updDie_ptpAdjust (s : State) (d : Nat) (g : Die → Die) : (s.updDie d g).ptpAdjust = s.ptpAdjust := rfl
@[simp] theorem updDie_mem (s : State) (d : Nat) (g : Die → Die) : (s.updDie d g).mem = s.mem := rfl
@[simp] theorem updDie_damaged (s : State) (d : Nat) (g : Die → Die) : (s.updDie d g).damaged = s.damaged := rfl
@[simp] theorem updDie_lines (s : State) (d : Nat) (g : Die → Die) : (s.updDie d g).lines = s.lines := rfl
@[simp] theorem updDie_vlines (s : State) (d : Nat) (g : Die → Die) : (s.updDie d g).vlines = s.vlines := rfl
@[simp] theorem updDie_est (s : State) (d : Nat) (g : Die → Die) : (s.updDie d g).est = s.est := rfl
@[simp] theorem updDie_outStamp (s : State) (d : Nat) (g : Die → Die) : (s.updDie d g).outStamp = s.outStamp := rfl
@[simp] theorem updDie_verStamp (s : State) (d : Nat) (g : Die → Die) : (s.updDie d g).verStamp = s.verStamp := rfl
@[simp] theorem updDie_codeLog (s : State) (d : Nat) (g : Die → Die) : (s.updDie d g).codeLog = s.codeLog := rfl
@[simp] theorem updDie_cacheUse (s : State) (d : Nat) (g : Die → Die) : (s.updDie d g).cacheUse = s.cacheUse := rfl
@[simp] theorem updDie_poolTurns (s : State) (d : Nat) (g : Die → Die) : (s.updDie d g).poolTurns = s.poolTurns := rfl
@[simp] theorem updDie_memReqs (s : State) (d : Nat) (g : Die → Die) : (s.updDie d g).memReqs = s.memReqs := rfl
@[simp] theorem updDie_memGrants (s : State) (d : Nat) (g : Die → Die) : (s.updDie d g).memGrants = s.memGrants := rfl
@[simp] theorem updDie_resv (s : State) (d : Nat) (g : Die → Die) : (s.updDie d g).resv = s.resv := rfl
@[simp] theorem updDie_cores (s : State) (d : Nat) (g : Die → Die) : (s.updDie d g).cores = s.cores := rfl
@[simp] theorem updDie_sleeping (s : State) (d : Nat) (g : Die → Die) : (s.updDie d g).sleeping = s.sleeping := rfl
@[simp] theorem updDie_teams (s : State) (d : Nat) (g : Die → Die) : (s.updDie d g).teams = s.teams := rfl
@[simp] theorem updDie_clusters (s : State) (d : Nat) (g : Die → Die) : (s.updDie d g).clusters = s.clusters := rfl
@[simp] theorem updDie_ops (s : State) (d : Nat) (g : Die → Die) : (s.updDie d g).ops = s.ops := rfl
@[simp] theorem updDie_tiles (s : State) (d : Nat) (g : Die → Die) : (s.updDie d g).tiles = s.tiles := rfl
@[simp] theorem updDie_hyps (s : State) (d : Nat) (g : Die → Die) : (s.updDie d g).hyps = s.hyps := rfl
@[simp] theorem updDie_vdevs (s : State) (d : Nat) (g : Die → Die) : (s.updDie d g).vdevs = s.vdevs := rfl
@[simp] theorem updDie_buckets (s : State) (d : Nat) (g : Die → Die) : (s.updDie d g).buckets = s.buckets := rfl
@[simp] theorem updDie_pools (s : State) (d : Nat) (g : Die → Die) : (s.updDie d g).pools = s.pools := rfl
@[simp] theorem updDie_launches (s : State) (d : Nat) (g : Die → Die) : (s.updDie d g).launches = s.launches := rfl
@[simp] theorem updDie_manifests (s : State) (d : Nat) (g : Die → Die) : (s.updDie d g).manifests = s.manifests := rfl
@[simp] theorem updDie_ephems (s : State) (d : Nat) (g : Die → Die) : (s.updDie d g).ephems = s.ephems := rfl
@[simp] theorem updDie_endpoint (s : State) (d : Nat) (g : Die → Die) : (s.updDie d g).endpoint = s.endpoint := rfl
@[simp] theorem updDie_henip (s : State) (d : Nat) (g : Die → Die) : (s.updDie d g).henip = s.henip := rfl
@[simp] theorem updDie_agenda (s : State) (d : Nat) (g : Die → Die) : (s.updDie d g).agenda = s.agenda := rfl
@[simp] theorem updDie_later (s : State) (d : Nat) (g : Die → Die) : (s.updDie d g).later = s.later := rfl
@[simp] theorem updDie_issue (s : State) (d : Nat) (g : Die → Die) : (s.updDie d g).issue = s.issue := rfl
@[simp] theorem updDie_draws (s : State) (d : Nat) (g : Die → Die) : (s.updDie d g).draws = s.draws := rfl
@[simp] theorem updDie_nextUid (s : State) (d : Nat) (g : Die → Die) : (s.updDie d g).nextUid = s.nextUid := rfl

@[simp] theorem updVd_cyc (s : State) (d : Nat) (g : VDev → VDev) : (s.updVd d g).cyc = s.cyc := rfl
@[simp] theorem updVd_ptpNs (s : State) (d : Nat) (g : VDev → VDev) : (s.updVd d g).ptpNs = s.ptpNs := rfl
@[simp] theorem updVd_ptpSec (s : State) (d : Nat) (g : VDev → VDev) : (s.updVd d g).ptpSec = s.ptpSec := rfl
@[simp] theorem updVd_ptpAdjust (s : State) (d : Nat) (g : VDev → VDev) : (s.updVd d g).ptpAdjust = s.ptpAdjust := rfl
@[simp] theorem updVd_mem (s : State) (d : Nat) (g : VDev → VDev) : (s.updVd d g).mem = s.mem := rfl
@[simp] theorem updVd_damaged (s : State) (d : Nat) (g : VDev → VDev) : (s.updVd d g).damaged = s.damaged := rfl
@[simp] theorem updVd_lines (s : State) (d : Nat) (g : VDev → VDev) : (s.updVd d g).lines = s.lines := rfl
@[simp] theorem updVd_vlines (s : State) (d : Nat) (g : VDev → VDev) : (s.updVd d g).vlines = s.vlines := rfl
@[simp] theorem updVd_est (s : State) (d : Nat) (g : VDev → VDev) : (s.updVd d g).est = s.est := rfl
@[simp] theorem updVd_outStamp (s : State) (d : Nat) (g : VDev → VDev) : (s.updVd d g).outStamp = s.outStamp := rfl
@[simp] theorem updVd_verStamp (s : State) (d : Nat) (g : VDev → VDev) : (s.updVd d g).verStamp = s.verStamp := rfl
@[simp] theorem updVd_codeLog (s : State) (d : Nat) (g : VDev → VDev) : (s.updVd d g).codeLog = s.codeLog := rfl
@[simp] theorem updVd_cacheUse (s : State) (d : Nat) (g : VDev → VDev) : (s.updVd d g).cacheUse = s.cacheUse := rfl
@[simp] theorem updVd_poolTurns (s : State) (d : Nat) (g : VDev → VDev) : (s.updVd d g).poolTurns = s.poolTurns := rfl
@[simp] theorem updVd_memReqs (s : State) (d : Nat) (g : VDev → VDev) : (s.updVd d g).memReqs = s.memReqs := rfl
@[simp] theorem updVd_memGrants (s : State) (d : Nat) (g : VDev → VDev) : (s.updVd d g).memGrants = s.memGrants := rfl
@[simp] theorem updVd_resv (s : State) (d : Nat) (g : VDev → VDev) : (s.updVd d g).resv = s.resv := rfl
@[simp] theorem updVd_cores (s : State) (d : Nat) (g : VDev → VDev) : (s.updVd d g).cores = s.cores := rfl
@[simp] theorem updVd_dies (s : State) (d : Nat) (g : VDev → VDev) : (s.updVd d g).dies = s.dies := rfl
@[simp] theorem updVd_sleeping (s : State) (d : Nat) (g : VDev → VDev) : (s.updVd d g).sleeping = s.sleeping := rfl
@[simp] theorem updVd_teams (s : State) (d : Nat) (g : VDev → VDev) : (s.updVd d g).teams = s.teams := rfl
@[simp] theorem updVd_clusters (s : State) (d : Nat) (g : VDev → VDev) : (s.updVd d g).clusters = s.clusters := rfl
@[simp] theorem updVd_ops (s : State) (d : Nat) (g : VDev → VDev) : (s.updVd d g).ops = s.ops := rfl
@[simp] theorem updVd_tiles (s : State) (d : Nat) (g : VDev → VDev) : (s.updVd d g).tiles = s.tiles := rfl
@[simp] theorem updVd_hyps (s : State) (d : Nat) (g : VDev → VDev) : (s.updVd d g).hyps = s.hyps := rfl
@[simp] theorem updVd_buckets (s : State) (d : Nat) (g : VDev → VDev) : (s.updVd d g).buckets = s.buckets := rfl
@[simp] theorem updVd_pools (s : State) (d : Nat) (g : VDev → VDev) : (s.updVd d g).pools = s.pools := rfl
@[simp] theorem updVd_launches (s : State) (d : Nat) (g : VDev → VDev) : (s.updVd d g).launches = s.launches := rfl
@[simp] theorem updVd_manifests (s : State) (d : Nat) (g : VDev → VDev) : (s.updVd d g).manifests = s.manifests := rfl
@[simp] theorem updVd_ephems (s : State) (d : Nat) (g : VDev → VDev) : (s.updVd d g).ephems = s.ephems := rfl
@[simp] theorem updVd_endpoint (s : State) (d : Nat) (g : VDev → VDev) : (s.updVd d g).endpoint = s.endpoint := rfl
@[simp] theorem updVd_henip (s : State) (d : Nat) (g : VDev → VDev) : (s.updVd d g).henip = s.henip := rfl
@[simp] theorem updVd_agenda (s : State) (d : Nat) (g : VDev → VDev) : (s.updVd d g).agenda = s.agenda := rfl
@[simp] theorem updVd_later (s : State) (d : Nat) (g : VDev → VDev) : (s.updVd d g).later = s.later := rfl
@[simp] theorem updVd_issue (s : State) (d : Nat) (g : VDev → VDev) : (s.updVd d g).issue = s.issue := rfl
@[simp] theorem updVd_draws (s : State) (d : Nat) (g : VDev → VDev) : (s.updVd d g).draws = s.draws := rfl
@[simp] theorem updVd_nextUid (s : State) (d : Nat) (g : VDev → VDev) : (s.updVd d g).nextUid = s.nextUid := rfl

@[simp] theorem draw_cyc (s : State)  : (s.draw).cyc = s.cyc := rfl
@[simp] theorem draw_ptpNs (s : State)  : (s.draw).ptpNs = s.ptpNs := rfl
@[simp] theorem draw_ptpSec (s : State)  : (s.draw).ptpSec = s.ptpSec := rfl
@[simp] theorem draw_ptpAdjust (s : State)  : (s.draw).ptpAdjust = s.ptpAdjust := rfl
@[simp] theorem draw_mem (s : State)  : (s.draw).mem = s.mem := rfl
@[simp] theorem draw_damaged (s : State)  : (s.draw).damaged = s.damaged := rfl
@[simp] theorem draw_lines (s : State)  : (s.draw).lines = s.lines := rfl
@[simp] theorem draw_vlines (s : State)  : (s.draw).vlines = s.vlines := rfl
@[simp] theorem draw_est (s : State)  : (s.draw).est = s.est := rfl
@[simp] theorem draw_outStamp (s : State)  : (s.draw).outStamp = s.outStamp := rfl
@[simp] theorem draw_verStamp (s : State)  : (s.draw).verStamp = s.verStamp := rfl
@[simp] theorem draw_codeLog (s : State)  : (s.draw).codeLog = s.codeLog := rfl
@[simp] theorem draw_cacheUse (s : State)  : (s.draw).cacheUse = s.cacheUse := rfl
@[simp] theorem draw_poolTurns (s : State)  : (s.draw).poolTurns = s.poolTurns := rfl
@[simp] theorem draw_memReqs (s : State)  : (s.draw).memReqs = s.memReqs := rfl
@[simp] theorem draw_memGrants (s : State)  : (s.draw).memGrants = s.memGrants := rfl
@[simp] theorem draw_resv (s : State)  : (s.draw).resv = s.resv := rfl
@[simp] theorem draw_cores (s : State)  : (s.draw).cores = s.cores := rfl
@[simp] theorem draw_dies (s : State)  : (s.draw).dies = s.dies := rfl
@[simp] theorem draw_sleeping (s : State)  : (s.draw).sleeping = s.sleeping := rfl
@[simp] theorem draw_teams (s : State)  : (s.draw).teams = s.teams := rfl
@[simp] theorem draw_clusters (s : State)  : (s.draw).clusters = s.clusters := rfl
@[simp] theorem draw_ops (s : State)  : (s.draw).ops = s.ops := rfl
@[simp] theorem draw_tiles (s : State)  : (s.draw).tiles = s.tiles := rfl
@[simp] theorem draw_hyps (s : State)  : (s.draw).hyps = s.hyps := rfl
@[simp] theorem draw_vdevs (s : State)  : (s.draw).vdevs = s.vdevs := rfl
@[simp] theorem draw_buckets (s : State)  : (s.draw).buckets = s.buckets := rfl
@[simp] theorem draw_pools (s : State)  : (s.draw).pools = s.pools := rfl
@[simp] theorem draw_launches (s : State)  : (s.draw).launches = s.launches := rfl
@[simp] theorem draw_manifests (s : State)  : (s.draw).manifests = s.manifests := rfl
@[simp] theorem draw_ephems (s : State)  : (s.draw).ephems = s.ephems := rfl
@[simp] theorem draw_endpoint (s : State)  : (s.draw).endpoint = s.endpoint := rfl
@[simp] theorem draw_henip (s : State)  : (s.draw).henip = s.henip := rfl
@[simp] theorem draw_agenda (s : State)  : (s.draw).agenda = s.agenda := rfl
@[simp] theorem draw_later (s : State)  : (s.draw).later = s.later := rfl
@[simp] theorem draw_issue (s : State)  : (s.draw).issue = s.issue := rfl
@[simp] theorem draw_nextUid (s : State)  : (s.draw).nextUid = s.nextUid := rfl

/-! ## A part after an update of it -/

theorem team_updTeam_ne (s : State) {u v : Nat} (f : Team → Team) (h : v ≠ u) : (s.updTeam u f).team v = s.team v := by
  unfold updTeam
  split
  · simp only [team, SMap.get_set, if_neg h]
  · rfl

theorem team_updTeam_self (s : State) (u : Nat) (f : Team → Team) (h : (SMap.find s.teams u).isSome) :
    (s.updTeam u f).team u = f (s.team u) := by
  obtain ⟨t, ht⟩ := Option.isSome_iff_exists.1 h
  simp [updTeam, ht, team, SMap.get]
  simp [SMap.find_set]

theorem updTeam_absent (s : State) (u : Nat) (f : Team → Team) (h : SMap.find s.teams u = none) : s.updTeam u f = s := by
  simp [updTeam, h]

/-- What a change keeps of a team it keeps of every team. -/
theorem team_updTeam_proj {β : Type} (p : Team → β) (s : State) (u v : Nat) (f : Team → Team) (h : ∀ t, p (f t) = p t) :
    p ((s.updTeam u f).team v) = p (s.team v) := by
  by_cases hv : v = u
  · subst hv
    cases ht : SMap.find s.teams v with
    | none => rw [updTeam_absent _ _ _ ht]
    | some t => rw [team_updTeam_self _ _ _ (by simp [ht]), h]
  · rw [team_updTeam_ne _ _ hv]

/-- A team that holds some thread or issues stands in the list. -/
theorem team_present (s : State) (u : Nat) (h : s.team u ≠ Team.none) : (SMap.find s.teams u).isSome := by
  cases ht : SMap.find s.teams u with
  | none => exact absurd (by simp [team, SMap.get, ht]) h
  | some t => rfl

theorem present_of_issues {s : State} {u : Nat} (h : (s.team u).phase.issues = true) : (SMap.find s.teams u).isSome :=
  team_present s u (fun e => by rw [e] at h; simp [Team.none, TeamPhase.issues] at h)

/-- What `updThr` does to the list of threads. -/
def setThread (m : SMap Thread) (i : Nat) (f : Thread → Thread) : SMap Thread :=
  match SMap.find m i with
  | some t => SMap.set m i (f t)
  | none => m

theorem updThr_eq (s : State) (u i : Nat) (f : Thread → Thread) :
    s.updThr u i f = s.updTeam u (fun t => { t with body := { t.body with threads := setThread t.body.threads i f } }) := by
  unfold updThr updBody
  congr 1
  funext t
  simp only [setThread]
  cases SMap.find t.body.threads i <;> rfl

theorem find_setThread (m : SMap Thread) (i j : Nat) (f : Thread → Thread) :
    SMap.find (setThread m i f) j = if j = i then (SMap.find m i).map f else SMap.find m j := by
  unfold setThread
  cases h : SMap.find m i with
  | none => by_cases hj : j = i <;> simp [hj, h]
  | some t => simp [SMap.find_set]

theorem thr_updThr_ne (s : State) {u i v j : Nat} (f : Thread → Thread) (h : ¬(v = u ∧ j = i)) :
    (s.updThr u i f).thr v j = s.thr v j := by
  rw [updThr_eq]
  unfold thr
  by_cases hv : v = u
  · subst hv
    cases ht : SMap.find s.teams v with
    | none => rw [updTeam_absent _ _ _ ht]
    | some t =>
      rw [team_updTeam_self _ _ _ (by simp [ht])]
      simp only [SMap.get, find_setThread, if_neg (show ¬ j = i from fun e => h ⟨rfl, e⟩)]
  · rw [team_updTeam_ne _ _ hv]

/-- A thread that is not exited stands in its team's list. -/
def hasThr (s : State) (u i : Nat) : Prop :=
  (SMap.find s.teams u).isSome ∧ (SMap.find (s.team u).body.threads i).isSome

theorem hasThr_of_live {s : State} {u i : Nat} (h : (s.thr u i).st ≠ .exited) : s.hasThr u i := by
  have h2 : (SMap.find (s.team u).body.threads i).isSome := by
    cases ht : SMap.find (s.team u).body.threads i with
    | none => exact absurd (by simp [thr, SMap.get, ht, Thread.none]) h
    | some t => rfl
  refine ⟨team_present s u (fun e => ?_), h2⟩
  rw [e] at h2
  simp [Team.none, TeamBody.empty] at h2

theorem thr_updThr_self (s : State) (u i : Nat) (f : Thread → Thread) (h : s.hasThr u i) :
    (s.updThr u i f).thr u i = f (s.thr u i) := by
  obtain ⟨t, ht⟩ := Option.isSome_iff_exists.1 h.2
  rw [updThr_eq]
  unfold thr
  rw [team_updTeam_self _ _ _ h.1]
  simp [SMap.get, find_setThread, ht]

theorem updThr_absent (s : State) (u i v j : Nat) (f : Thread → Thread) (h : ¬ s.hasThr u i) :
    (s.updThr u i f).thr v j = s.thr v j := by
  rw [updThr_eq]
  unfold thr
  by_cases hv : v = u
  · subst hv
    cases ht : SMap.find s.teams v with
    | none => rw [updTeam_absent _ _ _ ht]
    | some t =>
      rw [team_updTeam_self _ _ _ (by simp [ht])]
      have : SMap.find (s.team v).body.threads i = none := by
        cases hf : SMap.find (s.team v).body.threads i with
        | none => rfl
        | some x => exact absurd ⟨by simp [ht], by simp [hf]⟩ h
      simp [setThread, this]
  · rw [team_updTeam_ne _ _ hv]

theorem thr_updThr (s : State) (u i v j : Nat) (f : Thread → Thread) (h : s.hasThr u i) :
    (s.updThr u i f).thr v j = if v = u ∧ j = i then f (s.thr u i) else s.thr v j := by
  split
  · rename_i e
    obtain ⟨rfl, rfl⟩ := e
    exact thr_updThr_self s v j f h
  · exact thr_updThr_ne s f ‹_›

/-- What a change keeps of a thread it keeps of every thread. -/
theorem thr_updThr_proj {β : Type} (p : Thread → β) (s : State) (u i v j : Nat) (f : Thread → Thread)
    (h : ∀ t, p (f t) = p t) : p ((s.updThr u i f).thr v j) = p (s.thr v j) := by
  by_cases hp : s.hasThr u i
  · rw [thr_updThr _ _ _ _ _ _ hp]
    split
    · rename_i e
      obtain ⟨rfl, rfl⟩ := e
      exact h _
    · rfl
  · rw [updThr_absent _ _ _ _ _ _ hp]

/-- A change of a team that keeps its list of threads keeps every thread. -/
theorem thr_updTeam (s : State) (u v j : Nat) (f : Team → Team) (h : ∀ t, (f t).body.threads = t.body.threads) :
    (s.updTeam u f).thr v j = s.thr v j := by
  unfold thr
  rw [team_updTeam_proj (fun t => t.body.threads) s u v f h]

theorem thr_updGrp (s : State) (u g v j : Nat) (f : Group → Group) : (s.updGrp u g f).thr v j = s.thr v j :=
  thr_updTeam s u v j _ (fun _ => rfl)

theorem grp_updTeam (s : State) (u v g : Nat) (f : Team → Team) (h : ∀ t, (f t).body.groups = t.body.groups) :
    (s.updTeam u f).grp v g = s.grp v g := by
  unfold grp
  rw [team_updTeam_proj (fun t => t.body.groups) s u v f h]

theorem grp_updThr (s : State) (u i v g : Nat) (f : Thread → Thread) : (s.updThr u i f).grp v g = s.grp v g := by
  rw [updThr_eq]
  exact grp_updTeam s u v g _ (fun _ => rfl)

theorem grp_updGrp_ne (s : State) {u g v k : Nat} (f : Group → Group) (h : ¬(v = u ∧ k = g)) :
    (s.updGrp u g f).grp v k = s.grp v k := by
  unfold updGrp updBody grp
  by_cases hv : v = u
  · subst hv
    cases ht : SMap.find s.teams v with
    | none => rw [updTeam_absent _ _ _ ht]
    | some t =>
      rw [team_updTeam_self _ _ _ (by simp [ht])]
      exact SMap.get_set_ne _ _ _ (fun e => h ⟨rfl, e⟩)
  · rw [team_updTeam_ne _ _ hv]

theorem grp_updGrp_self (s : State) (u g : Nat) (f : Group → Group) (h : (SMap.find s.teams u).isSome) :
    (s.updGrp u g f).grp u g = f (s.grp u g) := by
  unfold updGrp updBody grp
  rw [team_updTeam_self _ _ _ h]
  simp

/-- What a change keeps of a group it keeps of every group. -/
theorem grp_updGrp_proj {β : Type} (p : Group → β) (s : State) (u g v k : Nat) (f : Group → Group)
    (h : ∀ x, p (f x) = p x) : p ((s.updGrp u g f).grp v k) = p (s.grp v k) := by
  by_cases e : v = u ∧ k = g
  · obtain ⟨rfl, rfl⟩ := e
    cases ht : SMap.find s.teams v with
    | none => simp only [updGrp, updBody]; rw [updTeam_absent _ _ _ ht]
    | some t => rw [grp_updGrp_self _ _ _ _ (by simp [ht]), h]
  · rw [grp_updGrp_ne _ _ e]

theorem team_updLau (s : State) (l v : Nat) (f : Launch → Launch) : (s.updLau l f).team v = s.team v := by
  simp [team]

theorem team_updVd (s : State) (d v : Nat) (f : VDev → VDev) : (s.updVd d f).team v = s.team v := rfl

theorem vd_updVd (s : State) (d e : Nat) (f : VDev → VDev) : (s.updVd d f).vd e = if e = d then f (s.vd d) else s.vd e := by
  simp only [vd, updVd, SMap.get_set]

theorem cor_updCore (s : State) (c k : Nat) (f : Core → Core) : (s.updCore c f).cor k = if k = c then f (s.cor c) else s.cor k := by
  simp only [updCore]
  unfold cor
  rw [SMap.get_set]

theorem die_updDie (s : State) (d e : Nat) (f : Die → Die) : (s.updDie d f).die e = if e = d then f (s.die d) else s.die e := by
  simp only [die, updDie, SMap.get_set]

end State

end Sys2Proof.Machine
end

