-- ==== Sys2Proof/Laws/Course.lean ====
section
/-! SUPPORT. The course of a lane-set instruction in one thread: what its register writes change, where the thread goes on, and
that the end of a quiet bundle only counts. -/

namespace Sys2Proof.Machine

open Sys2Proof.Safety

/-! ## The live threads -/

theorem SMap.mem_set {α : Type} (m : SMap α) (k : Nat) (v : α) (e : Nat × α) (h : e ∈ SMap.set m k v) :
    e = (k, v) ∨ e ∈ m := by
  induction m with
  | nil => simpa [SMap.set] using h
  | cons x r ih =>
    simp only [SMap.set] at h
    grind

theorem SMap.mem_set_self {α : Type} (m : SMap α) (k : Nat) (v : α) : (k, v) ∈ SMap.set m k v :=
  SMap.find_mem (SMap.find_set_self m k v)

theorem SMap.mem_of_mem_set {α : Type} (m : SMap α) (k : Nat) (v t : α) (hf : SMap.find m k = some t) (e : Nat × α)
    (h : e ∈ m) : e = (k, t) ∨ e ∈ SMap.set m k v := by
  induction m with
  | nil => cases h
  | cons x r ih =>
    obtain ⟨xk, xv⟩ := x
    simp only [SMap.find] at hf
    simp only [SMap.set]
    grind

theorem mem_live (b : TeamBody) (x : Nat) : x ∈ b.live ↔ ∃ t, (x, t) ∈ b.threads ∧ t.st ≠ .exited := by
  simp only [TeamBody.live, List.mem_map, List.mem_filter, bne_iff_ne, ne_eq]
  constructor
  · rintro ⟨⟨a, t⟩, h, rfl⟩; exact ⟨t, h⟩
  · rintro ⟨t, h⟩; exact ⟨(x, t), h, rfl⟩

theorem mem_live_setThread (m : SMap Thread) (i : Nat) (f : Thread → Thread) (x : Nat)
    (h : ∀ t, SMap.find m i = some t → ((f t).st = .exited ↔ t.st = .exited)) :
    (∃ t, (x, t) ∈ State.setThread m i f ∧ t.st ≠ .exited) ↔ (∃ t, (x, t) ∈ m ∧ t.st ≠ .exited) := by
  unfold State.setThread
  cases hf : SMap.find m i with
  | none => rfl
  | some t =>
    have hs := h t hf
    constructor
    · rintro ⟨y, hy, hne⟩
      rcases SMap.mem_set _ _ _ _ hy with e | e
      · obtain ⟨rfl, rfl⟩ := Prod.mk.inj e
        exact ⟨t, SMap.find_mem hf, fun c => hne (hs.2 c)⟩
      · exact ⟨y, e, hne⟩
    · rintro ⟨y, hy, hne⟩
      rcases SMap.mem_of_mem_set m i (f t) t hf _ hy with e | e
      · obtain ⟨rfl, rfl⟩ := Prod.mk.inj e
        exact ⟨_, SMap.mem_set_self _ _ _, fun c => hne (hs.1 c)⟩
      · exact ⟨y, e, hne⟩

/-- A thread that is not exited is live. -/
theorem live_of_thr {s : State} {u i : Nat} (h : (s.thr u i).st ≠ .exited) : i ∈ (s.team u).body.live := by
  obtain ⟨t, ht⟩ := Option.isSome_iff_exists.1 (State.hasThr_of_live h).2
  have : s.thr u i = t := by simp [State.thr, SMap.get, ht]
  exact (mem_live _ _).2 ⟨t, SMap.find_mem ht, this ▸ h⟩

/-- A thread that waits at a switch point (R198). -/
def atPoint (t : Thread) : Bool :=
  t.st == .waiting && (match t.wait with | some w => State.isSwpt w.kind | none => false)

theorem mem_waiting (s : State) (u x : Nat) :
    x ∈ s.waiting u State.isSwpt ↔ ∃ t, (x, t) ∈ (s.team u).body.threads ∧ atPoint t = true := by
  simp only [State.waiting, List.mem_map, List.mem_filter]
  constructor
  · rintro ⟨⟨a, t⟩, h, rfl⟩; exact ⟨t, h⟩
  · rintro ⟨t, h⟩; exact ⟨(x, t), h, rfl⟩

/-! ## A change confined to threads, groups and the log -/

/-- Only the threads' registers, predicates, flags, outstanding results and place, the groups, the undo log, the engines' queue
and the model's counters differ. -/
structure Small (s t : State) : Prop where
  whole : t = { s with teams := t.teams, ops := t.ops, nextUid := t.nextUid, draws := t.draws }
  team : ∀ v, t.team v = { s.team v with
    body := { (s.team v).body with threads := (t.team v).body.threads, groups := (t.team v).body.groups }
    log := (t.team v).log }
  live : ∀ v x, x ∈ (t.team v).body.live ↔ x ∈ (s.team v).body.live
  thr : ∀ v j, t.thr v j = { s.thr v j with
    pc := (t.thr v j).pc, regs := (t.thr v j).regs, preds := (t.thr v j).preds, fflags := (t.thr v j).fflags,
    rngc := (t.thr v j).rngc, st := (t.thr v j).st, wait := (t.thr v j).wait, fair := (t.thr v j).fair,
    promoted := (t.thr v j).promoted, pend := (t.thr v j).pend }
  here : ∀ v j, s.hasThr v j → t.hasThr v j
  held : ∀ v x, x ∈ t.waiting v State.isSwpt → x ∈ s.waiting v State.isSwpt
  gone : ∀ v j, (t.thr v j).st = .exited ↔ (s.thr v j).st = .exited
  colls : ∀ v g, (t.grp v g).colls = (s.grp v g).colls

namespace Small

/-- The engines' queue and the model's counters are no part of a team. -/
theorem counts (s : State) (o : List EngineOp) (n d : Nat) : Small s { s with ops := o, nextUid := n, draws := d } where
  whole := rfl
  team _ := rfl
  live _ _ := Iff.rfl
  thr _ _ := rfl
  here _ _ := id
  held _ _ := id
  gone _ _ := Iff.rfl
  colls _ _ := rfl

theorem refl (s : State) : Small s s := counts s s.ops s.nextUid s.draws

theorem trans {s t r : State} (a : Small s t) (b : Small t r) : Small s r := by
  refine ⟨?_, fun v => ?_, fun v x => (b.live v x).trans (a.live v x), fun v j => ?_, fun v j h => b.here v j (a.here v j h),
    fun v x h => a.held v x (b.held v x h), fun v j => (b.gone v j).trans (a.gone v j), fun v g => (b.colls v g).trans (a.colls v g)⟩
  · rw [b.whole, a.whole]
  · rw [b.team v, a.team v]
  · rw [b.thr v j, a.thr v j]

/-- A change of a thread that touches only the fields of `Small` and neither ends nor revives it. -/
theorem updThr (s : State) (u i : Nat) (f : Thread → Thread)
    (h : ∀ t, f t = { t with
      pc := (f t).pc, regs := (f t).regs, preds := (f t).preds, fflags := (f t).fflags,
      rngc := (f t).rngc, st := (f t).st, wait := (f t).wait, fair := (f t).fair, promoted := (f t).promoted, pend := (f t).pend })
    (hs : ∀ t, t = s.thr u i → ((f t).st = .exited ↔ t.st = .exited)) (hw : ∀ t, atPoint (f t) = true → atPoint t = true) :
    Small s (s.updThr u i f) := by
  refine ⟨by simp [State.updThr, State.updBody]; rw [State.updTeam_eq], fun v => ?_, fun v x => ?_, fun v j => ?_,
    fun v j hj => ?_, fun v x hx => ?_, fun v j => ?_, fun v g => by rw [State.grp_updThr]⟩
  · rw [State.updThr_eq]
    by_cases hv : v = u
    · subst hv
      cases ht : SMap.find s.teams v with
      | none => rw [State.updTeam_absent _ _ _ ht]
      | some t => rw [State.team_updTeam_self _ _ _ (by simp [ht])]
    · rw [State.team_updTeam_ne _ _ hv]
  · rw [State.updThr_eq, mem_live, mem_live]
    by_cases hv : v = u
    · subst hv
      cases ht : SMap.find s.teams v with
      | none => rw [State.updTeam_absent _ _ _ ht]
      | some t =>
        rw [State.team_updTeam_self _ _ _ (by simp [ht])]
        exact mem_live_setThread _ _ _ _ (fun t hf => hs t (by simp [State.thr, SMap.get, hf]))
    · rw [State.team_updTeam_ne _ _ hv]
  · by_cases hp : s.hasThr u i
    · rw [State.thr_updThr _ _ _ _ _ _ hp]
      split
      · rename_i e; obtain ⟨rfl, rfl⟩ := e; exact h _
      · rfl
    · rw [State.updThr_absent _ _ _ _ _ _ hp]
  · rw [State.updThr_eq]
    unfold State.hasThr at *
    by_cases hv : v = u
    · subst hv
      rw [State.team_updTeam_self _ _ _ hj.1]
      obtain ⟨t, ht⟩ := Option.isSome_iff_exists.1 hj.1
      simp only [State.updTeam, ht, SMap.find_set, if_true, Option.isSome_some, true_and, State.find_setThread]
      split
      · rename_i e; subst e; simpa using hj.2
      · exact hj.2
    · rw [State.team_updTeam_ne _ _ hv]
      refine ⟨?_, hj.2⟩
      unfold State.updTeam
      split
      · simp only [SMap.find_set, if_neg hv]; exact hj.1
      · exact hj.1
  · rw [State.updThr_eq, mem_waiting] at hx
    rw [mem_waiting]
    by_cases hv : v = u
    · subst hv
      cases ht : SMap.find s.teams v with
      | none => rwa [State.updTeam_absent _ _ _ ht] at hx
      | some t =>
        rw [State.team_updTeam_self _ _ _ (by simp [ht])] at hx
        obtain ⟨y, hy, ha⟩ := hx
        simp only [State.setThread] at hy
        split at hy
        · rename_i z hz
          rcases SMap.mem_set _ _ _ _ hy with e | e
          · obtain ⟨rfl, rfl⟩ := Prod.mk.inj e
            exact ⟨z, SMap.find_mem hz, hw z ha⟩
          · exact ⟨y, e, ha⟩
        · exact ⟨y, hy, ha⟩
    · rwa [State.team_updTeam_ne _ _ hv] at hx
  · by_cases hp : s.hasThr u i
    · rw [State.thr_updThr _ _ _ _ _ _ hp]
      split
      · rename_i e; obtain ⟨rfl, rfl⟩ := e; exact hs _ rfl
      · exact Iff.rfl
    · rw [State.updThr_absent _ _ _ _ _ _ hp]

/-- A change of a team that touches only its groups, but for their collectives, and its log. -/
theorem updTeam (s : State) (u : Nat) (f : Team → Team)
    (h : ∀ t, f t = { t with body := { t.body with groups := (f t).body.groups }, log := (f t).log })
    (hg : ∀ v g, ((s.updTeam u f).grp v g).colls = (s.grp v g).colls) : Small s (s.updTeam u f) := by
  have hth : ∀ t, (f t).body.threads = t.body.threads := fun t => by rw [h t]
  refine ⟨by rw [State.updTeam_eq], fun v => ?_, fun v x => ?_, fun v j => ?_, fun v j hj => ?_, fun v x hx => ?_,
    fun v j => by rw [State.thr_updTeam _ _ _ _ _ hth], hg⟩
  · by_cases hv : v = u
    · subst hv
      cases ht : SMap.find s.teams v with
      | none => rw [State.updTeam_absent _ _ _ ht]
      | some t =>
        rw [State.team_updTeam_self _ _ _ (by simp [ht]), hth]
        exact h _
    · rw [State.team_updTeam_ne _ _ hv]
  · simp only [TeamBody.live]
    rw [State.team_updTeam_proj (fun t => t.body.threads) s u v f hth]
  · rw [State.thr_updTeam _ _ _ _ _ hth]
  · unfold State.hasThr at *
    rw [State.team_updTeam_proj (fun t => t.body.threads) s u v f hth]
    refine ⟨?_, hj.2⟩
    unfold State.updTeam
    split
    · simp only [SMap.find_set]; split <;> simp [hj.1]
    · exact hj.1
  · rw [mem_waiting] at *
    rwa [State.team_updTeam_proj (fun t => t.body.threads) s u v f hth] at hx

theorem updGrp (s : State) (u g : Nat) (f : Group → Group) (h : ∀ x, (f x).colls = x.colls) : Small s (s.updGrp u g f) :=
  updTeam s u _ (fun _ => rfl) (fun v k => State.grp_updGrp_proj (fun x => x.colls) s u g v k f h)

theorem ops (s : State) (o : List EngineOp) : Small s { s with ops := o } := counts s o s.nextUid s.draws

theorem uid (s : State) (n : Nat) : Small s { s with nextUid := n } := counts s s.ops n s.draws

theorem draw (s : State) : Small s s.draw := counts s s.ops s.nextUid (s.draws + 1)

theorem spoil (s : State) (u tid r : Nat) : Small s (s.spoil u tid r) := by
  unfold State.spoil
  split
  · exact ops s _
  · exact refl s

theorem logAdd (s : State) (u : Nat) (it : LogItem) : Small s (s.updTeam u (fun t => t.logAdd it)) :=
  updTeam s u _ (fun t => by unfold Team.logAdd; split <;> rfl)
    (fun v g => by rw [State.grp_updTeam s u v g (fun t => t.logAdd it) (fun t => by unfold Team.logAdd; split <;> rfl)])

theorem writeLane (s : State) (u tid r : Nat) (v : Word) : Small s (s.writeLane u tid r v) := by
  unfold State.writeLane
  have a := ((spoil s u tid r).trans (logAdd _ u (.regRow (groupOf tid) r))).trans
    (updThr _ u tid (fun t => t.setReg r v) (by intro _; rfl) (by intro _ _; exact Iff.rfl) (by intro _ h; exact h))
  dsimp only
  split
  · exact a.trans (updGrp _ _ _ _ (by intro _; rfl))
  · exact a

theorem writeLanes (u tid : Nat) (ws : List Word) : ∀ (s : State) (r : Nat), Small s (s.writeLanes u tid r ws) := by
  induction ws with
  | nil => intro s r; exact refl s
  | cons w ws ih => intro s r; exact (writeLane s u tid r w).trans (ih _ _)

theorem writeDest (s : State) (u tid : Nat) (d : BitVec 7) (t : Ty) (v : Nat) : Small s (s.writeDest u tid d t v) :=
  writeLanes u tid _ s _

theorem writePred (s : State) (u tid q : Nat) (b : Bool) : Small s (s.writePred u tid q b) :=
  updThr s u tid _ (by intro _; rfl) (by intro _ _; exact Iff.rfl) (by intro _ h; exact h)

theorem setFlags (s : State) (u tid : Nat) (f : Flags) : Small s (s.setFlags u tid f) := by
  unfold State.setFlags
  split
  · exact refl s
  · exact updThr s u tid _ (by intro _; rfl) (by intro _ _; exact Iff.rfl) (by intro _ h; exact h)

theorem addPend (s : State) (u tid : Nat) (tag : PendTag) (rs : List (Nat × Word)) (ps : List (Nat × Bool)) :
    Small s (s.addPend u tid tag rs ps) := by
  unfold State.addPend State.newUid
  dsimp only
  have a := (uid s (s.nextUid + 1)).trans
    (updThr _ u tid (fun t => t.addPend ⟨s.nextUid, tag, rs, ps⟩) (by intro _; rfl) (by intro _ _; exact Iff.rfl) (by intro _ h; exact h))
  split
  · exact a.trans (updGrp _ _ _ _ (by intro _; rfl))
  · exact a

theorem lateDest (s : State) (u tid : Nat) (d : BitVec 7) (ty : Ty) (v : Nat) : Small s (lateDest s u tid d ty v) :=
  addPend _ _ _ _ _ _

theorem cover (s : State) (u tid : Nat) : Small s (s.cover u tid) := by
  unfold State.cover
  split
  · exact refl s
  · exact updThr s u tid (fun t => { t with pend := t.pend.filter (fun p => p.tag != .uld) }) (by intro _; rfl)
      (by intro _ _; exact Iff.rfl) (by intro _ h; exact h)

theorem updUPend (s : State) (u g : Nat) (f : UPend → UPend) : Small s (s.updUPend u g f) := by
  unfold State.updUPend
  split
  · exact refl s
  · exact updGrp _ _ _ _ (by intro _; rfl)

theorem kRelease (s : State) (u tid : Nat) : Small s (s.kRelease u tid) := (cover s u tid).trans (updUPend _ _ _ _)

theorem waitAt (s : State) (u tid : Nat) (k : WaitKind) (at_ pc : Addr) (b : Bool) (h : (s.thr u tid).st ≠ .exited)
    (hk : State.isSwpt k = false) :
    Small s (s.waitAt u tid k at_ pc b) :=
  updThr s u tid _ (by intro _; rfl) (fun t ht => by subst ht; simp [h])
    (fun _ e => by simp [atPoint, hk] at e)

theorem goOn (s : State) (u tid : Nat) (pc : Addr) (k : Bool) (h : (s.thr u tid).st ≠ .exited) : Small s (s.goOn u tid pc k) := by
  unfold State.goOn
  have a := updThr s u tid (fun t => { t with pc := pc, fair := 0, promoted := false }) (by intro _; rfl) (by intro _ _; exact Iff.rfl) (by intro _ h; exact h)
  dsimp only
  split
  · exact a
  · split
    · exact a.trans (kRelease _ _ _)
    · refine a.trans (waitAt _ _ _ _ _ _ _ ?_ rfl)
      refine fun e => h ?_
      rw [← e]
      exact (State.thr_updThr_proj (fun t => t.st) s u tid u tid _ (by intro _; rfl)).symm

end Small

/-! ## What an operation of one thread does -/

/-- An operation of a thread that writes nothing but what `w` names, adds at most `k` bytes to the log of its team, and leaves the
thread where it stands. -/
structure Acts (s t : State) (u tid : Nat) (w : Touch) (k : Nat) : Prop where
  small : Small s t
  lanes : ∀ r, r ∉ w.lanes → reg t u tid r = reg s u tid r
  preds : ∀ q, q ∉ w.preds → pred t u tid q = pred s u tid q
  flags : w.flags = false → (t.thr u tid).fflags = (s.thr u tid).fflags
  counter : w.rng = false → (t.thr u tid).rngc = (s.thr u tid).rngc
  others : ∀ v j, ¬(v = u ∧ j = tid) → t.thr v j = s.thr v j
  unis : ∀ v g r, ¬(v = u ∧ g = groupOf tid ∧ r ∈ w.unis) → ureg t v g r = ureg s v g r
  pc : (t.thr u tid).pc = (s.thr u tid).pc
  st : (t.thr u tid).st = (s.thr u tid).st
  log : logBytes (t.team u) ≤ logBytes (s.team u) + k

namespace Acts

/-- What leaves the teams alone acts on nothing. -/
theorem still {s t : State} (u tid : Nat) (w : Touch) (h : Small s t) (e : t.teams = s.teams) : Acts s t u tid w 0 := by
  have ht : ∀ v, t.team v = s.team v := fun v => by simp only [State.team, e]
  have hj : ∀ v j, t.thr v j = s.thr v j := fun v j => by simp only [State.thr, ht]
  exact { small := h, lanes := fun r _ => by simp only [reg, hj], preds := fun q _ => by simp only [pred, hj],
          flags := fun _ => by rw [hj], counter := fun _ => by rw [hj], others := fun v j _ => hj v j,
          unis := fun v g r _ => by simp only [ureg, State.grp, ht], pc := by rw [hj], st := by rw [hj], log := by rw [ht]; omega }

theorem refl (s : State) (u tid : Nat) (w : Touch) : Acts s s u tid w 0 := still u tid w (Small.refl s) rfl

theorem trans {s t r : State} {u tid : Nat} {w : Touch} {k l : Nat} (a : Acts s t u tid w k) (b : Acts t r u tid w l) :
    Acts s r u tid w (k + l) :=
  ⟨a.small.trans b.small, fun x h => (b.lanes x h).trans (a.lanes x h), fun x h => (b.preds x h).trans (a.preds x h),
    fun h => (b.flags h).trans (a.flags h), fun h => (b.counter h).trans (a.counter h),
    fun v j h => (b.others v j h).trans (a.others v j h), fun v g x h => (b.unis v g x h).trans (a.unis v g x h),
    b.pc.trans a.pc, b.st.trans a.st, by have := a.log; have := b.log; omega⟩

theorem mono {s t : State} {u tid : Nat} {w : Touch} {k l : Nat} (a : Acts s t u tid w k) (h : k ≤ l) : Acts s t u tid w l :=
  { a with log := by have := a.log; omega }

/-- A change of the thread's own registers, predicates, flags, counter and outstanding results. -/
theorem updThr (s : State) (u tid : Nat) (w : Touch) (f : Thread → Thread)
    (h : ∀ t, f t = { t with
      regs := (f t).regs, preds := (f t).preds, fflags := (f t).fflags, rngc := (f t).rngc, pend := (f t).pend })
    (hl : ∀ t r, r ∉ w.lanes → SMap.get (f t).regs r 0 = SMap.get t.regs r 0)
    (hp : ∀ t q, q ∉ w.preds → (f t).preds.getLsbD q = t.preds.getLsbD q)
    (hf : ∀ t, w.flags = false → (f t).fflags = t.fflags) (hc : ∀ t, w.rng = false → (f t).rngc = t.rngc) :
    Acts s (s.updThr u tid f) u tid w 0 := by
  have same {β : Type} (p : Thread → β) (k : ∀ t, p (f t) = p t) : p ((s.updThr u tid f).thr u tid) = p (s.thr u tid) :=
    State.thr_updThr_proj p s u tid u tid f k
  exact
    { small := Small.updThr s u tid f (fun t => by rw [h t]) (fun t _ => by rw [h t]) (fun t e => by rw [h t] at e; exact e)
      lanes := fun r hr => same (fun t => SMap.get t.regs r 0) (fun t => hl t r hr)
      preds := fun q hq => same (fun t => t.preds.getLsbD q) (fun t => hp t q hq)
      flags := fun hw => same (fun t => t.fflags) (fun t => hf t hw)
      counter := fun hw => same (fun t => t.rngc) (fun t => hc t hw)
      others := fun v j hv => State.thr_updThr_ne s f hv
      unis := fun v g r _ => by simp only [ureg, State.grp_updThr]
      pc := same (fun t => t.pc) (fun t => by rw [h t])
      st := same (fun t => t.st) (fun t => by rw [h t])
      log := by rw [State.updThr_eq, State.team_updTeam_proj logBytes s u u _ (by intro _; rfl)]; omega }

/-- A change of a team's log and groups that leaves every thread as it was. -/
theorem ofThreads {s t : State} {u tid k : Nat} {w : Touch} (small : Small s t) (ht : ∀ v j, t.thr v j = s.thr v j)
    (unis : ∀ v g r, ¬(v = u ∧ g = groupOf tid ∧ r ∈ w.unis) → ureg t v g r = ureg s v g r)
    (log : logBytes (t.team u) ≤ logBytes (s.team u) + k) : Acts s t u tid w k :=
  { small, unis, log, lanes := fun r _ => by simp [reg, ht], preds := fun q _ => by simp [pred, ht], flags := fun _ => by rw [ht],
    counter := fun _ => by rw [ht], others := fun v j _ => ht v j, pc := by rw [ht], st := by rw [ht] }

/-- A change of a group adds nothing to a log. -/
theorem log_updGrp (s : State) (u g : Nat) (f : Group → Group) : logBytes ((s.updGrp u g f).team u) ≤ logBytes (s.team u) + 0 := by
  unfold State.updGrp State.updBody
  rw [State.team_updTeam_proj logBytes s u u _ (by intro _; rfl)]
  omega

/-- A change of a group that keeps its registers. -/
theorem updGrp (s : State) (u tid g : Nat) (w : Touch) (f : Group → Group) (h : ∀ x, (f x).uregs = x.uregs)
    (hc : ∀ x, (f x).colls = x.colls) : Acts s (s.updGrp u g f) u tid w 0 :=
  ofThreads (Small.updGrp s u g f hc) (fun v j => State.thr_updGrp s u g v j f)
    (fun v k r _ => State.grp_updGrp_proj (fun x => SMap.get x.uregs r 0) s u g v k f (fun x => by rw [h x])) (log_updGrp s u g f)

/-- A change of the group's own uniform register. -/
theorem updReg (s : State) (u tid r : Nat) (w : Touch) (f : Group → Group) (hr : r ∈ w.unis)
    (h : ∀ x q, q ≠ r → SMap.get (f x).uregs q 0 = SMap.get x.uregs q 0) (hc : ∀ x, (f x).colls = x.colls) :
    Acts s (s.updGrp u (groupOf tid) f) u tid w 0 := by
  refine ofThreads (Small.updGrp s u _ f hc) (fun v j => State.thr_updGrp s u (groupOf tid) v j f) (fun v k q hq => ?_)
    (log_updGrp s u _ f)
  by_cases e : v = u ∧ k = groupOf tid
  · obtain ⟨rfl, rfl⟩ := e
    exact State.grp_updGrp_proj (fun x => SMap.get x.uregs q 0) s v _ v _ f (fun x => h x q (fun e => hq ⟨rfl, rfl, e ▸ hr⟩))
  · simp only [ureg, State.grp_updGrp_ne s f e]

theorem ops (s : State) (u tid : Nat) (w : Touch) (o : List EngineOp) : Acts s { s with ops := o } u tid w 0 :=
  still u tid w (Small.ops s o) rfl

theorem uid (s : State) (u tid : Nat) (w : Touch) (n : Nat) : Acts s { s with nextUid := n } u tid w 0 :=
  still u tid w (Small.uid s n) rfl

theorem draw (s : State) (u tid : Nat) (w : Touch) : Acts s s.draw u tid w 0 := still u tid w (Small.draw s) rfl

theorem spoil (s : State) (u tid r : Nat) (w : Touch) : Acts s (s.spoil u tid r) u tid w 0 := by
  unfold State.spoil
  split
  · exact ops s u tid w _
  · exact refl s u tid w

theorem logBytes_logAdd (t : Team) (it : LogItem) : logBytes (t.logAdd it) ≤ logBytes t + LogItem.bytes it := by
  unfold Team.logAdd
  split
  · omega
  · simp [logBytes]; omega

/-- An item recorded in the undo log. -/
theorem logAdd (s : State) (u tid : Nat) (w : Touch) (it : LogItem) :
    Acts s (s.updTeam u (fun t => t.logAdd it)) u tid w (LogItem.bytes it) := by
  have hb : ∀ t : Team, (t.logAdd it).body = t.body := fun t => by unfold Team.logAdd; split <;> rfl
  refine ofThreads (Small.logAdd s u it) (fun v j => State.thr_updTeam s u v j (fun t => t.logAdd it) (fun t => by rw [hb t]))
    (fun v g r _ => ?_) ?_
  · simp only [ureg, State.grp_updTeam s u v g (fun t => t.logAdd it) (fun t => by rw [hb t])]
  · cases h : SMap.find s.teams u with
    | none => rw [State.updTeam_absent _ _ _ h]; omega
    | some t => rw [State.team_updTeam_self _ _ _ (by simp [h])]; exact logBytes_logAdd _ _

theorem setReg (s : State) (u tid r : Nat) (w : Touch) (v : Word) (h : r ∈ w.lanes) :
    Acts s (s.updThr u tid (fun t => t.setReg r v)) u tid w 0 :=
  updThr s u tid w _ (by intro _; rfl)
    (by intro t q hq; simp [Thread.setReg, SMap.get_put, show ¬ q = r from fun e => hq (e ▸ h)])
    (by intro _ _ _; rfl) (by intro _ _; rfl) (by intro _ _; rfl)

/-- Writing a lane register. -/
theorem writeLane (s : State) (u tid r : Nat) (w : Touch) (v : Word) (h : r ∈ w.lanes) :
    Acts s (s.writeLane u tid r v) u tid w 128 := by
  unfold State.writeLane
  have a := ((spoil s u tid r w).trans (logAdd _ u tid w (.regRow (groupOf tid) r))).trans (setReg _ u tid r w v h)
  dsimp only
  split
  · exact a.trans (updGrp _ _ _ _ _ _ (by intro _; rfl) (by intro _; rfl))
  · exact a

/-- Writing consecutive lane registers. -/
theorem writeLanes (u tid : Nat) (w : Touch) (ws : List Word) : ∀ (s : State) (r : Nat),
    (∀ j, j < ws.length → r + j ∈ w.lanes) → Acts s (s.writeLanes u tid r ws) u tid w (128 * ws.length) := by
  induction ws with
  | nil => intro s r _; exact refl s u tid w
  | cons x ws ih =>
    intro s r h
    have a := writeLane s u tid r w x (h 0 (by simp))
    have b := ih (s.writeLane u tid r x) (r + 1) (fun j hj => by
      have := h (j + 1) (by simpa using hj)
      rwa [show r + (j + 1) = r + 1 + j by omega] at this)
    exact (a.trans b).mono (by simp only [List.length_cons]; omega)

theorem wordsOf_length (n v : Nat) : (wordsOf n v).length = n := by
  induction n generalizing v with
  | zero => rfl
  | succ n ih => simp [wordsOf, ih]

/-- Writing a destination (R47). -/
theorem writeDest (s : State) (u tid : Nat) (w : Touch) (d : BitVec 7) (t : Ty) (v : Nat)
    (h : ∀ j, j < t.words → d.toNat + j ∈ w.lanes) : Acts s (s.writeDest u tid d t v) u tid w (128 * t.words) := by
  have := writeLanes u tid w (wordsOf t.words v) s d.toNat (by simpa [wordsOf_length] using h)
  simpa [State.writeDest, wordsOf_length] using this

/-- Writing a predicate. -/
theorem writePred (s : State) (u tid q : Nat) (w : Touch) (b : Bool) (h : q ∈ w.preds) :
    Acts s (s.writePred u tid q b) u tid w 0 := by
  refine updThr s u tid w _ (by intro _; rfl) (by intro _ _ _; rfl) ?_ (by intro _ _; rfl) (by intro _ _; rfl)
  intro t p hp
  have hne : p ≠ q := fun e => hp (e ▸ h)
  simp only [Thread.setPred, setPredBit]
  by_cases hw : p < 12
  · split <;> simp [hne, hw]
  · rw [BitVec.getLsbD_of_ge _ _ (by omega), BitVec.getLsbD_of_ge _ _ (by omega)]

/-- Raising flags. -/
theorem setFlags (s : State) (u tid : Nat) (w : Touch) (f : Flags) (h : w.flags = true) :
    Acts s (s.setFlags u tid f) u tid w 0 := by
  unfold State.setFlags
  split
  · exact refl s u tid w
  · exact updThr s u tid w _ (by intro _; rfl) (by intro _ _ _; rfl) (by intro _ _ _; rfl)
      (by intro _ hw; simp [h] at hw) (by intro _ _; rfl)

/-- Adding an outstanding result (R157). -/
theorem addPend (s : State) (u tid : Nat) (w : Touch) (tag : PendTag) (rs : List (Nat × Word)) (ps : List (Nat × Bool)) :
    Acts s (s.addPend u tid tag rs ps) u tid w 0 := by
  unfold State.addPend State.newUid
  dsimp only
  have a := (uid s u tid w (s.nextUid + 1)).trans
    (updThr _ u tid w (fun t => t.addPend ⟨s.nextUid, tag, rs, ps⟩) (by intro _; rfl) (by intro _ _ _; rfl)
      (by intro _ _ _; rfl) (by intro _ _; rfl) (by intro _ _; rfl))
  split
  · exact a.trans (updGrp _ _ _ _ _ _ (by intro _; rfl) (by intro _; rfl))
  · exact a

end Acts

/-! ## What a register reads as once written -/

theorem thr_spoil (s : State) (u tid r v j : Nat) : (s.spoil u tid r).thr v j = s.thr v j := by
  unfold State.spoil
  split <;> rfl

theorem reg_writeLane_self (s : State) (u tid r : Nat) (v : Word) (h : s.hasThr u tid) :
    reg (s.writeLane u tid r v) u tid r = v := by
  have h1 := (Small.spoil s u tid r).here u tid h
  have h2 := (Small.logAdd _ u (.regRow (groupOf tid) r)).here u tid h1
  unfold State.writeLane
  dsimp only
  split
  · simp only [reg, State.thr_updGrp]
    rw [State.thr_updThr_self _ _ _ _ h2]
    simp [Thread.setReg]
  · simp only [reg]
    rw [State.thr_updThr_self _ _ _ _ h2]
    simp [Thread.setReg]

theorem holds_writeLanes (u tid : Nat) (ws : List Word) : ∀ (s : State) (r : Nat), s.hasThr u tid →
    Holds (s.writeLanes u tid r ws) u tid r ws := by
  induction ws with
  | nil => intros; trivial
  | cons x ws ih =>
    intro s r h
    refine ⟨?_, ih _ _ ((Small.writeLane s u tid r x).here u tid h)⟩
    have a := Acts.writeLanes u tid { lanes := (List.range ws.length).map (fun j => r + 1 + j) } ws (s.writeLane u tid r x)
      (r + 1) (fun j hj => List.mem_map.2 ⟨j, List.mem_range.2 hj, rfl⟩)
    rw [State.writeLanes, a.lanes r (by simp; omega), reg_writeLane_self _ _ _ _ _ h]

theorem holds_writeDest (s : State) (u tid : Nat) (d : BitVec 7) (t : Ty) (v : Nat) (h : s.hasThr u tid) :
    Holds (s.writeDest u tid d t v) u tid d.toNat (wordsOf t.words v) := holds_writeLanes u tid _ s _ h

theorem pred_writePred_self (s : State) (u tid : Nat) (q : Fin 12) (b : Bool) (h : s.hasThr u tid) :
    pred (s.writePred u tid q.val b) u tid q.val = b := by
  simp only [pred, State.writePred, State.thr_updThr_self _ _ _ _ h, Thread.setPred, setPredBit]
  cases b <;> simp

theorem owes_addPend (s : State) (u tid : Nat) (tag : PendTag) (rs : List (Nat × Word)) (ps : List (Nat × Bool))
    (h : s.hasThr u tid) : Owes (s.addPend u tid tag rs ps) u tid tag rs ps := by
  have h1 : ({ s with nextUid := s.nextUid + 1 } : State).hasThr u tid := h
  have key : ∃ p ∈ (({ s with nextUid := s.nextUid + 1 } : State).updThr u tid
      (fun t => t.addPend ⟨s.nextUid, tag, rs, ps⟩)).thr u tid |>.pend, p.tag = tag ∧ p.regs = rs ∧ p.preds = ps := by
    rw [State.thr_updThr_self _ _ _ _ h1]
    exact ⟨⟨s.nextUid, tag, rs, ps⟩, by simp [Thread.addPend], rfl, rfl, rfl⟩
  unfold State.addPend State.newUid Owes
  dsimp only
  split
  · simpa only [State.thr_updGrp] using key
  · exact key

/-- Two states that agree on a thread's registers hold the same values there. -/
theorem Holds.congr {s t : State} {u tid : Nat} (h : (t.thr u tid).regs = (s.thr u tid).regs) :
    ∀ {ws : List Word} {r : Nat}, Holds s u tid r ws → Holds t u tid r ws := by
  intro ws
  induction ws with
  | nil => intros; trivial
  | cons x ws ih => intro r hs; exact ⟨by simpa only [reg, h] using hs.1, ih hs.2⟩

/-! ## Going on -/

theorem thr_updUPend (s : State) (u g v j : Nat) (f : UPend → UPend) : (s.updUPend u g f).thr v j = s.thr v j := by
  unfold State.updUPend
  split
  · rfl
  · exact State.thr_updGrp _ _ _ _ _ _

theorem ureg_updThr (s : State) (u i v g r : Nat) (f : Thread → Thread) : ureg (s.updThr u i f) v g r = ureg s v g r := by
  simp only [ureg, State.grp_updThr]

theorem ureg_updUPend (s : State) (u k v g r : Nat) (f : UPend → UPend) : ureg (s.updUPend u k f) v g r = ureg s v g r := by
  unfold State.updUPend
  split
  · rfl
  · exact State.grp_updGrp_proj (fun x => SMap.get x.uregs r 0) _ _ _ _ _ _ (by intro _; rfl)

theorem logBytes_updThr (s : State) (u i v : Nat) (f : Thread → Thread) :
    logBytes ((s.updThr u i f).team v) = logBytes (s.team v) := by
  rw [State.updThr_eq]
  exact State.team_updTeam_proj logBytes s u v _ (by intro _; rfl)

theorem logBytes_updUPend (s : State) (u k v : Nat) (f : UPend → UPend) :
    logBytes ((s.updUPend u k f).team v) = logBytes (s.team v) := by
  unfold State.updUPend
  split
  · rfl
  · exact State.team_updTeam_proj logBytes _ _ _ _ (by intro _; rfl)

/-- Where a thread goes on, its registers, predicates and flags are those it had (R157). -/
theorem goOn_thr (s : State) (u tid : Nat) (pc : Addr) (k : Bool) (h : s.hasThr u tid) :
    ((s.goOn u tid pc k).thr u tid).pc = pc ∧
    ((s.goOn u tid pc k).thr u tid).regs = (s.thr u tid).regs ∧
    ((s.goOn u tid pc k).thr u tid).preds = (s.thr u tid).preds ∧
    ((s.goOn u tid pc k).thr u tid).fflags = (s.thr u tid).fflags ∧
    ((s.goOn u tid pc k).thr u tid).rngc = (s.thr u tid).rngc ∧
    (∀ p ∈ (s.thr u tid).pend, p.tag ≠ .uld → p ∈ ((s.goOn u tid pc k).thr u tid).pend) := by
  have h1 := (Small.updThr s u tid (fun t => { t with pc := pc, fair := 0, promoted := false }) (by intro _; rfl)
    (by intro _ _; exact Iff.rfl) (by intro _ h; exact h)).here u tid h
  unfold State.goOn
  dsimp only
  split
  · rw [State.thr_updThr_self _ _ _ _ h]
    exact ⟨rfl, rfl, rfl, rfl, rfl, fun p hp _ => hp⟩
  · split
    · unfold State.kRelease
      rw [thr_updUPend]
      unfold State.cover
      split
      · rw [State.thr_updThr_self _ _ _ _ h]
        exact ⟨rfl, rfl, rfl, rfl, rfl, fun p hp _ => hp⟩
      · rw [State.thr_updThr_self _ _ _ _ h1, State.thr_updThr_self _ _ _ _ h]
        exact ⟨rfl, rfl, rfl, rfl, rfl, fun p hp ht => by simp [hp, ht]⟩
    · unfold State.waitAt
      rw [State.thr_updThr_self _ _ _ _ h1, State.thr_updThr_self _ _ _ _ h]
      exact ⟨rfl, rfl, rfl, rfl, rfl, fun p hp _ => hp⟩

theorem goOn_others (s : State) (u tid : Nat) (pc : Addr) (k : Bool) (v j : Nat) (h : ¬(v = u ∧ j = tid)) :
    (s.goOn u tid pc k).thr v j = s.thr v j := by
  unfold State.goOn
  dsimp only
  split
  · exact State.thr_updThr_ne s _ h
  · split
    · unfold State.kRelease
      rw [thr_updUPend]
      unfold State.cover
      split
      · exact State.thr_updThr_ne s _ h
      · rw [State.thr_updThr_ne _ _ h, State.thr_updThr_ne _ _ h]
    · unfold State.waitAt
      rw [State.thr_updThr_ne _ _ h, State.thr_updThr_ne _ _ h]

theorem goOn_unis (s : State) (u tid : Nat) (pc : Addr) (k : Bool) (v g r : Nat) :
    ureg (s.goOn u tid pc k) v g r = ureg s v g r := by
  unfold State.goOn
  dsimp only
  split
  · exact ureg_updThr _ _ _ _ _ _ _
  · split
    · unfold State.kRelease
      rw [ureg_updUPend]
      unfold State.cover
      split
      · exact ureg_updThr _ _ _ _ _ _ _
      · exact (ureg_updThr _ _ _ _ _ _ _).trans (ureg_updThr _ _ _ _ _ _ _)
    · exact (ureg_updThr _ _ _ _ _ _ _).trans (ureg_updThr _ _ _ _ _ _ _)

theorem goOn_log (s : State) (u tid : Nat) (pc : Addr) (k : Bool) (v : Nat) :
    logBytes ((s.goOn u tid pc k).team v) = logBytes (s.team v) := by
  unfold State.goOn
  dsimp only
  split
  · exact logBytes_updThr _ _ _ _ _
  · split
    · unfold State.kRelease
      rw [logBytes_updUPend]
      unfold State.cover
      split
      · exact logBytes_updThr _ _ _ _ _
      · exact (logBytes_updThr _ _ _ _ _).trans (logBytes_updThr _ _ _ _ _)
    · exact (logBytes_updThr _ _ _ _ _).trans (logBytes_updThr _ _ _ _ _)

/-- A thread that goes on is in the state it was in, or waits for its results at a K marker (R157). -/
theorem goOn_st (s : State) (u tid : Nat) (pc : Addr) (k : Bool) (h : s.hasThr u tid) :
    ((s.goOn u tid pc k).thr u tid).st = (s.thr u tid).st ∨ ((s.goOn u tid pc k).thr u tid).st = .waiting := by
  have h1 := (Small.updThr s u tid (fun t => { t with pc := pc, fair := 0, promoted := false }) (by intro _; rfl)
    (by intro _ _; exact Iff.rfl) (by intro _ h; exact h)).here u tid h
  unfold State.goOn
  dsimp only
  split
  · left; rw [State.thr_updThr_self _ _ _ _ h]
  · split
    · left
      unfold State.kRelease
      rw [thr_updUPend]
      unfold State.cover
      split
      · rw [State.thr_updThr_self _ _ _ _ h]
      · rw [State.thr_updThr_self _ _ _ _ h1, State.thr_updThr_self _ _ _ _ h]
    · right
      unfold State.waitAt
      rw [State.thr_updThr_self _ _ _ _ h1]

/-- A thread that goes on waits at no access (R259). -/
theorem goOn_notHome (s : State) (u tid : Nat) (pc : Addr) (k : Bool) (h : s.hasThr u tid)
    (hr : (s.thr u tid).st = .ready ∨ (s.thr u tid).st = .inHandler) : ((s.goOn u tid pc k).thr u tid).atHome = false := by
  have hn : ((s.thr u tid).st == ThState.waiting) = false := by rcases hr with e | e <;> rw [e] <;> rfl
  have h1 := (Small.updThr s u tid (fun t => { t with pc := pc, fair := 0, promoted := false }) (by intro _; rfl)
    (by intro _ _; exact Iff.rfl) (by intro _ h; exact h)).here u tid h
  unfold State.goOn Thread.atHome
  dsimp only
  split
  · rw [State.thr_updThr_self _ _ _ _ h]; simp only [hn, Bool.false_and]
  · split
    · unfold State.kRelease
      rw [thr_updUPend]
      unfold State.cover
      split
      · rw [State.thr_updThr_self _ _ _ _ h]; simp only [hn, Bool.false_and]
      · rw [State.thr_updThr_self _ _ _ _ h1, State.thr_updThr_self _ _ _ _ h]; simp only [hn, Bool.false_and]
    · unfold State.waitAt
      rw [State.thr_updThr_self _ _ _ _ h1]
      rfl

/-! ## The end of a bundle -/

theorem foldl_fixed {α β : Type} (f : β → α → β) (b : β) (l : List α) (h : ∀ a, f b a = b) : l.foldl f b = b := by
  induction l with
  | nil => rfl
  | cons a l ih => rw [List.foldl_cons, h, ih]

theorem team_count (s : State) (d e n v : Nat) : (s.count d e n).team v = s.team v := by
  unfold State.count
  split <;> rfl

/-- Retiring changes a team's two counts of instructions and nothing else of any team (R70, R255, R367). -/
theorem retire_team {β : Type} (p : Team → β) (s : State) (u n v : Nat) (b : Bool)
    (h : ∀ t w q, p { t with work := w, body := { t.body with quantumWork := q } } = p t) :
    p ((s.retire u n b).team v) = p (s.team v) := by
  unfold State.retire
  split
  · rfl
  · dsimp only
    rw [team_count, State.team_updLau]
    exact State.team_updTeam_proj p s u v _ (fun t => h t _ _)

theorem retire_thr (s : State) (u n v j : Nat) (b : Bool) : (s.retire u n b).thr v j = s.thr v j := by
  unfold State.thr
  exact congrArg (fun m => SMap.get m j Thread.none) (retire_team (fun t => t.body.threads) s u n v b (fun _ _ _ => rfl))

theorem retire_grp (s : State) (u n v g : Nat) (b : Bool) : (s.retire u n b).grp v g = s.grp v g := by
  unfold State.grp
  exact congrArg (fun m => SMap.get m g Group.start) (retire_team (fun t => t.body.groups) s u n v b (fun _ _ _ => rfl))

theorem retire_whole (s : State) (u n : Nat) (b : Bool) : s.retire u n b =
    { s with teams := (s.retire u n b).teams, launches := (s.retire u n b).launches, vdevs := (s.retire u n b).vdevs } := by
  unfold State.retire
  split
  · rfl
  · dsimp only
    unfold State.count
    split
    · rw [State.updLau_eq, State.updTeam_eq]
    · simp only [State.updVd]
      rw [State.updLau_eq, State.updTeam_eq]

theorem retire_work (s : State) (u n : Nat) (h : (SMap.find s.teams u).isSome) :
    ((s.retire u n true).team u).work = (s.team u).work + n := by
  unfold State.retire
  split
  · rename_i e; simp [e]
  · dsimp only
    rw [team_count, State.team_updLau, State.team_updTeam_self _ _ _ h]
    rfl

theorem retire_sbase (s : State) (u n d : Nat) (b : Bool) : ((s.retire u n b).vd d).sbase = (s.vd d).sbase := by
  unfold State.retire
  split
  · rfl
  · dsimp only
    unfold State.count
    split
    · simp [State.vd]
    · rw [State.vd_updVd]
      split <;> simp_all [State.vd]

theorem lau_updLau_det (s : State) (l m : Nat) (f : Launch → Launch) (h : ∀ x, (f x).det = x.det) :
    ((s.updLau l f).lau m).det = (s.lau m).det := by
  unfold State.updLau
  cases hl : SMap.find s.launches l with
  | none => rfl
  | some x =>
    simp only [State.lau, SMap.get_set]
    split
    · rename_i e; subst e; simp [SMap.get, hl, h]
    · rfl

theorem retire_det (s : State) (u n l : Nat) (b : Bool) : ((s.retire u n b).lau l).det = (s.lau l).det := by
  unfold State.retire
  split
  · rfl
  · dsimp only
    have hc : ∀ (s : State) d e k, ((s.count d e k).lau l).det = (s.lau l).det := fun s d e k => by
      unfold State.count; split <;> rfl
    rw [hc, lau_updLau_det]
    · simp [State.lau]
    · intro _; rfl

theorem completeBar_fixed (s : State) (u b n : Nat) (h : State.Bar.full (s.bar u b) (s.team u).body.live = false) :
    s.completeBar u b n = s := by
  cases n with
  | zero => rfl
  | succ n => simp [State.completeBar, h]

theorem completeCbar_fixed (s : State) (c b n : Nat) (h : State.Bar.full (s.cbarOf c b) (s.cluLive c) = false) :
    s.completeCbar c b n = s := by
  cases n with
  | zero => rfl
  | succ n => simp [State.completeCbar, h]

theorem checkBars_fixed (s : State) (u : Nat) (h : ∀ b, State.Bar.full (s.bar u b) (s.team u).body.live = false) :
    s.checkBars u = s := foldl_fixed _ _ _ (fun e => completeBar_fixed s u e.1 _ (h e.1))

theorem checkCbars_fixed (s : State) (u : Nat) (h : (s.lau (s.team u).launch).det = true ∨
    ∀ b, State.Bar.full (s.cbarOf (s.team u).cluster b) (s.cluLive (s.team u).cluster) = false) : s.checkCbars u false = s := by
  unfold State.checkCbars
  dsimp only
  split
  · rfl
  · rcases h with h | h
    · simp_all
    · exact foldl_fixed _ _ _ (fun e => completeCbar_fixed s _ e.1 _ (h e.1))

theorem checkColls_fixed (s : State) (u g n : Nat)
    (h : ∀ c ∈ (s.grp u g).colls, ∀ a ∈ CInstance.waits c, s.collReady u g c a = false) : s.checkColls u g n = s := by
  cases n with
  | zero => rfl
  | succ n =>
    have : (s.grp u g).colls.find? (fun c => (CInstance.waits c).any (fun a => s.collReady u g c a)) = none := by
      rw [List.find?_eq_none]
      intro c hc
      simpa using h c hc
    simp only [State.checkColls, this]

theorem checkAllColls_fixed (s : State) (u : Nat)
    (h : ∀ g, ∀ c ∈ (s.grp u g).colls, ∀ a ∈ CInstance.waits c, s.collReady u g c a = false) : s.checkAllColls u = s := by
  refine foldl_fixed _ _ _ (fun e => ?_)
  split
  · rfl
  · exact checkColls_fixed s u e.1 _ (h e.1)

/-- A switch whose live threads do not all stand at its point has not begun (R199). -/
theorem switchBegun_fixed (s : State) (u tid : Nat) (hl : tid ∈ (s.team u).body.live) (hw : tid ∉ s.waiting u State.isSwpt) :
    s.switchBegun u = false := by
  obtain ⟨t, ht, hne⟩ := (mem_live _ _).1 hl
  have hp : atPoint t = false := by
    cases e : atPoint t with
    | false => rfl
    | true => exact absurd ((mem_waiting s u tid).2 ⟨t, ht, e⟩) hw
  have : (s.team u).body.threads.all (fun e => e.2.st == .exited ||
      (e.2.st == .waiting && e.2.wait.any (fun w => State.isSwpt w.kind))) = false := by
    rw [List.all_eq_false]
    refine ⟨_, ht, ?_⟩
    simp only [atPoint] at hp
    cases hwt : t.wait <;> simp_all
  simp [State.switchBegun, this]

/-- Where no close and no barrier is due and a live thread stands at no switch point, what a bundle's end may lead to is
nothing. -/
theorem settle_fixed (s : State) (u tid : Nat) (hp : (s.team u).phase.issues = true) (hc : (s.team u).closing = false)
    (hi : ∀ g, ∀ c ∈ (s.grp u g).colls, ∀ a ∈ CInstance.waits c, s.collReady u g c a = false)
    (hb : ∀ b, State.Bar.full (s.bar u b) (s.team u).body.live = false)
    (hk : (s.lau (s.team u).launch).det = true ∨
      ∀ b, State.Bar.full (s.cbarOf (s.team u).cluster b) (s.cluLive (s.team u).cluster) = false)
    (hl : tid ∈ (s.team u).body.live) (hw : tid ∉ s.waiting u State.isSwpt) : s.settle u = s := by
  unfold State.settle
  rw [checkAllColls_fixed s u hi, checkBars_fixed s u hb]
  simp only
  rw [checkCbars_fixed s u hk]
  have hs : ((s.team u).phase == TeamPhase.saving) = false := by
    cases hq : (s.team u).phase <;> rw [hq] at hp <;> simp_all [TeamPhase.issues]
  have hn : (s.team u).body.live.isEmpty = false := by
    cases hx : (s.team u).body.live with
    | nil => rw [hx] at hl; cases hl
    | cons => rfl
  have hd : s.completable u = false := by simp [State.completable, hn]
  simp only [hc, hs, hd, switchBegun_fixed s u tid hl hw, Bool.false_and, Bool.false_eq_true, if_false]

/-- A bundle ends by counting alone (R57, R70). -/
theorem endBundle_quiet (s : State) (u n tid : Nat) (hp : (s.team u).phase.issues = true)
    (hn : (s.team u).work + n < (s.team u).body.csr.ckint) (hlog : logBytes (s.team u) ≤ Config.undoLogBytes)
    (hst : (s.team u).stop = none) (hc : (s.team u).closing = false)
    (hi : ∀ g, ∀ c ∈ (s.grp u g).colls, ∀ a ∈ CInstance.waits c, s.collReady u g c a = false) (hb : ∀ b, State.Bar.full (s.bar u b) (s.team u).body.live = false)
    (hk : (s.lau (s.team u).launch).det = true ∨
      ∀ b, State.Bar.full (s.cbarOf (s.team u).cluster b) (s.cluLive (s.team u).cluster) = false)
    (hl : tid ∈ (s.team u).body.live) (hw : tid ∉ s.waiting u State.isSwpt) : s.endBundle u n true = s.retire u n true := by
  have hne : ((s.team u).phase == TeamPhase.ended) = false := by
    cases hq : (s.team u).phase <;> rw [hq] at hp <;> simp_all [TeamPhase.issues]
  have hpres := State.present_of_issues hp
  unfold State.endBundle
  rw [hne]
  simp only [Bool.false_eq_true, if_false]
  generalize hr : s.retire u n true = r
  have e {β : Type} (p : Team → β) (h : ∀ t w q, p { t with work := w, body := { t.body with quantumWork := q } } = p t)
      (v : Nat) : p (r.team v) = p (s.team v) := hr ▸ retire_team p s u n v true h
  have e1 : (r.team u).phase = (s.team u).phase := e (fun t => t.phase) (fun _ _ _ => rfl) u
  have e2 : (r.team u).work = (s.team u).work + n := hr ▸ retire_work s u n hpres
  have e3 : (r.team u).body.csr = (s.team u).body.csr := e (fun t => t.body.csr) (fun _ _ _ => rfl) u
  have e4 : logBytes (r.team u) = logBytes (s.team u) := e logBytes (fun _ _ _ => rfl) u
  have e5 : ∀ v, (r.team v).body.live = (s.team v).body.live := e (fun t => t.body.live) (fun _ _ _ => rfl)
  have e6 : (r.team u).body.bars = (s.team u).body.bars := e (fun t => t.body.bars) (fun _ _ _ => rfl) u
  have e7 : (r.team u).cluster = (s.team u).cluster := e (fun t => t.cluster) (fun _ _ _ => rfl) u
  have e8 : (r.team u).launch = (s.team u).launch := e (fun t => t.launch) (fun _ _ _ => rfl) u
  have e0 : (r.team u).stop = (s.team u).stop := e (fun t => t.stop) (fun _ _ _ => rfl) u
  have e9 : (r.team u).closing = (s.team u).closing := e (fun t => t.closing) (fun _ _ _ => rfl) u
  have e10 : ∀ v, (r.team v).phase = (s.team v).phase := e (fun t => t.phase) (fun _ _ _ => rfl)
  have e11 : (r.team u).body.threads = (s.team u).body.threads := e (fun t => t.body.threads) (fun _ _ _ => rfl) u
  have e12 : r.clusters = s.clusters := by rw [← hr, retire_whole]
  have e13 : ∀ l, (r.lau l).det = (s.lau l).det := hr ▸ fun l => retire_det s u n l true
  have hclose : r.closeIfDue u = r := by
    unfold State.closeIfDue
    simp only [e0, hst, e1, hp, e2, e3, e4, Option.isSome_none, Bool.false_and, Bool.false_eq_true, if_false, Bool.true_and]
    rw [decide_eq_false (by omega), decide_eq_false (by omega)]
    rfl
  rw [hclose]
  refine settle_fixed r u tid (e1 ▸ hp) (e9 ▸ hc) (fun g => ?_) (fun b => ?_) ?_ (e5 u ▸ hl) ?_
  · rw [← hr]
    simpa only [retire_grp, State.collReady, retire_thr] using hi g
  · simpa only [State.bar, e6, e5] using hb b
  · rw [e13, e8]
    refine hk.imp id (fun hk b => ?_)
    simpa only [State.cbarOf, State.clu, e12, e7, State.cluLive, e10, e5] using hk b
  · simpa only [State.waiting, e11] using hw

/-! ## An instruction of one thread -/

/-- What a thread's instruction does where it executes (R57 step 6). -/
theorem issueOne_runs {s : State} {u tid : Nat} {i : Instr} (off : State → Nat → Nat → State)
    (op : State → Nat → Nat → Act × State) (h : Runs s u tid i) :
    s.issueOne u tid i off op = (((op s u tid).2.follow u tid i (s.thr u tid).pc (op s u tid).1).1,
      if s.earlyGuard u tid (headOf i) || s.earlyRead u tid (regUse i)
      then ((op s u tid).2.follow u tid i (s.thr u tid).pc (op s u tid).1).2.draw
      else ((op s u tid).2.follow u tid i (s.thr u tid).pc (op s u tid).1).2) := by
  have hc : (s.thr u tid).st.candidate = true := by rcases h.ready with e | e <;> rw [e] <;> rfl
  have ho : ((s.thr u tid).st == ThState.orphaned) = false := by rcases h.ready with e | e <;> rw [e] <;> rfl
  have ht : s.entryTrap u tid i = none := by
    unfold State.entryTrap
    simp only [h.form, h.range, Bool.false_eq_true, if_false]
    have hl := h.level
    cases hs : needsSupervisor i with
    | false => simp
    | true => simp [hl hs]
  have hz : ∀ b c : Bool, (b = true → s.earlyGuard u tid (headOf i) = true ∨ s.earlyRead u tid (regUse i) = true ∨
      s.captureConflict u tid i (regUse i) = true) → (b && s.hazardOn u) = false := by
    intro b _ hb
    rcases h.calm with e | ⟨e1, e2, e3⟩
    · simp [e]
    · cases b with
      | false => rfl
      | true => rcases hb rfl with x | x | x <;> simp_all
  unfold State.issueOne State.issueOneUse
  simp only [hc, h.team, ho, ht, h.guard, Bool.not_true, Bool.or_self, Bool.false_eq_true, if_false]
  rw [hz _ true (fun e => Or.inl e)]
  simp only [Bool.false_eq_true, if_false]
  rw [hz _ true (fun e => by simpa only [Bool.or_eq_true, or_assoc] using e)]
  simp only [Bool.false_eq_true, if_false]

/-- The bundle of one thread that executes a lane-set instruction (R150). -/
theorem perThread_runs {s : State} {u tid : Nat} {i : Instr} (op : State → Nat → Nat → Act × State) (h : Runs s u tid i) :
    perThread i op s = s.bundleDone (((op s u tid).2.follow u tid i (s.thr u tid).pc (op s u tid).1).1,
      (if s.earlyGuard u tid (headOf i) || s.earlyRead u tid (regUse i)
      then ((op s u tid).2.follow u tid i (s.thr u tid).pc (op s u tid).1).2.draw
      else ((op s u tid).2.follow u tid i (s.thr u tid).pc (op s u tid).1).2)) true := by
  unfold perThread perThreadOff
  simp only [h.inHand, List.isEmpty_cons, Bool.false_eq_true, if_false, State.issueAll, issueOne_runs passOn op h, Nat.add_zero]

/-- A thread's instruction has ended with the state its operation left: its registers, predicates, flags, random counter and
outstanding results, and every uniform register. -/
structure Ended (s1 t : State) (u tid : Nat) : Prop where
  regs : (t.thr u tid).regs = (s1.thr u tid).regs
  preds : (t.thr u tid).preds = (s1.thr u tid).preds
  flags : (t.thr u tid).fflags = (s1.thr u tid).fflags
  counter : (t.thr u tid).rngc = (s1.thr u tid).rngc
  pend : ∀ p ∈ (s1.thr u tid).pend, p.tag ≠ .uld → p ∈ (t.thr u tid).pend
  unis : ∀ v g r, ureg t v g r = ureg s1 v g r

theorem Small.issues {s t : State} (h : Small s t) (u : Nat) (hp : (s.team u).phase.issues = true) :
    (t.team u).phase.issues = true := by rw [h.team u]; exact hp

theorem full_congr (b : Bar) {l m : List Nat} (h : ∀ x, x ∈ l ↔ x ∈ m) : State.Bar.full b l = State.Bar.full b m := by
  unfold State.Bar.full
  congr 1
  rw [Bool.eq_iff_iff]
  simp only [List.all_eq_true]
  exact ⟨fun k x hx => k x ((h x).2 hx), fun k x hx => k x ((h x).1 hx)⟩

theorem Small.cluLive {s t : State} (h : Small s t) (c x : Nat) : x ∈ t.cluLive c ↔ x ∈ s.cluLive c := by
  have hc : t.clusters = s.clusters := by rw [h.whole]
  have hp : ∀ v, (t.team v).phase = (s.team v).phase := fun v => by rw [h.team v]
  simp only [State.cluLive, State.clu, hc, List.mem_flatMap]
  refine exists_congr fun v => and_congr_right fun _ => ?_
  rw [hp]
  split
  · exact Iff.rfl
  · simp only [List.mem_map, h.live]

/-- The end of the bundle in a state that differs from a quiet one only in what an instruction writes. -/
theorem endBundle_small {s t : State} {u tid n k : Nat} (hq : Quiet s u n) (hp : (s.team u).phase.issues = true)
    (hs : Small s t) (hlog : logBytes (t.team u) ≤ logBytes (s.team u) + k) (hk : k ≤ 8192)
    (hl : (t.thr u tid).st ≠ .exited) (hw : tid ∉ t.waiting u State.isSwpt) (hi : s.issue = ⟨u, [tid]⟩)
    (hh : (t.thr u tid).atHome = false) : s.bundleDone (n, t) true = t.retire u n true := by
  have hd : ∀ l, (t.lau l) = (s.lau l) := fun l => by rw [hs.whole]; rfl
  have hfit : logBytes (t.team u) ≤ Config.undoLogBytes := by have := hq.log; omega
  have hb1 : s.heldBundle t = false := by simp [State.heldBundle, hi, hh]
  have hb2 : s.logFull t = false := by
    simp only [State.logFull, hi]
    rw [decide_eq_false (by omega), Bool.and_false]
  simp only [State.bundleDone, hb1, hb2, hi, Bool.false_eq_true, if_false]
  refine endBundle_quiet t u n tid (hs.issues u hp) ?_ hfit ?_ ?_ (fun g => ?_) (fun b => ?_) ?_ (live_of_thr hl) hw
  · rw [hs.team u]; exact hq.count
  · rw [hs.team u]; exact hq.stop
  · rw [hs.team u]; exact hq.closing
  · rw [hs.colls]
    intro c hc a ha
    rw [← hq.colls g c hc a ha]
    simp only [State.collReady]
    refine congrArg _ (funext fun j => ?_)
    congr 1
    rw [Bool.eq_iff_iff]
    simpa using hs.gone u (32 * g + j)
  · have hb : t.bar u b = s.bar u b := by unfold State.bar; rw [hs.team u]
    rw [hb, full_congr _ (hs.live u)]
    exact hq.bars b
  · rw [hd, hs.team u]
    refine hq.cbars.imp id (fun h b => ?_)
    have hcb : t.cbarOf (s.team u).cluster b = s.cbarOf (s.team u).cluster b := by
      unfold State.cbarOf State.clu; rw [hs.whole]
    have := h b
    simp only at *
    rw [hcb, full_congr _ (hs.cluLive _)]
    exact this

/-- The end of the bundle leaves every thread as it was and every uniform register, counts one instruction, and keeps what the
instruction kept. -/
theorem ends {s t0 : State} {u tid k : Nat} {i : Instr} {w : Touch} (d : Bool) (hc : Clear s u tid i) (hsm : Small s t0)
    (hlog : logBytes (t0.team u) ≤ logBytes (s.team u) + k) (hk : k ≤ 8192) (hne : (t0.thr u tid).st ≠ .exited)
    (hw : tid ∉ t0.waiting u State.isSwpt)
    (lanes : ∀ r, r ∉ w.lanes → reg t0 u tid r = reg s u tid r) (preds : ∀ q, q ∉ w.preds → pred t0 u tid q = pred s u tid q)
    (flags : w.flags = false → (t0.thr u tid).fflags = (s.thr u tid).fflags)
    (counter : w.rng = false → (t0.thr u tid).rngc = (s.thr u tid).rngc)
    (others : ∀ v j, ¬(v = u ∧ j = tid) → t0.thr v j = s.thr v j)
    (unis : ∀ v g r, ¬(v = u ∧ g = groupOf tid ∧ r ∈ w.unis) → ureg t0 v g r = ureg s v g r)
    (home : (t0.thr u tid).atHome = false) :
    Frame s (s.bundleDone (1, if d then t0.draw else t0) true) u tid w ∧
    (∀ v j, (s.bundleDone (1, if d then t0.draw else t0) true).thr v j = t0.thr v j) ∧
    (∀ v g, (s.bundleDone (1, if d then t0.draw else t0) true).grp v g = t0.grp v g) ∧
    ((s.bundleDone (1, if d then t0.draw else t0) true).team u).work = (s.team u).work + 1 := by
  obtain ⟨hr, hq⟩ := hc
  obtain ⟨t1, hd, hsm1, d0, d4⟩ : ∃ t1, t1 = (if d then t0.draw else t0) ∧ Small s t1 ∧ (∀ v, t1.team v = t0.team v) ∧
      t1.vdevs = t0.vdevs := by
    cases d
    · exact ⟨t0, rfl, hsm, fun _ => rfl, rfl⟩
    · exact ⟨t0.draw, rfl, hsm.trans (Small.draw t0), fun _ => rfl, rfl⟩
  rw [← hd]
  have d1 : ∀ v j, t1.thr v j = t0.thr v j := by intro v j; simp only [State.thr, d0]
  have d2 : ∀ v g, t1.grp v g = t0.grp v g := by intro v g; simp only [State.grp, d0]
  rw [endBundle_small (tid := tid) (k := k) hq hr.team hsm1 (by rw [d0]; exact hlog) hk (by rw [d1]; exact hne)
    (by simpa only [State.waiting, d0] using hw) hr.inHand (by rw [d1]; exact home)]
  have et : ∀ v j, (t1.retire u 1 true).thr v j = t0.thr v j := fun v j => by rw [retire_thr, d1]
  have eg : ∀ v g, (t1.retire u 1 true).grp v g = t0.grp v g := fun v g => by rw [retire_grp, d2]
  have em {β : Type} (p : Team → β) (h : ∀ t w q, p { t with work := w, body := { t.body with quantumWork := q } } = p t)
      (v : Nat) : p ((t1.retire u 1 true).team v) = p (t1.team v) := retire_team p t1 u 1 v true h
  have hm : (t1.retire u 1 true).mem = s.mem := by rw [retire_whole, hsm1.whole]
  have ht := hsm.thr u tid
  have same {β : Type} (p : Thread → β) (k : p (t0.thr u tid) = p (s.thr u tid)) :
      p ((t1.retire u 1 true).thr u tid) = p (s.thr u tid) := by rw [et]; exact k
  have body {β : Type} (p : Team → β) (h : ∀ t w q, p { t with work := w, body := { t.body with quantumWork := q } } = p t)
      (k : ∀ v, p (t1.team v) = p (s.team v)) (v : Nat) : p ((t1.retire u 1 true).team v) = p (s.team v) := (em p h v).trans (k v)
  have frame : Frame s (t1.retire u 1 true) u tid w :=
    { lanes := fun r h => by rw [← lanes r h]; simp only [reg, et]
      preds := fun q h => by rw [← preds q h]; simp only [pred, et]
      flags := fun h => same Thread.fflags (flags h)
      counter := fun h => same Thread.rngc (counter h)
      key := fun _ => same Thread.rngk (by rw [ht])
      level := same Thread.level (by rw [ht])
      priv := same Thread.priv (by rw [ht])
      slot1 := fun _ => same Thread.slot1 (by rw [ht])
      slot2 := fun _ => same Thread.slot2 (by rw [ht])
      hyp := fun _ => same Thread.hyp (by rw [ht])
      others := fun v j h => (et v j).trans (others v j h)
      unis := fun v g r h => by rw [← unis v g r h]; simp only [ureg, eg]
      csr := fun v _ => body (fun t => t.body.csr) (by intro _ _ _; rfl) (fun v => by rw [hsm1.team v]) v
      accs := fun v _ => body (fun t => t.body.accs) (by intro _ _ _; rfl) (fun v => by rw [hsm1.team v]) v
      bars := fun v _ => body (fun t => t.body.bars) (by intro _ _ _; rfl) (fun v => by rw [hsm1.team v]) v
      permits := fun v _ => body (fun t => t.body.permits) (by intro _ _ _; rfl) (fun v => by rw [hsm1.team v]) v
      sbase := fun x _ => by rw [retire_sbase, State.vd, hsm1.whole]; rfl
      scratch := fun v off _ => congrArg (Mem.get · off)
        (body (fun t => t.scratch) (by intro _ _ _; rfl) (fun v => by rw [hsm1.team v]) v)
      mem := fun a _ => by simp only [byte, hm] }
  exact ⟨frame, et, eg, by rw [retire_work _ _ _ (State.present_of_issues (hsm1.issues u hr.team)), hsm1.team u]⟩

/-- One thread executes an instruction whose operation only acts on the thread and lets it go on to `pc`: what the next state
holds. -/
theorem goes {s s1 : State} {u tid k : Nat} {i : Instr} {w : Touch} (pc : Addr) (b d : Bool) (hc : Clear s u tid i)
    (ha : Acts s s1 u tid w k) (hk : k ≤ 8192) :
    Frame s (s.bundleDone (1, if d then (s1.goOn u tid pc b).draw else s1.goOn u tid pc b) true) u tid w ∧
    ((s.bundleDone (1, if d then (s1.goOn u tid pc b).draw else s1.goOn u tid pc b) true).thr u tid).pc = pc ∧
    ((s.bundleDone (1, if d then (s1.goOn u tid pc b).draw else s1.goOn u tid pc b) true).team u).work = (s.team u).work + 1 ∧
    Ended s1 (s.bundleDone (1, if d then (s1.goOn u tid pc b).draw else s1.goOn u tid pc b) true) u tid := by
  have hne : (s.thr u tid).st ≠ .exited := by rcases hc.1.ready with e | e <;> rw [e] <;> decide
  have hh1 := ha.small.here u tid (State.hasThr_of_live hne)
  have hne1 : (s1.thr u tid).st ≠ .exited := by rw [ha.st]; exact hne
  obtain ⟨g1, g2, g3, g4, g5, g6⟩ := goOn_thr s1 u tid pc b hh1
  have g8 := goOn_unis s1 u tid pc b
  have hsm : Small s (s1.goOn u tid pc b) := ha.small.trans (Small.goOn s1 u tid pc _ hne1)
  have g10 : ((s1.goOn u tid pc b).thr u tid).st ≠ .exited := by
    rcases goOn_st s1 u tid pc b hh1 with e | e <;> rw [e]
    · exact hne1
    · decide
  obtain ⟨fr, et, eg, wk⟩ := ends (w := w) d hc hsm (by rw [goOn_log]; exact ha.log) hk g10 (fun e => hc.1.notHeld (hsm.held u tid e))
    (fun r h => by rw [← ha.lanes r h]; simp only [reg, g2]) (fun q h => by rw [← ha.preds q h]; simp only [pred, g3])
    (fun h => by rw [g4, ha.flags h]) (fun h => by rw [g5, ha.counter h])
    (fun v j h => by rw [goOn_others _ _ _ _ _ _ _ h, ha.others v j h])
    (fun v g r h => by rw [g8, ha.unis v g r h]) (goOn_notHome s1 u tid pc b hh1 (by rw [ha.st]; exact hc.1.ready))
  have ended {β : Type} (p : Thread → β) (k : p ((s1.goOn u tid pc b).thr u tid) = p (s1.thr u tid)) :
      p ((s.bundleDone (1, if d then (s1.goOn u tid pc b).draw else s1.goOn u tid pc b) true).thr u tid) = p (s1.thr u tid) :=
    (congrArg p (et u tid)).trans k
  refine ⟨fr, by rw [et, g1], wk, ?_⟩
  exact { regs := ended Thread.regs g2, preds := ended Thread.preds g3, flags := ended Thread.fflags g4,
          counter := ended Thread.rngc g5, pend := fun p hp h => by rw [et]; exact g6 p hp h,
          unis := fun v g r => by rw [← g8]; simp only [ureg, eg] }

/-- One thread executes an instruction whose operation only acts on the thread and makes it wait, its instruction retired. -/
theorem stays {s s1 : State} {u tid k : Nat} {i : Instr} {w : Touch} (kind : WaitKind) (d : Bool) (hc : Clear s u tid i)
    (ha : Acts s s1 u tid w k) (hk : k ≤ 8192) (hs : State.isSwpt kind = false) (hm : kind ≠ .home) (hy : s1.cyc = s.cyc) :
    Frame s (s.bundleDone (1, if d then (s1.waitAt u tid kind (s.thr u tid).pc (nextPc i (s.thr u tid).pc) (headOf i).k).draw
      else s1.waitAt u tid kind (s.thr u tid).pc (nextPc i (s.thr u tid).pc) (headOf i).k) true) u tid w ∧
    Waits s (s.bundleDone (1, if d then (s1.waitAt u tid kind (s.thr u tid).pc (nextPc i (s.thr u tid).pc) (headOf i).k).draw
      else s1.waitAt u tid kind (s.thr u tid).pc (nextPc i (s.thr u tid).pc) (headOf i).k) true) u tid i kind := by
  have hne : (s.thr u tid).st ≠ .exited := by rcases hc.1.ready with e | e <;> rw [e] <;> decide
  have hh1 := ha.small.here u tid (State.hasThr_of_live hne)
  have hne1 : (s1.thr u tid).st ≠ .exited := by rw [ha.st]; exact hne
  have hsm := ha.small.trans (Small.waitAt s1 u tid kind (s.thr u tid).pc (nextPc i (s.thr u tid).pc) (headOf i).k hne1 hs)
  have hself := State.thr_updThr_self s1 u tid (fun t => { t with
    st := .waiting, wait := some ⟨kind, (s.thr u tid).pc, (headOf i).k, s1.cyc, (s1.team u).interval⟩, pc := nextPc i (s.thr u tid).pc
    fair := 0, promoted := false }) hh1
  obtain ⟨fr, et, eg, wk⟩ := ends (w := w) d hc hsm (by unfold State.waitAt; rw [logBytes_updThr]; exact ha.log) hk
    (by unfold State.waitAt; rw [hself]; exact (by decide : ThState.waiting ≠ ThState.exited)) (fun e => hc.1.notHeld (hsm.held u tid e))
    (fun r h => by rw [← ha.lanes r h]; unfold State.waitAt; simp only [reg, hself])
    (fun q h => by rw [← ha.preds q h]; unfold State.waitAt; simp only [pred, hself])
    (fun h => by rw [← ha.flags h]; unfold State.waitAt; rw [hself])
    (fun h => by rw [← ha.counter h]; unfold State.waitAt; rw [hself])
    (fun v j h => by unfold State.waitAt; rw [State.thr_updThr_ne _ _ h, ha.others v j h])
    (fun v g r h => by unfold State.waitAt; rw [ureg_updThr, ha.unis v g r h])
    (by unfold State.waitAt; rw [hself]; simp [Thread.atHome, hm])
  refine ⟨fr, ?_, ?_, ?_, wk⟩ <;> rw [et] <;> unfold State.waitAt <;> rw [hself]
  rw [hy, ha.small.team u]

/-- A lane-set instruction that never waits, traps or jumps: what its next state holds (R57, R150). -/
theorem plain_goes {s : State} {u tid k : Nat} {i : Instr} {w : Touch} {op : State → Nat → Nat → State}
    (hc : Clear s u tid i) (ha : Acts s (op s u tid) u tid w k) (hk : k ≤ 8192) :
    Frame s (perThread i (plain op) s) u tid w ∧ WentOn s (perThread i (plain op) s) u tid i ∧
      Ended (op s u tid) (perThread i (plain op) s) u tid := by
  rw [perThread_runs (plain op) hc.1]
  simp only [plain, State.follow]
  obtain ⟨a, b, c, e⟩ := goes (nextPc i (s.thr u tid).pc) (headOf i).k
    (s.earlyGuard u tid (headOf i) || s.earlyRead u tid (regUse i)) hc ha hk
  exact ⟨a, ⟨b, c⟩, e⟩

/-- A thread that executes stands in its team. -/
theorem clear_here {s : State} {u tid : Nat} {i : Instr} (h : Clear s u tid i) : s.hasThr u tid :=
  State.hasThr_of_live (by rcases h.1.ready with e | e <;> rw [e] <;> decide)

end Sys2Proof.Machine
end

