-- ==== Sys2Proof/Laws/Gives.lean ====
section
/-! SUPPORT. What an instruction of one thread leads to, by the answer of its operation: for each form of completion one lemma
from the operation to the completion. -/

namespace Sys2Proof.Machine

open Sys2Proof.Safety

theorem mem_span {d n j : Nat} (h : j < n) : d + j ∈ span d n := List.mem_map.2 ⟨j, List.mem_range.2 h, rfl⟩

theorem not_mem_span {d n r : Nat} (h : r < d ∨ d + n ≤ r) : r ∉ span d n := by
  simp only [span, List.mem_map, List.mem_range, not_exists, not_and]
  omega

/-! ## By the answer of the operation -/

theorem runs_go {s s1 : State} {u tid : Nat} {i : Instr} {op : State → Nat → Nat → Act × State} (h : Runs s u tid i)
    (ho : op s u tid = (.go, s1)) : perThread i op s = onNext s s1 u tid i := by
  rw [perThread_runs op h, ho]
  simp only [State.follow, onNext, onward, drawn]

theorem runs_jump {s s1 : State} {u tid : Nat} {i : Instr} {op : State → Nat → Nat → Act × State} {pc : Addr}
    (h : Runs s u tid i) (ho : op s u tid = (.jump pc, s1)) : perThread i op s = onward s s1 u tid i pc := by
  rw [perThread_runs op h, ho]
  simp only [State.follow, onward, drawn]

theorem runs_trap {s s1 : State} {u tid : Nat} {i : Instr} {op : State → Nat → Nat → Act × State} {x : TrapInfo}
    (h : Runs s u tid i) (ho : op s u tid = (.trap x, s1)) : perThread i op s = trapped s s1 u tid i x := by
  rw [perThread_runs op h, ho]
  simp only [State.follow, trapped, drawn]

theorem runs_wait {s s1 : State} {u tid : Nat} {i : Instr} {op : State → Nat → Nat → Act × State} {k : WaitKind}
    (h : Runs s u tid i) (ho : op s u tid = (.wait k, s1)) : perThread i op s = held s s1 u tid i k := by
  rw [perThread_runs op h, ho]
  simp only [State.follow, held, drawn]

theorem runs_retry {s s1 : State} {u tid : Nat} {i : Instr} {op : State → Nat → Nat → Act × State} {k : WaitKind}
    (h : Runs s u tid i) (ho : op s u tid = (.retry k, s1)) : perThread i op s = putOff s s1 u tid i k := by
  rw [perThread_runs op h, ho]
  simp only [State.follow, putOff, drawn]

/-- What `goes` says, for `onward`. -/
theorem onward_goes {s s1 : State} {u tid k : Nat} {i : Instr} {w : Touch} (pc : Addr) (hc : Clear s u tid i)
    (ha : Acts s s1 u tid w k) (hk : k ≤ 8192) :
    Frame s (onward s s1 u tid i pc) u tid w ∧ ((onward s s1 u tid i pc).thr u tid).pc = pc ∧
    ((onward s s1 u tid i pc).team u).work = (s.team u).work + 1 ∧ Ended s1 (onward s s1 u tid i pc) u tid :=
  goes pc (headOf i).k (s.earlyGuard u tid (headOf i) || s.earlyRead u tid (regUse i)) hc ha hk

theorem onNext_goes {s s1 : State} {u tid k : Nat} {i : Instr} {w : Touch} (hc : Clear s u tid i)
    (ha : Acts s s1 u tid w k) (hk : k ≤ 8192) :
    Frame s (onNext s s1 u tid i) u tid w ∧ WentOn s (onNext s s1 u tid i) u tid i ∧ Ended s1 (onNext s s1 u tid i) u tid := by
  obtain ⟨a, b, c, e⟩ := onward_goes (nextPc i (s.thr u tid).pc) hc ha hk
  exact ⟨a, ⟨b, c⟩, e⟩

theorem held_goes {s s1 : State} {u tid k : Nat} {i : Instr} {w : Touch} {kind : WaitKind} (hc : Clear s u tid i)
    (ha : Acts s s1 u tid w k) (hk : k ≤ 8192) (hs : State.isSwpt kind = false)
    (hm : kind ≠ .home) (hy : s1.cyc = s.cyc) :
    Frame s (held s s1 u tid i kind) u tid w ∧ Waits s (held s s1 u tid i kind) u tid i kind :=
  stays kind (s.earlyGuard u tid (headOf i) || s.earlyRead u tid (regUse i)) hc ha hk hs hm hy

/-! ## Forms of completion -/

/-- Words written to consecutive lane registers, whatever their number. -/
theorem gives_words {i : Instr} {d : BitVec 7} {n : Nat} {v : State → Nat → Nat → Nat} (op : State → Nat → Nat → State)
    (he : ∀ s, exec i s = .next (perThread i (plain op) s))
    (ho : ∀ s u tid, op s u tid = s.writeLanes u tid d.toNat (wordsOf n (v s u tid))) (hn : n ≤ 64) : Gives i d n v := by
  intro s u tid hc
  have ha : Acts s (op s u tid) u tid { lanes := span d.toNat n } (128 * n) := by
    rw [ho]
    simpa only [Acts.wordsOf_length] using Acts.writeLanes u tid { lanes := span d.toNat n } (wordsOf n (v s u tid)) s d.toNat
      (fun j hj => mem_span (by simpa [Acts.wordsOf_length] using hj))
  refine ⟨_, he s, ?_⟩
  rw [runs_go hc.1 (s1 := op s u tid) rfl]
  obtain ⟨a, b, c⟩ := onNext_goes hc ha (by omega)
  refine ⟨Holds.congr c.regs ?_, a, b⟩
  rw [ho]
  exact holds_writeLanes u tid _ s _ (clear_here hc)

theorem gives_of {i : Instr} {d : BitVec 7} {ty : Ty} {v : State → Nat → Nat → Nat} (op : State → Nat → Nat → State)
    (he : ∀ s, exec i s = .next (perThread i (plain op) s)) (ho : ∀ s u tid, op s u tid = s.writeDest u tid d ty (v s u tid)) :
    Gives i d ty.words v :=
  gives_words op he (fun s u tid => ho s u tid) (by cases ty <;> decide)

theorem givesNum_of {i : Instr} {d : BitVec 7} {ty : Ty} {v : State → Nat → Nat → Nat × Flags} (op : State → Nat → Nat → State)
    (he : ∀ s, exec i s = .next (perThread i (plain op) s))
    (ho : ∀ s u tid, op s u tid = (s.writeDest u tid d ty (v s u tid).1).setFlags u tid (v s u tid).2) :
    GivesNum i d ty.words v := by
  intro s u tid hc
  have h1 := Acts.writeDest s u tid { lanes := span d.toNat ty.words, flags := true } d ty (v s u tid).1 (fun j hj => mem_span hj)
  have ha : Acts s (op s u tid) u tid { lanes := span d.toNat ty.words, flags := true } (128 * ty.words + 0) := by
    rw [ho]
    exact h1.trans (Acts.setFlags _ u tid _ _ rfl)
  have hk : 128 * ty.words + 0 ≤ 8192 := by cases ty <;> decide
  have h0 := Acts.writeDest s u tid { lanes := span d.toNat ty.words } d ty (v s u tid).1 (fun j hj => mem_span hj)
  have hh := h1.small.here u tid (clear_here hc)
  refine ⟨_, he s, ?_⟩
  rw [runs_go hc.1 (s1 := op s u tid) rfl]
  obtain ⟨a, b, c⟩ := onNext_goes hc ha hk
  refine ⟨Holds.congr c.regs ?_, ?_, a, b⟩
  · rw [ho]
    refine Holds.congr ?_ (holds_writeDest s u tid d ty (v s u tid).1 (clear_here hc))
    unfold State.setFlags
    split
    · rfl
    · rw [State.thr_updThr_self _ _ _ _ hh]
  · rw [c.flags, ho, ← h0.flags rfl]
    unfold State.setFlags
    split
    · rename_i e
      simp [e]
    · rw [State.thr_updThr_self _ _ _ _ hh]

theorem givesLate_of {i : Instr} {d : BitVec 7} {ty : Ty} {v : State → Nat → Nat → Nat} (op : State → Nat → Nat → State)
    (he : ∀ s, exec i s = .next (perThread i (plain op) s)) (ho : ∀ s u tid, op s u tid = lateDest s u tid d ty (v s u tid)) :
    GivesLate i d ty.words v := by
  intro s u tid hc
  have ha : Acts s (op s u tid) u tid {} 0 := by
    rw [ho]
    exact Acts.addPend s u tid _ _ _ _
  refine ⟨_, he s, ?_⟩
  rw [runs_go hc.1 (s1 := op s u tid) rfl]
  obtain ⟨a, b, c⟩ := onNext_goes hc ha (by omega)
  refine ⟨?_, a, b⟩
  obtain ⟨p, hp, h1, h2, h3⟩ := owes_addPend s u tid .result (regPairs d.toNat (wordsOf ty.words (v s u tid))) [] (clear_here hc)
  refine ⟨p, c.pend p ?_ (by rw [h1]; decide), h1, h2, h3⟩
  rw [ho]
  exact hp

theorem givesPred_of {i : Instr} {q : Pred} {v : State → Nat → Nat → Bool} (op : State → Nat → Nat → State)
    (he : ∀ s, exec i s = .next (perThread i (plain op) s)) (ho : ∀ s u tid, op s u tid = s.writePred u tid q.val (v s u tid)) :
    GivesPred i q v := by
  intro s u tid hc
  have ha : Acts s (op s u tid) u tid { preds := [q.val] } 0 := by
    rw [ho]
    exact Acts.writePred s u tid _ _ _ (by simp)
  refine ⟨_, he s, ?_⟩
  rw [runs_go hc.1 (s1 := op s u tid) rfl]
  obtain ⟨a, b, c⟩ := onNext_goes hc ha (by omega)
  refine ⟨?_, a, b⟩
  simp only [pred, c.preds]
  rw [ho]
  exact pred_writePred_self s u tid q _ (clear_here hc)

theorem givesNothing_of {i : Instr} (op : State → Nat → Nat → State)
    (he : ∀ s, exec i s = .next (perThread i (plain op) s)) (ho : ∀ s u tid, op s u tid = s) : GivesNothing i := by
  intro s u tid hc
  have ha : Acts s (op s u tid) u tid {} 0 := by rw [ho]; exact Acts.refl s u tid _
  refine ⟨_, he s, ?_⟩
  rw [runs_go hc.1 (s1 := op s u tid) rfl]
  obtain ⟨a, b, _⟩ := onNext_goes hc ha (by omega)
  exact ⟨a, b⟩

theorem passesWhen_of {i : Instr} {p : State → Nat → Nat → Prop} (op : State → Nat → Nat → Act × State)
    (he : ∀ s, exec i s = .next (perThread i op s)) (ho : ∀ s u tid, p s u tid → op s u tid = (.go, s)) : PassesWhen i p := by
  intro s u tid hc hp
  refine ⟨_, he s, ?_⟩
  rw [runs_go hc.1 (ho s u tid hp)]
  obtain ⟨a, b, _⟩ := onNext_goes hc (Acts.refl s u tid {}) (by omega)
  exact ⟨a, b⟩

theorem waitsWhen_of {i : Instr} {k : State → Nat → Nat → WaitKind} {p : State → Nat → Nat → Prop}
    (op : State → Nat → Nat → Act × State) (he : ∀ s, exec i s = .next (perThread i op s))
    (ho : ∀ s u tid, p s u tid → op s u tid = (.wait (k s u tid), s)) (hs : ∀ s u tid, State.isSwpt (k s u tid) = false)
    (hm : ∀ s u tid, k s u tid ≠ .home) : WaitsWhen i k p := by
  intro s u tid hc hp
  refine ⟨_, he s, ?_⟩
  rw [runs_wait hc.1 (ho s u tid hp)]
  exact held_goes hc (Acts.refl s u tid {}) (by omega) (hs s u tid) (hm s u tid) rfl

end Sys2Proof.Machine
end

