-- ==== Sys2Proof/Laws/Fragments.lean ====
section
/-! SUPPORT. A fragment of one thread: the uniform set for it is as the lane set, and what uniform registers read as once written. -/

namespace Sys2Proof.Machine

open Sys2Proof.Safety

/-- A fragment of one thread executes its instruction as that thread alone (R150). -/
theorem perFragment_runs {s : State} {u tid : Nat} {i : Instr} (op : State → Nat → Nat → List Nat → Act × State)
    (h : Runs s u tid i) : perFragment i op s = perThread i (fun s u tid => op s u tid [tid]) s := by
  have hc : (s.thr u tid).st.candidate = true := by rcases h.ready with e | e <;> rw [e] <;> rfl
  have ho : ((s.thr u tid).st == ThState.orphaned) = false := by rcases h.ready with e | e <;> rw [e] <;> rfl
  have ht : s.entryTrap u tid i = none := by
    unfold State.entryTrap
    simp only [h.form, h.range, Bool.false_eq_true, if_false]
    have hl := h.level
    cases hs : needsSupervisor i with
    | false => simp
    | true => simp [hl hs]
  have hz : ∀ b : Bool, (b = true → s.earlyGuard u tid (headOf i) = true ∨ s.earlyRead u tid (regUse i) = true) →
      (b && s.hazardOn u) = false := by
    intro b hb
    rcases h.calm with e | ⟨e1, e2, e3⟩
    · simp [e]
    · cases b with
      | false => rfl
      | true => rcases hb rfl with x | x <;> simp_all
  have hf : s.fragment u (groupOf tid) = [tid] := by simp [State.fragment, h.inHand, hc]
  rw [perThread_runs _ h]
  unfold perFragment
  rw [h.inHand]
  have hg : groupsOf [tid] = [groupOf tid] := rfl
  have hfrag : s.issueFragment u (groupOf tid) i op = (((op s u tid [tid]).2.follow u tid i (s.thr u tid).pc (op s u tid [tid]).1).1,
      if s.earlyGuard u tid (headOf i) || s.earlyRead u tid (regUse i)
      then ((op s u tid [tid]).2.follow u tid i (s.thr u tid).pc (op s u tid [tid]).1).2.draw
      else ((op s u tid [tid]).2.follow u tid i (s.thr u tid).pc (op s u tid [tid]).1).2) := by
    unfold State.issueFragment
    simp only [h.team, hf, List.filter_cons, ho, Bool.false_eq_true, if_false, List.filter_nil, List.foldl_nil,
      List.contains_nil, Bool.not_false, Bool.not_true, if_true, ht]
    rw [hz _ (fun e => Or.inl e)]
    simp only [Bool.false_eq_true, if_false, h.guard, Bool.not_true]
    rw [hz _ (fun e => (Bool.or_eq_true_iff.1 e))]
    simp only [Bool.false_eq_true, if_false, State.forAll, Nat.add_zero]
  simp only [List.isEmpty_cons, Bool.false_eq_true, if_false, hg, State.issueFragments, hfrag, Nat.add_zero]

/-! ## Uniform registers -/

theorem Acts.writeUni (s : State) (u tid r : Nat) (w : Touch) (v : Word) (h : r ∈ w.unis) :
    Acts s (s.writeUni u (groupOf tid) r v) u tid w 128 := by
  unfold State.writeUni
  exact (Acts.logAdd s u tid w (.uniRow (groupOf tid) (r / 32))).trans (Acts.updReg _ u tid r w _ h
    (fun x q hq => by simp [SMap.get_put, hq]) (by intro _; rfl))

theorem Acts.writeUnis (u tid : Nat) (w : Touch) (ws : List Word) : ∀ (s : State) (r : Nat),
    (∀ j, j < ws.length → r + j ∈ w.unis) → Acts s (s.writeUnis u (groupOf tid) r ws) u tid w (128 * ws.length) := by
  induction ws with
  | nil => intro s r _; exact Acts.refl s u tid w
  | cons x ws ih =>
    intro s r h
    have a := Acts.writeUni s u tid r w x (h 0 (by simp))
    have b := ih (s.writeUni u (groupOf tid) r x) (r + 1) (fun j hj => by
      have := h (j + 1) (by simpa using hj)
      rwa [show r + (j + 1) = r + 1 + j by omega] at this)
    exact (a.trans b).mono (by simp only [List.length_cons]; omega)

theorem ureg_writeUni_self (s : State) (u g r : Nat) (v : Word) (h : (SMap.find s.teams u).isSome) :
    ureg (s.writeUni u g r v) u g r = v := by
  have h1 : (SMap.find (s.updTeam u (fun t => t.logAdd (.uniRow g (r / 32)))).teams u).isSome := by
    unfold State.updTeam
    split
    · simp only [SMap.find_set, if_true, Option.isSome_some]
    · exact h
  unfold State.writeUni ureg
  rw [State.grp_updGrp_self _ _ _ _ h1]
  simp

theorem uholds_writeUnis (u tid : Nat) (ws : List Word) : ∀ (s : State) (r : Nat), s.hasThr u tid →
    UHolds (s.writeUnis u (groupOf tid) r ws) u (groupOf tid) r ws := by
  induction ws with
  | nil => intros; trivial
  | cons x ws ih =>
    intro s r h
    have hw := Acts.writeUni s u tid r { unis := [r] } x (by simp)
    refine ⟨?_, ih _ _ (hw.small.here u tid h)⟩
    have a := Acts.writeUnis u tid { unis := (List.range ws.length).map (fun j => r + 1 + j) } ws
      (s.writeUni u (groupOf tid) r x) (r + 1) (fun j hj => List.mem_map.2 ⟨j, List.mem_range.2 hj, rfl⟩)
    rw [State.writeUnis, a.unis u (groupOf tid) r (by simp; omega), ureg_writeUni_self _ _ _ _ _ h.1]

theorem UHolds.congr {s t : State} {u g : Nat} (h : ∀ r, ureg t u g r = ureg s u g r) :
    ∀ {ws : List Word} {r : Nat}, UHolds s u g r ws → UHolds t u g r ws
  | [], _, _ => trivial
  | _ :: _, _, ⟨a, b⟩ => ⟨(h _).trans a, UHolds.congr h b⟩

/-- Words written to consecutive uniform registers. -/
theorem givesUni_of {i : Instr} {d : BitVec 6} {n : Nat} {v : State → Nat → Nat → Nat}
    (op : State → Nat → Nat → List Nat → State) (he : ∀ s, exec i s = .next (perFragment i (plainU op) s))
    (ho : ∀ s u tid, op s u tid [tid] = s.writeUnis u (groupOf tid) d.toNat (wordsOf n (v s u tid))) (hn : n ≤ 64) :
    GivesUni i d n v := by
  intro s u tid hc
  have ha : Acts s (op s u tid [tid]) u tid { unis := span d.toNat n } (128 * n) := by
    rw [ho]
    simpa only [Acts.wordsOf_length] using Acts.writeUnis u tid { unis := span d.toNat n } (wordsOf n (v s u tid)) s d.toNat
      (fun j hj => mem_span (by simpa [Acts.wordsOf_length] using hj))
  refine ⟨_, he s, ?_⟩
  rw [perFragment_runs _ hc.1, runs_go hc.1 (s1 := op s u tid [tid]) rfl]
  obtain ⟨a, b, c⟩ := onNext_goes hc ha (by omega)
  refine ⟨UHolds.congr (c.unis u _) ?_, a, b⟩
  rw [ho]
  exact uholds_writeUnis u tid _ s _ (clear_here hc)

end Sys2Proof.Machine
end

