-- ==== Sys2Proof/Tests/Slice0.lean ====
section
/-! SUPPORT. Tests: words written out from the encoding tables, an ill-formed term for each check of WellFormed, single steps
whose results the spec works through, and for each statement with hypotheses a state and operands that meet them. -/

namespace Sys2Proof.Tests

set_option Elab.async false

open Sys2Proof.Machine
open Sys2Proof.Safety

/-! ## States -/

/-- The placed state with the one thread in hand. -/
def demo : State := { State.reset.place 32 0x046F0000 with issue := ⟨1, [0]⟩, agenda := [] }

/-- `demo` with the thread changed. -/
def demoT (f : Thread → Thread) : State := demo.updThr 1 0 f

/-- `demo` with the team changed. -/
def demoU (f : Team → Team) : State := demo.updTeam 1 f

/-- `demo` with registers of the thread. -/
def demoR (rs : List (Nat × Word)) : State := demoT (fun t => { t with regs := rs })

/-- `demo` with the thread in a handler at a level, at a privilege. -/
def demoL (n : Nat) (p : Priv) : State := demoT (fun t => { t with level := n, priv := p, st := .inHandler })

/-- No modifier. -/
def hd : Head := ⟨.always, false, false, none⟩

/-- A head without a field word. -/
def bare : Head := ⟨.always, false, true, none⟩

/-! ## The premises as checks -/

/-- What an instruction asks of a thread whoever else executes it, as a check. -/
def mayB (s : State) (u tid : Nat) (i : Instr) : Bool :=
  !s.formBad u tid i && !(regUse i).beyond (s.team u).var && (!needsSupervisor i || (s.thr u tid).priv == .supervisor)

theorem may_of {s : State} {u tid : Nat} {i : Instr} (h : mayB s u tid i = true) :
    s.formBad u tid i = false ∧ (regUse i).beyond (s.team u).var = false ∧
      (needsSupervisor i = true → (s.thr u tid).priv = .supervisor) := by
  rw [mayB, Bool.and_eq_true, Bool.and_eq_true, Bool.not_eq_true', Bool.not_eq_true'] at h
  refine ⟨h.1.1, h.1.2, fun hn => ?_⟩
  simpa [hn] using h.2

/-- Whether a thread may be selected, as a check. -/
def selectableB (s : State) (u tid : Nat) : Bool := (s.thr u tid).st == .ready || (s.thr u tid).st == .inHandler

theorem selectable_of {s : State} {u tid : Nat} (h : selectableB s u tid = true) :
    (s.thr u tid).st = .ready ∨ (s.thr u tid).st = .inHandler := by
  simpa [selectableB] using h

/-- No hazard stops the instruction, as a check. -/
def calmB (s : State) (u tid : Nat) (i : Instr) : Bool :=
  !s.hazardOn u || (!s.earlyGuard u tid (headOf i) && !s.earlyRead u tid (regUse i) && !s.captureConflict u tid i (regUse i))

/-- `Runs` as a check. -/
def runsB (s : State) (u tid : Nat) (i : Instr) : Bool :=
  (decide (s.issue = ⟨u, [tid]⟩) && (s.team u).phase.issues && selectableB s u tid) &&
  (!(s.waiting u State.isSwpt).contains tid && mayB s u tid i) && (s.guard u tid (headOf i) && calmB s u tid i)

theorem runs_of {s : State} {u tid : Nat} {i : Instr} (h : runsB s u tid i = true) : Runs s u tid i := by
  rw [runsB, Bool.and_eq_true, Bool.and_eq_true] at h
  have here := h.1.1
  have may := h.1.2
  have open_ := h.2
  rw [Bool.and_eq_true, Bool.and_eq_true, decide_eq_true_eq] at here
  rw [Bool.and_eq_true] at may open_
  have m := may_of may.2
  exact { inHand := here.1.1, team := here.1.2, ready := selectable_of here.2, notHeld := by simpa using may.1, form := m.1, range := m.2.1,
          level := m.2.2, guard := open_.1, calm := by simpa [calmB, and_assoc] using open_.2 }

/-- `Quiet` as a check, of a team without barriers in use. -/
def quietB (s : State) (u n : Nat) : Bool :=
  decide ((s.team u).work + n < (s.team u).body.csr.ckint) && decide (logBytes (s.team u) + 8192 ≤ Config.undoLogBytes) &&
  (s.team u).stop.isNone && !(s.team u).closing &&
  (s.team u).body.groups.all (fun e => e.2.colls.all (fun c => (CInstance.waits c).all (fun a => !s.collReady u e.1 c a))) &&
  (s.team u).body.bars.all (fun e => !State.Bar.full e.2 (s.team u).body.live) &&
  (s.clu (s.team u).cluster).bars.all (fun e => !State.Bar.full e.2 (s.cluLive (s.team u).cluster))

theorem notFull_of {m : SMap Bar} {live : List Nat} (h : m.all (fun e => !State.Bar.full e.2 live) = true) (b : Nat) :
    State.Bar.full (SMap.get m b Bar.start) live = false := by
  rcases hf : SMap.find m b with _ | x
  · simp [SMap.get, hf, State.Bar.full, Bar.start]
  · have := List.all_eq_true.1 h _ (SMap.find_mem hf)
    simpa [SMap.get, hf] using this

theorem noneReady_of {s : State} {u : Nat} (h : (s.team u).body.groups.all (fun e => e.2.colls.all (fun c =>
    (CInstance.waits c).all (fun a => !s.collReady u e.1 c a))) = true) (g : Nat) :
    ∀ c ∈ (s.grp u g).colls, ∀ a ∈ CInstance.waits c, s.collReady u g c a = false := by
  intro c hc a ha
  rcases hf : SMap.find (s.team u).body.groups g with _ | x
  · have : s.grp u g = Group.start := by
      show SMap.get (s.team u).body.groups g Group.start = _
      simp only [SMap.get, hf]; rfl
    rw [this] at hc
    cases hc
  · have hx : s.grp u g = x := by
      show SMap.get (s.team u).body.groups g Group.start = _
      simp only [SMap.get, hf]; rfl
    rw [hx] at hc
    simpa using List.all_eq_true.1 (List.all_eq_true.1 (List.all_eq_true.1 h _ (SMap.find_mem hf)) c hc) a ha

theorem quiet_of {s : State} {u n : Nat} (h : quietB s u n = true) : Quiet s u n := by
  simp only [quietB, Bool.and_eq_true, Bool.not_eq_true', decide_eq_true_eq, Option.isNone_iff_eq_none] at h
  have early := h.1.1.1
  have bars := notFull_of h.1.2
  exact { count := early.1.1.1, log := early.1.1.2, stop := early.1.2, closing := early.2, colls := noneReady_of h.1.1.2,
          bars := bars, cbars := Or.inr (notFull_of h.2) }

theorem clear_of {s : State} {u tid : Nat} {i : Instr} (h : (runsB s u tid i && quietB s u 1) = true) : Clear s u tid i := by
  rw [Bool.and_eq_true] at h
  exact ⟨runs_of h.1, quiet_of h.2⟩

theorem writers_of {s : State} (h : s.teams.all (fun e => e.2.log.isEmpty) = true) (x : Option Nat) (p : LogItem → Bool) :
    s.writers x p = [] := by
  have hl : ∀ v, (s.team v).log = [] := by
    intro v
    show (SMap.get s.teams v Team.none).log = []
    rcases hf : SMap.find s.teams v with _ | t
    · simp only [SMap.get, hf]; rfl
    · have := List.all_eq_true.1 h _ (SMap.find_mem hf)
      simpa [SMap.get, hf] using this
  unfold State.writers
  rw [List.filter_eq_nil_iff]
  intro v _
  simp [hl v]

/-- Each of some well-formed instructions executes clearly in a state. -/
def allClear (s : State) (is : List Instr) : Bool := is.all (fun i => i.WellFormed && (runsB s 1 0 i && quietB s 1 1))

theorem clear_all {s : State} {is : List Instr} (h : allClear s is = true) : ∀ i ∈ is, Clear s 1 0 i :=
  fun i hi => clear_of (Bool.and_eq_true _ _ ▸ List.all_eq_true.1 h i hi).2

/-- `FreeScr` as a check, where no log holds anything. -/
def freeB (s : State) (target off n : Nat) : Bool :=
  s.teams.all (fun e => e.2.log.isEmpty) && (List.range n).all (fun i => !s.collides (.scr target (off + i))) &&
  !s.switchBegun target

theorem free_of {s : State} {u target off n : Nat} (h : freeB s target off n = true) : FreeScr s u target off n := by
  rw [freeB, Bool.and_eq_true, Bool.and_eq_true, Bool.not_eq_true'] at h
  refine ⟨fun i _ => writers_of h.1.1 _ _, fun i hi => ?_, Or.inr h.2⟩
  simpa using List.all_eq_true.1 h.1.2 i (List.mem_range.2 hi)

/-- `demo` with the first 2 GiB in the core's TLB and a line resident that no core holds. -/
def demoG : State := { (demo.updCore 0 (fun k => { k with tlb := [⟨0, 0, 2147483648, 0, true, true, true, false⟩] })) with
  lines := [(1024, ⟨0, 0, 0, 0, [], 0, false⟩)] }

/-- `Cached` as a check. -/
def cachedB (s : State) (u tid va pa : Nat) (k : XKind) : Bool :=
  decide (va < 9007199254740992 ∧ ¬(Config.fwBase ≤ va ∧ va ≤ Config.fwLast)) &&
  (match State.tlbHit (s.cor (s.team u).core).tlb (identOf (s.team u).vdev (s.team u).ctx) va with
    | some e => (match State.finish e va k ((s.thr u tid).priv == .supervisor) with | .ok x => x == pa | .error _ => false)
    | none => false)

theorem cached_of {s : State} {u tid va pa : Nat} {k : XKind} (h : cachedB s u tid va pa k = true) : Cached s u tid va pa k := by
  rw [cachedB, Bool.and_eq_true, decide_eq_true_eq] at h
  refine ⟨h.1.1, h.1.2, ?_⟩
  have hit := h.2
  split at hit
  · rename_i e he
    refine ⟨e, he, ?_⟩
    split at hit
    · rename_i x hx
      rw [hx]; simpa using hit
    · cases hit
  · cases hit

/-- The line of an access, in HBM and undamaged, stands at its home with no copy anywhere, as a check. -/
def lineB (s : State) (u pa n : Nat) : Bool :=
  decide (inHbm pa = true ∧ pa % 128 + n ≤ 128 ∧ s.damaged.contains (lineOf pa) = false) &&
  (match SMap.find s.lines (lineOf pa) with
    | some h => decide (h.ident = identOf (s.team u).vdev (s.team u).ctx ∧ h.holders = [])
    | none => false)

theorem line_of {s : State} {u pa n : Nat} (h : lineB s u pa n = true) :
    (inHbm pa = true ∧ pa % 128 + n ≤ 128 ∧ s.damaged.contains (lineOf pa) = false) ∧
    ∃ h, SMap.find s.lines (lineOf pa) = some h ∧ h.ident = identOf (s.team u).vdev (s.team u).ctx ∧ h.holders = [] := by
  rw [lineB, Bool.and_eq_true, decide_eq_true_eq] at h
  refine ⟨h.1, ?_⟩
  have home := h.2
  split at home
  · rename_i x hx
    exact ⟨x, hx, of_decide_eq_true home⟩
  · cases home

/-- `AtHome` as a check, where no log holds anything. -/
def homeB (s : State) (u tid va n pa : Nat) (k : XKind) : Bool :=
  (cachedB s u tid va pa k && lineB s u pa n) && s.teams.all (fun e => e.2.log.isEmpty) &&
  decide ((s.lau (s.team u).launch).det = false ∧ (s.thr u tid).hyp = 0 ∧ s.granules (s.team u).vdev (s.team u).ctx va n = [] ∧
    (SMap.find (s.cor (s.team u).core).l1 (lineOf pa)).isNone = true ∧ (s.cor (s.team u).core).l1.length < s.l1Cap (s.team u).core ∧
    s.ops.isEmpty = true ∧ s.manifests.any Manifest.open_ = false)

theorem home_of {s : State} {u tid va n pa : Nat} {k : XKind} (h : homeB s u tid va n pa k = true) : AtHome s u tid va n pa k := by
  rw [homeB, Bool.and_eq_true, Bool.and_eq_true, Bool.and_eq_true, decide_eq_true_eq] at h
  have line := line_of h.1.1.2
  have rest := h.2
  exact { cached := cached_of h.1.1.1, hbm := line.1.1, oneLine := line.1.2.1, sound := line.1.2.2, free := rest.1,
          root := rest.2.1, untracked := rest.2.2.1, alone := writers_of h.1.2 _ _, home := line.2,
          noCopy := Option.isNone_iff_eq_none.1 rest.2.2.2.1, room := rest.2.2.2.2.1,
          idle := ⟨List.isEmpty_iff.1 rest.2.2.2.2.2.1, rest.2.2.2.2.2.2⟩ }

/-- `RunsFragment` as a check. -/
def fragB (s : State) (u lead : Nat) (rest : List Nat) (i : Instr) : Bool :=
  (decide (s.issue = ⟨u, lead :: rest⟩) && (s.team u).phase.issues && (lead :: rest).all (selectableB s u)) &&
  (rest.all (fun tid => groupOf tid == groupOf lead) && !(s.waiting u State.isSwpt).contains lead) &&
  (mayB s u lead i && s.guard u lead (headOf i) && !s.hazardOn u)

theorem frag_of {s : State} {u lead : Nat} {rest : List Nat} {i : Instr} (h : fragB s u lead rest i = true) :
    RunsFragment s u lead rest i := by
  rw [fragB, Bool.and_eq_true, Bool.and_eq_true] at h
  have here := h.1.1
  have one := h.1.2
  have may := h.2
  rw [Bool.and_eq_true, Bool.and_eq_true] at here may
  rw [Bool.and_eq_true] at one
  have m := may_of may.1.1
  exact { inHand := of_decide_eq_true here.1.1, team := here.1.2,
          ready := fun tid ht => selectable_of (List.all_eq_true.1 here.2 tid ht),
          group := fun tid ht => by simpa using List.all_eq_true.1 one.1 tid ht, notHeld := by simpa using one.2,
          form := m.1, range := m.2.1, level := m.2.2, guard := may.1.2, calm := Or.inl (by simpa using may.2) }

/-- Two threads of one group in hand. -/
def demo2 : State := { (demoU (fun t => { t with body := { t.body with threads := [(0, placeThread), (1, placeThread)] } })) with
  issue := ⟨1, [0, 1]⟩ }

/-! ## Witnesses: integer, float, moves -/

theorem wit_integerArithmetic : ∀ i ∈ [Instr.iadd hd .s32 3 (.lane 1) (.lane 2), .isub hd .n64 4 (.lane 0) (.lane 2),
    .imul hd .s32 3 (.lane 1) (.lane 1), .imin hd .n32 3 (.lane 1) (.konst .minusOne), .imax hd .s32 3 (.uni 1) (.lane 2),
    .imad hd .s32 3 (.lane 1) (.lane 2) (.lane 3)], Clear demo 1 0 i := clear_all (by decide +kernel)

theorem wit_highProductAndDivision : ∀ i ∈ [Instr.imulh hd .n32 3 (.lane 1) (.lane 2), .idiv hd .s32 3 (.lane 1) (.lane 2),
    .irem hd .n64 4 (.lane 0) (.lane 2)], Clear (demoR [(1, 0x80000000), (2, 0xFFFFFFFF)]) 1 0 i := clear_all (by decide +kernel)

theorem wit_logicAndShifts : ∀ i ∈ [Instr.and hd .b128 8 (.lane 12) (.lane 16), .or hd .n32 3 (.lane 1) (.lane 2),
    .xor hd .s64 4 (.lane 0) (.lane 2), .andn hd .n32 3 (.lane 1) (.lane 2), .not hd .n32 3 (.lane 1), .shl hd .n32 3 (.lane 1) (.lane 2),
    .shr hd .n32 3 (.lane 1) (.imm 40), .sar hd .s64 4 (.lane 6) (.lane 3), .rotl hd .n32 3 (.lane 1) (.imm 36)],
    Clear demo 1 0 i := clear_all (by decide +kernel)

theorem wit_bitFields : ∀ i ∈ [Instr.popc hd .n64 5 (.lane 6), .clz hd .n32 2 (.lane 1), .brev hd .n64 4 (.lane 6),
    .bfx hd .s32 3 (.lane 1) (.imm 0x0408), .bfi hd .n32 4 (.lane 1) (.lane 4) (.lane 9), .perm hd 3 (.lane 1) (.lane 2) (.imm 0xFC47)],
    Clear demo 1 0 i := clear_all (by decide +kernel)

theorem wit_movesAndAddresses : ∀ i ∈ [Instr.lea hd .sx .n64 6 (.lane 8) (.lane 3) 2, .idp4 hd true true .s32 3 (.lane 1) (.lane 2) (.lane 3),
    .mov hd .n32 5 (.uni 2), .sel hd .f32 4 3 (.lane 1) (.lane 2), .nop bare],
    Clear demo 1 0 i := clear_all (by decide +kernel)

/-- PREF past the end of space G, and of a byte that its home holds. -/
theorem wit_prefetch : Clear (demoR [(3, 0x200000)]) 1 0 (.pref hd false (.lane 2) (.imm 0)) ∧
    effective (demoR [(3, 0x200000)]) 1 0 .g (.lane 2) (.imm 0) = 9007199254740992 ∧
    Clear demoG 1 0 (.pref hd false (.lane 2) (.imm 131196)) ∧ effective demoG 1 0 .g (.lane 2) (.imm 131196) = 131196 ∧
    AtHome demoG 1 0 131196 1 131196 .read :=
  ⟨clear_of (by decide +kernel), by decide +kernel, clear_of (by decide +kernel), by decide +kernel, home_of (by decide +kernel)⟩

theorem wit_predicates : ∀ i ∈ [Instr.icmp hd .lt .s32 2 (.lane 4) (.imm 100), .plop hd 0xC0 3 (.pred 1) (.pred 2) .zero,
    .fcmp hd .lt .f32 2 (.lane 4) (.lane 5), .movp bare 5, .movpSet hd (.lane 4) (.imm 0xF0), .elect bare 1 (.lane 4)],
    Clear demo 1 0 i := clear_all (by decide +kernel)

theorem wit_floatingPoint : ∀ i ∈ [Instr.fadd hd .f32 3 (.lane 1) (.lane 2), .fsub hd .f64 4 (.lane 0) (.lane 2),
    .fmul hd .f16 3 (.lane 1) (.lane 2), .ffma hd .f32 3 (.lane 1) (.lane 1) (.konst .minusOne), .fmin hd true .f32 3 (.lane 1) (.lane 2),
    .fmax hd false .f32 3 (.lane 1) (.lane 2), .fclass hd .f32 3 (.lane 1), .frnd hd true .f32 3 (.lane 1),
    .fcvt hd .f16 .f32 5 (.lane 4), .f2i hd .s32 .f32 3 (.lane 1), .i2f hd .f32 .s32 3 (.lane 1)],
    Clear demo 1 0 i := clear_all (by decide +kernel)

theorem wit_packedFloatingPoint : ∀ i ∈ [Instr.padd hd .f16 3 (.lane 1) (.lane 2), .pmul hd .bf16 3 (.lane 1) (.lane 2),
    .pfma hd .bf16 4 (.lane 5) (.lane 6) (.lane 4), .pdot2 hd .f16 3 (.lane 1) (.lane 2) (.lane 3)],
    Clear demo 1 0 i := clear_all (by decide +kernel)

theorem wit_randomNumbers : ∀ i ∈ [Instr.rng hd false 8, .rng hd true 12], Clear demo 1 0 i := clear_all (by decide +kernel)

theorem wit_specialRegisters : ∀ i ∈ [Instr.rdsr bare .lane 0, .rdsr bare .group 1, .rdsr bare .team 1, .rdsr bare .task 1, .rdsr bare .core 1,
    .rdsr bare .clus 1, .rdsr bare .rank 1, .rdsr bare .vdev 1, .rdsr bare .ctx 1, .rdsr bare .hyp 1, .rdsr bare .cyc 2,
    .rdsr bare .ptp 125, .rdsr bare .work 2], Clear demo 1 0 i := clear_all (by decide +kernel)

theorem wit_uniformArithmetic : ∀ i ∈ [Instr.uadd hd .n32 1 (.uni 2) (.uni 3), .usub hd .s64 2 (.uni 4) (.uni 6), .umul hd .n32 1 (.uni 2) (.imm 7),
    .umulh hd .n32 1 (.uni 2) (.uni 3), .umad hd .n32 1 (.uni 2) (.uni 3) (.uni 4), .umin hd .s32 1 (.uni 2) (.uni 3),
    .umax hd .s32 1 (.uni 2) (.uni 3), .uand hd .n32 1 (.uni 2) (.uni 3), .uor hd .n32 1 (.uni 2) (.uni 3), .uxor hd .n32 1 (.uni 2) (.uni 3),
    .ushl hd .n32 1 (.uni 2) (.imm 3), .ushr hd .n32 1 (.uni 2) (.imm 3), .usar hd .s32 1 (.uni 2) (.imm 3),
    .ulea hd .plain .n32 1 (.uni 2) (.uni 3) 2, .umov hd .n32 1 (.uni 2), .urdsr bare .team 1],
    Clear demo 1 0 i := clear_all (by decide +kernel)

theorem wit_uniformFragments : Quiet demo2 1 2 ∧ RunsFragment demo2 1 0 [1] (.umov hd .n32 1 (.uni 2)) ∧
    RunsFragment demo2 1 0 [1] (.ucmp hd .lt .n32 1 (.uni 2) (.uni 3)) ∧ RunsFragment demo2 1 0 [1] (.ubra hd 8) :=
  ⟨quiet_of (by decide +kernel), frag_of (by decide +kernel), frag_of (by decide +kernel), frag_of (by decide +kernel)⟩

/-! ## Witnesses: control flow and memory -/

theorem wit_controlFlow : (∀ i ∈ [Instr.bra hd 8, .ubra hd 0xFFFFFFF8, .brx bare (.lane 4), .ret bare (.lane 4), .call hd 30 8,
    .callX hd 30 (.lane 30), .exit bare], Clear demo 1 0 i) ∧ (demo.grp 1 0).colls = [] ∧
    (∀ b, (demo.bar 1 b).count = 0) ∧ ∀ b, (demo.cbarOf (demo.team 1).cluster b).count = 0 :=
  ⟨clear_all (by decide +kernel), by decide +kernel, fun _ => rfl, fun _ => rfl⟩

theorem wit_scratchpadLoads :
    let s := demoU (fun t => { t with params := List.replicate 8 7 })
    (∀ i ∈ [Instr.ld hd .l .normal .n32 3 (.lane 1) (.imm 65532), .ld hd .c .normal .n32 3 (.lane 1) (.imm 4),
      .ld hd .k .normal .n64 4 (.konst .zero) (.konst .zero), .uld hd .l .normal .n32 3 (.uni 1) (.imm 8)], Clear s 1 0 i) ∧
    effective s 1 0 .l (.lane 1) (.imm 65532) = 65532 ∧ FreeScr s 1 1 65532 4 ∧ effective s 1 0 .c (.lane 1) (.imm 4) = 4 ∧
    s.rankTeam 1 0 = some 1 ∧ s.clusterTeams 1 = 1 ∧ s.defersRank 1 0 = false ∧ FreeScr s 1 1 4 4 ∧
    effective s 1 0 .k (.konst .zero) (.konst .zero) = 0 ∧ effective s 1 0 .l (.uni 1) (.imm 8) = 8 ∧ FreeScr s 1 1 8 4 :=
  ⟨clear_all (by decide +kernel), by decide +kernel, free_of (by decide +kernel), by decide +kernel, by decide +kernel,
    by decide +kernel, by decide +kernel, free_of (by decide +kernel), by decide +kernel, by decide +kernel, free_of (by decide +kernel)⟩

theorem wit_scratchpadStores :
    (∀ i ∈ [Instr.st hd .l .normal .b128 (.lane 1) (.imm 65520) (.lane 4), .st hd .c .normal .n8 (.lane 1) (.imm 5) (.lane 4),
      .ust hd .l .normal .n32 (.uni 1) (.imm 8) (.uni 2)], Clear demo 1 0 i) ∧
    effective demo 1 0 .l (.lane 1) (.imm 65520) = 65520 ∧ FreeScr demo 1 1 65520 16 ∧
    effective demo 1 0 .c (.lane 1) (.imm 5) = 5 ∧ demo.rankTeam 1 0 = some 1 ∧ demo.clusterTeams 1 = 1 ∧
    demo.defersRank 1 0 = false ∧ FreeScr demo 1 1 5 1 ∧ effective demo 1 0 .l (.uni 1) (.imm 8) = 8 ∧ FreeScr demo 1 1 8 4 :=
  ⟨clear_all (by decide +kernel), by decide +kernel, free_of (by decide +kernel), by decide +kernel, by decide +kernel,
    by decide +kernel, by decide +kernel, free_of (by decide +kernel), by decide +kernel, free_of (by decide +kernel)⟩

theorem wit_globalLoads :
    (∀ i ∈ [Instr.ld hd .g .normal .n32 3 (.lane 2) (.imm 131196), .uld hd .g .normal .n32 3 (.uni 2) (.imm 131196),
      .lr hd .normal .n32 3 (.lane 2) (.imm 131196)], Clear demoG 1 0 i) ∧ effective demoG 1 0 .g (.lane 2) (.imm 131196) = 131196 ∧
    effective demoG 1 0 .g (.uni 2) (.imm 131196) = 131196 ∧ AtHome demoG 1 0 131196 4 131196 .read ∧
    AtHome demoG 1 0 131196 4 131196 .readOther :=
  ⟨clear_all (by decide +kernel), by decide +kernel, by decide +kernel, home_of (by decide +kernel), home_of (by decide +kernel)⟩

theorem wit_globalStores :
    let s := { demoG with resv := [⟨1, 0, 16384, 0⟩] }
    (∀ i ∈ [Instr.st hd .g .normal .n32 (.lane 2) (.imm 131072) (.lane 4), .ust hd .g .normal .n32 (.uni 2) (.imm 131072) (.uni 4),
      .sc hd .normal .n32 1 (.lane 2) (.imm 131072) (.lane 4)], Clear s 1 0 i ∧ Clear demoG 1 0 i) ∧
    effective s 1 0 .g (.lane 2) (.imm 131072) = 131072 ∧ AtHome s 1 0 131072 4 131072 .write ∧
    AtHome demoG 1 0 131072 4 131072 .write ∧ s.holdsResv 1 0 131072 = true ∧ demoG.holdsResv 1 0 131072 = false :=
  ⟨fun i hi => ⟨clear_all (s := { demoG with resv := [⟨1, 0, 16384, 0⟩] }) (by decide +kernel) i hi,
    clear_all (s := demoG) (by decide +kernel) i hi⟩, by decide +kernel, home_of (by decide +kernel), home_of (by decide +kernel),
    by decide +kernel, by decide +kernel⟩

theorem wit_atomics : (∀ i ∈ [Instr.atom hd .add false .normal .n32 3 (.lane 2) (.imm 131072) (.lane 4),
      .atom hd .cas false .normal .n32 3 (.lane 2) (.imm 131072) (.lane 4)], Clear demoG 1 0 i) ∧
    effective demoG 1 0 .g (.lane 2) (.imm 131072) = 131072 ∧ AtHome demoG 1 0 131072 4 131072 .readwrite :=
  ⟨clear_all (by decide +kernel), by decide +kernel, home_of (by decide +kernel)⟩

/-- The bounds of each space at their boundary: one byte before the end is within, the next access is beyond. -/
theorem wit_addressTraps : (∀ i ∈ [Instr.ld hd .l .normal .n32 3 (.lane 1) (.imm 1), .ld hd .l .normal .n32 3 (.lane 1) (.imm 65536),
      .ld hd .g .normal .n32 3 (.lane 2) (.imm 0), .ld hd .c .normal .n32 3 (.lane 1) (.imm 0x01000000),
      .ld hd .k .normal .n32 3 (.konst .zero) (.konst .zero), .st hd .l .normal .n32 (.lane 1) (.imm 1) (.lane 4),
      .st hd .l .normal .n32 (.lane 1) (.imm 65536) (.lane 4)], Runs (demoR [(3, 0x200000)]) 1 0 i) ∧
    effective (demoR [(3, 0x200000)]) 1 0 .l (.lane 1) (.imm 65536) = 65536 ∧
    effective (demoR [(3, 0x200000)]) 1 0 .g (.lane 2) (.imm 0) = 9007199254740992 ∧
    (demoR [(3, 0x200000)]).clusterTeams 1 = 1 ∧ ((demoR [(3, 0x200000)]).team 1).params.length = 0 :=
  ⟨fun i hi => (clear_all (s := demoR [(3, 0x200000)]) (by decide +kernel) i hi).1, by decide +kernel, by decide +kernel,
    by decide +kernel, by decide +kernel⟩

/-! ## Witnesses: waiting and barriers -/

/-- A network operation of the thread in flight. -/
def netOp : EngineOp := ⟨9, .net, .nget ⟨.l, false, 16, 0, 0, 0, 0⟩, 1, 0, 0, 0, some 0, 0, false, 0, 0, 0, 0, [], true, false, false,
  none, [], [], [], [], [], 0, false⟩

/-- `demo` with operations in flight and the group's counter of the network at their number. -/
def demoO (os : List EngineOp) : State := { (demo.updGrp 1 0 (fun g => { g with ctrNet := os.length, ctrFerry := os.length })) with
  ops := os, nextUid := 20 }

def fault1 : FaultRec := ⟨9, .net, 5, 6, .l, true, false⟩

def demoF : State := demo.updGrp 1 0 (fun g => { g with faults := [fault1] })

theorem wit_engineWaits :
    (∀ i ∈ [Instr.fenceE bare, .fenceN hd, .waitc hd .net 0], Clear demo 1 0 i ∧ Clear (demoO [netOp]) 1 0 i ∧ Clear demoF 1 0 i) ∧
    demo.ops = [] ∧ (demo.grp 1 0).faults = [] ∧ State.counterOf (demo.grp 1 0) .net = 0 ∧
    netOp ∈ (demoO [netOp]).ops ∧ netOp.acked = false ∧ 0 < State.counterOf ((demoO [netOp]).grp 1 0) .net ∧
    State.counterOf (demoF.grp 1 0) .net = 0 ∧ (demoF.grp 1 0).faults.find? (fun f => f.cls == .net) = some fault1 :=
  ⟨fun i hi => ⟨clear_all (s := demo) (by decide +kernel) i hi, clear_all (s := demoO [netOp]) (by decide +kernel) i hi,
    clear_all (s := demoF) (by decide +kernel) i hi⟩, by decide +kernel, by decide +kernel, by decide +kernel, by decide +kernel,
    by decide +kernel, by decide +kernel, by decide +kernel, by decide +kernel⟩

/-- A copy in flight whose promise is 5. -/
def cpyOp : EngineOp := { netOp with cls := .ferry, kind := .cpy (parseCpy []), promise := 5 }

/-- SLEEPT at its boundary: with the stamp at %cyc it passes, one cycle before it sleeps. -/
theorem wit_tokenAndSleepWaits :
    let busy := demo.updGrp 1 0 (fun g => { g with tokens := [⟨0, 0, []⟩] })
    let at5 : State := { (demoR [(4, 5)]) with cyc := 5 }
    let before : State := { (demoR [(4, 5)]) with cyc := 4 }
    let owed : State := { (demoR [(4, 5)]) with cyc := 5, ops := [cpyOp], nextUid := 20 }
    Clear demo 1 0 (.waitt hd (.imm 1)) ∧ (demo.grp 1 0).tokens = [] ∧ Clear busy 1 0 (.waitt hd (.imm 1)) ∧
    ⟨0, 0, []⟩ ∈ (busy.grp 1 0).tokens ∧ Clear at5 1 0 (.sleept bare (.lane 4)) ∧ at5.readSrc 1 0 0 (.lane 4) .n64 = 5 ∧
    at5.ops = [] ∧ (at5.lau (at5.team 1).launch).det = false ∧ Clear before 1 0 (.sleept bare (.lane 4)) ∧
    before.readSrc 1 0 0 (.lane 4) .n64 = 5 ∧ Runs owed 1 0 (.sleept bare (.lane 4)) ∧ owed.readSrc 1 0 0 (.lane 4) .n64 = 5 ∧
    cpyOp ∈ owed.ops ∧ cpyOp.uid < owed.nextUid ∧ cpyOp.promise ≤ 5 :=
  ⟨clear_of (by decide +kernel), by decide +kernel, clear_of (by decide +kernel), by decide +kernel, clear_of (by decide +kernel),
    by decide +kernel, by decide +kernel, by decide +kernel, clear_of (by decide +kernel), by decide +kernel,
    runs_of (by decide +kernel), by decide +kernel, by decide +kernel, by decide +kernel, by decide +kernel⟩

/-- `demo` with the bytes of a landing barrier at scratchpad offset 32: REMAIN and BFLAGS. -/
def landed (remain flags : Nat) : State :=
  demoU (fun t => { t with scratch := Mem.write [] 32 (toBytes 8 remain ++ toBytes 4 0 ++ toBytes 4 flags) })

/-- LWAIT at REMAIN equal to its number and one above; with FAULT, with NET, misaligned, past SCRATCH. -/
theorem wit_landingWaits :
    let i : Instr := .lwait hd (.lane 4) (.imm 3)
    let at_ (s : State) : State := s.updThr 1 0 (fun t => { t with regs := [(4, 32)] })
    Clear (at_ (landed 3 0)) 1 0 i ∧ Clear (at_ (landed 4 0)) 1 0 i ∧ Clear (at_ (landed 3 2)) 1 0 i ∧ Clear (at_ (landed 3 4)) 1 0 i ∧
    (at_ (landed 3 0)).readSrc 1 0 0 (.lane 4) .n32 = 32 ∧ leNat (scrBytes (at_ (landed 3 0)) 1 32 8) = 3 ∧
    leNat (scrBytes (at_ (landed 3 2)) 1 44 4) = 2 ∧ leNat (scrBytes (at_ (landed 3 4)) 1 44 4) = 4 ∧
    (at_ (landed 3 0)).ephOf ((at_ (landed 3 0)).team 1).launch = none ∧
    (∀ p, (at_ (landed 3 0)).writers (some 1) p = []) ∧ (at_ (landed 3 4)).ops = [] ∧ Runs (demoR [(4, 8)]) 1 0 i ∧
    Runs (demoR [(4, 65536)]) 1 0 i ∧ (demo.team 1).var.scratch = 65536 :=
  ⟨clear_of (by decide +kernel), clear_of (by decide +kernel), clear_of (by decide +kernel), clear_of (by decide +kernel),
    by decide +kernel, by decide +kernel, by decide +kernel, by decide +kernel, by decide +kernel,
    fun _ => writers_of (by decide +kernel) _ _, by decide +kernel, runs_of (by decide +kernel), runs_of (by decide +kernel),
    by decide +kernel⟩

/-- A team of two live threads, the first in hand. -/
def demoP (b : Bar) (f : Thread → Thread) : State := { (demoU (fun t => { t with body := { t.body with
  threads := [(0, f placeThread), (1, placeThread)], bars := [(2, b)] } })) with issue := ⟨1, [0]⟩ }

theorem wit_barriers :
    let owes : Thread → Thread := fun t => { t with pend := [⟨0, .result, [(3, 7)], []⟩] }
    let a := demoP Bar.start id
    let mine := demoP ⟨0, 1, [0], 0, []⟩ id
    let last := demoP ⟨0, 1, [1], 0, []⟩ id
    (∀ i ∈ [Instr.bar hd 2, .barArv hd 2, .cbar hd 1, .cbarArv hd 1], Clear a 1 0 i) ∧ a.settled 1 0 = true ∧
    0 ∉ (a.bar 1 2).arrived ∧ (1 ∈ (a.team 1).body.live ∧ 1 ∉ (a.bar 1 2).arrived) ∧
    (a.team 1).cluster = 3 ∧ 1024 ∉ (a.cbarOf 3 1).arrived ∧ (1025 ∈ a.cluLive 3 ∧ 1025 ∉ (a.cbarOf 3 1).arrived) ∧
    Clear mine 1 0 (.bar hd 2) ∧ mine.settled 1 0 = true ∧ 0 ∈ (mine.bar 1 2).arrived ∧
    Clear (demoP Bar.start owes) 1 0 (.bar hd 2) ∧ (demoP Bar.start owes).settled 1 0 = false ∧
    Clear last 1 0 (.bar hd 2) ∧ last.settled 1 0 = true ∧ 0 ∉ (last.bar 1 2).arrived ∧
    (∀ j ∈ (last.team 1).body.live, j = 0 ∨ j ∈ (last.bar 1 2).arrived) ∧ (last.team 1).body.csr.dbg.getLsbD 1 = false ∧
    ∀ k, last.waiting 1 (fun w => w == .barAgain k true || w == .barAgain k false) = [] :=
  ⟨clear_all (by decide +kernel), by decide +kernel, by decide +kernel, by decide +kernel, by decide +kernel, by decide +kernel,
    by decide +kernel, clear_of (by decide +kernel), by decide +kernel, by decide +kernel, clear_of (by decide +kernel),
    by decide +kernel, clear_of (by decide +kernel), by decide +kernel, by decide +kernel, by decide +kernel, by decide +kernel,
    fun _ => rfl⟩

/-! ## Witnesses: traps and registers of control -/

/-- The checks in their order: a bad immediate, a register past LREGS, a privileged instruction at task level, an outstanding
operand and guard with HZD, a false guard. -/
theorem wit_entryChecks :
    let hzd (s : State) : State := s.updBody 1 (fun b => { b with csr := { b.csr with dbg := 1 } })
    let late := hzd (demoT (fun t => { t with pend := [⟨0, .result, [(4, 7)], [(3, true)]⟩] }))
    let few := demoU (fun t => { t with img := { t.img with variants := [{ placeVariant with lregs := 16 }] } })
    let guarded : Head := ⟨.pred 3 false, false, false, none⟩
    let mov : Instr := .mov hd .n32 3 (.lane 4)
    laneSet mov = true ∧ laneSet (.csrw hd .sbase (.lane 4)) = true ∧ demo.issue = ⟨1, [0]⟩ ∧
    (demo.team 1).phase.issues = true ∧ (demo.thr 1 0).st = .ready ∧ demo.formBad 1 0 (.csrw hd .tsw (.lane 4)) = true ∧
    few.formBad 1 0 (.mov hd .n32 16 (.lane 4)) = false ∧ (regUse (.mov hd .n32 16 (.lane 4))).beyond (few.team 1).var = true ∧
    (regUse (.mov hd .n32 15 (.lane 4))).beyond (few.team 1).var = false ∧
    needsSupervisor (.csrw hd .sbase (.lane 4)) = true ∧ (demo.thr 1 0).priv = .task ∧
    late.hazardOn 1 = true ∧ late.earlyRead 1 0 (regUse mov) = true ∧ late.earlyGuard 1 0 hd = false ∧
    late.earlyGuard 1 0 guarded = true ∧ demo.guard 1 0 guarded = false :=
  by refine ⟨?_, ?_, ?_, ?_, ?_, ?_, ?_, ?_, ?_, ?_, ?_, ?_, ?_, ?_, ?_, ?_⟩ <;> decide +kernel

theorem wit_bundleOrder : laneSet (.nop bare) = true ∧ demo.issue = ⟨1, [0]⟩ ∧ [0, 1] ≠ [] ∧ demo2.issue = ⟨1, [0, 1]⟩ := by
  refine ⟨?_, ?_, ?_, ?_⟩ <;> decide +kernel

/-- A trap at level 0 and at level 1, and of a thread that owes a result. -/
theorem wit_takeTrap : (demo.thr 1 0).st ≠ .exited ∧ (demo.thr 1 0).st ≠ .parked ∧
    (demoT (fun t => { t with pend := [⟨0, .result, [(3, 7)], []⟩] })).settled 1 0 = false ∧ (demo.thr 1 0).pend = [] ∧ (demo.thr 1 0).level < 2 ∧
    ((demoL 1 .task).thr 1 0).st ≠ .exited ∧ ((demoL 1 .task).thr 1 0).pend = [] ∧ ((demoL 1 .task).thr 1 0).level = 1 ∧
    routedToTeam .trap = true ∧ routedToTeam .priv = false := by
  refine ⟨?_, ?_, ?_, ?_, ?_, ?_, ?_, ?_, ?_, ?_⟩ <;> decide +kernel

theorem wit_teamReset : ((demoL 2 .supervisor).thr 1 0).st ≠ .exited ∧ ((demoL 2 .supervisor).thr 1 0).st ≠ .parked ∧
    ((demoL 2 .supervisor).thr 1 0).pend = [] ∧ ((demoL 2 .supervisor).thr 1 0).level = 2 ∧
    (SMap.find (demoL 2 .supervisor).launches ((demoL 2 .supervisor).team 1).launch).isSome = true ∧
    ((demoL 2 .supervisor).lau ((demoL 2 .supervisor).team 1).launch).complete = false := by
  refine ⟨?_, ?_, ?_, ?_, ?_, ?_⟩ <;> decide +kernel

/-- TRET at each level, with a status word that stands and one that names a privilege above the thread's. -/
theorem wit_trapAndReturn :
    let up : State := (demoL 1 .task).updThr 1 0 (fun t => { t with slot1 := { t.slot1 with tsw := 1 } })
    let two : State := (demoL 2 .supervisor).updThr 1 0 (fun t => { t with slot2 := { t.slot2 with tsw := 0x101 } })
    Runs demo 1 0 (.trap hd (.imm 7)) ∧ Quiet demo 1 0 ∧ (demo.thr 1 0).pend = [] ∧ (demo.thr 1 0).level < 2 ∧
    Clear (demoL 1 .task) 1 0 (.tret bare) ∧ 0 < ((demoL 1 .task).thr 1 0).level ∧ ((demoL 1 .task).thr 1 0).slot.tsw = 0 ∧
    Clear two 1 0 (.tret bare) ∧ (two.thr 1 0).slot.tsw = 0x101 ∧ Runs up 1 0 (.tret bare) ∧ (up.thr 1 0).slot.tsw = 1 ∧
    (up.thr 1 0).priv = .task ∧ Runs demo 1 0 (.tret bare) ∧ (demo.thr 1 0).level = 0 :=
  ⟨runs_of (by decide +kernel), quiet_of (by decide +kernel), by decide +kernel, by decide +kernel, clear_of (by decide +kernel),
    by decide +kernel, by decide +kernel, clear_of (by decide +kernel), by decide +kernel, runs_of (by decide +kernel),
    by decide +kernel, by decide +kernel, runs_of (by decide +kernel), by decide +kernel⟩

theorem wit_csrReads : (∀ i ∈ [Instr.csrr hd .tsw 4, .csrr hd .tpc 4, .csrr hd .tca 4, .csrr hd .tva 4, .csrr hd .tvb 4, .csrr hd .fflags 4,
    .csrr hd .rngk 4, .csrr hd .fair 4, .csrr hd .lease 4, .csrr hd .ckint 4, .csrr hd .dbg 4, .csrr hd .sbase 4, .csrr hd .hypcap 4,
    .csrr hd .rngc 4], Clear (demoL 1 .supervisor) 1 0 i) ∧ (demoL 1 .supervisor).rngOut 1 0 = 0 :=
  ⟨clear_all (by decide +kernel), by decide +kernel⟩

theorem wit_csrWrites : (∀ i ∈ [Instr.csrw hd .tsw (.lane 4), .csrw hd .tpc (.lane 4), .csrw hd .fflags (.lane 4), .csrw hd .rngk (.lane 4),
    .csrw hd .rngc (.lane 4), .csrw hd .fair (.lane 4), .csrw hd .lease (.lane 4), .csrw hd .ckint (.lane 4), .csrw hd .dbg (.lane 4),
    .csrw hd .sbase (.lane 4)], Clear (demoL 1 .supervisor) 1 0 i ∧ Clear (demoL 2 .supervisor) 1 0 i) ∧
    ((demoL 1 .supervisor).thr 1 0).level = 1 ∧ ((demoL 2 .supervisor).thr 1 0).level = 2 ∧
    (demoL 1 .supervisor).rngOut 1 0 = 0 ∧ ((demoL 1 .supervisor).team 1).work + 1 < 4096 :=
  ⟨fun i hi => ⟨clear_all (s := demoL 1 .supervisor) (by decide +kernel) i hi,
    clear_all (s := demoL 2 .supervisor) (by decide +kernel) i hi⟩, by decide +kernel, by decide +kernel, by decide +kernel,
    by decide +kernel⟩

/-- Permits at the boundary: all eight at once, one more than the variant has, a queue, nine, one more than is held. -/
theorem wit_permits :
    let held := demo.updBody 1 (fun b => { b with permits := 8 })
    let queue := demo.updCore 0 (fun k => { k with permitQ := [⟨1, none, 1⟩] })
    (∀ i ∈ [Instr.permitAcq hd (.imm 8), .permitTry hd 1 (.imm 8), .permitAcq hd (.imm 0)], Clear demo 1 0 i) ∧
    (demo.team 1).body.permits = 0 ∧ (demo.team 1).var.permits = 8 ∧ (demo.cor 0).permitQ = [] ∧ demo.freePermits 0 = 8 ∧
    Clear queue 1 0 (.permitAcq hd (.imm 1)) ∧ (queue.cor 0).permitQ ≠ [] ∧ Clear held 1 0 (.permitRel hd (.imm 8)) ∧
    (held.team 1).body.permits = 8 ∧ Runs held 1 0 (.permitAcq hd (.imm 1)) ∧ Runs held 1 0 (.permitTry hd 1 (.imm 1)) ∧
    Runs demo 1 0 (.permitRel hd (.imm 1)) ∧ Runs demo 1 0 (.permitRel hd (.imm 9)) :=
  ⟨clear_all (by decide +kernel), by decide +kernel, by decide +kernel, by decide +kernel, by decide +kernel,
    clear_of (by decide +kernel), by decide +kernel, clear_of (by decide +kernel), by decide +kernel, runs_of (by decide +kernel),
    runs_of (by decide +kernel), runs_of (by decide +kernel), runs_of (by decide +kernel)⟩

/-- `demo` in a deterministic launch. -/
def demoD : State := demo.updLau 2 (fun l => { l with det := true })

/-- `demo` with a map of switch point 3 from variant 0 to 1 and a posted request. -/
def demoS (point only : Option Nat) : State := demoU (fun t => { t with
  img := { t.img with variants := [placeVariant, placeVariant], maps := [⟨3, 0, 1, []⟩] }, sw := some ⟨1, point, none, only⟩ })

theorem wit_pointsAndCloses :
    let busy : State := demoO [netOp]
    Clear demo 1 0 (.dph bare) ∧ (demo.lau (demo.team 1).launch).det = false ∧ Clear demoD 1 0 (.dph bare) ∧
    (demoD.lau (demoD.team 1).launch).det = true ∧ Clear demo 1 0 (.yield hd (.imm 0)) ∧ Clear demo 1 0 (.yield hd (.imm 1)) ∧
    Clear demo 1 0 (.swpt bare 3) ∧ (demo.team 1).sw = none ∧ Clear (demoS none none) 1 0 (.swpt bare 3) ∧
    Clear (demoS (some 4) none) 1 0 (.swpt bare 3) ∧ Clear (demoS none (some 4)) 1 0 (.swpt bare 3) ∧
    ((demoS none none).team 1).sw = some ⟨1, none, none, none⟩ ∧
    (State.mapOf ((demoS none none).team 1).img 3 ((demoS none none).team 1).variant 1).isSome = true ∧
    Clear demo 1 0 (.ckpt hd) ∧ demo.closable 1 = true ∧ Clear busy 1 0 (.ckpt hd) ∧ busy.closable 1 = false :=
  ⟨clear_of (by decide +kernel), by decide +kernel, clear_of (by decide +kernel), by decide +kernel, clear_of (by decide +kernel),
    clear_of (by decide +kernel), clear_of (by decide +kernel), by decide +kernel, clear_of (by decide +kernel),
    clear_of (by decide +kernel), clear_of (by decide +kernel), by decide +kernel, by decide +kernel, clear_of (by decide +kernel),
    by decide +kernel, clear_of (by decide +kernel), by decide +kernel⟩

/-! ## Witnesses: invalidation, collectives, special functions -/

/-- A change of the thread to supervisor level in a handler. -/
def raised (s : State) : State := s.updThr 1 0 (fun t => { t with level := 1, priv := .supervisor, st := .inHandler })

/-- Bytes below 64 MiB are flushed, one more is refused. -/
theorem wit_invalidation :
    let g := raised demoG
    let o := raised (demoO [netOp])
    let flush (n : Word) : Instr := .cflush hd (.lane 2) (.imm n)
    (∀ i ∈ [Instr.tlbiCtx hd, .tlbiVdev hd, .tlbiPage hd (.lane 2), flush 0, flush 67108865], Clear g 1 0 i ∧ Clear o 1 0 i) ∧
    g.ops = [] ∧ netOp ∈ o.ops.filter (fun o' => (o.team o'.team).vdev == (o.team 1).vdev && (o.team o'.team).ctx == (o.team 1).ctx) ∧
    (let f := g.updThr 1 0 (fun t => { t with regs := [(2, 131072)] })
     Clear f 1 0 (flush 128) ∧ f.readPair 1 0 0 (.lane 2) = 131072 ∧ f.mapsTo 0 0 0 131072 = some 131072 ∧ inHbm 131072 = true ∧
     (f.holders (lineOf 131072)).length ≤ 1 ∧ f.writers (some 1) (LogItem.isLine (lineOf 131072)) = []) :=
  ⟨fun i hi => ⟨clear_all (s := raised demoG) (by decide +kernel) i hi, clear_all (s := raised (demoO [netOp])) (by decide +kernel) i hi⟩,
    by decide +kernel, by decide +kernel, clear_of (by decide +kernel), by decide +kernel, by decide +kernel, by decide +kernel,
    by decide +kernel, writers_of (by decide +kernel) _ _⟩

/-- A collective that names its own lane, and one that names a second live lane. -/
theorem wit_collectives :
    let two := demoP Bar.start id
    (∀ i ∈ [Instr.shfl hd .lane .n32 none 3 (.lane 1) (.konst .zero) (.konst .one), .vote hd .same 1 (.pred 2) (.lane 0) (.konst .one),
      .ballot hd 4 (.pred 2) (.konst .one), .matchLanes hd .n32 none 4 (.lane 1) (.konst .one),
      .redux hd .add .n32 none 3 (.lane 1) (.lane 0) (.konst .one), .scan hd .add false .n32 none 3 (.lane 1) (.konst .one)],
      Clear demo 1 0 i) ∧
    (∀ i ∈ [Instr.shfl hd .lane .n32 none 3 (.lane 1) (.konst .zero) (.imm 3), .ballot hd 4 (.pred 2) (.imm 3)], Clear two 1 0 i) ∧
    (demo.grp 1 0).colls = [] ∧ BitVec.ofNat 32 (demo.readSrc 1 0 2 (.konst .one) .n32) = BitVec.ofNat 32 (2 ^ laneOf 0) ∧
    (two.grp 1 0).colls = [] ∧ (1 < 32 ∧ 1 ≠ laneOf 0 ∧ (3 : Word).getLsbD 1 = true ∧ (two.thr 1 (32 * 0 + 1)).st ≠ .exited) :=
  ⟨clear_all (by decide +kernel), clear_all (by decide +kernel), by decide +kernel, by decide +kernel, by decide +kernel,
    by decide +kernel⟩

/-- The queue of a quad at seven entries has room, at eight it is full. -/
theorem wit_specialFunctions :
    let i : Instr := .sfq hd .rcp 4 3 (.lane 1)
    let at_ (n : Nat) (w : List (Nat × Nat × Word)) : State :=
      demo.updGrp 1 0 (fun g => { g with tokens := (List.range n).map (fun k => ⟨k + 5, k, w⟩) })
    let busy : State := demo.updGrp 1 0 (fun g => { g with tokens := [⟨4, 0, [(0, 3, 7)]⟩] })
    Clear (at_ 7 []) 1 0 i ∧ (at_ 7 []).queued 1 0 = 7 ∧ ((at_ 7 []).grp 1 0).tokens.any (fun x => x.num == 4) = false ∧
    Clear (at_ 8 []) 1 0 i ∧ (at_ 8 []).queued 1 0 = 8 ∧ Clear busy 1 0 i ∧ (busy.grp 1 0).tokens.any (fun x => x.num == 4) = true ∧
    (busy.grp 1 0).tokens.find? (fun x => x.num == 4) = some ⟨4, 0, [(laneOf 0, 3, 7)]⟩ ∧ Quiet busy 1 0 ∧ (busy.thr 1 0).st ≠ .exited ∧
    busy.hazardOn 1 = false :=
  ⟨clear_of (by decide +kernel), by decide +kernel, by decide +kernel, clear_of (by decide +kernel), by decide +kernel,
    clear_of (by decide +kernel), by decide +kernel, by decide +kernel, quiet_of (by decide +kernel), by decide +kernel,
    by decide +kernel⟩

/-! ## Witnesses: engines and the network -/

/-- `demo` with bytes at the start of the scratchpad, a permit held, the translation of a remote window, and tokens at port 0. -/
def demoB (bs : List Byte) : State :=
  let s : State := (((demoU (fun t => { t with scratch := Mem.write [] 0 bs })).updBody 1 (fun b => { b with permits := 1 })).updCore 0
    (fun k => { k with tlb := [⟨0, 4294967296, 65536, 0x100000000000, true, true, false, false⟩] })).updVd 0
    (fun v => { v with peers := [(5, ⟨0, []⟩)] })
  { s with buckets := SMap.set s.buckets (bucketKey (Arbiter.network 0).number 0) ⟨65536, 64, 16 * 65536⟩ }

theorem block_of {s : State} {u off n : Nat} (h : off % 16 = 0 ∧ off + n ≤ (s.team u).var.scratch) (hf : freeB s u off n = true) :
    Block s u off n := ⟨h.1, h.2, free_of hf⟩

def cpyBlock : List Byte := [4, 1, 1, 0] ++ toBytes 4 0 ++ toBytes 8 0x100 ++ toBytes 8 0x200 ++ toBytes 4 16 ++ toBytes 4 16 ++
  toBytes 4 2 ++ toBytes 4 16 ++ toBytes 8 0
def mmaBlock : List Byte := [1, 0, 6, 16] ++ toBytes 4 0 ++ toBytes 4 256 ++ toBytes 4 64 ++ toBytes 2 1 ++ toBytes 2 32 ++ toBytes 12 0
def drainBlock : List Byte := [2, 0, 4, 1] ++ toBytes 4 0 ++ toBytes 4 256 ++ toBytes 4 4 ++ toBytes 2 1 ++ toBytes 2 1 ++ toBytes 8 0 ++
  toBytes 4 0xFFFFFFFF

theorem wit_engineIssue :
    let cpy := demoB cpyBlock
    let mma := demoB mmaBlock
    let drain := demoB drainBlock
    let zero := demoB [3]
    (Clear cpy 1 0 (.cpy hd 8 (.lane 4)) ∧ Block cpy 1 0 48 ∧
      firstBad (cpyFields (scrBytes cpy 1 0 48) (parseCpy (scrBytes cpy 1 0 48))) = none ∧
      cpy.cpyExtentTrap 1 (parseCpy (scrBytes cpy 1 0 48)) = none ∧ cpy.hasRoom 1 0 .ferry = true ∧
      (cpy.ctx (cpy.team 1).vdev (cpy.team 1).ctx).regions = []) ∧
    (let m := parseMma (scrBytes mma 1 0 32)
     Clear mma 1 0 (.mma bare (.lane 4)) ∧ Block mma 1 0 32 ∧ firstBad (mma.mmaFields 1 (scrBytes mma 1 0 32) m) = none ∧
      m.breg + mmaRegs m.fmt ≤ (mma.team 1).var.lregs ∧ extentTrap (mma.team 1).var.scratch m.extents = none ∧
      mma.openChains 1 < (mma.team 1).body.permits ∧ mma.hasRoom 1 0 .matrix = true ∧
      mma.captureEarly 1 0 m.breg (mmaRegs m.fmt) = false ∧ (mma.tile? 1 m.tile).all (fun x => !State.tileHas x .drne) = true) ∧
    (let r := parseDrain (scrBytes drain 1 0 32)
     Clear drain 1 0 (.mdrain bare (.lane 4)) ∧ Block drain 1 0 32 ∧ firstBad (drain.drainFields 1 (scrBytes drain 1 0 32) r) = none ∧
      extentTrap (drain.team 1).var.scratch r.extents = none ∧ drain.hasRoom 1 0 .matrix = true) ∧
    Clear zero 1 0 (.mzero bare (.lane 4)) ∧ Block zero 1 0 16 ∧ firstBad (zero.mzeroFields 1 (scrBytes zero 1 0 16)) = none ∧
    zero.hasRoom 1 0 .matrix = true :=
  ⟨⟨clear_of (by decide +kernel), block_of (by decide +kernel) (by decide +kernel), by decide +kernel, by decide +kernel,
      by decide +kernel, by decide +kernel⟩,
    ⟨clear_of (by decide +kernel), block_of (by decide +kernel) (by decide +kernel), by decide +kernel, by decide +kernel,
      by decide +kernel, by decide +kernel, by decide +kernel, by decide +kernel, by decide +kernel⟩,
    ⟨clear_of (by decide +kernel), block_of (by decide +kernel) (by decide +kernel), by decide +kernel, by decide +kernel,
      by decide +kernel⟩,
    clear_of (by decide +kernel), block_of (by decide +kernel) (by decide +kernel), by decide +kernel, by decide +kernel⟩

/-- A network block: kind, local base 64 in L, 16 bytes, remote address, tag and offset. -/
def netBlock (kind : Byte) (raddr : Nat) : List Byte :=
  [kind, 1, 0, 0] ++ toBytes 4 16 ++ toBytes 8 64 ++ toBytes 8 raddr ++ toBytes 8 0

theorem wit_networkIssue :
    let get := demoB (netBlock 6 4294967360)
    let put := demoB (netBlock 5 4294967360)
    let send := demoB (netBlock 7 5)
    let i (s : State) : NetBlk := parseNet (scrBytes s 1 0 32)
    let open_ (s : State) (peer n : Nat) : Bool := match SMap.find (s.vd 0).peers peer with
      | some e => s.portUp e.port && decide (n * 65536 ≤ (s.bucket (.network e.port) 0).tokens)
      | none => true
    (Clear get 1 0 (.nget bare (.lane 4)) ∧ Block get 1 0 32 ∧ firstBad (netFields .get (scrBytes get 1 0 32) (i get)) = none ∧
      get.hasRoom 1 0 .net = true ∧ (get.vd (get.team 1).vdev).resetting = none ∧ (i get).raddr % 65536 + (i get).len ≤ 65536 ∧
      Cached get 1 0 (i get).raddr 0x100000000040 .remoteRead ∧ (i get).local_ = .l ∧
      (i get).lbase + (i get).len ≤ (get.team 1).var.scratch ∧ get.ops = [] ∧
      open_ get (State.peerOf 0x100000000040) 0 = true) ∧
    (let z := put.doClose 1
     Clear put 1 0 (.nput bare (.lane 4)) ∧ put.ops = [] ∧ (put.thr 1 0).hyp = 0 ∧ Block z 1 0 32 ∧
      firstBad (netFields .put (scrBytes z 1 0 32) (i z)) = none ∧ z.hasRoom 1 0 .net = true ∧ (z.vd (z.team 1).vdev).resetting = none ∧
      (i z).raddr % 65536 + (i z).len ≤ 65536 ∧ Cached z 1 0 (i z).raddr 0x100000000040 .remoteWrite ∧ (i z).local_ = .l ∧
      (i z).lbase + (i z).len ≤ (z.team 1).var.scratch ∧ FreeScr z 1 1 (i z).lbase (i z).len ∧
      open_ z (State.peerOf 0x100000000040) (i z).len = true) ∧
    (let z := send.doClose 1
     Clear send 1 0 (.nsend bare (.lane 4)) ∧ send.ops = [] ∧ (send.thr 1 0).hyp = 0 ∧ Block z 1 0 32 ∧
      firstBad (netFields .send (scrBytes z 1 0 32) (i z)) = none ∧ z.hasRoom 1 0 .net = true ∧ (z.vd (z.team 1).vdev).resetting = none ∧
      (i z).local_ = .l ∧ (i z).lbase + (i z).len ≤ (z.team 1).var.scratch ∧
      (SMap.find (z.vd (z.team 1).vdev).peers (i z).peer).isSome = true ∧ FreeScr z 1 1 (i z).lbase (i z).len ∧
      open_ z (i z).peer 16 = true) ∧
    (let under := put.updThr 1 0 (fun t => { t with hyp := 7 })
     Runs under 1 0 (.nput bare (.lane 4)) ∧ under.closable 1 = true ∧ (under.thr 1 0).hyp ≠ 0) :=
  ⟨⟨clear_of (by decide +kernel), block_of (by decide +kernel) (by decide +kernel), by decide +kernel, by decide +kernel,
      by decide +kernel, by decide +kernel, cached_of (by decide +kernel), by decide +kernel, by decide +kernel, by decide +kernel,
      by decide +kernel⟩,
    ⟨clear_of (by decide +kernel), by decide +kernel, by decide +kernel, block_of (by decide +kernel) (by decide +kernel),
      by decide +kernel, by decide +kernel, by decide +kernel, by decide +kernel, cached_of (by decide +kernel), by decide +kernel,
      by decide +kernel, free_of (by decide +kernel), by decide +kernel⟩,
    ⟨clear_of (by decide +kernel), by decide +kernel, by decide +kernel, block_of (by decide +kernel) (by decide +kernel),
      by decide +kernel, by decide +kernel, by decide +kernel, by decide +kernel, by decide +kernel, by decide +kernel,
      free_of (by decide +kernel), by decide +kernel⟩,
    runs_of (by decide +kernel), by decide +kernel, by decide +kernel⟩

/-! ## Witnesses: tasks and hypotheses -/

/-- The smallest image: one variant, one instruction, an empty name. -/
def image : List Byte :=
  toBytes 4 0x494B485A ++ toBytes 4 1 ++ toBytes 4 1 ++ toBytes 4 0 ++ toBytes 4 64 ++ toBytes 4 96 ++ toBytes 4 96 ++ toBytes 4 0 ++
  toBytes 4 128 ++ toBytes 4 4 ++ toBytes 4 0 ++ toBytes 4 0 ++ toBytes 4 0 ++ toBytes 4 0 ++ toBytes 4 0 ++ toBytes 4 132 ++
  ([32, 0, 0, 0] ++ toBytes 4 2048 ++ toBytes 4 0 ++ toBytes 4 4 ++ toBytes 4 0xFFFFFFFF ++ toBytes 12 0) ++ toBytes 32 0 ++
  toBytes 4 0x074F0000

/-- `demoB` with the image at 0x50000 of memory. -/
def demoI (bs : List Byte) : State := let s := demoB bs; { s with mem := Mem.write s.mem 327680 image }

def spawnBlock : List Byte := toBytes 8 327680 ++ toBytes 16 0 ++ toBytes 2 1 ++ toBytes 6 0

/-- A read of an image reaches its lines at once where no log holds anything and no core holds a line. -/
theorem reachImage_of {s : State} (h : s.teams.all (fun e => e.2.log.isEmpty) = true) (g : s.lines = []) (u : Option Nat) (d c addr : Nat) :
    s.reachImage u d c addr = .ok () s := by
  have hr : ∀ line, s.reach u line true = .ok () s := by
    intro line
    have hh : s.holders line = [] := by simp [State.holders, g]
    simp [State.reach, State.escapeLine, State.escape, writers_of h, State.closeAll, Res.bind, State.recallLine, hh]
  have hs : ∀ l, s.reachSpans u d c l = .ok () s := by
    intro l
    induction l with
    | nil => rfl
    | cons e r ih =>
      unfold State.reachSpans
      split
      · rw [hr]; exact ih
      · exact ih
  unfold State.reachImage
  rw [hs]
  simp only [Res.bind]
  split
  · exact hs _
  · rfl

theorem wit_spawn :
    let s := demoI spawnBlock
    let z := s.doClose 1
    let blk := scrBytes z 1 0 32
    ∃ img params y, Clear s 1 0 (.spawn bare 8 (.lane 4)) ∧ s.closable 1 = true ∧ Block z 1 0 32 ∧ 1 ≤ leAt blk 24 2 ∧ leAt blk 24 2 ≤ 32 ∧
      leAt blk 26 6 = 0 ∧ z.imageAt 0 0 (leAt blk 0 8) = .ok img ∧ (z.team 1).reexec = none ∧
      z.reachImage (some 1) 0 0 (leAt blk 0 8) = .ok () z ∧
      ((z.lau (z.team 1).launch).traced = true → img.modular = true) ∧
      img.variants.any (fun v => decide (v.scratch ≤ (z.lau (z.team 1).launch).carve)) = true ∧ (z.team 1).depth < 4 ∧
      (z.childCounts 1).1 < 1023 ∧ (z.childCounts 1).2 < 1023 ∧
      z.spawnParams 1 0 (leAt blk 8 8) (List.range (img.psize / 8)) = .ok params y ∧ y.closable 1 = true ∧
      y.launchMan (y.team 1).launch = none ∧ (SMap.find y.launches (y.team 1).launch).isSome = true := by
  intro s z blk
  have h : (match z.imageAt 0 0 (leAt blk 0 8) with
      | .ok img => decide (img.psize = 0) && img.variants.any (fun v => decide (v.scratch ≤ (z.lau (z.team 1).launch).carve))
      | .error _ => false) = true := by decide +kernel
  split at h
  · rename_i img hi
    rw [Bool.and_eq_true, decide_eq_true_eq] at h
    refine ⟨img, [], z, clear_of (by decide +kernel), by decide +kernel, block_of (by decide +kernel) (by decide +kernel),
      by decide +kernel, by decide +kernel, by decide +kernel, hi, by decide +kernel,
      reachImage_of (by decide +kernel) (by decide +kernel) _ _ _ _, ?_, h.2, by decide +kernel, by decide +kernel,
      by decide +kernel, ?_, by decide +kernel, by decide +kernel, by decide +kernel⟩
    · have : (z.lau (z.team 1).launch).traced = false := by decide +kernel
      intro x; rw [this] at x; cases x
    · rw [h.1]; rfl
  · cases h

/-- A manifest without records in a state of R333. -/
def manifest (st : Nat) : Manifest := ⟨0, 0, 262144, 65536, [262144], 0, st, 0, 1, 65536, 0, 0, 0, 131072, 1, [], none, none, none⟩

/-- Regions at the boundary: one that ends with the space, one granule more, one off its alignment, none, one that meets another;
the last entry of a table, a free one, a number past it. -/
theorem wit_tasks :
    let at_ (b : Nat) : State := demoR [(2, BitVec.ofNat 32 (b % 4294967296)), (3, BitVec.ofNat 32 (b / 4294967296))]
    let reg_ (n : Word) : Instr := .modreg hd 2 8 (.lane 2) (.imm n)
    let used := (at_ 64).updCtx 0 0 (fun x => { x with regions := [(255, ⟨64, 2, 1⟩)] })
    let man (st : Nat) : State := { (demoR [(2, 262144)]) with manifests := [manifest st] }
    (Clear (at_ 9007199254740988) 1 0 (reg_ 1) ∧ (at_ 9007199254740988).readPair 1 0 0 (.lane 2) = 9007199254740988 ∧
      (at_ 9007199254740988).meetsRegion 0 0 9007199254740988 4 = false ∧
      SMap.find ((at_ 9007199254740988).ctx 0 0).regions 0 = none) ∧
    (Runs (at_ 9007199254740988) 1 0 (reg_ 2) ∧ Runs (at_ 66) 1 0 (reg_ 1) ∧ (at_ 66).readPair 1 0 0 (.lane 2) = 66 ∧
      Runs (at_ 64) 1 0 (reg_ 0) ∧ Runs used 1 0 (reg_ 1) ∧ used.meetsRegion 0 0 64 4 = true) ∧
    (Clear used 1 0 (.modrel hd (.imm 255)) ∧ (used.thr 1 0).hyp = 0 ∧ (SMap.find (used.ctx 0 0).regions 255).isSome = true ∧
      used.manifests = [] ∧ Runs used 1 0 (.modrel hd (.imm 256)) ∧ Runs used 1 0 (.modrel hd (.imm 254)) ∧
      SMap.find (used.ctx 0 0).regions 254 = none) ∧
    (∀ st ∈ [0, 1, 2, 3, 4, 5], Clear (man st) 1 0 (.prop bare 1 (.lane 2)) ∧ (man st).closable 1 = true ∧
      ((man st).thr 1 0).hyp = 0 ∧ (((man st).doClose 1).man? 0 0 (((man st).doClose 1).readPair 1 0 0 (.lane 2))).map Manifest.state =
        some st) :=
  ⟨⟨clear_of (by decide +kernel), by decide +kernel, by decide +kernel, by decide +kernel⟩,
    ⟨runs_of (by decide +kernel), runs_of (by decide +kernel), by decide +kernel, runs_of (by decide +kernel),
      runs_of (by decide +kernel), by decide +kernel⟩,
    ⟨clear_of (by decide +kernel), by decide +kernel, by decide +kernel, by decide +kernel, runs_of (by decide +kernel),
      runs_of (by decide +kernel), by decide +kernel⟩,
    fun st h => by
      simp only [List.mem_cons, List.not_mem_nil, or_false] at h
      rcases h with rfl | rfl | rfl | rfl | rfl | rfl <;>
        exact ⟨clear_of (by decide +kernel), by decide +kernel, by decide +kernel, by decide +kernel⟩⟩

/-- `demo` with a chain of live hypotheses, the first of number 63 and node 40, its thread under the last of them or the root. -/
def demoH (n : Nat) (deep : Bool) : State := { (demoT (fun t => { t with hyp := if deep then 39 + n else 0 })) with
  hyps := (List.range n).map (fun i => (40 + i, ⟨0, 63 - i, if i = 0 then 0 else 39 + i, .live⟩)), nextUid := 200 }

/-- The numbers at their ends: 0, 1, 63 and 64; a chain of eight and one of seven. -/
theorem wit_hypotheses :
    let h1 := demoH 1 false
    (Clear (demoH 8 true) 1 0 (.hnew bare 8) ∧ (demoH 8 true).closable 1 = true ∧ 8 ≤ (demoH 8 true).hypDepth 47) ∧
    (Clear (demoH 7 true) 1 0 (.hnew bare 8) ∧ ((demoH 7 true).liveHyps 0).length < 63 ∧ (demoH 7 true).hypDepth 46 < 8 ∧
      1 ∉ ((demoH 7 true).liveHyps 0).map (demoH 7 true).hypNumber) ∧
    (Clear h1 1 0 (.hent hd (.imm 63)) ∧ h1.hypByNumber 0 63 = some 40 ∧ (h1.thr 1 0).hyp = 0 ∧ Clear h1 1 0 (.hent hd (.konst .zero)) ∧
      h1.hypByNumber 0 0 = some 0 ∧ Runs h1 1 0 (.hent hd (.imm 64)) ∧ Runs h1 1 0 (.hent hd (.imm 62)) ∧ h1.hypByNumber 0 62 = none) ∧
    (∀ i ∈ [Instr.hresConf hd 1 (.imm 63), .hresRef hd 1 (.imm 63), .hresConf hd 1 (.imm 62), .hresRef hd 1 (.imm 1),
      .hresConf hd 1 (.imm 64), .hresRef hd 1 (.konst .zero)], Clear h1 1 0 i) ∧ h1.closable 1 = true ∧ h1.vlines = [] ∧
    (h1.doClose 1).affected 0 40 = [] ∧ h1.hypByNumber 0 1 = none :=
  ⟨⟨clear_of (by decide +kernel), by decide +kernel, by decide +kernel⟩,
    ⟨clear_of (by decide +kernel), by decide +kernel, by decide +kernel, by decide +kernel⟩,
    ⟨clear_of (by decide +kernel), by decide +kernel, by decide +kernel, clear_of (by decide +kernel), by decide +kernel,
      runs_of (by decide +kernel), runs_of (by decide +kernel), by decide +kernel⟩,
    clear_all (by decide +kernel), by decide +kernel, by decide +kernel, by decide +kernel, by decide +kernel⟩

/-! ## Witnesses: events -/

/-- `demo` with the thread waiting at its instruction since cycle 0. -/
def demoW (k : WaitKind) : State := demoT (fun t => { t with st := .waiting, wait := some ⟨k, t.pc, false, 0, 0⟩ })

/-- A state at a cycle. -/
def atCyc (n : Nat) (s : State) : State := { s with cyc := n }

/-- A state with a second live thread in the team. -/
def withTwo (s : State) : State := s.updBody 1 (fun b => { b with threads := b.threads ++ [(1, placeThread)] })

/-- The window, the stamp and the yield count at their boundary: reached in the cycle that equals them. -/
theorem wit_threadEvents :
    let fair := demoT (fun t => { t with fair := 4096 })
    let sleep : State := { demoW (.sleept 5 20) with cyc := 5 }
    let owed : State := { sleep with ops := [cpyOp] }
    let wait : State := (demoW (.permit 8)).updCore 0 (fun k => { k with permitQ := [⟨1, some 0, 8⟩] })
    let late := demoT (fun t => { t with pend := [⟨6, .result, [(3, 7)], [(11, true)]⟩] })
    ((fair.thr 1 0).st.candidate = true ∧ (fair.team 1).body.csr.fair ≤ (fair.thr 1 0).fair) ∧
    ((sleep.thr 1 0).st = .waiting ∧ ((5 : Addr).toNat ≤ sleep.cyc) ∧ (sleep.lau (sleep.team 1).launch).det = false ∧
      sleep.promised 1 0 5 20 = [] ∧ Quiet sleep 1 0 ∧ sortBy EngineOp.promise (owed.promised 1 0 5 20) = [cpyOp]) ∧
    (((demoW (.yield 0)).thr 1 0).st = .waiting ∧ 0 ≤ (demoW (.yield 0)).yieldClock 1) ∧
    ((wait.cor 0).permitQ = [⟨1, some 0, 8⟩] ∧ 8 ≤ wait.freePermits 0 ∧ (wait.team 1).body.permits + 8 ≤ (wait.team 1).var.permits) ∧
    ((late.thr 1 0).st.candidate = true ∧
      (late.thr 1 0).pend.find? (fun x => x.seq == 6) = some ⟨6, .result, [(3, 7)], [(11, true)]⟩ ∧ Quiet late 1 0 ∧ late.hazardOn 1 = false) :=
  ⟨by decide +kernel, ⟨by decide +kernel, by decide +kernel, by decide +kernel, by decide +kernel, quiet_of (by decide +kernel),
    by decide +kernel⟩, by decide +kernel, by decide +kernel, by decide +kernel, by decide +kernel, quiet_of (by decide +kernel), by decide +kernel⟩

theorem wit_trapEvents :
    let open_ : CInstance := ⟨65536, [⟨0, .ballot hd 4 (.pred 2) (.imm 3), 0, 0, 3, false⟩], [], [], []⟩
    let stall := atCyc 16384 (withTwo ((demoW .collective).updGrp 1 0 (fun g => { g with colls := [open_] })))
    let bar := atCyc 1048576 (withTwo ((demoW (.bar 2)).updBody 1 (fun b => { b with bars := [(2, ⟨0, 1, [0], 0, []⟩)] })))
    let cbar := atCyc 1048576 (withTwo ((demoW (.cbar 1)).updCbar 3 1 (fun _ => ⟨0, 1, [1024], 0, []⟩)))
    ((demo.thr 1 0).st ≠ .exited ∧ (demo.thr 1 0).st ≠ .parked ∧ (demo.thr 1 0).st ≠ .waiting ∧ Quiet demo 1 0 ∧ ((demoW .collective).thr 1 0).st = .waiting ∧
      Quiet (demoW .collective) 1 0) ∧
    (Quiet stall 1 0 ∧ (stall.grp 1 (groupOf 0)).colls ≠ [] ∧
      stall.collReady 1 0 ⟨65536, [⟨0, .ballot hd 4 (.pred 2) (.imm 3), 0, 0, 3, false⟩], [], [], []⟩
        ⟨0, .ballot hd 4 (.pred 2) (.imm 3), 0, 0, 3, false⟩ = false ∧ 0 + 4 * (stall.team 1).body.csr.fair ≤ stall.cyc) ∧
    (Quiet bar 1 0 ∧ bar.waiting 1 (atTeamBar 2) = [0] ∧ (bar.bar 1 2).last + 1048576 ≤ bar.cyc) ∧
    (Quiet cbar 1 0 ∧ (cbar.clu 3).members = [1] ∧ cbar.waiting 1 (atClusterBar 1) = [0] ∧ (cbar.cbarOf 3 1).last + 1048576 ≤ cbar.cyc) ∧
    ((∀ line, demo.writers none (LogItem.isLine line) = []) ∧ demo.holders 512 = [] ∧ demo.damaged.contains 512 = false) :=
  ⟨⟨by decide +kernel, by decide +kernel, by decide +kernel, quiet_of (by decide +kernel), by decide +kernel, quiet_of (by decide +kernel)⟩,
    ⟨quiet_of (by decide +kernel), by decide +kernel, by decide +kernel, by decide +kernel⟩,
    ⟨quiet_of (by decide +kernel), by decide +kernel, by decide +kernel⟩,
    ⟨quiet_of (by decide +kernel), by decide +kernel, by decide +kernel, by decide +kernel⟩,
    fun _ => writers_of (by decide +kernel) _ _, by decide +kernel, by decide +kernel⟩

/-- An operation of the matrix engine in flight. -/
def matOp (k : OpKind) : EngineOp := { netOp with cls := .matrix, kind := k, started := false }

theorem wit_engineEvents :
    let on (k : OpKind) : State := demoO [matOp k]
    let mma : OpKind := .mma (parseMma mmaBlock) [] false
    let drain : OpKind := .mdrain (parseDrain drainBlock)
    let copy : EngineOp := { netOp with cls := .ferry, kind := .cpy (parseCpy cpyBlock), started := false }
    let moves : State := { (demoO [copy]) with buckets := [(bucketKey (Arbiter.ferry 0).number 0, ⟨65536, 1024, 67108864⟩)] }
    let done : EngineOp := { copy with complete := true }
    (∀ k ∈ [OpKind.mzero 0 .f32, mma, drain], (on k).ops = [matOp k] ∧ (SMap.find (on k).teams 1).isSome = true ∧
      (on k).matrixTurnOf 0 = some 1 ∧ (on k).nextMatrix 0 1 = some (matOp k) ∧ (on k).capturing (matOp k) = false) ∧
    (∀ k p, (demoO [matOp k]).writers (some 1) p = []) ∧
    ((parseDrain drainBlock).rowsc = false ∧ (parseDrain drainBlock).colsc = false ∧ (parseDrain drainBlock).stoff = 0xFFFFFFFF ∧
      elemBytes (parseDrain drainBlock).ofmt (parseDrain drainBlock).ocols ≤ (parseDrain drainBlock).ostride) ∧
    ((parseCpy cpyBlock).sspace = .l ∧ (parseCpy cpyBlock).dspace = .l ∧ (parseCpy cpyBlock).rows = 2 ∧
      copy.fault = none ∧ SMap.find copy.rowBuf 1 = none ∧ copy.parts = [] ∧
      ((parseCpy cpyBlock).rowBytes - copy.paid) * 65536 ≤ (moves.bucket (.ferry 0) 0).tokens ∧
      ∀ i, i < 16 → moves.opReads copy (.scr 1 (0x200 + 1 * 16 + i)) = false) ∧
    (Quiet (demoO [done]) 1 0 ∧ (demoO [done]).ops = [done] ∧ done.clash = [] ∧ done.held = []) ∧
    (Quiet (on mma) 1 0 ∧ ∀ j ∈ ((on mma).team 1).body.live, ((on mma).thr 1 j).st ≠ .waiting ∧ ((on mma).thr 1 j).st ≠ .parked) :=
  ⟨by decide +kernel, fun k p => writers_of (s := demoO [matOp k]) (by rfl) _ _, by decide +kernel, by decide +kernel,
    ⟨quiet_of (by decide +kernel), by decide +kernel⟩, quiet_of (by decide +kernel), by decide +kernel⟩

/-- A variant of a number of register rows a group, with no scratchpad. -/
def rowsOf (n : Nat) : Variant := { placeVariant with lregs := n, uregs := 0, scratch := 0, accums := 0, permits := 0 }

/-- The quota of a virtual device on core 0: every slot and the whole scratchpad, and register rows in quadrant 0 alone. -/
def withQuota (rows : Nat) (s : State) : State :=
  s.updVd 0 (fun v => { v with quotas := [(0, ⟨0, 64, [0, 0, 0, 0], [rows, 0, 0, 0], 0, 320, 0, 8, 0⟩)] })

/-- A task in the queue: one group of a variant. -/
def taskOf (v : Variant) : QTask :=
  ⟨9, { placeImage with variants := [v] }, [1], 7, 1, 1, 0, some 0, 0, none, none, false⟩

/-- A state with a task in the queue of the placed launch. -/
def withTask (q : QTask) (s : State) : State := s.updLau 2 (fun l => { l with spawned := [q] })

/-- A team at its switch point, one to be switched, one to start and one to complete. -/
theorem wit_teamEvents :
    let two : Image := { placeImage with variants := [rowsOf 64, rowsOf 32], maps := [⟨3, 0, 1, []⟩] }
    let ask : State := withTask (taskOf (rowsOf 64)) (withQuota 96 (demoU (fun t => { t with img := two })))
    let held : Image := { placeImage with variants := [placeVariant, placeVariant], maps := [⟨3, 0, 1, [⟨0, 4, 5, 2⟩]⟩] }
    let at_ : State := (demoU (fun t => { t with img := held, sw := some ⟨1, some 3, some 0, none⟩ })).updThr 1 0
      (fun t => { t with st := .waiting, wait := some ⟨.swpt 3, t.pc, false, 0, 0⟩ })
    let posted : State := (demoU (fun t => { t with img := held, sw := some ⟨1, none, none, none⟩ })).updThr 1 0
      (fun t => { t with st := .waiting, wait := some ⟨.swpt 3, t.pc, false, 0, 0⟩ })
    let start : State := demoU (fun t => { t with phase := .admitted })
    let done : State := demoT (fun t => { t with st := .exited })
    ((ask.team 1).phase.issues = true ∧ (ask.team 1).sw = none ∧ ask.endpoint.landings = [] ∧
      ask.switchFits 1 ((ask.team 1).img.variants.getD 1 Variant.none) = true ∧ ask.ephSwitch 1 = none ∧
      (ask.team 1).body.permits ≤ 0 ∧ (ask.team 1).variant < 1 ∧ ask.switchHelps 1 1 = true) ∧
    ((posted.thr 1 0).wait.map Wait.k = some false ∧ posted.withdrawable 1 = true ∧ Quiet posted 1 0 ∧
      posted.waiting 1 State.isSwpt = [0] ∧ (posted.team 1).sw = some ⟨1, none, none, none⟩) ∧
    (State.mapOf (at_.team 1).img 3 0 1 = some ⟨3, 0, 1, [⟨0, 4, 5, 2⟩]⟩ ∧ (at_.team 1).body.live = [0] ∧
      at_.waiting 1 State.isSwpt = [0] ∧ at_.ops = [] ∧ Quiet at_ 1 0 ∧ (at_.thr 1 0).st ≠ .exited ∧ (at_.thr 1 0).pend = [] ∧
      (at_.grp 1 0).tokens = [] ∧ State.mapSource [⟨0, 4, 5, 2⟩] 0 6 = some 5 ∧ (at_.team 1).sw = some ⟨1, some 3, some 0, none⟩) ∧
    ((start.team 1).phase = .admitted ∧ (start.team 1).reexec = none ∧ (start.team 1).startHyp = 0 ∧ (start.team 1).startOrphan = none ∧
      31 < 32 * (start.team 1).gcount) ∧
    done.completable 1 = true :=
  ⟨by decide +kernel, ⟨by decide +kernel, by decide +kernel, quiet_of (by decide +kernel), by decide +kernel⟩, ⟨by decide +kernel,
    by decide +kernel, by decide +kernel, by decide +kernel, quiet_of (by decide +kernel), by decide +kernel⟩, by decide +kernel,
    by decide +kernel⟩
/-! ## Witnesses: admissions, removals, errors -/

/-- `demo` with room on cores 0 and 1 and its launch of a shape with one cluster to admit. -/
def gridOf (h w : Nat) : State :=
  let q : Quota := ⟨0, 64, [0, 0, 0, 0], [256, 256, 256, 256], 0, 320, 0, 8, 0⟩
  let img : Image := { placeImage with variants := [rowsOf 32] }
  let s := demo.updVd 0 (fun v => { v with quotas := [(0, q), (1, q)] })
  s.updLau 2 (fun l => { l with img := img, teams := h * w, ch := h, cw := w, nextClus := 0 })

/-- The premises of an admission, as a check. -/
def readyB (s : State) (l : Nat) (it : Item) : Bool :=
  (SMap.find s.launches l).isSome && !(s.lau l).complete && !(s.lau l).det && s.itemsOf l == [it] && !s.outranked l it false &&
  (s.launchMan l).isNone

theorem wit_admissions :
    let one := gridOf 1 1
    let pair := gridOf 1 2
    let task := withTask (taskOf (rowsOf 32)) (withQuota 256 demo)
    let img : Image := { placeImage with variants := [rowsOf 32] }
    let back := (withQuota 256 (demoU (fun t => { t with phase := .saved, img := img }))).updLau 2 (fun l => { l with requeue := [1] })
    (readyB pair 2 .grid = true ∧ pair.itemSpots 2 .grid = some [some ⟨0, 0, none, [16]⟩, some ⟨1, 0, none, [0]⟩] ∧
      (pair.lau 2).ch * (pair.lau 2).cw = 2) ∧
    (readyB one 2 .grid = true ∧ (one.lau 2).ch = 1 ∧ (one.lau 2).cw = 1 ∧ one.itemSpots 2 .grid = some [some ⟨0, 0, none, [16]⟩]) ∧
    (readyB task 2 (.spawned (taskOf (rowsOf 32))) = true ∧
      task.itemSpots 2 (.spawned (taskOf (rowsOf 32))) = some [some ⟨0, 0, none, [4]⟩]) ∧
    ((back.team 1).phase = .saved ∧ (back.team 1).launch = 2 ∧ (back.clu (back.team 1).cluster).members = [1] ∧
      (SMap.find back.launches 2).isSome = true ∧ (∀ j ∈ (back.team 1).body.live, (back.thr 1 j).st ≠ .waiting ∧ (back.thr 1 j).st ≠ .parked) ∧
      back.behind 2 (.back 3) = false ∧
      back.itemSpots 2 (.back 3) = some [some ⟨0, 0, none, [0]⟩] ∧ back.outranked 2 (.back 3) true = false) := by
  decide +kernel

/-- `demo` alone, its launch's estimate limit a number of microseconds, its team changed. -/
def demoV (drain : Nat) (f : Team → Team) : State := (demoU f).updVd 0 (fun v => { v with drainUs := drain })

/-- The premises on a team that is removed, as a check. -/
def aloneB (s : State) (u : Nat) : Bool :=
  (s.team u).phase == .running && s.together u == [u] && (s.team u).sw.isNone && (s.team u).logBad.isNone &&
  (SMap.find s.launches (s.team u).launch).isSome && !s.removalWaits [u] &&
  (s.team u).body.live.all (fun j => (s.thr u j).st != .waiting && (s.thr u j).st != .parked)

/-- The estimate at the limit drains, and one above it saves or restarts; a drain ends in the cycle it is due. -/
theorem wit_removals :
    let any := demoV 50 id
    let again := demoV 50 (fun t => { t with img := { placeImage with idempotent := true } })
    let drains := atCyc 7 (demoV 50 (fun t => { t with phase := .draining, drainBy := some 7 }))
    let saves := demoV 50 (fun t => { t with phase := .saving })
    let lent := (withTask (taskOf (rowsOf 32)) (withQuota 0 (demoU (fun t => { t with vdev := 1, lender := some 0 })))).updLau 2
      (fun l => { l with vdev := 0 })
    let other : Team := { placeTeam 2 10 with phase := .saved, reclaimBy := some 7 }
    let late : State := let s := atCyc 7 demo
      { s with teams := s.teams ++ [(9, other)], clusters := s.clusters ++ [(10, { s.clu 3 with members := [9] })] }
    let gone := demo.updVd 15 (fun v => { v with resetting := some 0 })
    let reset := atCyc 7 (demo.updVd 0 (fun v => { v with resetting := some 0 }))
    (aloneB any 1 = true ∧ PreNeed.sliceEnd ≠ PreNeed.other) ∧
    (aloneB any 1 = true ∧ 50 ≤ (any.vd (any.team 1).vdev).drainUs) ∧
    (aloneB again 1 = true ∧ (again.vd (again.team 1).vdev).drainUs < 51 ∧ (again.team 1).img.idempotent = true ∧
      (again.team 1).irrevocable = false) ∧
    ((any.vd (any.team 1).vdev).drainUs < 51 ∧ ¬((any.team 1).img.idempotent = true ∧ (any.team 1).irrevocable = false)) ∧
    ((drains.team 1).phase = .draining ∧ drains.together 1 = [1] ∧ drains.removalWaits [1] = false ∧ (drains.team 1).sw = none ∧ (drains.team 1).logBad = none ∧
      (SMap.find drains.launches (drains.team 1).launch).isSome = true ∧ (drains.team 1).drainBy = some drains.cyc) ∧
    ((saves.team 1).phase = .saving ∧ saves.together 1 = [1] ∧ saves.saveReady 1 = true ∧ (saves.team 1).saveRolled = false ∧
      (SMap.find saves.launches (saves.team 1).launch).isSome = true) ∧
    (aloneB lent 1 = true ∧ lent.resident.filter (lent.borrows 0 (lent.team 1).core) = [1] ∧
      (lent.waitingTeams 0).any (fun w => !lent.couldAdmit (lent.team 1).core w) = true) ∧
    (aloneB late 1 = true ∧ (late.team 9).phase = .saved ∧ (late.team 9).reclaimBy = some late.cyc ∧
      late.itemSpots (late.team 9).launch (.back (late.team 9).cluster) = none ∧
      (sortBy (fun w => (late.team w).admittedAt) (late.resident.filter (fun w => (late.team w).vdev == (late.team 9).vdev))).getLast? =
        some 1) ∧
    ((15 < 16 ∧ (demo.vd 15).resetting = none) ∧ (gone.vd 15).resetting = some 0 ∧ gone.drained 15 = true) ∧
    ((reset.vd 0).resetting = some 0 ∧ reset.drained 0 = true ∧ SMap.find reset.launches 2 = some placeLaunch ∧ placeLaunch.vdev = 0) := by
  decide +kernel

/-- A row in the log and one that is not, the third error; a row's last number; an error at level 0 and at level 1. -/
theorem wit_errors :
    let shut := demoU (fun t => { t with closing := true })
    let held := (demoO [netOp]).updTeam 1 (fun t => { t with closing := true })
    let open_ := (demoO [{ netOp with interval := none }]).updTeam 1 (fun t => { t with closing := true })
    let rows := demoU (fun t => { t with log := [.scratchRow 1 31 (Mem.write [] 63490 [7])] })
    let regs := demoU (fun t => { t with log := [.regRow 0 127] })
    let last := demoU (fun t => { t with log := [.regRow 0 127], errRollbacks := 2 })
    let l1 (k : L1Kind) : State := demoG.updCore 479 (fun c => { c with l1 := [(1024, ⟨0, k, 0, 0, [], 0, 0⟩)] })
    ((shut.team 1).phase.resident = true ∧ (shut.team 1).closing = true ∧ (shut.team 1).body.bars = [] ∧
      (shut.clu (shut.team 1).cluster).bars = [] ∧ shut.closable 1 = true ∧ held.closable 1 = false ∧ (held.team 1).closing = true ∧
      open_.closable 1 = true) ∧
    ((rows.team 1).phase.resident = true ∧ (rows.team 1).snap.bars = [] ∧ (rows.team 1).logBad = none ∧
      Mem.wf (Mem.write [] 63490 [7]) = true ∧ Mem.get (Mem.write [] 63490 [7]) 63490 = 7) ∧
    (LogItem.regRow 0 127 ∈ (regs.team 1).log ∧ (regs.team 1).errRollbacks < 2 ∧ (regs.team 1).snap.bars = [] ∧
      (regs.team 1).phase.resident = true ∧ (regs.team 1).logBad = none) ∧
    (∀ s ∈ [demo, last, demoL 1 .task], (LogItem.regRow 0 127 ∉ (s.team 1).log ∨ 2 ≤ (s.team 1).errRollbacks) ∧ Quiet s 1 0 ∧
      (s.thr 1 0).st.candidate = true ∧ (s.thr 1 0).pend = [] ∧ (s.thr 1 0).level < 2) ∧
    (∀ v ∈ demo.resident, demo.logsLine v 1024 = false) ∧
    ∀ k ∈ [L1Kind.leased, .owned], ((l1 k).cor 479).l1[0]? = some (1024, ⟨0, k, 0, 0, [], 0, 0⟩) :=
  ⟨by decide +kernel, by decide +kernel, by decide +kernel, fun s h => by
    simp only [List.mem_cons, List.not_mem_nil, or_false] at h
    rcases h with rfl | rfl | rfl <;>
      exact ⟨by decide +kernel, quiet_of (by decide +kernel), by decide +kernel, by decide +kernel, by decide +kernel⟩,
    by decide +kernel, by decide +kernel⟩

theorem noHolders_of {s : State} {n : Nat} {h : HomeLine} (e : s.lines = [(n, h)]) : ∀ l, l ≠ n → s.holders l = [] := by
  intro l hl
  unfold State.holders
  rw [e]
  simp [SMap.find, Ne.symm hl]

/-- The line 1024 resident with holders, each with a copy whose bytes it has written lie under a mask. -/
def demoC (k : L1Kind) (holders : List (Nat × BitVec 128)) : State :=
  let s := { demoG with lines := [(1024, ⟨0, 0, 0, 0, holders.map Prod.fst, 0, false⟩)] }
  holders.foldl (fun (s : State) e => s.updCore e.1 (fun c => { c with l1 := [(1024, ⟨0, k, 0, 0, [], e.2, 0⟩)] })) s

theorem wit_homeEvents :
    let h : HomeLine := ⟨0, 0, 0, 0, [], 0, false⟩
    let stale : State := ((demoC .leased []).updCore 0 (fun c => { c with pts := 1, l1 := [(1024, ⟨0, .leased, 0, 0, [], 0, 0⟩)] }))
    let one := demoC .owned [(0, 1)]
    let two := demoC .privatised [(0, 1), (479, 2)]
    (∀ s ∈ [demoG, stale], inHbm 131195 = true ∧ s.writers none (LogItem.isLine 1024) = [] ∧ SMap.find s.lines 1024 = some h ∧
      h.ident = identOf 0 0 ∧ s.pinned 1024 = false ∧
      (s.cor 0).l1.length < s.l1Cap 0) ∧
    SMap.find (demoG.cor 0).l1 1024 = none ∧
    (SMap.find (stale.cor 0).l1 1024 = some ⟨0, .leased, 0, 0, [], 0, 0⟩ ∧ serialLess 0 (stale.cor 0).pts = true) ∧
    (131195 % 128 + 5 ≤ 128 ∧ Form.atomTy .add .n32 = true ∧ 131196 % 4 = 0 ∧
      atomBytes .add .n32 3 0 (Mem.read demoG.mem 131196 4) = some [3, 0, 0, 0]) ∧
    (one.writers none (LogItem.isLine 1024) = [] ∧ SMap.find one.lines 1024 = some ⟨0, 0, 0, 0, [0], 0, false⟩ ∧
      (∀ l, l ≠ 1024 → one.holders l = []) ∧ SMap.find (one.cor 0).l1 1024 = some ⟨0, .owned, 0, 0, [], 1, 0⟩) ∧
    (two.writers none (LogItem.isLine 1024) = [] ∧ SMap.find two.lines 1024 = some ⟨0, 0, 0, 0, [0, 479], 0, false⟩ ∧
      (∀ l, l ≠ 1024 → two.holders l = []) ∧ SMap.find (two.cor 0).l1 1024 = some ⟨0, .privatised, 0, 0, [], 1, 0⟩ ∧
      SMap.find (two.cor 479).l1 1024 = some ⟨0, .privatised, 0, 0, [], 2, 0⟩ ∧ (1 : BitVec 128) &&& 2 = 0) :=
  ⟨fun s hs => by
    simp only [List.mem_cons, List.not_mem_nil, or_false] at hs
    rcases hs with rfl | rfl <;>
      exact ⟨by decide +kernel, writers_of (by decide +kernel) _ _, by decide +kernel, by decide +kernel, by decide +kernel,
        by decide +kernel⟩,
    by decide +kernel, by decide +kernel, by decide +kernel,
    ⟨writers_of (by decide +kernel) _ _, by decide +kernel, noHolders_of (h := ⟨0, 0, 0, 0, [0], 0, false⟩) (by decide +kernel),
      by decide +kernel⟩,
    ⟨writers_of (by decide +kernel) _ _, by decide +kernel, noHolders_of (h := ⟨0, 0, 0, 0, [0, 479], 0, false⟩) (by decide +kernel),
      by decide +kernel, by decide +kernel, by decide +kernel⟩⟩

/-- For StampsAndCaches, in five parts: a base that crosses a multiple of 2^30 and one that does not. -/
theorem wit_stamps :
    let far := demo.updCore 0 (fun c => { c with pts := 1073741824 })
    let near := demo.updCore 0 (fun c => { c with pts := 1073741823 })
    demo.cyc % 1024 = 0 ∧ State.crossed (far.die 3).base far.stampBase = true ∧ State.crossed (near.die 3).base near.stampBase = false := by
  decide +kernel

/-- `demo` with a reservation, at a cycle. -/
def reserved (n : Nat) : State := { demo with resv := [⟨1, 0, 5, 0⟩], cyc := n }

/-- `demo` where caches may sleep, with one asleep since an epoch. -/
def asleep (l : List (CacheId × Word)) : State := { demo with henip := { demo.henip with sleepPolicy := 1 }, sleeping := l, cyc := 270000 }

/-- A reservation at its last cycle; every kind of cache; both epochs on waking. -/
theorem wit_reservation : (reserved 65536).resv.all (fun r => decide (r.placed + 65536 ≤ (reserved 65536).cyc)) = true := by
  decide +kernel

theorem wit_sleeping :
    [CacheId.l1 479, .slice 3 159, .icache 479, .l1tlb 479, .dieTlb 3].all State.cacheExists = true ∧
    [CacheId.l1 479, .slice 3 159, .icache 479, .l1tlb 479, .dieTlb 3].all (asleep []).idleCache = true ∧
    (asleep []).henip.sleepPolicy = 1 ∧ (asleep []).sleeping = [] ∧ (asleep [(.l1 479, 0)]).sleeping = [(.l1 479, 0)] ∧
    ((asleep [(.l1 479, 0)]).die (479 / 120)).epoch = 0 ∧ ((asleep [(.l1 479, 1)]).die (479 / 120)).epoch ≠ 1 := by
  decide +kernel

theorem wit_walk :
    State.tlbHit (demo.cor 0).tlb (identOf 0 0) 2147483647 = none ∧ State.tlbHit (demo.die (0 / 120)).tlb (identOf 0 0) 2147483647 = none ∧
    (demo.peekWalk 0 0 2147483647).1 = [262144, 294912] ∧
    (match (demo.peekWalk 0 0 2147483647).2 with | .ok e => e.size == 2147483648 | .error _ => false) = true ∧
    (∀ r ∈ [262144, 294912], demo.holders (lineOf r) = []) ∧ demo.teams.all (fun e => e.2.log.isEmpty) = true := by
  decide +kernel

/-- A bucket that the refill fills; a line in a way of no quota. -/
theorem wit_caches :
    let full : State := { demo with buckets := [(bucketKey 0 15, ⟨3, 2, 131071⟩)] }
    ((full.buckets.map Prod.fst).Nodup ∧ (full.vd (bucketKey 0 15 % 16)).resetting = none ∧ 2 * 65536 < 131071 + 3 ∧ full.memReqs = []) ∧
    sliceOf 1024 = 160 * 0 + sliceOf 1024 ∧ demoG.pinned 1024 = false ∧ SMap.find (demoG.vd 0).ways (sliceOf 1024) = none := by
  decide +kernel

/-- `demo` in a deterministic launch whose quantum is a number, its thread held for the serial phase, something in its buffer. -/
def demoQ (quantum : Nat) (buf : List BufEntry) : State :=
  let s := (demoW .dph).updLau 2 (fun l => { l with det := true, quantum := quantum })
  { s.updBody 1 (fun b => { b with buf := buf, quantumWork := 4 }) with lines := demoG.lines }

/-- A manifest whose propagation reached a record. -/
def walked (waiting : Bool) (r : TRec) : Manifest :=
  { manifest 5 with launch := some 2, recs := [r], walk := some ⟨some r.task, waiting, false, false⟩ }

def record (stale done : Bool) : TRec :=
  { State.freshRec 9 1 (some 0) 327680 7 1 [] 0 false with stale := stale, done := done }

theorem wit_phasesAndWalks :
    let end_ := (demoQ 4 []).updThr 1 0 (fun t => { t with st := .ready, wait := none })
    let stored := demoQ 5 [⟨none, 0, .store 131195 131195 [1, 2, 3, 4, 5]⟩]
    let todo : State := let s := demoI []
      { s with manifests := [walked false (record true true)] }
    let back : State := let s := demoU (fun t => { t with reexec := some 9 })
      { s with manifests := [walked true (record false true)], launches := SMap.mapVal s.launches (fun _ (l : Launch) => { l with traced := true, mhandle := 262144 }) }
    ((end_.team 1).launch = 2 ∧ (end_.lau 2).det = true ∧ (end_.lau 2).quantum ≤ (end_.team 1).body.quantumWork ∧ end_.phaseDue 2 = true) ∧
    (∀ s ∈ [demoQ 5 [], stored], s.phaseDue 2 = true ∧ s.launchTeams 2 = [1] ∧ s.itemsOf 2 = [] ∧ s.ephOf 2 = none ∧
      (s.clu (s.team 1).cluster).bars = [] ∧ (s.team 1).body.live = [0] ∧ (s.thr 1 0).st = .waiting ∧
      (s.thr 1 0).wait.map Wait.kind = some .dph ∧ (s.thr 1 0).wait.map Wait.k = some false ∧
      ∀ b, State.Bar.full (s.bar 1 b) (s.team 1).body.live = false) ∧
    (stored.writers (some 1) (LogItem.isLine 1024) = [] ∧ SMap.find stored.lines 1024 = some ⟨0, 0, 0, 0, [], 0, false⟩) ∧
    (todo.manifests[0]? = some (walked false (record true true)) ∧ (walked false (record true true)).rec? 9 = some (record true true) ∧
      (SMap.find todo.launches 2).isSome = true ∧
      (match todo.imageAt 0 0 (record true true).image with | .ok _ => true | .error _ => false) = true) ∧
    (back.launchMan (back.team 1).launch = some (walked true (record false true)) ∧ (back.team 1).reexec = some 9 ∧
      (record false true).oldWrites = [] ∧ (record false true).oldChildren = [] ∧ (record false true).dropped = [] ∧
      back.man? 0 0 262144 = some (walked true (record false true))) :=
  ⟨by decide +kernel, fun s h => by
    simp only [List.mem_cons, List.not_mem_nil, or_false] at h
    rcases h with rfl | rfl <;>
      exact ⟨by decide +kernel, by decide +kernel, by decide +kernel, by decide +kernel, by decide +kernel, by decide +kernel,
        by decide +kernel, by decide +kernel, by decide +kernel, fun b => notFull_of (by decide +kernel) b⟩,
    ⟨writers_of (by decide +kernel) _ _, by decide +kernel⟩, by decide +kernel, by decide +kernel⟩

/-! ## Witnesses: power, masters, commands -/

/-- Off and not; the alarm levels; the edge of the step of the clock. Whether an object verifies and whether the key can be
corrected only Config's free functions say: each state meets the one case or the other of those clauses. -/
theorem wit_power :
    let off : State := { demo with henip := { demo.henip with power := .off } }
    let gone : State := { demo with henip := { demo.henip with power := .off, erased := true } }
    let level (n : Nat) : State := { demo with henip := { demo.henip with alarmLevel := n } }
    let late : State := { demo with ptpNs := 1000 }
    off.henip.power = .off ∧ off.henip.erased = false ∧ gone.henip.power = .off ∧ gone.henip.erased = true ∧ demo.powered = true ∧
    demo.henip.power = .up ∧ (level 0).henip.alarmLevel = 0 ∧ (level 1).henip.alarmLevel = 1 ∧ 1 < (level 2).henip.alarmLevel ∧
    (demo.team 1).vdev < 16 ∧ (demo.henip.pendingHealth.droops.map Prod.fst).Nodup ∧ late.henip.power = .up ∧
    0 ≤ (late.ptpSec : Int) * 1000000000 + late.ptpNs + (-1000) := by
  decide +kernel

/-- A command: magic, code, sequence number 9, length, payload. -/
def cmd (code : Byte) (pay : List Byte) : List Byte :=
  toBytes 4 0x444D435A ++ [code] ++ toBytes 3 0 ++ toBytes 4 9 ++ toBytes 4 pay.length ++ toBytes 16 0 ++ pay

/-- A state with one master, 7, at endpoint number 0, with a claim and the device. -/
def owned (s : State) : State := { s with endpoint := { s.endpoint with masters := [(0, ⟨7, some 5, 0⟩)], owner := some 0 } }

def demoM : State := owned demo

/-- `Accepted` as a check. -/
def acceptedB (s : State) (who : Sender) (msg : List Byte) (code : Nat) (issuer : Issuer) (n : Nat) : Bool :=
  decide (s.powered = true ∧ (who ≠ .mgmt → s.anyPortUp = true) ∧ (s.admitFrame who).1 = true ∧ (heard s who).replyDue who = false) &&
  decide (headerOk msg = true ∧ leAt msg 4 1 = code ∧ msg.length = 32 + n) &&
  decide ((who = .mgmt → 0x20 ≤ code ∧ code ≤ 0x26) ∧ (heard s who).refusedSafe code = false ∧ (heard s who).mayCommand who issuer = true)

theorem accepted_of {s : State} {who : Sender} {msg : List Byte} {code n : Nat} {issuer : Issuer}
    (h : acceptedB s who msg code issuer n = true) : Accepted s who msg code issuer n := by
  rw [acceptedB, Bool.and_eq_true, Bool.and_eq_true] at h
  have heard_ := of_decide_eq_true h.1.1
  have form := of_decide_eq_true h.1.2
  have may := of_decide_eq_true h.2
  exact { power := heard_.1, port := heard_.2.1, number := heard_.2.2.1, turn := heard_.2.2.2, header := form.1, bears := form.2.1,
          length := form.2.2, channel := may.1, safe := may.2.1, issuer := may.2.2 }

/-- A second master, 8, at number 254; one waits for a reply. -/
def rivals : State := { demo with endpoint := { demo.endpoint with masters := [(0, ⟨7, some 5, 0⟩), (254, ⟨8, some 5, 0⟩)], owner := some 0 } }

/-- Claims; a handover to a claimant, to the election, to a number without a claim; each refusal of HANDOVER before them. -/
theorem wit_masters :
    let to_ (n : Byte) : List Byte := cmd 6 ([n] ++ toBytes 7 0)
    let due : State := { rivals with later := [.handover (.master 7) []] }
    let full : State := { rivals with henip := { rivals.henip with nslot := 0 } }
    let safe : State := { rivals with henip := { rivals.henip with power := .safe } }
    let shut : State := { rivals with henip := { rivals.henip with passed := 0 } }
    let open_ : State := { rivals with cyc := 27, endpoint := { rivals.endpoint with owner := none, electionAt := some 27 } }
    Accepted rivals (.master 8) (cmd 5 ([0] ++ toBytes 7 0)) 5 .anyMaster 8 ∧
    Accepted rivals (.master 7) (to_ 254) 6 .owner 8 ∧ Accepted rivals (.master 7) (to_ 255) 6 .owner 8 ∧
    Accepted rivals (.master 7) (to_ 253) 6 .owner 8 ∧
    ((SMap.find (heard rivals (.master 7)).endpoint.masters 254).map Master.prio = some (some 5) ∧
      SMap.find (heard rivals (.master 7)).endpoint.masters 253 = none ∧ leAt (to_ 255) 32 1 = 255) ∧
    (State.bears (to_ 254) 6 = true ∧ (full.admitFrame (.master 9)).1 = false ∧ (heard due (.master 7)).replyDue (.master 7) = true ∧
      (rivals.admitFrame (.master 8)).1 = true ∧ (heard rivals (.master 8)).replyDue (.master 8) = false ∧ headerOk [] = false ∧
      (heard safe (.master 8)).henip.power = .safe ∧ State.bears (cmd 6 (toBytes 7 0)) 6 = true ∧ (cmd 6 (toBytes 7 0)).length ≠ 40 ∧
      headerOk (cmd 6 (toBytes 7 0)) = true ∧ headerOk (to_ 254) = true ∧ (to_ 254).length = 40 ∧
      (heard rivals (.master 8)).isOwner (.master 8) = false ∧ (heard rivals (.master 8)).henip.power = .up) ∧
    (rivals.powered = true ∧ rivals.anyPortUp = true ∧ full.anyPortUp = true ∧ safe.anyPortUp = true ∧
      shut.powered = true ∧ shut.anyPortUp = false) ∧
    (open_.endpoint.owner = none ∧ open_.endpoint.electionAt = some open_.cyc ∧ rivals.cyc < 0 + 2700000000 ∧
      SMap.find rivals.endpoint.masters 0 = some ⟨7, some 5, 0⟩ ∧ (atCyc 2700000000 rivals).cyc = 0 + 2700000000 ∧
      rivals.numberOf (.master 8) = some 254) :=
  ⟨accepted_of (by decide +kernel), accepted_of (by decide +kernel), accepted_of (by decide +kernel), accepted_of (by decide +kernel),
    by decide +kernel, by decide +kernel, by decide +kernel, by decide +kernel⟩

/-- The commands of Henip. What an object's type, version and signature are, only Config's free functions say: each object
meets FWLOAD's premises of the one case or of the other. -/
theorem wit_management :
    let read (half : Byte) : List Byte := cmd 0x27 ([15, 63, half] ++ toBytes 5 0)
    let last : State := { demoM with henip := { demoM.henip with attIndex := 1048575 } }
    let spent : State := { demoM with henip := { demoM.henip with attIndex := 1048576 } }
    let staged : State := { demoM with henip := { demoM.henip with staged := [⟨200, 3, []⟩] } }
    let latched : State := { demoM with endpoint := { demoM.endpoint with latches := [⟨7, 15, 63, 1⟩] } }
    Accepted demoM (.master 7) (cmd 0x20 []) 0x20 .open_ 0 ∧ Accepted demoM .mgmt (cmd 0x20 []) 0x20 .open_ 0 ∧
    Accepted demoM (.master 7) (cmd 0x21 (toBytes 16 1)) 0x21 .open_ 16 ∧ Accepted demoM (.master 7) (cmd 0x22 []) 0x22 .open_ 0 ∧
    (Accepted last (.master 7) (cmd 0x23 (toBytes 32 1)) 0x23 .claimant 32 ∧ (heard last (.master 7)).henip.attIndex < 1048576) ∧
    (Accepted spent (.master 7) (cmd 0x23 (toBytes 32 1)) 0x23 .claimant 32 ∧ 1048576 ≤ (heard spent (.master 7)).henip.attIndex) ∧
    (Accepted staged (.master 7) (cmd 0x25 ([200] ++ toBytes 7 0)) 0x25 .owner 8 ∧ (∃ y ∈ (heard staged (.master 7)).henip.staged, y.type_ = 200) ∧
      (heard staged (.master 7)).henip.staged.find? (fun o => o.type_ == 200) = some ⟨200, 3, []⟩) ∧
    Accepted demoM (.master 7) (cmd 0x26 []) 0x26 .firmware 0 ∧
    (∀ half ∈ [(0 : Byte), 1, 2, 3], Accepted latched (.master 7) (read half) 0x27 .claimant 8 ∧ leAt ((read half).drop 32) 2 1 = half.toNat) ∧
    ((heard latched (.master 7)).endpoint.latches.find? (fun l => l.master == 7 && l.vdev == 15 && l.index == 63) = some ⟨7, 15, 63, 1⟩) :=
  ⟨accepted_of (by decide +kernel), accepted_of (by decide +kernel), accepted_of (by decide +kernel), accepted_of (by decide +kernel),
    ⟨accepted_of (by decide +kernel), by decide +kernel⟩, ⟨accepted_of (by decide +kernel), by decide +kernel⟩,
    ⟨accepted_of (by decide +kernel), by decide +kernel⟩, accepted_of (by decide +kernel), fun half h => by
      simp only [List.mem_cons, List.not_mem_nil, or_false] at h
      rcases h with rfl | rfl | rfl | rfl <;> exact ⟨accepted_of (by decide +kernel), by decide +kernel⟩, by decide +kernel⟩

/-- FWLOAD's premises, for the one length that an object may have by Config's free function. -/
theorem wit_fwload (h : Config.objLength [] = 0) : Accepted demoM (.master 7) (cmd 0x24 []) 0x24 .firmware (Config.objLength []) := by
  rw [h]
  exact accepted_of (by decide +kernel)

/-- `Idle` as a check, where no log holds anything. -/
def idleB (s : State) : Bool :=
  s.ops.isEmpty && s.lines.all (fun e => e.2.holders.isEmpty) && s.teams.all (fun e => e.2.log.isEmpty)

theorem idle_of {s : State} (h : idleB s = true) : Idle s := by
  simp only [idleB, Bool.and_eq_true, List.isEmpty_iff] at h
  refine ⟨h.1.1, fun line => ⟨writers_of h.2 _ _, ?_⟩⟩
  unfold State.holders
  rcases hf : SMap.find s.lines line with _ | x
  · rfl
  · simpa [List.isEmpty_iff] using List.all_eq_true.1 h.1.2 _ (SMap.find_mem hf)

/-- `Resident` as a check. -/
def residentB (s : State) (d c pa n : Nat) : Bool :=
  (List.range n).all (fun i => match SMap.find s.lines (lineOf (pa + i)) with
    | some h => h.ident == identOf d c
    | none => false)

theorem resident_of {s : State} {d c pa n : Nat} (h : residentB s d c pa n = true) : Resident s d c pa n := by
  intro i hi
  have := List.all_eq_true.1 h i (List.mem_range.2 hi)
  split at this
  · rename_i x hx
    exact ⟨x, hx, by simpa using this⟩
  · cases this

/-- A state with lines resident that no core holds. -/
def withLines (first n : Nat) (s : State) : State :=
  { s with lines := (List.range n).map (fun k => (first + k, ⟨0, 0, 0, 0, [], 0, false⟩)) }

/-! ## Witnesses: launches and landings, memory, configuration

WorkCommands has wit_launch, wit_stop and wit_landings; OutsideAccesses has wit_memory, wit_load, wit_inbound and wit_networkEnds;
ConfigItems has wit_ranges, wit_items and wit_arena; Management has wit_management and wit_fwload. -/

/-- A launch record: flags, image and parameter addresses 0x50000 and 0, one team of one group, a carve, arenas, an id. -/
def launchRecord (flags : Byte) (man eph : Nat) : List Byte :=
  toBytes 4 0x4E4C485A ++ [0, 0, 7, flags] ++ toBytes 8 327680 ++ toBytes 8 0 ++ toBytes 4 1 ++ [1, 1, 1, 0] ++ toBytes 4 16384 ++
  toBytes 4 0 ++ toBytes 8 3 ++ toBytes 8 man ++ toBytes 8 eph ++ toBytes 8 77 ++ toBytes 8 0

/-- `fits` with some image, as a check, and whether the launch finds its arena in use. -/
def fitsB (s : State) (msg : List Byte) (busy : Bool) : Bool :=
  let h := heard s (.master 7)
  let pay := msg.drop 32
  acceptedB s (.master 7) msg 1 .owner 80 && (firstFail (State.recordChecks pay)).isNone &&
  (match h.imageAt (leAt pay 4 1) (leAt pay 5 1) (leAt pay 8 8) with
    | .ok img =>
      let l := State.launchOf (.master 7) (seqOf msg) pay img (h.devBytes (leAt pay 4 1) (leAt pay 5 1) (leAt pay 16 8) img.psize)
      (!(leAt pay 7 1).testBit 0 || img.modular) &&
      h.mapped (leAt pay 4 1) (leAt pay 5 1) (leAt pay 16 8) img.psize (fun _ => true) && (firstFail (h.restChecks pay l)).isNone &&
      h.launchBusy l == busy && idleB h
    | .error _ => false)

/-- `demoI` owned, with a manifest and an ephemeris in a state. -/
def arenas (st : Nat) : State :=
  { owned (demoI []) with manifests := [manifest st], ephems := [⟨0, 0, 524288, 65536, [524288], 0, st, [], 0, 0, 0, [], false, false⟩] }

theorem wit_launch :
    let plain := cmd 1 (launchRecord 0 0 0)
    let det := cmd 1 (launchRecord 2 0 524288)
    fitsB (arenas 0) plain false = true ∧ fitsB (arenas 0) det false = true ∧ fitsB (arenas 1) det true = true ∧
    (acceptedB demoM (.master 7) (cmd 1 (launchRecord 4 0 0)) 1 .owner 80 = true ∧
      firstFail (State.recordChecks ((cmd 1 (launchRecord 4 0 0)).drop 32)) = some 7) ∧
    (∀ st ∈ [2, 3, 5], st ≠ 0 ∧ st ≠ 1 ∧ st ≠ 4 ∧ (heard (arenas st) (.master 7)).man? 0 0 262144 = some (manifest st)) ∧
    (∀ st ∈ [1, 4], (heard (arenas st) (.master 7)).man? 0 0 262144 = some (manifest st)) ∧
    acceptedB (arenas 2) (.master 7) (cmd 2 (toBytes 8 0 ++ toBytes 8 262144)) 2 .owner 16 = true := by
  decide +kernel

/-- STOP or RESUME of task 0 of launch 0, at interval 3 and work 4. -/
def stopAt : List Byte := cmd 0x11 (toBytes 8 0 ++ toBytes 4 0 ++ toBytes 4 0 ++ toBytes 8 3 ++ toBytes 8 4)

/-- What a command about a team needs: the launch and the team it names. -/
def namedB (s : State) : Bool :=
  let h := heard s (.master 7)
  h.launchNamed 0 == some 2 && decide (0 < (h.lau 2).nextTask) && h.taskTeam? 2 0 == some 1

/-- Ended; in no deterministic launch; past the point, before it, and in it. -/
theorem wit_stop :
    let of_ (f : Team → Team) (det : Bool) : State := owned ((demoU f).updLau 2 (fun l => { l with det := det }))
    let ended := of_ (fun t => { t with phase := .ended }) false
    let past := of_ (fun t => { t with interval := 4 }) true
    let before := of_ (fun t => { t with interval := 2 }) true
    let short := of_ (fun t => { t with interval := 3, work := 3 }) true
    let within := of_ (fun t => { t with interval := 3, work := 4 }) true
    let held := of_ (fun t => { t with phase := .stopped }) false
    acceptedB ended (.master 7) stopAt 0x11 .owner 32 = true ∧ namedB ended = true ∧ (ended.team 1).phase = .ended ∧
    (∀ s ∈ [demoM, past, before, short, within, held], acceptedB s (.master 7) stopAt 0x11 .owner 32 = true ∧ namedB s = true ∧
      (s.team 1).stop = none ∧ ((s.team 1).phase.issues = true ∨ (s.team 1).phase = .stopped)) ∧
    (demoM.lau 2).det = false ∧ (past.lau 2).det = true ∧ 3 < (past.team 1).interval ∧ (before.lau 2).det = true ∧ (before.team 1).interval < 3 ∧
    ((short.lau 2).det = true ∧ (short.team 1).interval = 3 ∧ (short.team 1).work < 4) ∧
    ((within.lau 2).det = true ∧ (within.team 1).interval = 3 ∧ (within.team 1).work = 4) ∧
    (acceptedB held (.master 7) (cmd 0x12 (toBytes 16 0)) 0x12 .owner 16 = true ∧ (held.team 1).phase = .stopped ∧
      quietB (heard held (.master 7)) 1 0 = true) := by
  decide +kernel

/-- LANDBIND at the ends of the scratchpad, with a context that is bound, with context 0; LANDREL of a binding and of none. -/
theorem wit_landings :
    let bind (rctx tag : Nat) : List Byte := cmd 0x13 ([0, 0] ++ toBytes 2 rctx ++ toBytes 4 tag ++ toBytes 8 0 ++ toBytes 4 0 ++ toBytes 4 65504 ++
      toBytes 4 16 ++ toBytes 4 65520)
    let y : Landing := ⟨0, 0, 1, 2, 0, 0, 65504, 16, 65520⟩
    let bound : State := { demoM with endpoint := { demoM.endpoint with landings := [(4095, y)] } }
    let h := heard bound (.master 7)
    acceptedB bound (.master 7) (bind 1 3) 0x13 .owner 32 = true ∧ namedB bound = true ∧
    (∀ e ∈ h.endpoint.landings, ¬(e.2.rctx = 1 ∧ e.2.tag = 3)) ∧ (h.lau 2).vdev = 0 ∧ (h.lau 2).ctx = 0 ∧
    h.landingScratch 2 0 = some 65536 ∧ h.freeBinding = some 0 ∧ h.teams.all (fun e => e.2.log.isEmpty) = true ∧
    (acceptedB bound (.master 7) (bind 0 3) 0x13 .owner 32 = true ∧ acceptedB bound (.master 7) (bind 1 2) 0x13 .owner 32 = true ∧
      ∃ e ∈ h.endpoint.landings, e.2.rctx = 1 ∧ e.2.tag = 2) ∧
    (acceptedB bound (.master 7) (cmd 0x14 (toBytes 8 4095)) 0x14 .owner 8 = true ∧ SMap.find h.endpoint.landings 4095 = some y ∧
      (∀ e ∈ h.endpoint.landings, e.1 ≠ 4095 → ¬(e.2.task = y.task)) ∧ (h.team 1).phase = .running ∧
      SMap.find h.endpoint.landings 4094 = none) := by
  decide +kernel

/-- `onPage` as a check. -/
def onPageB (p : Nat → Option Nat) (va n pa : Nat) : Bool :=
  decide (0 < n) && decide (va % 65536 + n ≤ 65536) && pa % 65536 == va % 65536 && (p (va / 65536 * 65536)).isSome &&
  (List.range n).all (fun i => p (va + i) == some (pa + i))

/-- MEMREAD and MEMWRITE of the last four bytes of a page, and the numbers of bytes that MEMREAD refuses. -/
theorem wit_memory :
    let ask (code : Byte) (n : Nat) (data : List Byte) : List Byte := cmd code ([0, 0, 0, 0] ++ toBytes 4 n ++ toBytes 8 196604 ++ data)
    let s := withLines 1535 1 demoM
    let h := heard s (.master 7)
    acceptedB s (.master 7) (ask 3 4 []) 3 .claimant 16 = true ∧ onPageB (h.hostAddr 0 0) 196604 4 196604 = true ∧
    idleB h = true ∧ residentB h 0 0 196604 4 = true ∧
    (∀ n ∈ [0, 1048577], acceptedB demoM (.master 7) (ask 3 n []) 3 .claimant 16 = true ∧ leAt ((ask 3 n []).drop 32) 4 4 = n) ∧
    acceptedB s (.master 7) (ask 4 4 [1, 2, 3, 4]) 4 .owner 20 = true ∧ (s.ctx 0 0).regions = [] := by
  decide +kernel

/-- LOADIMG of the smallest image from the payload and from memory, to the start of a page. -/
theorem wit_load :
    let ask (from_ : Byte) (src : Nat) (data : List Byte) : List Byte := cmd 7 ([0, 0, from_, 0] ++ toBytes 4 0 ++ toBytes 8 393216 ++
      toBytes 8 src ++ toBytes 8 image.length ++ data)
    let s := withLines 3072 2 (owned (demoI []))
    let h := heard s (.master 7)
    let r : ImgRead := fun o n => leAt image o n
    acceptedB s (.master 7) (ask 0 0 image) 7 .owner (32 + image.length) = true ∧ 64 ≤ image.length ∧ Img.size r = image.length ∧
    Img.bad r image.length = none ∧ onPageB (h.hostAddr 0 0) 393216 image.length 393216 = true ∧
    (State.pageBases (393216 + Img.codeOff r) (Img.codeSize r)).all (h.pageX 0 0) = true ∧ (s.ctx 0 0).regions = [] ∧ idleB h = true ∧
    residentB h 0 0 393216 image.length = true ∧
    acceptedB s (.master 7) (ask 1 327680 []) 7 .owner 32 = true ∧ 327680 + image.length ≤ 393216 ∧
    hbmBytes s 327680 image.length = image ∧
    onPageB (fun va => (h.hostAddr 0 0 va).filter (fun _ => match h.deviceWalk 0 0 va with | some (_, e) => e.r | none => false))
      327680 image.length 327680 = true := by
  decide +kernel

/-- A window's last bytes, one byte past them, another peer; a landing's last bytes, one past them, the countdown's cases. -/
theorem wit_inbound :
    let s := (withLines 1024 1 demoM).updVd 0 (fun v => { v with windows := [(255, ⟨0, 4095, 131072, 16, true, true⟩)] })
    let y : Landing := ⟨0, 0, 1, 2, 0, 0, 64, 16, 96⟩
    let bound (t : State) : State := { t with endpoint := { t.endpoint with landings := [(0, y)] } }
    let gone := bound (demoU (fun t => { t with phase := .ended }))
    let shut : State := { s with henip := { s.henip with passed := 0 } }
    let w : Window := ⟨0, 4095, 131072, 16, true, true⟩
    SMap.find (s.vd 0).windows 255 = some w ∧ 12 + 4 ≤ w.len ∧ w.len < 13 + 4 ∧ w.peer ≠ 4094 ∧ SMap.find (s.vd 0).windows 254 = none ∧
    onPageB (fun va => s.outsideAddr 0 0 va .write) (131072 + 12) 4 131084 = true ∧
    onPageB (fun va => s.outsideAddr 0 0 va .readOther) (131072 + 12) 4 131084 = true ∧ idleB s = true ∧
    residentB s 0 0 131084 4 = true ∧ s.hears 0 4095 = true ∧ s.hears 0 4094 = true ∧ shut.hears 0 4095 = false ∧ demo.anyPortUp = true ∧
    (s.ctx 0 0).regions = [] ∧ (bound demo).landingOf 1 2 = some y ∧ (bound demo).landingOf 1 3 = none ∧ gone.landingTeam y = none ∧
    (bound demo).landingTeam y = some 1 ∧ 12 + 4 ≤ y.rlen ∧ y.rlen < 13 + 4 ∧ y.roff + 16 ≤ y.boff ∧
    (bound demo).teams.all (fun e => e.2.log.isEmpty) = true := by
  decide +kernel

/-- A transfer in flight at the cycle of its timeout and the one before, and the bytes of its answer. -/
theorem wit_networkEnds :
    let s := demoO [netOp]
    let put := { netOp with kind := .nput ⟨.l, false, 16, 0, 0, 0, 0⟩ }
    let n := (s.vd (s.team 1).vdev).timeoutUs * 2700
    s.op? 9 = some netOp ∧ netOp.net = some (.get, ⟨.l, false, 16, 0, 0, 0, 0⟩) ∧ netOp.started = true ∧ netOp.complete = false ∧
    s.anyPortUp = true ∧ put.net = some (.put, ⟨.l, false, 16, 0, 0, 0, 0⟩) ∧ (demoO [put]).op? 9 = some put ∧
    netOp.issuedAt + n ≤ (atCyc n s).cyc ∧ (atCyc (n - 1) s).cyc < netOp.issuedAt + n ∧ netOp.cls = .net ∧
    (SMap.find s.teams 1).isSome = true ∧ s.teams.all (fun e => e.2.log.isEmpty) = true := by
  decide +kernel

/-- A CONFIG item of a virtual device and a context. -/
def item (n : Nat) (d c : Byte) (rest : List Byte) : List Byte := cmd 0x10 (toBytes 2 n ++ [d, c] ++ toBytes 4 0 ++ rest)

/-- `asks` as a check. -/
def asksB (s : State) (msg : List Byte) (n len : Nat) : Bool :=
  acceptedB s (.master 7) msg 0x10 .owner len && leAt (msg.drop 32) 0 2 == n

/-- QUOTA of whole resources on every core, past the end of one, and on no whole quad; BUCKET at the capacity and above it; WAYS to the
last. -/
theorem wit_ranges :
    let quota (core : Nat) (slot0 slots : Byte) (acc : Byte) : List Byte := item 1 15 0 (toBytes 2 core ++ [slot0, slots] ++
      (List.range 4).flatMap (fun _ => toBytes 2 0) ++ (List.range 4).flatMap (fun _ => toBytes 2 1024) ++ toBytes 2 0 ++ toBytes 2 320 ++
      [0, acc, 0, 0])
    let bucket (rate : Nat) : List Byte := item 2 15 0 ([4, 0] ++ toBytes 2 479 ++ toBytes 4 rate ++ toBytes 4 16777216)
    let h := heard demoM (.master 7)
    let checks (m : List Byte) : Option Nat := firstFail (h.quotaChecks 15 (named (leAt m 40 2) 480) (State.readQuota (m.drop 32)))
    asksB demoM (quota 479 0 64 8) 1 36 = true ∧ checks (quota 479 0 64 8) = none ∧
    asksB demoM (quota 479 0 64 9) 1 36 = true ∧ checks (quota 479 0 64 9) = some 33 ∧
    asksB demoM (quota 0xFFFF 2 4 8) 1 36 = true ∧ leAt ((quota 0xFFFF 2 4 8).drop 32) 10 1 % 4 ≠ 0 ∧
    asksB demoM (bucket 4194304) 2 20 = true ∧ asksB demoM (bucket 4194305) 2 20 = true ∧ (State.arbiterKind 4).2 = 480 ∧
    (∀ n ∈ (named 479 480).map (fun k => (State.arbiterKind 4).1 + k), 4194304 + h.otherRates n 15 ≤ arbiterCapacity n ∧
      arbiterCapacity n < 4194305 + h.otherRates n 15) ∧
    asksB demoM (item 3 15 0 (toBytes 2 639 ++ [19, 1] ++ toBytes 4 7)) 3 16 = true ∧ h.otherWays 15 (named 639 640) = [] := by
  decide +kernel

/-- The other items at the ends of their ranges. -/
theorem wit_items :
    let h := heard demoM (.master 7)
    let used := demoM.updCtx 0 0 (fun x => { x with regions := [(0, ⟨64, 2, 1⟩)] })
    asksB demoM (item 4 15 0 ([1, 1, 15, 0] ++ toBytes 4 50)) 4 16 = true ∧
    asksB demoM (item 5 15 0 (toBytes 2 4095 ++ [7, 0] ++ toBytes 16 5)) 5 28 = true ∧
    (asksB demoM (item 6 15 15 ([255, 3] ++ toBytes 2 4095 ++ toBytes 4 1 ++ toBytes 8 9007199254740991)) 6 24 = true ∧
      9007199254740991 + 1 ≤ 9007199254740992) ∧
    (∀ n ∈ [9, 10, 100000, 100001], asksB demoM (item 7 15 0 (toBytes 4 n)) 7 12 = true) ∧ asksB demoM (item 7 16 0 (toBytes 4 10)) 7 12 = true ∧
    asksB demoM (item 8 15 0 (toBytes 8 4096)) 8 16 = true ∧
    (asksB demoM (item 9 0 0 ([1, 0, 0, 0] ++ toBytes 4 4096 ++ toBytes 8 4096)) 9 24 = true ∧ 4096 = 2 ^ Nat.log2 4096 ∧
      h.bindable 0 0 4096 4096 true = true ∧ idleB h = true) ∧
    asksB demoM (item 10 15 0 [63, 255]) 10 10 = true ∧
    (asksB used (item 11 0 0 ([0, 2, 0, 0] ++ toBytes 4 1 ++ toBytes 8 9007199254740988)) 11 24 = true ∧
      (heard used (.master 7)).meetsRegion 0 0 9007199254740988 4 = false ∧
      SMap.find ((heard used (.master 7)).ctx 0 0).regions 1 = none ∧
      (SMap.find ((heard used (.master 7)).ctx 0 0).regions 0).isSome = true) ∧
    (asksB used (item 11 0 0 ([1, 0, 0, 0] ++ toBytes 4 0 ++ toBytes 8 0)) 11 24 = true ∧ used.manifests = []) ∧
    (asksB demoM (item 13 15 0 ([1] ++ toBytes 7 0 ++ toBytes 8 4096 ++ toBytes 8 (Config.hbmEnd - 4096))) 13 32 = true) ∧
    asksB demoM (item 14 0 0 (toBytes 2 0xFFFF ++ [BitVec.ofNat 8 (poolOfClass h.henip.pclass), 0])) 14 12 = true ∧
    (asksB demoM (item 15 15 15 (toBytes 8 32768)) 15 16 = true ∧ inHbm 32768 = true) ∧
    asksB demoM (item 16 15 0 (toBytes 4 0 ++ toBytes 4 4294967295 ++ toBytes 4 0 ++ toBytes 4 7)) 16 24 = true ∧
    asksB demoM (item 17 15 15 (toBytes 8 9007199254675456)) 17 16 = true ∧
    asksB demoM (item 18 0 0 ([7, 1, 0, 0] ++ toBytes 4 1 ++ toBytes 24 9)) 18 40 = true ∧
    asksB demoM (item 19 0 0 [1, 128, 1, 0]) 19 12 = true ∧
    (∀ i, i < 8 → (128 : Nat).testBit i = decide (i = 7)) := by
  decide +kernel

/-- ARENA of each kind on a page without write permission, and over one in use. -/
theorem wit_arena :
    let readOnly (s : State) : State := { s with mem := Mem.write s.mem placeNext (toBytes 8 0x17) }
    let arena (kind : Byte) : List Byte := item 12 0 0 ([kind] ++ toBytes 7 0 ++ toBytes 8 65536 ++ toBytes 8 262144)
    let s := readOnly demoM
    let busy := readOnly { arenas 1 with ephems := [] }
    let h := heard s (.master 7)
    let b := heard busy (.master 7)
    asksB s (arena 0) 12 32 = true ∧ asksB s (arena 1) 12 32 = true ∧ h.bindable 0 0 262144 65536 false = true ∧
    h.meetsArena 0 0 262144 65536 true = false ∧ h.arenaBusy 0 0 262144 true = false ∧ h.arenaBusy 0 0 262144 false = false ∧
    asksB busy (arena 0) 12 32 = true ∧ b.bindable 0 0 262144 65536 false = true ∧ b.meetsArena 0 0 262144 65536 true = false ∧
    b.arenaBusy 0 0 262144 true = true := by
  decide +kernel

/-! ## Witness: a step -/

/-- The placed state with the translation and the line of the instruction in the core's caches. -/
def cached : State :=
  let s := State.reset.place 32 0x046F0000
  s.updCore 0 (fun k => { k with tlb := [⟨0, 0, 2147483648, 0, true, true, true, false⟩], icache := [⟨0, 512, lineBytes s.mem 512⟩] })

/-- A request that its own bucket pays is granted, whoever else asks. -/
theorem granted_of {s : State} {a : Arbiter} {d cost : Nat} {rivals : List (Nat × Bool)} (h : s.ownPays a d cost = true) :
    s.granted a d cost rivals = true := by
  simp [State.granted, h]

theorem wit_step :
    cached.agenda = [.issue 1 0] ∧ (cached.lau (cached.team 1).launch).det = false ∧
    (∀ j ∈ (cached.team 1).body.live, (cached.thr 1 j).st ≠ .waiting ∧ (cached.thr 1 j).st ≠ .parked) ∧ quietB cached 1 0 = true ∧ cached.mayIssue 1 0 = true ∧
    (cached.team 1).stop = none ∧ cached.candidates 1 0 = [0] ∧ (cached.thr 1 0).st = .ready ∧ (cached.thr 1 0).inFirmware = false ∧
    cached.ownPays (.issue (cached.team 1).core) (cached.team 1).vdev 1 = true ∧ (cached.thr 1 0).pc.toNat = 65536 ∧
    Raw.headLength 0x046F0000 = 1 ∧ cached.inCode 1 0 65536 = true ∧
    State.tlbHit (cached.cor 0).tlb 0 65536 = some ⟨0, 0, 2147483648, 0, true, true, true, false⟩ ∧
    (match State.finish ⟨0, 0, 2147483648, 0, true, true, true, false⟩ 65536 .fetch false with | .ok x => x == 65536 | .error _ => false) = true ∧
    cached.iline 0 0 512 = some ⟨0, 512, lineBytes cached.mem 512⟩ ∧
    leNat (Mem.read (lineBytes cached.mem 512) 65536 4) = 0x046F0000 ∧
    (cached.fetchable ⟨0, 512, lineBytes cached.mem 512⟩ (cached.team 1).launch 65536).all (fun y => y == 0x046F0000) = true ∧
    (match decode [0x046F0000] with | .ok _ => true | .error _ => false) = true := by
  decide +kernel

/-! ## Words

Every encoded instruction in some form: its words written out from the head word and the field word (R44, R45), the operand
codes (R48 to R50), the type codes (R46) and the OP, F and X of its entry's table. -/

/-- Each list of words decodes to its instruction. -/
def reads (es : List (List Word × Instr)) : Bool :=
  es.all (fun e => match decode e.1 with | .ok i => i == e.2 | .error _ => false)

theorem test_words_integer : reads [
    ([0x100F0301, 0x02000000], Instr.iadd hd .s32 3 (.lane 1) (.lane 2)),
    ([0x201F0406, 0xFF003000, 0x00000001], .isub hd .n64 4 (.lane 6) (.imm 1)),
    ([0x102F7FBF, 0xC4001000], .imul hd .n32 127 (.uni 63) (.konst .two)),
    ([0x103F0301, 0x02001000], .imulh hd .n32 3 (.lane 1) (.lane 2)),
    ([0x104F0701, 0x02050000], .imad hd .s32 7 (.lane 1) (.lane 2) (.lane 5)),
    ([0x105F0401, 0x02000000], .idiv hd .s32 4 (.lane 1) (.lane 2)),
    ([0x205F0608, 0xFF003040, 0x0000000A], .irem hd .n64 6 (.lane 8) (.imm 10)),
    ([0x106F080A, 0x84002000], .imin hd .s64 8 (.lane 10) (.uni 4)),
    ([0x107F080A, 0xC2000000], .imax hd .s32 8 (.lane 10) (.konst .minusOne)),
    ([0x108F0301, 0x02001000], .and hd .n32 3 (.lane 1) (.lane 2)),
    ([0x109F0408, 0xC000E000], .or hd .b128 4 (.lane 8) (.konst .zero)),
    ([0x10AF0408, 0x02003000], .xor hd .n64 4 (.lane 8) (.lane 2)),
    ([0x10BF0301, 0x02000000], .andn hd .s32 3 (.lane 1) (.lane 2)),
    ([0x00CF0301], .not bare .s32 3 (.lane 1)),
    ([0x20DF0100, 0xFF001000, 0x00000002], .shl hd .n32 1 (.lane 0) (.imm 2)),
    ([0x10EF0105, 0x02001000], .shr hd .n32 1 (.lane 5) (.lane 2)),
    ([0x10FF0406, 0x03002000], .sar hd .s64 4 (.lane 6) (.lane 3)),
    ([0x210F0301, 0xFF001000, 0x00000024], .rotl hd .n32 3 (.lane 1) (.imm 36)),
    ([0x111F0302, 0x00003000], .popc hd .n64 3 (.lane 2)),
    ([0x012F0302], .clz bare .s32 3 (.lane 2)),
    ([0x113F0402, 0x00003000], .brev hd .n64 4 (.lane 2)),
    ([0x214F0301, 0xFF000000, 0x00000408], .bfx hd .s32 3 (.lane 1) (.imm 1032)),
    ([0x115F0401, 0x04091000], .bfi hd .n32 4 (.lane 1) (.lane 4) (.lane 9)),
    ([0x216F0301, 0x02FF1000, 0x0000FC47], .perm hd 3 (.lane 1) (.lane 2) (.imm 64583)),
    ([0x117F0406, 0x010030BF], .lea hd .zx .n64 4 (.lane 6) (.lane 1) 63),
    ([0x118F0B01, 0x02000005], .icmp hd .ge .s32 11 (.lane 1) (.lane 2)),
    ([0x219F0301, 0x02FF0040, 0x0000000A], .idp4 hd true false .s32 3 (.lane 1) (.lane 2) (.imm 10))] = true := by
  decide +kernel

theorem test_words_float : reads [
    ([0x120F0301, 0x02004000], Instr.fadd hd .f32 3 (.lane 1) (.lane 2)),
    ([0x121F0301, 0xC3007000], .fsub hd .bf16 3 (.lane 1) (.konst .half)),
    ([0x222F0604, 0xFF005000, 0x40080000], .fmul hd .f64 6 (.lane 4) (.imm 1074266112)),
    ([0x123F0301, 0x01C24000], .ffma hd .f32 3 (.lane 1) (.lane 1) (.konst .minusOne)),
    ([0x124F0301, 0x02004040], .fmin hd true .f32 3 (.lane 1) (.lane 2)),
    ([0x125F0301, 0x02006000], .fmax hd false .f16 3 (.lane 1) (.lane 2)),
    ([0x126F0102, 0x04005007], .fcmp hd .ord .f64 1 (.lane 2) (.lane 4)),
    ([0x127F0301, 0x00009000], .fclass hd .t6 3 (.lane 1)),
    ([0x128F0301, 0x00004040], .frnd hd true .f32 3 (.lane 1)),
    ([0x129F0504, 0x00006004], .fcvt hd .f16 .f32 5 (.lane 4)),
    ([0x12AF0504, 0x0000A007], .f2i hd .s8 .bf16 5 (.lane 4)),
    ([0x12BF0504, 0x0000800D], .i2f hd .t8 .n16 5 (.lane 4)),
    ([0x22CF0301, 0xFF006000, 0x3C003C00], .padd hd .f16 3 (.lane 1) (.imm 1006648320)),
    ([0x12DF0301, 0x02007000], .pmul hd .bf16 3 (.lane 1) (.lane 2)),
    ([0x12EF0301, 0x02046000], .pfma hd .f16 3 (.lane 1) (.lane 2) (.lane 4)),
    ([0x12FF0301, 0x02C16000], .pdot2 hd .f16 3 (.lane 1) (.lane 2) (.konst .one)),
    ([0x130F0800, 0x0000E000], .rng hd false 8),
    ([0x130F0800, 0x00004040], .rng hd true 8)] = true := by
  decide +kernel

theorem test_words_queueAndWaits : reads [
    ([0x138F0504, 0x000042CF], Instr.sfq hd .gelu 15 5 (.lane 4)),
    ([0x039F0004], .waitt bare (.lane 4)),
    ([0x03AF0004], .sleept bare (.lane 4)),
    ([0x23BF0004, 0xFF000000, 0x00000003], .lwait hd (.lane 4) (.imm 3))] = true := by
  decide +kernel

theorem test_words_moves : reads [
    ([0x140F0488, 0x0000E000], Instr.mov hd .b128 4 (.uni 8)),
    ([0x141F0301, 0x0200400B], .sel hd .f32 11 3 (.lane 1) (.lane 2)),
    ([0x142F0301, 0x02C000C0], .plop hd 192 3 (.pred 1) (.pred 2) .zero),
    ([0x043F0500], .movp bare 5),
    ([0x243F0004, 0xFF000040, 0x000000F0], .movpSet hd (.lane 4) (.imm 240)),
    ([0x044F050B], .rdsr bare .ptp 5),
    ([0x046F0000], .nop bare),
    ([0x045F02C0], .elect bare 2 (.konst .zero))] = true := by
  decide +kernel

theorem test_words_collective : reads [
    ([0x250F0406, 0xFFC230C3, 0x00000001], Instr.shfl hd .rot .n64 (some 3) 4 (.lane 6) (.imm 1) (.konst .minusOne)),
    ([0x251F0201, 0xFFC20000, 0x00000003], .vote hd .atleast 2 (.pred 1) (.imm 3) (.konst .minusOne)),
    ([0x151F02C1, 0x000400C0], .vote hd .odd 2 .one (.lane 0) (.lane 4)),
    ([0x252F0402, 0x00FF0000, 0x00000003], .ballot hd 4 (.pred 2) (.imm 3)),
    ([0x153F0402, 0x0003100F], .matchLanes hd .n32 none 4 (.lane 2) (.lane 3)),
    ([0x154F0402, 0x03054300], .redux hd .fmaxi .f32 (some 0) 4 (.lane 2) (.lane 3) (.lane 5)),
    ([0x155F0302, 0x0005015F], .scan hd .xor true .s32 none 3 (.lane 2) (.lane 5))] = true := by
  decide +kernel

theorem test_words_memory : reads [
    ([0x260F0402, 0xFF00E008, 0x00000004], Instr.ld hd .g .lu .b128 4 (.lane 2) (.imm 4)),
    ([0x161F0002, 0xC0031001], .st hd .l .normal .n32 (.lane 2) (.konst .zero) (.lane 3)),
    ([0x162F0402, 0xC0063304], .atom hd .dec false .nl1 .n64 4 (.lane 2) (.konst .zero) (.lane 6)),
    ([0x162F0002, 0xC0060010], .atom hd .add true .normal .s32 0 (.lane 2) (.konst .zero) (.lane 6)),
    ([0x163F0402, 0xC0003000], .lr hd .normal .n64 4 (.lane 2) (.konst .zero)),
    ([0x164F0202, 0xC0063000], .sc hd .normal .n64 2 (.lane 2) (.konst .zero) (.lane 6)),
    ([0x065F0000], .fenceE bare),
    ([0x165F0000, 0x00000040], .fenceN hd),
    ([0x166F0002, 0xC0000004], .pref hd true (.lane 2) (.konst .zero))] = true := by
  decide +kernel

theorem test_words_engine : reads [
    ([0x068F0402], Instr.cpy bare 4 (.lane 2)),
    ([0x069F0007], .mma bare (.lane 7)),
    ([0x26AF00FF, 0x00000000, 0x00000040], .mdrain hd (.imm 64)),
    ([0x06BF0081], .mzero bare (.uni 1)),
    ([0x06CF0007], .nput bare (.lane 7)),
    ([0x06DF0007], .nget bare (.lane 7)),
    ([0x06EF00C0], .nsend bare (.konst .zero)),
    ([0x16FF0000, 0x000000BF], .waitc hd .net 63)] = true := by
  decide +kernel

theorem test_words_control : reads [
    ([0x270F00FF, 0x00000000, 0x00000008], Instr.bra hd 8),
    ([0x071F0004], .brx bare (.lane 4)),
    ([0x272F04FF, 0x00000000, 0xFFFFFFFC], .call hd 4 4294967292),
    ([0x172F0406, 0x00000040], .callX hd 4 (.lane 6)),
    ([0x073F0004], .ret bare (.lane 4)),
    ([0x074F0000], .exit bare),
    ([0x175F0000, 0x0000000F], .bar hd 15),
    ([0x175F0000, 0x00000042], .barArv hd 2),
    ([0x176F0000, 0x00000003], .cbar hd 3),
    ([0x176F0000, 0x00000040], .cbarArv hd 0),
    ([0x077F00FE], .swpt bare 254)] = true := by
  decide +kernel

theorem test_words_task : reads [
    ([0x078F0804], Instr.spawn bare 8 (.lane 4)),
    ([0x279F0802, 0xFF000008, 0x00000001], .modreg hd 8 8 (.lane 2) (.imm 1)),
    ([0x279F00FF, 0x00000040, 0x000000FF], .modrel hd (.imm 255)),
    ([0x07AF0102], .prop bare 1 (.lane 2)),
    ([0x07BF0800], .hnew bare 8),
    ([0x27BF00FF, 0x00000040, 0x0000003F], .hent hd (.imm 63)),
    ([0x17BF0103, 0x00000080], .hresConf hd 1 (.lane 3)),
    ([0x17BF0103, 0x00000081], .hresRef hd 1 (.lane 3)),
    ([0x07CF0000], .dph bare)] = true := by
  decide +kernel

theorem test_words_system : reads [
    ([0x07DF0003], Instr.trap bare (.lane 3)),
    ([0x07EF0000], .tret bare),
    ([0x17FF0400, 0x0000000A], .csrr hd .rngc 4),
    ([0x17FF0082, 0x00000060], .csrw hd .sbase (.uni 2)),
    ([0x17FF0000, 0x00000080], .ckpt hd),
    ([0x27FF00FF, 0x000000C0, 0x00000008], .permitAcq hd (.imm 8)),
    ([0x17FF0001, 0x000000C1], .permitRel hd (.lane 1)),
    ([0x17FF0201, 0x000000C2], .permitTry hd 2 (.lane 1)),
    ([0x17FF0001, 0x00000100], .yield hd (.lane 1)),
    ([0x17FF0002, 0x00000140], .tlbiPage hd (.lane 2)),
    ([0x17FF0000, 0x00000141], .tlbiCtx hd),
    ([0x17FF0000, 0x00000142], .tlbiVdev hd),
    ([0x27FF0002, 0xFF000180, 0x00000080], .cflush hd (.lane 2) (.imm 128))] = true := by
  decide +kernel

theorem test_words_uniform : reads [
    ([0xA00F0381, 0xFF000000, 0x00000005], Instr.uadd hd .s32 3 (.uni 1) (.imm 5)),
    ([0x901F0381, 0x82001000], .usub hd .n32 3 (.uni 1) (.uni 2)),
    ([0x902F0482, 0x86003000], .umul hd .n64 4 (.uni 2) (.uni 6)),
    ([0x903F0381, 0x82000000], .umulh hd .s32 3 (.uni 1) (.uni 2)),
    ([0x904F0381, 0x82C11000], .umad hd .n32 3 (.uni 1) (.uni 2) (.konst .one)),
    ([0x906F0381, 0x82000000], .umin hd .s32 3 (.uni 1) (.uni 2)),
    ([0x907F0482, 0x86002000], .umax hd .s64 4 (.uni 2) (.uni 6)),
    ([0x908F0381, 0x82001000], .uand hd .n32 3 (.uni 1) (.uni 2)),
    ([0x909F0381, 0x82001000], .uor hd .n32 3 (.uni 1) (.uni 2)),
    ([0x90AF3F81, 0x82001000], .uxor hd .n32 63 (.uni 1) (.uni 2)),
    ([0xA0DF0381, 0xFF001000, 0x0000001F], .ushl hd .n32 3 (.uni 1) (.imm 31)),
    ([0x90EF0482, 0x81003000], .ushr hd .n64 4 (.uni 2) (.uni 1)),
    ([0x90FF0381, 0x82000000], .usar hd .s32 3 (.uni 1) (.uni 2)),
    ([0x917F0381, 0x8200101F], .ulea hd .plain .n32 3 (.uni 1) (.uni 2) 31),
    ([0x918F0082, 0x84003001], .ucmp hd .ne .n64 0 (.uni 2) (.uni 4)),
    ([0x840F03C0], .umov bare .s32 3 (.konst .zero)),
    ([0x844F040A], .urdsr bare .cyc 4),
    ([0x960F0481, 0xC0003003], .uld hd .k .normal .n64 4 (.uni 1) (.konst .zero)),
    ([0x961F0081, 0xC0821002], .ust hd .c .normal .n32 (.uni 1) (.konst .zero) (.uni 2)),
    ([0xA70F00FF, 0x00000000, 0x00000010], .ubra hd 16)] = true := by
  decide +kernel

/-- Words of no instruction: an unassigned opcode of each set, W = 3, a reserved guard, N without a guard, TY 15, a reserved source
code, two immediates, an odd pair, a modifier word on IMULH, a branch to no multiple of 4 (R63). -/
theorem test_words_refused :
    [([0x11AF0301, 0], DecodeTrap.illOp), ([0x905F0382, 0x83001000], .illOp), ([0x300F0301], .illForm), ([0x100C0301, 0x02000000], .illForm),
     ([0x100F8301, 0x02000000], .illForm), ([0x100F0301, 0x0200F000], .illForm), ([0x100F0301, 0xC5000000], .illForm),
     ([0x200F03FF, 0xFF000000, 1], .illForm), ([0x100F0304, 0x06003000], .illForm), ([0x183F0301, 0x02001000, 0x40000000], .illForm),
     ([0x270F00FF, 0, 2], .illForm)].all
      (fun e => match decode e.1 with | .ok _ => false | .error x => x == e.2) = true := by
  decide +kernel

/-! ## Ill-formed terms -/

/-- Each check of WellFormed refuses a term: the entry's own limit, the destination, each source, the words of the instruction, the
modifier word. -/
theorem test_illFormed :
    let sat : Modifier := ⟨.sat, 0, false, false, false, false, false, false, .dflt⟩
    let clamp : Modifier := ⟨.clamp01, 0, false, false, false, false, false, false, .dflt⟩
    let scaled : Modifier := ⟨.none, 1, false, false, false, false, false, false, .dflt⟩
    let negB : Modifier := ⟨.none, 0, false, false, true, false, false, false, .dflt⟩
    let with_ (m : Modifier) : Head := ⟨.always, false, false, some m⟩
    [Instr.iadd hd .f32 3 (.lane 1) (.lane 2), .lea hd .plain .n32 3 (.lane 1) (.lane 2) 32, .st hd .k .normal .n32 (.lane 2) (.konst .zero) (.lane 3),
     .swpt ⟨.pred 0 false, false, true, none⟩ 3, .modreg hd 1 8 (.lane 2) (.imm 1), .csrw hd .tca (.lane 1), .bra hd 2,
     .iadd hd .s64 3 (.lane 2) (.lane 4), .rng hd false 2, .iadd hd .s64 4 (.lane 1) (.lane 4), .iadd hd .s64 4 (.lane 2) (.lane 5),
     .imad hd .n64 4 (.lane 2) (.lane 6) (.lane 7), .fadd hd .f16 4 (.lane 2) (.imm 65536), .iadd hd .s32 3 (.lane 1) (.konst .half),
     .uadd hd .s32 3 (.lane 1) (.uni 2), .iadd bare .s32 3 (.lane 1) (.lane 2), .nop hd, .iadd hd .s32 3 (.imm 1) (.imm 2), .not bare .s32 3 (.imm 1),
     .imulh (with_ sat) .n32 3 (.lane 1) (.lane 2), .iadd (with_ clamp) .s32 3 (.lane 1) (.lane 2), .iadd (with_ scaled) .s32 3 (.lane 1) (.lane 2),
     .iadd (with_ negB) .n32 3 (.lane 1) (.lane 2), .fadd (with_ negB) .f32 3 (.lane 1) (.konst .one)].all (fun i => !i.WellFormed) = true := by
  decide +kernel

/-! ## Single steps -/

/-- What an instruction leaves in register 3, from registers 1, 2 and so on. -/
def gives (rs : List Word) (i : Instr) (w : Word) : Bool :=
  match exec i (demoR ((List.range rs.length).map (fun k => (k + 1, rs.getD k 0)))) with
  | .next t => reg t 1 0 3 == w
  | _ => false

/-- The same with the flags that the instruction sets. -/
def givesF (rs : List Word) (i : Instr) (w : Word) (f : Nat) : Bool :=
  match exec i (demoR ((List.range rs.length).map (fun k => (k + 1, rs.getD k 0)))) with
  | .next t => reg t 1 0 3 == w && (t.thr 1 0).fflags.toNat == f
  | _ => false

/-- A head with a saturating modifier word, and one that negates A. -/
def sat : Head := ⟨.always, false, false, some ⟨.sat, 0, false, false, false, false, false, false, .dflt⟩⟩
def neg : Head := ⟨.always, false, false, some ⟨.none, 0, true, false, false, false, false, false, .dflt⟩⟩
def round (r : Rm) : Head := ⟨.always, false, false, some ⟨.none, 0, false, false, false, false, false, false, r⟩⟩

/-- The results worked through at the end of the spec's integer chapter. -/
theorem test_integer_results :
    (gives [0x7FFFFFF0, 0x20] (.iadd hd .s32 3 (.lane 1) (.lane 2)) 0x80000010 &&
    gives [0x7FFFFFF0, 0x20] (.iadd sat .s32 3 (.lane 1) (.lane 2)) 0x7FFFFFFF &&
    gives [0x80000000] (.iadd neg .s32 3 (.lane 1) (.konst .zero)) 0x80000000 &&
    gives [0xFFFFFFFF, 0xFFFFFFFF] (.imulh hd .n32 3 (.lane 1) (.lane 2)) 0xFFFFFFFE &&
    gives [0xFFFFFFFF, 0xFFFFFFFF, 5] (.imulh hd .s32 3 (.lane 1) (.lane 2)) 0 &&
    gives [0x80000000] (.sar hd .s32 3 (.lane 1) (.imm 40)) 0xFFFFFFFF && gives [0x80000000, 0, 5] (.shr hd .s32 3 (.lane 1) (.imm 40)) 0 &&
    gives [0x80000000] (.rotl hd .n32 3 (.lane 1) (.imm 36)) 8 && gives [0x0F00] (.bfx hd .s32 3 (.lane 1) (.imm 0x0408)) 0xFFFFFFFF &&
    gives [0x0F00] (.bfx hd .n32 3 (.lane 1) (.imm 0x0408)) 0xF &&
    gives [0x44332211, 0x88776655] (.perm hd 3 (.lane 1) (.lane 2) (.imm 0xFC47)) 0xFF005588 &&
    gives [0xFF010280, 0x01020304] (.idp4 hd true true .s32 3 (.lane 1) (.lane 2) (.imm 10)) 0xFFFFFE11) = true := by
  decide +kernel

/-- The quotients and remainders worked through there, once the late results are in place. -/
theorem test_divide_results :
    let late (x : Word) (i : Instr) (w : Word) : Bool :=
      match exec i (demoR [(1, x)]) with
      | .next t => reg (t.drain 1 0) 1 0 3 == w
      | _ => false
    (late 7 (.idiv hd .s32 3 (.lane 1) (.konst .zero)) 0xFFFFFFFF && late 7 (.irem hd .s32 3 (.lane 1) (.konst .zero)) 7 &&
    late 0x80000000 (.idiv hd .s32 3 (.lane 1) (.konst .minusOne)) 0x80000000 &&
    late 0x80000000 (.irem hd .s32 3 (.lane 1) (.konst .minusOne)) 0 && late 0xFFFFFFF9 (.idiv hd .s32 3 (.lane 1) (.konst .two)) 0xFFFFFFFD &&
    late 0xFFFFFFF9 (.irem hd .s32 3 (.lane 1) (.konst .two)) 0xFFFFFFFF) = true := by
  decide +kernel

/-- The results and flags worked through at the end of the spec's float chapter; flags by R71. -/
theorem test_float_results :
    (givesF [0x3F800800] (.ffma hd .f32 3 (.lane 1) (.lane 1) (.konst .minusOne)) 0x3A000400 0 &&
    givesF [0x3F800800] (.fmul hd .f32 3 (.lane 1) (.lane 1)) 0x3F801000 1 && givesF [0x80000000, 0] (.fmin hd false .f32 3 (.lane 1) (.lane 2)) 0x80000000 0 &&
    givesF [0x7FC00000, 0x40400000] (.fmin hd false .f32 3 (.lane 1) (.lane 2)) 0x40400000 0 &&
    givesF [0x7FC00000, 0x40400000] (.fmin hd true .f32 3 (.lane 1) (.lane 2)) 0x7FC00000 0 &&
    givesF [1] (.fclass hd .f32 3 (.lane 1)) 0x10 0 && givesF [0x477FF000] (.fcvt hd .f16 .f32 3 (.lane 1)) 0x7C00 5 &&
    givesF [0x477FF000] (.fcvt (round .rz) .f16 .f32 3 (.lane 1)) 0x7BFF 1 && givesF [0x4F32D05E] (.f2i hd .s32 .f32 3 (.lane 1)) 0x7FFFFFFF 8 &&
    givesF [0xC0200000] (.f2i hd .s32 .f32 3 (.lane 1)) 0xFFFFFFFE 1 && givesF [0xC0200000] (.f2i (round .rdn) .s32 .f32 3 (.lane 1)) 0xFFFFFFFD 1 &&
    givesF [0x01000001] (.i2f hd .f32 .s32 3 (.lane 1)) 0x4B800000 1 && givesF [0x3C007BFF] (.padd hd .f16 3 (.lane 1) (.lane 1)) 0x40007C00 5 &&
    givesF [0x40003C00, 0x34003800] (.pdot2 hd .f16 3 (.lane 1) (.lane 2) (.konst .one)) 0x40000000 0) = true := by
  decide +kernel

/-- A store to scratchpad and a load from it, little-endian (R7, R131, R132). -/
theorem test_store :
    (match exec (.st hd .l .normal .n32 (.lane 1) (.imm 4) (.lane 2)) (demoR [(1, 0x100), (2, 0x44332211)]) with
      | .next t => (List.range 6).map (fun k => scr t 1 (0x103 + k)) == [0, 0x11, 0x22, 0x33, 0x44, 0]
      | _ => false) = true := by
  decide +kernel

theorem test_load :
    (match exec (.ld hd .l .normal .s8 3 (.lane 1) (.konst .minusOne))
        (demoU (fun t => { t with scratch := [(255, 0x80)], body := { t.body with threads := [(0, { placeThread with regs := [(1, 256)] })] } })) with
      | .next t => reg (t.drain 1 0) 1 0 3 == 0xFFFFFF80
      | _ => false) = true := by
  decide +kernel

/-- A branch adds its offset to the address of its own first byte (R143). -/
theorem test_branch :
    (match exec (.bra hd 0xFFFFFFF8) demo with
      | .next t => (t.thr 1 0).pc == 65536 - 8
      | _ => false) = true := by
  decide +kernel

/-- TRAP 9 enters the default team handler at level 1 with its code in tva (R245 to R250). -/
theorem test_trap :
    (match exec (.trap hd (.imm 9)) demo with
      | .next t => (t.thr 1 0).level == 1 && (t.thr 1 0).slot1.tca == 0x11 && (t.thr 1 0).slot1.tva == 9 &&
          (t.thr 1 0).slot1.tpc == 65536 && (t.thr 1 0).slot1.tvb == 65548 && (t.thr 1 0).pc == 0x001FFFFF00000800
      | _ => false) = true := by
  decide +kernel

/-- The first word of O57's premises, and a memory in its form for O60's. -/
theorem wit_encoded :
    (Instr.iadd hd .s32 3 (.lane 1) (.lane 2)).encoded = true ∧ (Instr.iadd hd .s32 3 (.lane 1) (.lane 2)).WellFormed = true ∧
    (match decode [0x100F0301, 0x02000000] with | .ok i => i == .iadd hd .s32 3 (.lane 1) (.lane 2) | .error _ => false) = true := by
  decide +kernel

theorem wit_tidy : Mem.wf demo.mem = true ∧ (∀ e ∈ demo.teams, Mem.wf e.2.scratch = true) ∧
    (match step { demo with agenda := [.event .ptsAdvance] } with | .next _ => true | _ => false) = true := by
  decide +kernel

/-- SHAKE256 of no bytes, by FIPS 202 (R397). -/
theorem test_shake256 : shake256 [] = toBytes 32 0x2f76d56e64270cb5821bb862ea52cd3f24eb3e74eb3f3b23138da80b2bddb946 := by
  decide +kernel

/-! ## The assembler

The expected words and image fields are the spec's own: R24, "Two encodings worked out" of the formats, and the encodings that the
entries give. -/

open Sys2Proof.Machine.Asm in
/-- The words that cvas makes of one line at the start of a variant's code. -/
def asmWords (l : String) : Option (List Nat) :=
  match (do let ts ← lineTokens l.toList; let x ← written ts; x.build Env.empty 0 0 : Except Err _) with
  | .ok r => some ((encode r.1).map BitVec.toNat)
  | .error _ => none

/-- Lines of thread instructions and the words the spec gives them (R24, R44 to R52, R116, R121, R129, R143). -/
theorem test_asm_words :
    [("?~p2 IADD.s32 v3, v1, 1 ^", [0x50028301, 0xC1000000]), ("FMUL.f32 v6, v5, 3.0", [0x222F0605, 0xFF004000, 0x40400000]),
     ("FMUL.f32 v6, v5, 0.5", [0x122F0605, 0xC3004000]), ("UADD.s32 s3, s1, 5", [0xA00F0381, 0xFF000000, 5]),
     ("FFMA.f32.rz v8, -v1, v2, |v3|", [0x1A3F0801, 0x02034000, 0x00850000]), ("ffma.F32 v3, V1, v1, -1.0", [0x123F0301, 0x01C24000]),
     ("FCVT.f16.from_f32 v5, v4", [0x129F0504, 0x00006004]), ("LD.g.n32 v3, [v4 + 64]", [0x260F0304, 0xFF001000, 0x40]),
     ("ST.l.n32 [v3], v2", [0x161F0003, 0xC0021001]), ("?p0 BRA -0x18", [0x270000FF, 0, 0xFFFFFFE8]), ("NOP", [0x046F0000])].all
      (fun e => asmWords e.1 == some e.2) = true := by
  decide +kernel

/-- Lines of group, engine, wait and system instructions and the words the spec gives them (R171, R203, R205, R224, R235, R237, R241,
R249, R253, R281, R339 to R341, R355, R391, R411). -/
theorem test_asm_words_system :
    [("SHFL.step.n32 v2, v1, 1, -1, p1", [0x150F0201, 0xC1C21041]), ("REDUX.add.n32 v3, v1, -1", [0x154F0301, 0x00C2100F]),
     ("SCAN.add.excl.n32 v4, v1, -1 ^", [0x555F0401, 0x00C2101F]), ("YIELD 64", [0x27FF00FF, 0x100, 0x40]), ("MMA s4 ^", [0x469F0084]),
     ("MDRAIN 256", [0x26AF00FF, 0, 0x100]), ("?p0 MZERO v2", [0x06B00002]), ("WAITC.ferry 0", [0x06FF0000]),
     ("LWAIT 512, 0", [0x23BF00FF, 0xC0000000, 0x200]), ("SFQ.sqrt v3, v2, 5", [0x138F0302, 0x4045]), ("WAITT 0x20", [0x239F00FF, 0, 0x20]),
     ("TRAP 7", [0x27DF00FF, 0, 7]), ("CSRR.tpc v4", [0x17FF0400, 1]), ("CSRW.fair 8192", [0x27FF00FF, 0x50, 0x2000]),
     ("CBAR.arv 2", [0x176F0000, 0x42]), ("SPAWN v3, 0x200", [0x278F03FF, 0, 0x200]), ("MODREG v2, v8, 8, 2", [0x279F0208, 0xFF000002, 8]),
     ("PROP p1, v8", [0x07AF0108]), ("HRES.ref p2, 5", [0x27BF02FF, 0x81, 5]), ("CFLUSH v6, 4096", [0x27FF0006, 0xFF000180, 0x1000]),
     ("NSEND s6", [0x06EF0086])].all (fun e => asmWords e.1 == some e.2) = true := by
  decide +kernel

/-- Lines that cvas refuses: a binary64 immediate with a low half, an s64 immediate that would read back as −1, two immediates, an odd
base pair, a float in an integer operand, `.scale` on an integer type, two suffixes of one class, a leading zero, a register out of
range, a branch offset that is no multiple of 4, and a modifier on an instruction that takes none (R18, R20 to R24, R50, R129). -/
theorem test_asm_refused :
    ["MOV.f64 v2, 0.1", "IADD.s64 v2, v4, 0xFFFF_FFFF", "ST.l.n32 [v3 + 4], 6", "LD.g.n32 v3, [v5]", "MOV.n32 v1, 1.5",
     "IADD.s32.scale(0) v1, v2, v3", "FADD.f32.rz.rup v1, v2, v3", "MOV.n32 v07, 1", "MOV.n32 v128, 1", "BRA 6", "IDIV.s32 v1, -v2, v3"].all
      (fun l => asmWords l == none) = true := by
  decide +kernel

/-- Lines as source text. -/
def sourceOf (ls : List String) : List Char := ls.flatMap (fun l => l.toList ++ ['\n'])

/-- The bytes of the data segment of a kernel with one EXIT and a data section. -/
def asmData (ls : List String) : Option (List Byte) :=
  match Asm.assemble (sourceOf ([".kernel k", ".param a, t6, 5", ".param b, n32, 1", ".variant 0", ".regs 32, 0", ".scratch 0", ".accums 0",
    ".permits 0", "EXIT", ".data"] ++ ls ++ [".kend"])) with
  | .ok [k] => some ((k.2.drop (leAt k.2 40 4)).take (leAt k.2 44 4))
  | _ => none

/-- Expressions and data: f32(1.5), t8(0.25), packed t6 elements, the operators' levels, and a parameter after a t6 one; a label's address
alone in `.word` is refused (R25, R26, R28, R29, R31, R84). -/
theorem test_asm_data :
    asmData [".word f32(1.5)", ".byte t8(0.25), -1", ".float t6, 1.0, 0.5, 2.0, -1.0", ".half 2 + 3 * 4, -7 mod 4", ".align 4",
      "here: .word param(b), psize(), here - 2"] = none ∧
    asmData [".word f32(1.5)", ".byte t8(0.25), -1", ".float t6, 1.0, 0.5, 2.0, -1.0", ".half 2 + 3 * 4", ".byte -7 mod 4", ".align 4",
      ".word param(b), psize()"] =
      some [0x00, 0x00, 0xC0, 0x3F, 0x20, 0xFF, 0x10, 0x43, 0xC1, 14, 0, 1, 4, 0, 0, 0, 8, 0, 0, 0] := by
  decide +kernel

/-- The kernel of the source example, its switch maps aside from its variant 1 under a name of their own (R30 to R34). -/
def lanescale (item point : String) : List Char := sourceOf
  [ ".kernel lanescale", ".idempotent", ".param factor, n32, 1", ".variant 0", ".regs 64, 0", ".scratch 4096", ".accums 0", ".permits 0"
  , ".handler w0_trap", ".switch mid, 0, 1, v0 -> v0, " ++ item, "RDSR v0, %lane", "LD.k.n32 v2, [param(factor)] ^ ; wait for the load"
  , "IMUL.n32 v40, v0, v2", "SWPT mid", "SHL.n32 v1, v0, 2", "ST.l.n32 [v1], v40", "EXIT", "w0_trap:", "EXIT", "", ".variant 1"
  , ".regs 32, 0", ".scratch 4096", ".accums 0", ".permits 0", ".switch mid, 1, 0, v0 -> v0, v8 -> v40", "RDSR v0, %lane"
  , "LD.k.n32 v2, [param(factor)] ^", "IMUL.n32 v8, v0, v2", "SWPT " ++ point, "SHL.n32 v1, v0, 2", "ST.l.n32 [v1], v8", "EXIT", ".kend" ]

/-- The source example's image holds the header, variants and maps that the spec lists for it (R36 to R39). -/
theorem test_asm_lanescale :
    (match Asm.assemble (lanescale "v40 -> v8" "mid") with
      | .ok [k] =>
        let r : ImgRead := fun o n => leAt k.2 o n
        let im := Img.parse r 0
        k.1 == "lanescale".toList && Img.bad r k.2.length == none && [r 6 2, r 8 1, r 9 1, r 10 2, r 12 4, r 28 4] == [1, 2, 1, 2, 8, 1] &&
        [r (r 24 4 + 4) 4, r (r 24 4 + 8) 1, r (r 24 4 + 12) 4, r 44 4, r 52 4] == [0, 1, 1, 0, 0] &&
        im.variants.map (fun v => (v.lregs, v.scratch, v.entry)) == [(64, 4096, 0), (32, 4096, 128)] &&
        im.variants.map Variant.handler == [44, 0xFFFFFFFF] && im.variants.map Variant.points == [[20], [148]] &&
        im.maps == [⟨0, 0, 1, [⟨0, 0, 0, 1⟩, ⟨0, 40, 8, 1⟩]⟩, ⟨0, 1, 0, [⟨0, 0, 0, 1⟩, ⟨0, 8, 40, 1⟩]⟩]
      | _ => false) = true := by
  decide +kernel

/-- The two mistakes of the source example that cvas rejects: a map target beyond 32 registers (R34), and a point named otherwise in
one variant (R33). -/
theorem test_asm_mistakes :
    (match Asm.assemble (lanescale "v40 -> v40" "mid"), Asm.assemble (lanescale "v40 -> v8" "middle") with
      | .error (10, .map), .error (_, .point) => true
      | _, _ => false) = true := by
  decide +kernel

end Sys2Proof.Tests
end

section
/-! PROOFS. The integer instructions of the lane set (R92 to R101): the model's bit functions in the arithmetic of the rules,
and the statements that rest on them. -/

namespace Sys2Proof.IntegerProofs

open Sys2Proof.Machine
open Sys2Proof.Safety

/-! ## What operands and words hold -/

theorem konstVal_lt (k : Konst) (t : Ty) : konstVal k t < 2 ^ t.width := by
  cases t <;> cases k <;> decide

theorem immVal_lt (w : Word) (t : Ty) : immVal w t < 2 ^ t.width := by
  have hw := w.isLt
  unfold immVal
  split
  · exact (w.signExtend 64).isLt
  · simp only [Ty.width]
    omega
  · split
    case isTrue => exact Nat.mod_lt _ (Nat.two_pow_pos _)
    case isFalse hn => exact Nat.lt_of_lt_of_le hw (Nat.pow_le_pow_right Nat.two_pos (Nat.not_lt.1 hn))

/-- A source read in a type has no more bits than the type (R48 to R50). -/
theorem readSrc_lt (s : State) (u tid slot : Nat) (a : Src) (t : Ty) : s.readSrc u tid slot a t < 2 ^ t.width := by
  cases a with
  | lane r => exact Nat.mod_lt _ (Nat.two_pow_pos _)
  | uni r => exact Nat.mod_lt _ (Nat.two_pow_pos _)
  | konst k => exact konstVal_lt k t
  | imm w => exact immVal_lt w t

theorem two_pow_pos_int (w : Nat) : (0 : Int) < 2 ^ w := Int.pow_pos (by decide)

theorem wrap_lt (w : Nat) (y : Int) : wrap w y < 2 ^ w := by
  rw [wrap, Int.toNat_lt' (Nat.two_pow_pos w), Int.natCast_pow]
  exact Int.emod_lt_of_pos y (two_pow_pos_int w)

/-- The greatest value of a width is its own wrapped value. -/
theorem wrap_ones (w : Nat) : wrap w (2 ^ w - 1) = 2 ^ w - 1 := by
  have hpos := two_pow_pos_int w
  have hcast : ((2 ^ w : Nat) : Int) = 2 ^ w := Int.natCast_pow 2 w
  rw [wrap, Int.emod_eq_of_lt (by omega) (by omega)]
  omega

/-! ## Division (R94) -/

theorem wrap_divide_fst (ty : Ty) (x y : Int) : wrap ty.width (divide ty x y).1 =
    if y = 0 then 2 ^ ty.width - 1
    else if ty.signed = true ∧ x = -(2 ^ (ty.width - 1)) ∧ y = -1 then wrap ty.width x
    else wrap ty.width (x.tdiv y) := by
  simp only [divide, Bool.and_eq_true, beq_iff_eq, and_assoc]
  by_cases hzero : y = 0
  · simp only [if_pos hzero, wrap_ones]
  · simp only [if_neg hzero]
    split <;> rfl

theorem wrap_divide_snd (ty : Ty) (x y : Int) : wrap ty.width (divide ty x y).2 =
    if y = 0 then wrap ty.width x
    else if ty.signed = true ∧ x = -(2 ^ (ty.width - 1)) ∧ y = -1 then 0
    else wrap ty.width (x.tmod y) := by
  simp only [divide, Bool.and_eq_true, beq_iff_eq, and_assoc]
  by_cases hzero : y = 0
  · simp only [if_pos hzero]
  · simp only [if_neg hzero]
    split
    case isTrue => rw [wrap, Int.zero_emod, Int.toNat_zero]
    case isFalse => rw [Int.tmod_def, Int.mul_comm y]

/-! ## Bits (R98) -/

theorem countOnes_eq_length (x n : Nat) : countOnes x n = ((List.range n).filter (fun j => x.testBit j)).length := by
  induction n with
  | zero => rfl
  | succ n ih =>
    rw [countOnes, ih, List.range_succ, List.filter_append, List.length_append]
    cases hb : x.testBit n with
    | false => simp only [hb, List.filter_cons, List.filter_nil, Bool.false_eq_true, if_false, List.length_nil,
        Nat.zero_add, Nat.add_zero]
    | true => simp only [hb, List.filter_cons, List.filter_nil, if_true, List.length_cons, List.length_nil, Nat.zero_add,
        Nat.add_comm]

/-- The zeros above the highest one. -/
theorem runLength_false {x n : Nat} (h : x < 2 ^ n) : runLength false x n = if x = 0 then n else n - 1 - Nat.log2 x := by
  induction n with
  | zero => exact (if_pos (Nat.lt_one_iff.1 h)).symm
  | succ n ih =>
    by_cases hx : x < 2 ^ n
    · rw [runLength, if_pos (Nat.testBit_lt_two_pow hx), ih hx]
      split
      case isTrue => exact Nat.add_comm 1 n
      case isFalse h0 =>
        have := (Nat.log2_lt h0).2 hx
        omega
    · have hle : 2 ^ n ≤ x := Nat.not_lt.1 hx
      have h0 : x ≠ 0 := Nat.ne_of_gt (Nat.lt_of_lt_of_le (Nat.two_pow_pos n) hle)
      have hl : Nat.log2 x = n := (Nat.log2_eq_iff h0).2 ⟨hle, h⟩
      have hb : x.testBit n = true := Nat.testBit_of_two_pow_le_and_two_pow_add_one_gt hle h
      rw [runLength, if_neg (by rw [hb]; decide), if_neg h0, hl]
      omega

theorem sum_map_two_mul (f : Nat → Nat) (l : List Nat) : (l.map (fun j => 2 * f j)).sum = 2 * (l.map f).sum := by
  induction l with
  | nil => rfl
  | cons j l ih => rw [List.map_cons, List.map_cons, List.sum_cons, List.sum_cons, ih, Nat.mul_add]

theorem reverseBits_eq_sum (x n : Nat) :
    reverseBits x n = ((List.range n).map (fun j => if x.testBit j then 2 ^ (n - 1 - j) else 0)).sum := by
  induction n with
  | zero => rfl
  | succ n ih =>
    have double : (List.range n).map (fun j => if x.testBit j then 2 ^ (n + 1 - 1 - j) else 0) =
        (List.range n).map (fun j => 2 * if x.testBit j then 2 ^ (n - 1 - j) else 0) := by
      refine List.map_congr_left fun j hj => ?_
      have hexp : n + 1 - 1 - j = (n - 1 - j) + 1 := by have := List.mem_range.1 hj; omega
      split
      case isTrue => rw [hexp, Nat.pow_succ']
      case isFalse => rfl
    rw [reverseBits, ih, List.range_succ, List.map_append, List.sum_append_nat, double, sum_map_two_mul, List.map_singleton,
      List.sum_singleton, Nat.add_sub_cancel, Nat.sub_self, Nat.pow_zero, Nat.add_comm]

/-! ## Shifts (R97) -/

theorem shiftLeft_lt (w x n : Nat) : shiftLeft w x n < 2 ^ w := by
  unfold shiftLeft
  split
  case isTrue => exact Nat.mod_lt _ (Nat.two_pow_pos w)
  case isFalse => exact Nat.two_pow_pos w

theorem shiftArith_lt (w x n : Nat) : shiftArith w x n < 2 ^ w := wrap_lt w _

theorem rotateLeft_lt (w x n : Nat) : rotateLeft w x n < 2 ^ w := Nat.mod_lt _ (Nat.two_pow_pos w)

/-- A shift whose function keeps to the width writes just what the function gives. -/
theorem shiftOp_of_lt {f : Nat → Nat → Nat → Nat} (hf : ∀ w x n, f w x n < 2 ^ w) (ty : Ty) (d : BitVec 7) (a b : Src)
    (s : State) (u tid : Nat) : shiftOp ty d a b f s u tid =
      s.writeDest u tid d ty (f ty.width (s.readSrc u tid 0 a (Ty.asN ty)) (s.readSrc u tid 1 b .n32)) := by
  rw [shiftOp, Nat.mod_eq_of_lt (hf ..)]

/-! ## Fields (R99 to R101) -/

theorem bitsOf_byte0 (k : Nat) : bitsOf k 0 8 = k % 256 := congrArg (· % 256) (Nat.div_one k)

theorem bitsOf_byte1 (k : Nat) : bitsOf k 8 8 = k / 256 % 256 := rfl

theorem extractField_eq (ty : Ty) (e : Int) (pos len : Nat) : extractField ty e pos len =
    let l := min len ty.width
    let f : Int := e / 2 ^ pos % 2 ^ l
    wrap ty.width (if ty.signed = true ∧ 0 < l ∧ 2 ^ (l - 1) ≤ f then f - 2 ^ l else f) := by
  simp only [extractField, Bool.and_eq_true, decide_eq_true_eq, and_assoc]

/-- The field's mask may be cut at the width before it is used or after. -/
theorem insertField_eq (w a b pos len : Nat) : insertField w a b pos len =
    let mask := (2 ^ len - 1) * 2 ^ pos
    ((b ^^^ (b &&& mask)) ||| (a * 2 ^ pos &&& mask)) % 2 ^ w := by
  have hm : (2 ^ len - 1) * 2 ^ pos % 2 ^ w < 2 ^ w := Nat.mod_lt _ (Nat.two_pow_pos w)
  refine Nat.eq_of_testBit_eq fun i => ?_
  simp only [insertField, Nat.sub_sub, Nat.add_comm 1, Nat.testBit_or, Nat.testBit_and, Nat.testBit_xor, Nat.testBit_mod_two_pow,
    Nat.testBit_two_pow_sub_succ hm]
  generalize decide (i < w) = inside, b.testBit i = p, ((2 ^ len - 1) * 2 ^ pos).testBit i = m, (a * 2 ^ pos).testBit i = q
  revert inside p m q
  decide

theorem permByte_eq (t c i : Nat) : permByte t c i =
    let sel := c / 16 ^ i % 16
    let v := t / 256 ^ (sel % 8) % 256
    if sel < 8 then v else if 128 ≤ v then 255 else 0 := by
  have hnibble : 2 ^ (4 * i) = 16 ^ i := Nat.pow_mul ..
  have hsel : bitsOf c (4 * i) 3 = c / 16 ^ i % 16 % 8 := by
    rw [bitsOf, hnibble]
    exact (Nat.mod_mod_of_dvd _ (by decide)).symm
  have hbit : c.testBit (4 * i + 3) = decide (8 ≤ c / 16 ^ i % 16) := by
    rw [Nat.testBit_eq_decide_div_mod_eq, Nat.pow_add, ← Nat.div_div_eq_div_mul, hnibble, decide_eq_decide]
    omega
  have hbyte (j : Nat) : 2 ^ (8 * j) = 256 ^ j := Nat.pow_mul ..
  simp only [permByte, hsel, hbit, hbyte, decide_eq_true_eq, ← Nat.not_lt, ite_not]

/-! ## Results as `Gives` and `Owes` say them -/

/-- An instruction whose meaning is one write of its lane destination. -/
theorem gives_writeDest {i : Instr} {d : BitVec 7} {ty : Ty} {v : State → Nat → Nat → Nat}
    (he : ∀ s, exec i s = .next (perThread i (plain fun s u tid => s.writeDest u tid d ty (v s u tid)) s)) :
    Gives i d ty.words v :=
  gives_of _ he fun _ _ _ => rfl

/-- An instruction whose meaning is one late result, its value written in the terms of a rule. -/
theorem owes_lateDest {i : Instr} {d : BitVec 7} {ty : Ty} {v q : State → Nat → Nat → Nat}
    (he : ∀ s, exec i s = .next (perThread i (plain fun s u tid => lateDest s u tid d ty (v s u tid)) s))
    (hq : ∀ s u tid, v s u tid = q s u tid) (s : State) (u tid : Nat) (hc : Clear s u tid i) :
    ∃ t r, exec i s = .next t ∧ Owes t u tid .result (regPairs d.toNat (wordsOf ty.words r)) [] ∧ r = q s u tid ∧
      Frame s t u tid {} ∧ WentOn s t u tid i := by
  obtain ⟨t, hnext, howes, hframe, hwent⟩ := givesLate_of _ he (fun _ _ _ => rfl) s u tid hc
  exact ⟨t, _, hnext, howes, hq s u tid, hframe, hwent⟩

/-! ## The statements -/

/-- Settles O1: each of the six writes its kept result once, and `Gives` follows from that write. -/
theorem integerArithmetic : Obligations.IntegerArithmetic := by
  intro h ty d a b c
  refine ⟨?iadd, ?isub, ?imul, ?imin, ?imax, ?imad⟩ <;> exact gives_writeDest fun _ => rfl

/-- Settles O2: the model's pair of quotient and remainder, wrapped, is the rule's value in each of its three cases. -/
theorem highProductAndDivision : Obligations.HighProductAndDivision := by
  intro h ty d a b
  refine ⟨?imulh, ?idiv, ?irem⟩
  case imulh => exact gives_writeDest fun _ => rfl
  case idiv => exact owes_lateDest (fun _ => rfl) fun _ _ _ => wrap_divide_fst ..
  case irem => exact owes_lateDest (fun _ => rfl) fun _ _ _ => wrap_divide_snd ..

/-- Settles O3: the bitwise instructions and SHR are cut to the width as the rule cuts them; SHL, SAR and ROTL keep to the
width by themselves. -/
theorem logicAndShifts : Obligations.LogicAndShifts := by
  intro h ty d a b
  refine ⟨?and, ?or, ?xor, ?andn, ?not, ?shl, ?shr, ?sar, ?rotl⟩
  case shl => exact gives_of _ (fun _ => rfl) (shiftOp_of_lt shiftLeft_lt ty d a b)
  case sar => exact gives_of _ (fun _ => rfl) (shiftOp_of_lt shiftArith_lt ty d a b)
  case rotl => exact gives_of _ (fun _ => rfl) (shiftOp_of_lt rotateLeft_lt ty d a b)
  all_goals exact gives_writeDest fun _ => rfl

/-- Settles O4: the model's recursions over bits and its fields are the counts, sums and quotients of the rules; CLZ needs that
a source has no more bits than its type. -/
theorem bitFields : Obligations.BitFields := by
  intro h ty d a b c
  refine ⟨?popc, ?clz, ?brev, ?bfx, ?bfi, ?perm⟩
  case popc => exact gives_of (ty := .n32) _ (fun _ => rfl) fun _ _ _ => by rw [countOnes_eq_length]
  case clz => exact gives_of (ty := .n32) _ (fun _ => rfl) fun _ _ _ => by rw [runLength_false (readSrc_lt ..)]
  case brev => exact gives_of _ (fun _ => rfl) fun _ _ _ => by rw [reverseBits_eq_sum]
  case bfx => exact gives_of _ (fun _ => rfl) fun _ _ _ => by simp only [extractField_eq, bitsOf_byte0, bitsOf_byte1]
  case bfi => exact gives_of _ (fun _ => rfl) fun _ _ _ => by simp only [insertField_eq, bitsOf_byte0, bitsOf_byte1]
  case perm => exact gives_of (ty := .n32) _ (fun _ => rfl) fun _ _ _ => by simp only [permByte_eq]

end Sys2Proof.IntegerProofs
end
